-- ==== Sys2Proof/Word.lean ====
section
/-! DEFINITION. The words of the SP410: bytes on the link and in pages, sequence numbers, and CRC registers. -/

namespace Sys2Proof

/-- One byte of a frame, a page or a tag area. -/
abbrev Byte := BitVec 8

/-- A host or outbound sequence number, counted modulo 256 (00_scope.md, Conventions). -/
abbrev Seq := BitVec 8

/-- A CRC-32 register or value (R168). -/
abbrev Word32 := BitVec 32

end Sys2Proof
end

