-- ==== Sys2Proof/Config.lean ====
section
/-! DEFINITION. The fixed figures of 00_scope.md (Geometry and fixed figures) and the values the data book leaves open. -/

namespace Sys2Proof.Config

/-- Lanes, each with its own array engine. -/
def lanes : Nat := 4
/-- Host blocks of a lane, 0 to 1023. -/
def hostBlocks : Nat := 1024
/-- Physical blocks of a lane, 0 to 1055. -/
def physBlocks : Nat := 1056
/-- The first reserve block. -/
def firstReserve : Nat := 1024
/-- Reserve blocks of a lane, 1024 to 1055. -/
def reserveBlocks : Nat := 32
/-- Strips of a block, 0 to 63. -/
def strips : Nat := 64
/-- Page slots of the staging pool. -/
def slots : Nat := 96
/-- Tags, 0 to 63. -/
def tags : Nat := 64
/-- Reply queue places, 64 reserved and 16 shared. -/
def queuePlaces : Nat := 80
/-- Shared refusal entries of the reply queue. -/
def sharedRefusals : Nat := 16
/-- Copies the recall ring holds. -/
def recallCopies : Nat := 32
/-- Intake buffers of the link unit. -/
def intakeBuffers : Nat := 16
/-- Entries of a lane work queue. -/
def workQueueEntries : Nat := 24
/-- Entries of a substitution map. -/
def mapEntries : Nat := 64
/-- Data bytes of a page. -/
def pageBytes : Nat := 8192
/-- Bytes of a tag area. -/
def tagAreaBytes : Nat := 32
/-- Data bytes of a chunk, and of an ECC sector. -/
def chunkBytes : Nat := 1024
/-- Chunks of a page. -/
def chunks : Nat := 8
/-- ECC sectors of a page. -/
def sectors : Nat := 8
/-- Bit errors corrected in a sector. -/
def correctable : Nat := 24
/-- The last retry step of the read ladder. -/
def lastRetryStep : Nat := 3
/-- Largest frame payload in bytes. -/
def maxPayload : Nat := 1040
/-- Vendor code of the IDENTIFY reply (R155). -/
def vendorCode : Nat := 23
/-- Part code of the IDENTIFY reply (R155). -/
def partCode : Nat := 410
/-- Revision of the IDENTIFY reply (R155). -/
def revision : Nat := 1

/-- FREE VALUE (log 14). Byte `n` of what a page senses as when its strip is ROUGHED or TORN, or its block UNSETTLED. R7 senses
only pages whose strip is FINAL and states no content for these. Nothing constrains it. -/
opaque unspecifiedByte : Nat → Byte

/-- FREE VALUE (log 15). The length in bits of a sector's parity, which the data book does not give. Nothing constrains it. -/
opaque parityBits : Nat

/-- FREE VALUE (log 15). The error-correction parity of sector `k` over the bytes the sector covers (R2). The data book does not give
the code. Nothing constrains it. -/
opaque parity (k : Nat) (covered : List Byte) : BitVec parityBits

/-- FREE VALUE (log 14). The parity of sector `k` that a page senses with where R7 states no content. Nothing constrains it. -/
opaque unspecifiedParity (k : Nat) : BitVec parityBits

end Sys2Proof.Config
end

