-- ==== Sys2Proof/Syntax.lean ====
section
/-! DEFINITION. The commands of the block: one constructor for each row of spec/opcode_table.json. A command is one happening of
the data book (00_scope.md, Order of happenings). A happening that takes an intake frame has no operand: its fields are those of the
oldest intake frame (log 1). -/

namespace Sys2Proof

/-- How an array operation ends (R6). -/
inductive Ending where
  | pass
  | fail
  deriving DecidableEq, Repr

/-- What ends the run of bytes of a frame under way: its END, or a START that cuts it short (R166). -/
inductive FrameEnding where
  | byEnd
  | byStart
  deriving DecidableEq, Repr

/-- The place of a bit in a sector's codeword (R2): a data bit, a bit of the tag area, which sector 7 covers, or a parity bit. -/
inductive BitPlace where
  | data (bit : Nat)
  | tagArea (bit : Nat)
  | parity (bit : Nat)
  deriving DecidableEq, Repr

/-- A bit that SENSE reads wrong (R7): its sector and its place in the sector's codeword (log 12). -/
structure BitError where
  sector : Nat
  place : BitPlace
  deriving DecidableEq, Repr

/-- A codeword of a sector, named by the bytes it covers; its parity follows from them (R2). The tag area counts for sector 7 only. -/
structure Codeword where
  sector : Nat
  bytes : List Byte
  tagArea : List Byte
  deriving DecidableEq, Repr

/-- The end of a DIRECTORY read of the scan: its lane, and its outcome (R14). -/
structure DirectoryRead where
  lane : Nat
  ending : Ending
  deriving DecidableEq, Repr

/-- The 40 rows of the opcode table. -/
inductive Instr where
  /-- BAD_FRAME (R166): the bytes of a frame that fails the framing or CRC test. -/
  | badFrame (ending : FrameEnding) (bytes : List Byte)
  /-- SEQUENCED_FRAME (R169): the bytes of a good frame whose kind is not SYNC. -/
  | sequencedFrame (bytes : List Byte)
  /-- SYNC (R173): the bytes of a good SYNC frame with a payload of one byte. -/
  | sync (bytes : List Byte)
  /-- ACK_TIMER_EXPIRY (R171). -/
  | ackTimerExpiry
  /-- MALFORMED_FRAME_TAKEN (R146). -/
  | malformedFrameTaken
  /-- IDENTIFY (R155). -/
  | identify
  /-- CONFIGURE (R157). -/
  | configure
  /-- READ_SETTINGS (R156). -/
  | readSettings
  /-- BLOCK_STATUS (R158). -/
  | blockStatus
  /-- POOL_STATUS (R158). -/
  | poolStatus
  /-- TAG_STATUS (R159). -/
  | tagStatus
  /-- ABORT (R160). -/
  | abort
  /-- RELOCATE (R136). -/
  | relocate
  /-- DISCARD (R141). -/
  | discard
  /-- READ (R101). -/
  | read
  /-- ERASE (R115). -/
  | erase
  /-- WRITE (R64). -/
  | write
  /-- CLOSE (R35). -/
  | close
  /-- LANE_RESET (R96). -/
  | laneReset
  /-- PART_RESET (R163). -/
  | partReset
  /-- DATA (R67). -/
  | data
  /-- TRANSFER_TIMEOUT (R70): the slot whose timer runs out. -/
  | transferTimeout (slot : Nat)
  /-- DATA_ROUGH_END (R30). -/
  | dataRoughEnd (lane : Nat) (ending : Ending)
  /-- TERMINATOR_ROUGH_END (R31). -/
  | terminatorRoughEnd (lane : Nat) (ending : Ending)
  /-- FINAL_END (R32). -/
  | finalEnd (lane : Nat) (ending : Ending)
  /-- SINGLE_END (R33). -/
  | singleEnd (lane : Nat) (ending : Ending)
  /-- SENSE_END (R7): the bits of the page that are sensed wrong. -/
  | senseEnd (lane : Nat) (noise : List BitError)
  /-- DECODE_END (R105): the codewords that the decoder takes where more than one lies in reach (R110, log 13). -/
  | decodeEnd (lane : Nat) (found : List Codeword)
  /-- IN_PLACE_ERASE_END (R118). -/
  | inPlaceEraseEnd (lane : Nat) (ending : Ending)
  /-- RESERVE_ERASE_END (R121). -/
  | reserveEraseEnd (lane : Nat) (ending : Ending)
  /-- DIRECTORY_WRITE_END (R124). -/
  | directoryWriteEnd (lane : Nat) (ending : Ending)
  /-- DIRECTORY_READ_END (R182). With no readable copy it is FAIL whatever the operand (R14, log 38). -/
  | directoryReadEnd (scan : DirectoryRead)
  /-- SURVEY_END (R183). -/
  | surveyEnd (lane : Nat)
  /-- RSP_DEPARTURE (R175). -/
  | rspDeparture
  /-- DATA_FRAME_DEPARTURE (R176). -/
  | dataFrameDeparture
  /-- NOTE_DEPARTURE (R162). -/
  | noteDeparture
  /-- LINK_CONTROL_DEPARTURE (R175). -/
  | linkControlDeparture
  /-- WP_CHANGED (R161): the filtered level of WP# changes (R179). -/
  | wpChanged
  /-- RST_ASSERTED (R180). -/
  | rstAsserted
  /-- RST_RELEASED (R180). -/
  | rstReleased
  deriving DecidableEq, Repr

end Sys2Proof
end

