-- ==== Sys2Proof/Decode.lean ====
section
/-! DEFINITION. The command a word spells by the table's bits. spec/opcode_table.json gives no row any bits, so no word spells a
command (log 6). -/

namespace Sys2Proof

/-- No row of the opcode table has bits, so no word of any length is read as a command. -/
def decodeTableWord (_nbits _w : Nat) : Option Instr := none

end Sys2Proof
end

