-- ==== Sys2Proof/Machine/State.lean ====
section
/-! DEFINITION. The state of the SP410: link unit, request unit, staging pool, four lanes with their engines and arrays, the two input
lines, and the queue of commands that are waiting. INVENTORY.md lists every field with its rule and its reset value. -/

namespace Sys2Proof.Machine

/-! ### Pages and the physical array (Chapter 1) -/

/-- Density of a block (00_scope.md, Terms). -/
inductive Density where
  | dense
  | swift
  deriving DecidableEq, Repr

/-- A page: its data bytes and its tag area (R2). -/
structure Page where
  data : List Byte
  tagArea : List Byte
  deriving DecidableEq, Repr

/-- A page as the cells hold it and as SENSE reads it: the page and the parity of its eight sectors (R2, R7). -/
structure StoredPage where
  page : Page
  parity : Vector (BitVec Config.parityBits) 8
  deriving DecidableEq, Repr

/-- Program state of a strip (R4). -/
inductive StripState where
  | blank
  | roughed
  | final
  | torn
  deriving DecidableEq, Repr

/-- One strip: its program state and the pages programmed into its cells, in level order (R2). Empty for BLANK and TORN. -/
structure Strip where
  state : StripState
  pages : List StoredPage
  deriving DecidableEq, Repr

/-- What a WRITTEN block carries: its density marker, its strips and the terminator mark (strip, recorded data_end) (R3, R4). -/
structure Written where
  marker : Density
  strips : Vector Strip 64
  terminator : Option (Nat × Nat)
  deriving DecidableEq, Repr

/-- Erase state with what goes with it (R3). A BLANK block has no marker and only BLANK strips. The strips of an UNSETTLED block have
no defined program state, and the model holds none (log 16). -/
inductive Cells where
  | blank
  | written (w : Written)
  | unsettled
  deriving DecidableEq, Repr

/-- A physical block (R3). -/
structure PhysBlock where
  factoryBad : Bool
  cells : Cells
  deriving DecidableEq, Repr

/-- The contents of a lane directory (R5). A target of `none` is NONE. -/
structure Directory where
  map : List (Nat × Option Nat)
  retired : List Nat
  deriving DecidableEq, Repr

/-- A readable copy of the lane directory (R5). -/
structure DirCopy where
  generation : Nat
  contents : Directory
  deriving DecidableEq, Repr

/-- The physical array of a lane: its blocks and the two directory copies, `none` where unreadable (R3, R5). -/
structure FlashArray where
  blocks : Vector PhysBlock 1056
  copyA : Option DirCopy
  copyB : Option DirCopy
  deriving DecidableEq, Repr

/-- A survey record (R13). -/
inductive SurveyRecord where
  | factoryBad
  | blank
  | unsettled
  | written (density : Density) (strips : List StripState) (terminator : Option (Nat × Nat))
  deriving DecidableEq, Repr

/-! ### Block records (Chapter 2) -/

/-- The kinds of pass (R20, ready_pass). -/
inductive PassKind where
  | rough
  | terminator
  | final
  | single
  deriving DecidableEq, Repr

/-- A pass of a block: its kind and its strip (R20). -/
structure Pass where
  kind : PassKind
  strip : Nat
  deriving DecidableEq, Repr

/-- States of a block (R20). `opened` is OPEN. -/
inductive BlockState where
  | erased
  | opened
  | closing
  | closed
  | full
  | failed
  | retired
  deriving DecidableEq, Repr

/-- What closed a block (R20). -/
inductive ClosedBy where
  | host
  | scan
  | reset
  deriving DecidableEq, Repr

/-- A block record (R20). -/
structure BlockRec where
  physical : Nat
  state : BlockState
  density : Option Density
  intakeNext : Nat
  roughDone : Nat
  finalDone : Nat
  dataEnd : Option Nat
  closedBy : Option ClosedBy
  suspect : Bool
  erasePending : Bool
  failNotice : Bool
  readyPass : Option Pass
  deriving DecidableEq, Repr

/-! ### Lanes (Chapters 1, 5, 6, 7) -/

/-- An entry of the ready list (R84). -/
structure ReadyEntry where
  block : Nat
  pass : Pass
  deriving DecidableEq, Repr

/-- What a work queue entry asks for (R82). -/
inductive WorkKind where
  | read (page : Nat)
  | erase
  deriving DecidableEq, Repr

/-- An entry of the lane work queue (R82). -/
structure WorkItem where
  tag : Nat
  block : Nat
  kind : WorkKind
  deriving DecidableEq, Repr

/-- The operation in flight on an array engine, with its descriptor and the pages in its program buffer (R6 to R15). `refused` marks a
pass that the starting-state check of R11 refused. -/
inductive Operation where
  | sense (phys page step : Nat)
  | rough (phys strip : Nat) (pages : List Page) (refused : Bool)
  | terminatorRough (phys strip dataEnd : Nat) (refused : Bool)
  | final (phys strip : Nat) (pages : List Page) (refused : Bool)
  | single (phys strip : Nat) (page : Page) (refused : Bool)
  | erase (phys : Nat)
  | survey (phys : Nat)
  | directoryRead
  | directoryWrite (contents : Directory) (generation : Nat) (toA : Bool)
  deriving DecidableEq, Repr

/-- The course of an ERASE job (R117). -/
inductive EraseCourse where
  | inPlace
  | substitution (reserve : Nat)
  deriving DecidableEq, Repr

/-- The job in flight on a lane (R85). `erased` is the outcome of an ERASE job's array erase once it has ended. -/
inductive Job where
  | pass (block : Nat) (pass : Pass)
  | read (tag block page phys : Nat)
  | erase (tag block : Nat) (course : EraseCourse) (erased : Option Ending)
  deriving DecidableEq, Repr

/-- A sector result of the egress buffer (R104). -/
inductive SectorResult where
  | pending
  | good (count step : Nat)
  | lost
  deriving DecidableEq, Repr

/-- States of an egress buffer (R112). -/
inductive EgressState where
  | free
  | claimed
  | loaded
  deriving DecidableEq, Repr

/-- The egress buffer of a lane (R104, R112). -/
structure Egress where
  state : EgressState
  sectors : Vector SectorResult 8
  bytes : Vector (List Byte) 8
  tagArea : List Byte
  lastStep : Nat
  deriving DecidableEq, Repr

/-- States of a lane (R94). -/
inductive LaneState where
  | scanning
  | ready
  | resetting
  | offline
  deriving DecidableEq, Repr

/-- A lane: its controller, its engine, its read path and its physical array. -/
structure Lane where
  state : LaneState
  records : Vector BlockRec 1024
  built : Bool
  readyList : List ReadyEntry
  workQueue : List WorkItem
  readRun : Nat
  substMap : List (Nat × Option Nat)
  freeReserves : List Nat
  retiredReserves : List Nat
  egress : Egress
  engine : Option Operation
  /-- The sense buffer: the raw result, each bit as sensed (R7). -/
  sense : Option StoredPage
  job : Option Job
  surveys : List SurveyRecord
  array : FlashArray
  deriving DecidableEq, Repr

/-! ### The staging pool (Chapter 3) -/

/-- States of a slot (R45). -/
inductive SlotState where
  | free
  | reserved
  | filling
  | staged
  | roughed
  | detached
  deriving DecidableEq, Repr

/-- The page a slot serves (R44). -/
structure Owner where
  lane : Nat
  block : Nat
  page : Nat
  deriving DecidableEq, Repr

/-- A slot record with the slot's storage (R44). `timer` holds the value in ms the running timer was started with (log 5). -/
structure Slot where
  state : SlotState
  owner : Option Owner
  pad : Bool
  tag : Option Nat
  chunks : Nat
  pins : Nat
  timer : Option Nat
  data : List Byte
  tagArea : List Byte
  deriving DecidableEq, Repr

/-- The staging pool: its slots and the pool-low armed flag (R44, R60). -/
structure Pool where
  slots : Vector Slot 96
  armed : Bool
  deriving DecidableEq, Repr

/-! ### Requests, tags and replies (Chapter 9) -/

/-- The fifteen kinds of request, in the order of R144. -/
inductive ReqKind where
  | identify
  | configure
  | readSettings
  | blockStatus
  | poolStatus
  | tagStatus
  | abort
  | relocate
  | discard
  | read
  | erase
  | write
  | close
  | laneReset
  | partReset
  deriving DecidableEq, Repr

/-- States of a live tag (R149). -/
inductive TagState where
  | transfer
  | staged
  | heldFailed
  | queued
  | active
  | waiting
  | replying
  deriving DecidableEq, Repr

/-- An entry of the tag table (R148). -/
structure TagEntry where
  kind : ReqKind
  state : TagState
  lane : Option Nat
  block : Option Nat
  page : Option Nat
  slot : Option Nat
  interimSent : Bool
  check : Option Word32
  deriving DecidableEq, Repr

/-- The four settings (R156). -/
structure Settings where
  transferTimeout : Nat
  readBurst : Nat
  driftThreshold : Nat
  poolWatermark : Nat
  deriving DecidableEq, Repr

/-- Part states (R146). -/
inductive PartState where
  | starting
  | running
  | resetting
  deriving DecidableEq, Repr

/-- Reply statuses, in the order of the status table of 9.9. `erasedPage` is ERASED, `padPage` is PAD and
`writeProtected` is PROTECTED. -/
inductive Status where
  | done
  | staged
  | durable
  | erasedPage
  | padPage
  | malformed
  | tagInUse
  | starting
  | resetting
  | badAddress
  | laneNotReady
  | laneOffline
  | writeProtected
  | blockState
  | blockBusy
  | densityMismatch
  | outOfOrder
  | intakeAhead
  | poolFull
  | queueFull
  | range
  | notLive
  | tooLate
  | unknownTag
  | strayData
  | chunkOrder
  | checkMismatch
  | transferTimeout
  | abandoned
  | aborted
  | discarded
  | programFailed
  | eraseFailed
  | noReserve
  | notWritten
  | uncorrectable
  deriving DecidableEq, Repr

/-- Reply classes (R167). -/
inductive ReplyClass where
  | interim
  | final
  | refusal
  deriving DecidableEq, Repr

/-- What a reply answers: a request kind, a DATA frame, or a frame whose kind was unknown (R147). -/
inductive ReplyTo where
  | unknown
  | dataFrame
  | request (k : ReqKind)
  deriving DecidableEq, Repr

/-- Where a READ's data comes from (R109). -/
inductive ReadSource where
  | slot
  | array
  deriving DecidableEq, Repr

/-- Result of the directory write in an ERASE reply (R125). -/
inductive DirResult where
  | notNeeded
  | written
  | writeFailed
  | mapFull
  deriving DecidableEq, Repr

/-- The fields of an ERASE reply that PROTECTED and ABORTED leave absent (R125). -/
structure EraseFields where
  course : Option EraseCourse
  physical : Nat
  substituted : Bool
  directory : DirResult
  freeReserves : Nat
  deriving DecidableEq, Repr

/-- The fields of a READ reply with status DONE or UNCORRECTABLE (R109). -/
structure ReadFields where
  source : ReadSource
  physical : Option Nat
  maxCorrected : Nat
  lostSectors : List Nat
  retryStep : Nat
  drifting : Bool
  /-- Page check and tag area, absent for UNCORRECTABLE. -/
  checked : Option (Word32 × List Byte)
  deriving DecidableEq, Repr

/-- What a PART_RESET did to a lane (R164). -/
inductive LaneReset where
  | offline
  | waiting
  | applied (erased closed : Nat)
  deriving DecidableEq, Repr

/-- The fields of a reply beside its tag, kind, status and class. -/
inductive ReplyFields where
  /-- No further field. -/
  | plain
  /-- IDENTIFY (R155). -/
  | figures (part : PartState)
  /-- CONFIGURE and READ_SETTINGS (R156, R157). -/
  | settings (s : Settings)
  /-- BLOCK_STATUS (R158). -/
  | blockStatus (lane block : Nat) (record : BlockRec) (held : Nat)
  /-- POOL_STATUS (R158): the six state counts, the pinned count, the held count of each lane. -/
  | poolStatus (counts : List Nat) (pinned : Nat) (held : List Nat)
  /-- TAG_STATUS marked LIVE (R159). -/
  | live (entry : TagEntry)
  /-- TAG_STATUS marked RECALLED (R159): the payload of the recalled copy. -/
  | recalled (payload : List Byte)
  /-- The target tag of an ABORT, DONE or NOT_LIVE (R160, R147). -/
  | target (tag : Nat)
  /-- The target tag and state of a TOO_LATE (R147). -/
  | lateTarget (tag : Nat) (kind : ReqKind) (state : TagState)
  /-- RELOCATE (R138). -/
  | relocated (lane source target : Nat) (density : Option Density) (moved first : Nat)
  /-- DISCARD (R141). -/
  | discarded (lane block count dataEnd : Nat)
  /-- A page address: READ without data (R102) and write replies other than DURABLE (R79). -/
  | page (lane block page : Nat)
  /-- DURABLE (R79). -/
  | durable (lane block page physical : Nat)
  /-- READ from a slot or the array (R109). -/
  | read (lane block page : Nat) (fields : ReadFields)
  /-- CLOSE (R37). -/
  | block (lane block : Nat)
  /-- ERASE (R125). -/
  | erase (lane block : Nat) (fields : Option EraseFields)
  /-- LANE_RESET (R98). -/
  | laneReset (lane aborted erased closed : Nat)
  /-- PART_RESET (R164). -/
  | partReset (lanes : List LaneReset) (removed : Nat)
  /-- The chunk index of a refused DATA frame (R147). -/
  | chunk (index : Option Nat)
  /-- The first setting out of range, counted from 1 (R147). -/
  | setting (index : Nat)
  deriving DecidableEq, Repr

/-- A reply (R151). `recallable` says whether a copy enters the recall ring when it leaves (R147, R154). -/
structure Reply where
  tag : Nat
  answers : ReplyTo
  status : Status
  cls : ReplyClass
  fields : ReplyFields
  recallable : Bool
  deriving DecidableEq, Repr

/-- The data source of a queued reply (R151). -/
inductive Source where
  | slot (i : Nat)
  | egress (lane : Nat)
  deriving DecidableEq, Repr

/-- An entry of the reply queue (R151). -/
structure QueueEntry where
  reply : Reply
  source : Option Source
  deriving DecidableEq, Repr

/-- A notice condition held by RQU (R161). `again` says that it was set again after its frame was composed (R162). -/
structure Condition where
  pending : Bool
  again : Bool
  deriving DecidableEq, Repr

/-- A PART_RESET under way (R163, R164): its tag, what each lane did, and the tags removed so far. -/
structure PartReset where
  tag : Nat
  lanes : Vector LaneReset 4
  removed : Nat
  deriving DecidableEq, Repr

/-- The request unit. -/
structure Rqu where
  tags : Vector (Option TagEntry) 64
  ring : List Reply
  settings : Settings
  part : PartState
  wpNotice : Condition
  poolLow : Condition
  startupDone : Condition
  /-- Lane by lane, whether the scan ended READY (true) or OFFLINE (R161, R187). -/
  scanEnd : Vector Bool 4
  partReset : Option PartReset
  deriving DecidableEq, Repr

/-! ### The link (Chapter 10) -/

/-- A frame in an intake buffer (R172). `req` says that its kind is REQ; a frame that is neither REQ nor DATA is marked malformed. -/
structure InFrame where
  kind : Nat
  tag : Nat
  payload : List Byte
  malformed : Bool
  deriving DecidableEq, Repr

/-- Reasons of a NAK (R167). -/
inductive NakReason where
  | badFrame
  | gap
  | noBuffer
  deriving DecidableEq, Repr

/-- The notices (R161). -/
inductive Notice where
  | blockFailed (lane block : Nat)
  | poolLow
  | wpChanged
  | startupDone
  deriving DecidableEq, Repr

/-- What the frame being sent is (R175). `dropped` marks a frame whose reply entry a PART_RESET has removed (R153). -/
inductive Sending where
  | rsp (dropped : Bool)
  | data (chunk : Nat) (dropped : Bool)
  | note (n : Notice)
  | ack
  | nak
  | sync
  deriving DecidableEq, Repr

/-- The frame being sent, as composed (R167, R175). -/
structure OutFrame where
  what : Sending
  seq : Seq
  ack : Seq
  window : Nat
  tag : Nat
  payload : List Byte
  deriving DecidableEq, Repr

/-- The two kinds of step 4 of the arbiter (R177). -/
inductive Turn where
  | reply
  | notice
  deriving DecidableEq, Repr

/-- The link unit. -/
structure Link where
  expected : Seq
  nakFlag : Bool
  nakDue : Option NakReason
  windowClosed : Bool
  owed : Bool
  ackTimer : Bool
  ackDue : Bool
  intake : List InFrame
  syncDue : Bool
  outbound : Seq
  tx : Option OutFrame
  transmission : Option Nat
  lastTurn : Option Turn
  queue : List QueueEntry
  deferred : Option QueueEntry
  deriving DecidableEq, Repr

/-! ### The whole part -/

/-- The state of the part and the queue of commands that are waiting. -/
structure State where
  link : Link
  rqu : Rqu
  pool : Pool
  lanes : Vector Lane 4
  wpAsserted : Bool
  inReset : Bool
  pending : List Instr
  deriving DecidableEq, Repr

/-- The part raises no fault that stops it: its errors are replies, block and lane states and notices, all of them next states
(INVENTORY.md, Faults). So this type has no constructor. -/
inductive Fault where
  deriving DecidableEq, Repr

/-- Why a command is refused. But for `notModelled`, each reason says that the happening cannot come about in the state (log 2). All
are safe: the model stops where the part never goes. -/
inductive Refusal where
  /-- Raised by an arm of exec that has no meaning yet. Safe. -/
  | notModelled (mnemonic : String)
  /-- Raised by a happening other than a pin or line event while RST# is asserted, when no rule of any block acts (R180). Safe. -/
  | heldInReset
  /-- Raised by RST_RELEASED while RST# is not asserted. Safe. -/
  | notInReset
  /-- Raised by a command with an operand out of the range WellFormed gives it. Safe. -/
  | illFormed
  /-- Raised by a line event whose bytes are not a frame of its row (R166, R169, R173). Safe. -/
  | otherLineFrame
  /-- Raised by a taking of a frame when the intake buffers are empty (R143). Safe. -/
  | noFrameToTake
  /-- Raised by a taking of a frame when the oldest frame is of another row (R143). Safe. -/
  | otherFrameOldest
  /-- Raised by the expiry of a timer that is not running (R70, R171). Safe. -/
  | timerStopped
  /-- Raised by the end of an operation that is not in flight on the lane (R6). Safe. -/
  | noSuchOperation
  /-- Raised by a departure when no frame of its row is being sent (R175). Safe. -/
  | noSuchFrame
  deriving DecidableEq, Repr

/-! ### Power-on values -/

/-- The place of a block record until the scan builds one (R180, R183, log 11). -/
def BlockRec.unbuilt : BlockRec :=
  { physical := 0, state := .erased, density := none, intakeNext := 0, roughDone := 0, finalDone := 0, dataEnd := none,
    closedBy := none, suspect := false, erasePending := false, failNotice := false, readyPass := none }

/-- A FREE slot as R45 and R62 give it. Its storage is undefined at power-on (R62, log 9). -/
def Slot.powerOn : Slot :=
  { state := .free, owner := none, pad := false, tag := none, chunks := 0, pins := 0, timer := none, data := [], tagArea := [] }

/-- The egress buffer after power-on: FREE (R112), its contents not read (log 36). -/
def Egress.powerOn : Egress :=
  { state := .free, sectors := Vector.replicate 8 .pending, bytes := Vector.replicate 8 [], tagArea := [], lastStep := 0 }

/-- A lane in power-on state over the array `a` that survives (R99, R112, R116, R180). -/
def Lane.powerOn (a : FlashArray) (engine : Option Operation) : Lane :=
  { state := .scanning, records := Vector.replicate 1024 BlockRec.unbuilt, built := false, readyList := [], workQueue := [],
    readRun := 0, substMap := [], freeReserves := [], retiredReserves := [], egress := Egress.powerOn, engine := engine,
    sense := none, job := none, surveys := [], array := a }

/-- The link unit after power-on (R178). -/
def Link.powerOn : Link :=
  { expected := 0, nakFlag := false, nakDue := none, windowClosed := false, owed := false, ackTimer := false, ackDue := false,
    intake := [], syncDue := false, outbound := 0, tx := none, transmission := none, lastTurn := none, queue := [],
    deferred := none }

/-- The settings' defaults (R156). -/
def Settings.defaults : Settings :=
  { transferTimeout := 20, readBurst := 4, driftThreshold := 18, poolWatermark := 12 }

/-- A clear notice condition (R161). -/
def Condition.clear : Condition := { pending := false, again := false }

/-- The request unit after power-on (R165). -/
def Rqu.powerOn : Rqu :=
  { tags := Vector.replicate 64 none, ring := [], settings := Settings.defaults, part := .starting,
    wpNotice := Condition.clear, poolLow := Condition.clear, startupDone := Condition.clear,
    scanEnd := Vector.replicate 4 false, partReset := none }

/-- The staging pool after power-on (R62). -/
def Pool.powerOn : Pool := { slots := Vector.replicate 96 Slot.powerOn, armed := true }

/-- An array as delivered (R3, R5): every block BLANK, one directory copy readable at generation 1 and empty (log 7, log 31). -/
def FlashArray.delivered : FlashArray :=
  { blocks := Vector.replicate 1056 { factoryBad := false, cells := .blank },
    copyA := some { generation := 1, contents := { map := [], retired := [] } }, copyB := none }

/-- Every controller block in its power-on state over the arrays that survive (R180). `engine` is what each engine holds. -/
def State.powerOn (arrays : Vector FlashArray 4) (engine : Option Operation) (wp inReset : Bool) (pending : List Instr) : State :=
  { link := Link.powerOn, rqu := Rqu.powerOn, pool := Pool.powerOn, lanes := arrays.map (fun a => Lane.powerOn a engine),
    wpAsserted := wp, inReset := inReset, pending := pending }

/-- The part right after power-on (R180): STARTING, every lane SCANNING with its DIRECTORY read presented, on arrays as delivered,
WP# released (log 8). -/
def State.reset : State :=
  State.powerOn (Vector.replicate 4 FlashArray.delivered) (some .directoryRead) false false []

end Sys2Proof.Machine
end

