-- ==== Sys2Proof/Machine/Frames.lean ====
section
/-! DEFINITION. Frames on the line: CRC-32, the receiver's tests, and the layouts of the payloads the part sends (Chapter 10, R166 to
R168). -/

namespace Sys2Proof.Machine

/-! ### Numbers and bytes (R167: low byte first) -/

/-- Byte `i` of a payload as a number, 0 past its end. -/
def byteAt (l : List Byte) (i : Nat) : Nat := (l[i]?.map BitVec.toNat).getD 0

/-- The two-byte number at `i`. -/
def numAt2 (l : List Byte) (i : Nat) : Nat := byteAt l i + 256 * byteAt l (i + 1)

/-- The four-byte number at `i`. -/
def wordAt (l : List Byte) (i : Nat) : Word32 := BitVec.ofNat 32 (numAt2 l i + 65536 * numAt2 l (i + 2))

/-- A number in one byte. -/
def num1 (n : Nat) : List Byte := [BitVec.ofNat 8 n]

/-- A number in two bytes. -/
def num2 (n : Nat) : List Byte := [BitVec.ofNat 8 n, BitVec.ofNat 8 (n / 256)]

/-- A 32-bit value in four bytes. -/
def word4 (w : Word32) : List Byte :=
  [w.setWidth 8, (w >>> 8).setWidth 8, (w >>> 16).setWidth 8, (w >>> 24).setWidth 8]

/-- A one-byte number, all ones when absent. -/
def opt1 : Option Nat → List Byte
  | some n => num1 n
  | none => num1 255

/-- A two-byte number, all ones when absent. -/
def opt2 : Option Nat → List Byte
  | some n => num2 n
  | none => num2 65535

/-- A flag: 0 clear, 1 set (R167, the DRIFTING byte of the READ reply; log 20). -/
def flag1 (b : Bool) : List Byte := num1 (if b then 1 else 0)

/-! ### CRC-32 (R168) -/

/-- One bit of the CRC register's division, least significant bit first. -/
def crcBit (c : Word32) : Word32 := if c.getLsbD 0 then (c >>> 1) ^^^ 0xEDB88320#32 else c >>> 1

/-- One byte of the CRC register's division. -/
def crcByte (c : Word32) (b : Byte) : Word32 :=
  crcBit (crcBit (crcBit (crcBit (crcBit (crcBit (crcBit (crcBit (c ^^^ b.setWidth 32))))))))

/-- The CRC-32 of a sequence of bytes (R168). The register is kept bit-reversed, so no reversal stands at the end. -/
def crc32 (l : List Byte) : Word32 := ~~~ (l.foldl crcByte 0xFFFFFFFF#32)

/-- The page check of a page: CRC-32 over its data bytes followed by its tag area (R168). -/
def pageCheck (p : Page) : Word32 := crc32 (p.data ++ p.tagArea)

/-! ### The receiver (R166) -/

/-- A good frame's fields that the part reads (R167). -/
structure LineFrame where
  kind : Nat
  seq : Seq
  tag : Nat
  payload : List Byte
  deriving DecidableEq, Repr

/-- The framing test and the CRC test of R166. `none` is a bad frame. -/
def goodFrame (bytes : List Byte) : Option LineFrame :=
  let len := numAt2 bytes 5
  if bytes.length < 11 then none
  else if len > Config.maxPayload then none
  else if bytes.length ≠ len + 11 then none
  else if crc32 (bytes.take (len + 7)) ≠ wordAt bytes (len + 7) then none
  else some { kind := byteAt bytes 0, seq := BitVec.ofNat 8 (byteAt bytes 1), tag := byteAt bytes 4, payload := (bytes.drop 7).take len }

/-- Kind codes of frames (R167). -/
def kindReq : Nat := 1
/-- Kind code of a DATA frame. -/
def kindData : Nat := 2
/-- Kind code of a SYNC frame. -/
def kindSync : Nat := 3

/-- What the receiver makes of a run of bytes between a START and its END (R166, R169, R173). -/
inductive Received where
  | bad
  | sync (expected : Seq)
  | sequenced (f : LineFrame)
  deriving DecidableEq, Repr

/-- The receiver's sorting of frames. A SYNC frame whose payload is not one byte is a bad frame (R173). -/
def receive (bytes : List Byte) : Received :=
  match goodFrame bytes with
  | none => .bad
  | some f =>
    if f.kind = kindSync then
      match f.payload with
      | [e] => .sync e
      | _ => .bad
    else .sequenced f

/-- A frame as it goes on the line, with its CRC (R167). -/
def lineBytes (kind : Nat) (seq ack : Byte) (window tag : Nat) (payload : List Byte) : List Byte :=
  let body := num1 kind ++ [seq, ack] ++ num1 window ++ num1 tag ++ num2 payload.length ++ payload
  body ++ word4 (crc32 body)

/-- Kind code of a frame the part sends (R167). -/
def Sending.kindCode : Sending → Nat
  | .rsp _ => 4
  | .data _ _ => kindData
  | .note _ => 5
  | .ack => 6
  | .nak => 7
  | .sync => kindSync

/-- The bytes of a frame the part sends. -/
def OutFrame.bytes (f : OutFrame) : List Byte := lineBytes f.what.kindCode f.seq f.ack f.window f.tag f.payload

/-! ### Codes of named values (R167: the position in the list, counted from 1) -/

/-- Request kind codes, in the order of R144. -/
def ReqKind.code : ReqKind → Nat
  | .identify => 1
  | .configure => 2
  | .readSettings => 3
  | .blockStatus => 4
  | .poolStatus => 5
  | .tagStatus => 6
  | .abort => 7
  | .relocate => 8
  | .discard => 9
  | .read => 10
  | .erase => 11
  | .write => 12
  | .close => 13
  | .laneReset => 14
  | .partReset => 15

/-- Status codes, in the order of 9.9. -/
def Status.code : Status → Nat
  | .done => 1
  | .staged => 2
  | .durable => 3
  | .erasedPage => 4
  | .padPage => 5
  | .malformed => 6
  | .tagInUse => 7
  | .starting => 8
  | .resetting => 9
  | .badAddress => 10
  | .laneNotReady => 11
  | .laneOffline => 12
  | .writeProtected => 13
  | .blockState => 14
  | .blockBusy => 15
  | .densityMismatch => 16
  | .outOfOrder => 17
  | .intakeAhead => 18
  | .poolFull => 19
  | .queueFull => 20
  | .range => 21
  | .notLive => 22
  | .tooLate => 23
  | .unknownTag => 24
  | .strayData => 25
  | .chunkOrder => 26
  | .checkMismatch => 27
  | .transferTimeout => 28
  | .abandoned => 29
  | .aborted => 30
  | .discarded => 31
  | .programFailed => 32
  | .eraseFailed => 33
  | .noReserve => 34
  | .notWritten => 35
  | .uncorrectable => 36

/-- Reply classes: 0 interim, 1 final, 2 refusal. -/
def ReplyClass.code : ReplyClass → Nat
  | .interim => 0
  | .final => 1
  | .refusal => 2

/-- The leading kind code of an RSP: 0 when the refused frame had none, 16 for a refused DATA frame. -/
def ReplyTo.code : ReplyTo → Nat
  | .unknown => 0
  | .dataFrame => 16
  | .request k => k.code

/-- Density codes, as the WRITE layout gives them. -/
def Density.code : Density → Nat
  | .dense => 1
  | .swift => 2

/-- Block states in the order of R20. -/
def BlockState.code : BlockState → Nat
  | .erased => 1
  | .opened => 2
  | .closing => 3
  | .closed => 4
  | .full => 5
  | .failed => 6
  | .retired => 7

/-- closed_by in the order of R20. -/
def ClosedBy.code : ClosedBy → Nat
  | .host => 1
  | .scan => 2
  | .reset => 3

/-- Pass kinds in the order of R20. -/
def PassKind.code : PassKind → Nat
  | .rough => 1
  | .terminator => 2
  | .final => 3
  | .single => 4

/-- Part states in the order of R146. -/
def PartState.code : PartState → Nat
  | .starting => 1
  | .running => 2
  | .resetting => 3

/-- Tag states, each by its position in its kind's row of R149 (log 21). -/
def tagStateCode (k : ReqKind) (st : TagState) : Nat :=
  match k, st with
  | .write, .transfer => 1
  | .write, .staged => 2
  | .write, .heldFailed => 3
  | .write, .replying => 4
  | .read, .queued => 1
  | .read, .active => 2
  | .read, .replying => 3
  | .erase, .queued => 1
  | .erase, .active => 2
  | .erase, .replying => 3
  | .close, .waiting => 1
  | .close, .replying => 2
  | .laneReset, .waiting => 1
  | .laneReset, .replying => 2
  | .partReset, .waiting => 1
  | .partReset, .replying => 2
  | _, .replying => 1
  | _, _ => 255

/-- Courses in the order of R125. -/
def EraseCourse.code : EraseCourse → Nat
  | .inPlace => 1
  | .substitution _ => 2

/-- Directory results in the order of R125. -/
def DirResult.code : DirResult → Nat
  | .notNeeded => 1
  | .written => 2
  | .writeFailed => 3
  | .mapFull => 4

/-- Read sources: 1 SLOT, 2 ARRAY. -/
def ReadSource.code : ReadSource → Nat
  | .slot => 1
  | .array => 2

/-- NAK reasons: 1 BAD_FRAME, 2 GAP, 3 NO_BUFFER. -/
def NakReason.code : NakReason → Nat
  | .badFrame => 1
  | .gap => 2
  | .noBuffer => 3

/-! ### Payload layouts (R167) -/

/-- A pass of ready_pass: kind, then strip; all ones in each when absent. -/
def passBytes : Option Pass → List Byte
  | some p => num1 p.kind.code ++ num1 p.strip
  | none => num1 255 ++ num1 255

/-- A block record, its fields in the order of R20. -/
def BlockRec.bytes (r : BlockRec) : List Byte :=
  num2 r.physical ++ num1 r.state.code ++ opt1 (r.density.map Density.code) ++ num2 r.intakeNext ++ num1 r.roughDone
    ++ num1 r.finalDone ++ opt2 r.dataEnd ++ opt1 (r.closedBy.map ClosedBy.code) ++ flag1 r.suspect ++ flag1 r.erasePending
    ++ flag1 r.failNotice ++ passBytes r.readyPass

/-- The settings in the order of R156. -/
def Settings.bytes (s : Settings) : List Byte :=
  num1 s.transferTimeout ++ num1 s.readBurst ++ num1 s.driftThreshold ++ num1 s.poolWatermark

/-- A tag entry, its fields in the order of R148. -/
def TagEntry.bytes (e : TagEntry) : List Byte :=
  num1 e.kind.code ++ num1 (tagStateCode e.kind e.state) ++ opt1 e.lane ++ opt2 e.block ++ opt2 e.page ++ opt1 e.slot
    ++ (if e.kind = .write then flag1 e.interimSent else num1 255)
    ++ (match e.check with | some w => word4 w | none => word4 0xFFFFFFFF#32)

/-- The figures of the IDENTIFY reply, in the order of R155. -/
def figureBytes (p : PartState) : List Byte :=
  num1 Config.vendorCode ++ num2 Config.partCode ++ num1 Config.revision ++ num1 p.code ++ num1 Config.lanes
    ++ num2 Config.hostBlocks ++ num2 Config.physBlocks ++ num1 Config.reserveBlocks ++ num1 Config.strips ++ num1 4 ++ num1 1
    ++ num2 Config.pageBytes ++ num1 Config.tagAreaBytes ++ num2 Config.chunkBytes ++ num1 Config.sectors ++ num1 Config.correctable
    ++ num1 (Config.lastRetryStep + 1) ++ num1 Config.slots ++ num1 Config.tags ++ num1 Config.queuePlaces
    ++ num1 Config.sharedRefusals ++ num1 Config.recallCopies ++ num1 Config.intakeBuffers ++ num1 Config.workQueueEntries
    ++ num1 Config.mapEntries ++ num2 Config.maxPayload

/-- The READ reply from offset 8 on: 59 bytes in all for DONE, 23 for UNCORRECTABLE. -/
def ReadFields.bytes (f : ReadFields) : List Byte :=
  num1 f.source.code ++ opt2 f.physical ++ num1 f.maxCorrected ++ num1 f.lostSectors.length
    ++ f.lostSectors.flatMap num1 ++ List.replicate (8 - f.lostSectors.length) 255#8 ++ num1 f.retryStep ++ flag1 f.drifting
    ++ (match f.checked with | some (w, t) => word4 w ++ t | none => [])

/-- The fields of an ERASE reply (R125), all ones where absent. -/
def eraseBytes : Option EraseFields → List Byte
  | some f => opt1 (f.course.map EraseCourse.code) ++ num2 f.physical ++ flag1 f.substituted ++ num1 f.directory.code ++ num1 f.freeReserves
  | none => num1 255 ++ num2 65535 ++ num1 255 ++ num1 255 ++ num1 255

/-- What a PART_RESET did to each lane (R164): reached (1) or OFFLINE (2) of each lane, then the ERASED counts, then the CLOSED counts
(log 22). -/
def laneResetBytes (lanes : List LaneReset) : List Byte :=
  lanes.flatMap (fun r => match r with | .offline => num1 2 | _ => num1 1)
    ++ lanes.flatMap (fun r => match r with | .applied e _ => num1 e | _ => num1 255)
    ++ lanes.flatMap (fun r => match r with | .applied _ c => num1 c | _ => num1 255)

/-- The fields of a reply after its three leading bytes, in the order of the rule that defines them. DESIGN CHOICE (log 42): the chunk
index of a refused DATA frame takes the one byte its range 0 to 7 needs, so a received index of 255 (R172) reads as absent. -/
def ReplyFields.bytes : ReplyFields → List Byte
  | .plain => []
  | .figures p => figureBytes p
  | .settings s => s.bytes
  | .blockStatus x b r held => num1 x ++ num2 b ++ r.bytes ++ num1 held
  | .poolStatus counts pinned held => counts.flatMap num1 ++ num1 pinned ++ held.flatMap num1
  | .live e => num1 1 ++ e.bytes
  | .recalled payload => num1 2 ++ payload
  | .target t => num1 t
  | .lateTarget t k st => num1 t ++ num1 (tagStateCode k st)
  | .relocated x a b d moved first => num1 x ++ num2 a ++ num2 b ++ opt1 (d.map Density.code) ++ num1 moved ++ num2 first
  | .discarded x b count dataEnd => num1 x ++ num2 b ++ num1 count ++ num2 dataEnd
  | .page x b p => num1 x ++ num2 b ++ num2 p
  | .durable x b p physical => num1 x ++ num2 b ++ num2 p ++ num2 physical
  | .read x b p f => num1 x ++ num2 b ++ num2 p ++ f.bytes
  | .block x b => num1 x ++ num2 b
  | .erase x b f => num1 x ++ num2 b ++ eraseBytes f
  | .laneReset x aborted erased closed => num1 x ++ num1 aborted ++ num1 erased ++ num1 closed
  | .partReset results removed => laneResetBytes results ++ num1 removed
  | .chunk index => opt1 index
  | .setting index => num1 index

/-- An RSP payload: kind code, status code, class, then the fields. -/
def Reply.bytes (r : Reply) : List Byte :=
  num1 r.answers.code ++ num1 r.status.code ++ num1 r.cls.code ++ r.fields.bytes

end Sys2Proof.Machine
end

