-- ==== Sys2Proof/Machine/Operands.lean ====
section
/-! DEFINITION. Operands of requests: the fields of a REQ payload, and the check MALFORMED on them (R146, R167). -/

namespace Sys2Proof.Machine

/-- A request as its payload carries it. Lane, block and page numbers are not yet range-checked (R146). -/
inductive Request where
  | identify
  | configure (transferTimeout readBurst driftThreshold poolWatermark : Option Nat)
  | readSettings
  | blockStatus (lane block : Nat)
  | poolStatus
  | tagStatus (target : Nat)
  | abort (target : Nat)
  | relocate (lane source target : Nat)
  | discard (lane block : Nat)
  | read (lane block page : Nat)
  | erase (lane block : Nat)
  | write (lane block page : Nat) (density : Density) (check : Word32) (tagArea : List Byte)
  | close (lane block : Nat)
  | laneReset (lane : Nat)
  | partReset
  deriving DecidableEq, Repr

/-- The kind a code names (R167), `none` when it is not one of the fifteen. -/
def reqKindOf : Nat → Option ReqKind
  | 1 => some .identify
  | 2 => some .configure
  | 3 => some .readSettings
  | 4 => some .blockStatus
  | 5 => some .poolStatus
  | 6 => some .tagStatus
  | 7 => some .abort
  | 8 => some .relocate
  | 9 => some .discard
  | 10 => some .read
  | 11 => some .erase
  | 12 => some .write
  | 13 => some .close
  | 14 => some .laneReset
  | 15 => some .partReset
  | _ => none

/-- The payload length of each kind (R167). -/
def ReqKind.payloadLength : ReqKind → Nat
  | .identify => 1
  | .configure => 5
  | .readSettings => 1
  | .blockStatus => 4
  | .poolStatus => 1
  | .tagStatus => 2
  | .abort => 2
  | .relocate => 6
  | .discard => 4
  | .read => 6
  | .erase => 4
  | .write => 43
  | .close => 4
  | .laneReset => 2
  | .partReset => 1

/-- A setting of a CONFIGURE payload: all ones is no value (R167). -/
def settingAt (p : List Byte) (i : Nat) : Option Nat := if byteAt p i = 255 then none else some (byteAt p i)

/-- A density field: 1 DENSE, 2 SWIFT, any other MALFORMED (R146, R167). -/
def densityOf : Nat → Option Density
  | 1 => some .dense
  | 2 => some .swift
  | _ => none

/-- A target tag: 64 or above is MALFORMED (R146). -/
def targetOf (n : Nat) : Option Nat := if n < Config.tags then some n else none

/-- The kind of a REQ payload, from its first byte. -/
def payloadKind (p : List Byte) : Option ReqKind :=
  match p with
  | [] => none
  | b :: _ => reqKindOf b.toNat

/-- The request a REQ payload carries, `none` when the payload is MALFORMED (R146). -/
def parseRequest (p : List Byte) : Option Request :=
  match payloadKind p with
  | none => none
  | some k =>
    if p.length ≠ k.payloadLength then none
    else
      match k with
      | .identify => some .identify
      | .configure => some (.configure (settingAt p 1) (settingAt p 2) (settingAt p 3) (settingAt p 4))
      | .readSettings => some .readSettings
      | .blockStatus => some (.blockStatus (byteAt p 1) (numAt2 p 2))
      | .poolStatus => some .poolStatus
      | .tagStatus => (targetOf (byteAt p 1)).map .tagStatus
      | .abort => (targetOf (byteAt p 1)).map .abort
      | .relocate => some (.relocate (byteAt p 1) (numAt2 p 2) (numAt2 p 4))
      | .discard => some (.discard (byteAt p 1) (numAt2 p 2))
      | .read => some (.read (byteAt p 1) (numAt2 p 2) (numAt2 p 4))
      | .erase => some (.erase (byteAt p 1) (numAt2 p 2))
      | .write =>
        (densityOf (byteAt p 6)).map
          (fun d => .write (byteAt p 1) (numAt2 p 2) (numAt2 p 4) d (wordAt p 7) (p.drop 11))
      | .close => some (.close (byteAt p 1) (numAt2 p 2))
      | .laneReset => some (.laneReset (byteAt p 1))
      | .partReset => some .partReset

/-- A frame that is a REQ of kind `k`. -/
def InFrame.isRequest (f : InFrame) (k : ReqKind) : Bool :=
  decide (f.kind = kindReq) && !f.malformed && decide (payloadKind f.payload = some k)

/-- A frame that is a well-formed DATA frame (R67). -/
def InFrame.isData (f : InFrame) : Bool := decide (f.kind = kindData) && !f.malformed

/-- A frame that no request row and not DATA takes: one marked malformed (R172), or a REQ whose kind is not one of the fifteen (R146,
log 29). -/
def InFrame.isMalformed (f : InFrame) : Bool :=
  f.malformed || (decide (f.kind = kindReq) && decide (payloadKind f.payload = none))
    || (decide (f.kind ≠ kindReq) && decide (f.kind ≠ kindData))

/-- The kind a refusal of the frame names (R147). -/
def InFrame.answers (f : InFrame) : ReplyTo :=
  if f.kind = kindData then .dataFrame
  else if f.kind = kindReq then
    match payloadKind f.payload with
    | some k => .request k
    | none => .unknown
  else .unknown

/-- The chunk index of a DATA frame, absent when its payload is empty (R147). -/
def InFrame.chunkIndex (f : InFrame) : Option Nat := f.payload.head?.map BitVec.toNat

/-- R172: when an accepted frame is marked malformed. -/
def LineFrame.malformed (f : LineFrame) : Bool :=
  (decide (f.kind ≠ kindReq) && decide (f.kind ≠ kindData)) || (decide (f.kind = kindReq) && decide (f.payload.length = 0))
    || (decide (f.kind = kindData) && decide (f.payload.length ≠ 1025))

end Sys2Proof.Machine
end

