-- ==== Sys2Proof/Machine/Ops.lean ====
section
/-! DEFINITION. The named operations over block records, slots, tags and the reply queue that the meanings share. -/

namespace Sys2Proof.Machine

/-! ### Quantities of a block (section 2.1) -/

/-- Pages of a strip: 4 for DENSE, 1 for SWIFT (R2). -/
def Density.perStrip : Density → Nat
  | .dense => 4
  | .swift => 1

/-- Pages of a block: 256 for DENSE, 64 for SWIFT (R2). -/
def Density.pages (d : Density) : Nat := d.perStrip * Config.strips

/-- q of section 2.1. A record without density holds no page in any run (log 45). -/
def BlockRec.q (r : BlockRec) : Nat := (r.density.map Density.perStrip).getD 4

/-- The first unfinalized page, final_done × q. -/
def BlockRec.firstHeld (r : BlockRec) : Nat := r.finalDone * r.q

/-- The block takes passes: it is OPEN or CLOSING. -/
def BlockRec.running (r : BlockRec) : Bool := decide (r.state = .opened) || decide (r.state = .closing)

/-- The held-page count (R40): in OPEN, CLOSING and FAILED, and 0 in every other state. -/
def BlockRec.heldCount (r : BlockRec) : Nat :=
  match r.state with
  | .opened => r.intakeNext - r.firstHeld
  | .closing => r.intakeNext - r.firstHeld
  | .failed => r.intakeNext - r.firstHeld
  | _ => 0

/-- The strip of the last page below `n`: the last data strip of section 2.1. -/
def lastStrip (n : Nat) : Nat := (n - 1) / 4

/-- A DENSE data_end rounded up to a multiple of 4. -/
def stripEnd (n : Nat) : Nat := (n + 3) / 4 * 4

/-! ### Records of a lane -/

/-- A vector with every entry changed. It is Vector.map (changeAll_eq) in a form that Lean's kernel evaluates. -/
def changeAll {α β : Type} {n : Nat} (f : α → β) (v : Vector α n) : Vector β n := ⟨(v.toList.map f).toArray, by simp⟩

/-- The vector of a function's values at 0 to n - 1. It is Vector.ofFn (tabulate_eq) in a form that Lean's kernel evaluates. -/
def tabulate {α : Type} (n : Nat) (f : Nat → α) : Vector α n := ⟨((List.range n).map f).toArray, by simp⟩

/-- Lane `x`. -/
def State.lane (s : State) (x : Nat) : Lane := s.lanes[x]?.getD (Lane.powerOn FlashArray.delivered none)

/-- Sets lane `x`. -/
def State.setLane (s : State) (x : Nat) (l : Lane) : State := { s with lanes := s.lanes.setIfInBounds x l }

/-- Changes lane `x`. -/
def State.modLane (s : State) (x : Nat) (f : Lane → Lane) : State := s.setLane x (f (s.lane x))

/-- The record of host block `b`. -/
def Lane.record (l : Lane) (b : Nat) : BlockRec := l.records[b]?.getD BlockRec.unbuilt

/-- Changes the record of host block `b`. -/
def Lane.modRecord (l : Lane) (b : Nat) (f : BlockRec → BlockRec) : Lane :=
  { l with records := l.records.setIfInBounds b (f (l.record b)) }

/-- The record of host block `b` of lane `x`. -/
def State.record (s : State) (x b : Nat) : BlockRec := (s.lane x).record b

/-- Changes the record of host block `b` of lane `x`. -/
def State.modRecord (s : State) (x b : Nat) (f : BlockRec → BlockRec) : State := s.modLane x (fun l => l.modRecord b f)

/-! ### Slots (Chapter 3) -/

/-- Slot `i`. -/
def State.slot (s : State) (i : Nat) : Slot := s.pool.slots[i]?.getD Slot.powerOn

/-- Changes slot `i`. -/
def State.modSlot (s : State) (i : Nat) (f : Slot → Slot) : State :=
  { s with pool := { s.pool with slots := s.pool.slots.setIfInBounds i (f (s.slot i)) } }

/-- The slot numbers, lowest first. -/
def slotNumbers : List Nat := List.range Config.slots

/-- The slots in state `st`. -/
def State.slotsIn (s : State) (st : SlotState) : List Nat := slotNumbers.filter (fun i => decide ((s.slot i).state = st))

/-- The FREE count (R59). -/
def State.freeCount (s : State) : Nat := (s.slotsIn .free).length

/-- The slot belongs to block `b` of lane `x`. -/
def Slot.ownedBy (sl : Slot) (x b : Nat) : Bool :=
  match sl.owner with
  | some o => decide (o.lane = x) && decide (o.block = b)
  | none => false

/-- The slot belongs to lane `x`. -/
def Slot.ofLane (sl : Slot) (x : Nat) : Bool :=
  match sl.owner with
  | some o => decide (o.lane = x)
  | none => false

/-- The page the slot serves, 0 when it serves none. -/
def Slot.pageNumber (sl : Slot) : Nat := (sl.owner.map Owner.page).getD 0

/-- The slot that serves page `p` of block `b` of lane `x` (R46: at most one). Of several, which no run reaches, the lowest (log 46). -/
def State.slotOf (s : State) (x b p : Nat) : Option Nat :=
  slotNumbers.find? (fun i => decide ((s.slot i).owner = some { lane := x, block := b, page := p }))

/-- The slots owned by block `b` of lane `x`, lowest first. -/
def State.ownedSlots (s : State) (x b : Nat) : List Nat := slotNumbers.filter (fun i => (s.slot i).ownedBy x b)

/-- A FREE slot's fields as R45 gives them. Its storage is kept (R44). -/
def Slot.freed (sl : Slot) : Slot :=
  { sl with state := .free, owner := none, pad := false, tag := none, chunks := 0, pins := 0, timer := none }

/-- A DETACHED slot's fields as R45 and R54 give them: no owner, no tag, not pad, its pins, chunks and data kept. -/
def Slot.detach (sl : Slot) : Slot :=
  { sl with state := .detached, owner := none, pad := false, tag := none, timer := none }

/-- Release (R54): FREE with pin count 0, DETACHED with pins. -/
def Slot.release (sl : Slot) : Slot := if sl.pins = 0 then sl.freed else sl.detach

/-- A slot returned to RESERVED by the abandonment chain (R55): owner, pins and data kept. -/
def Slot.unfill (sl : Slot) : Slot := { sl with state := .reserved, pad := false, tag := none, chunks := 0, timer := none }

/-- A FREE slot given to a page without being filled: RESERVED, its fields as R45 gives them (R48, R136). -/
def Slot.reserveFor (o : Owner) (sl : Slot) : Slot :=
  { sl with state := .reserved, owner := some o, pad := false, tag := none, chunks := 0, timer := none }

/-- A FREE or an unpinned RESERVED slot entering FILLING (R50, R51): tag, no chunk, no pin, timer started; the WRITE's tag area is
written (R63). -/
def Slot.fill (o : Owner) (tag timeout : Nat) (area : List Byte) (sl : Slot) : Slot :=
  { sl with
    state := .filling
    owner := some o
    pad := false
    tag := some tag
    chunks := 0
    pins := 0
    timer := some timeout
    tagArea := area }

/-- Pad fill of a RESERVED slot (R52): pins and data kept. -/
def Slot.padFill (sl : Slot) : Slot := { sl with state := .staged, pad := true, tag := none, chunks := 0, timer := none }

/-- Data storage after chunk `c` is written at its place (R68). -/
def writeChunk (data : List Byte) (c : Nat) (bytes : List Byte) : List Byte :=
  data.take (Config.chunkBytes * c) ++ bytes ++ data.drop (Config.chunkBytes * (c + 1))

/-- A chunk taken by STP (R68): written at the place of the slot's count, which rises by one. -/
def Slot.takeChunk (bytes : List Byte) (sl : Slot) : Slot :=
  { sl with data := writeChunk sl.data sl.chunks bytes, chunks := sl.chunks + 1 }

/-- The slot's stored page. -/
def Slot.page (sl : Slot) : Page := { data := sl.data, tagArea := sl.tagArea }

/-- The removal of one pin (R57): a DETACHED slot whose count reaches 0 becomes FREE. -/
def Slot.unpin (sl : Slot) : Slot :=
  if sl.state = .detached ∧ sl.pins ≤ 1 then sl.freed else { sl with pins := sl.pins - 1 }

/-- Changes every slot of a list of slot numbers. -/
def State.modSlots (s : State) (is : List Nat) (f : Slot → Slot) : State := is.foldl (fun s i => s.modSlot i f) s

/-! ### The tag table (R148) -/

/-- The tag numbers, lowest first. -/
def tagNumbers : List Nat := List.range Config.tags

/-- The live entry of tag `t`, `none` when the tag is not live. -/
def State.tag (s : State) (t : Nat) : Option TagEntry := (s.rqu.tags[t]?).join

/-- Sets or removes the entry of tag `t`. -/
def State.setTag (s : State) (t : Nat) (e : Option TagEntry) : State :=
  { s with rqu := { s.rqu with tags := s.rqu.tags.setIfInBounds t e } }

/-- Changes the entry of tag `t` if it is live. -/
def State.modTag (s : State) (t : Nat) (f : TagEntry → TagEntry) : State :=
  match s.tag t with
  | some e => s.setTag t (some (f e))
  | none => s

/-- The live tags whose entry satisfies `p`, lowest first. -/
def State.tagsWhere (s : State) (p : TagEntry → Bool) : List Nat :=
  tagNumbers.filter (fun t => match s.tag t with | some e => p e | none => false)

/-- A new entry of a kind that names no slot or check. -/
def TagEntry.mk' (k : ReqKind) (st : TagState) (lane block page : Option Nat) : TagEntry :=
  { kind := k, state := st, lane := lane, block := block, page := page, slot := none, interimSent := false, check := none }

/-- The write tag's entry no longer names a slot (R66). -/
def TagEntry.dropSlot (e : TagEntry) : TagEntry := { e with slot := none }

/-- Clears the slot field of the tag a slot holds, if it holds one (R66). -/
def State.dropSlotOfTag (s : State) (t : Option Nat) : State :=
  match t with
  | some t => s.modTag t TagEntry.dropSlot
  | none => s

/-- Release of slot `i` to FREE or DETACHED, with the tag entry that named it (R54, R66). -/
def State.releaseSlot (s : State) (i : Nat) : State := (s.dropSlotOfTag (s.slot i).tag).modSlot i Slot.release

/-- Release of every slot of a list (R54). -/
def State.releaseSlots (s : State) (is : List Nat) : State := is.foldl State.releaseSlot s

/-- Slot `i` returns to RESERVED, with the tag entry that named it (R55, R66). -/
def State.unfillSlot (s : State) (i : Nat) : State := (s.dropSlotOfTag (s.slot i).tag).modSlot i Slot.unfill

/-! ### Ordering -/

/-- Insertion by key, before the first larger key. -/
def insertByKey {α : Type} (key : α → Nat) (a : α) : List α → List α
  | [] => [a]
  | b :: bs => if key a < key b then a :: b :: bs else b :: insertByKey key a bs

/-- A list in increasing key order. -/
def sortByKey {α : Type} (key : α → Nat) : List α → List α
  | [] => []
  | a :: as => insertByKey key a (sortByKey key as)

/-! ### The reply queue (R151, R152) -/

/-- The entry is tag `t`'s interim reply. -/
def QueueEntry.interimOf (t : Nat) (q : QueueEntry) : Bool := decide (q.reply.cls = .interim) && decide (q.reply.tag = t)

/-- The entry is in a shared refusal place. -/
def QueueEntry.isRefusal (q : QueueEntry) : Bool := decide (q.reply.cls = .refusal)

/-- The entry is in the place reserved for tag `t`. -/
def QueueEntry.reservedFor (t : Nat) (q : QueueEntry) : Bool := !q.isRefusal && decide (q.reply.tag = t)

/-- The frame being sent is a reply frame whose entry still stands at the head of the queue. -/
def Link.sendingReply (l : Link) : Bool :=
  match l.tx with
  | some f => decide (f.what = .rsp false)
  | none => false

/-- Tag `t`'s interim frame is being sent (R175). -/
def Link.sendingInterim (l : Link) (t : Nat) : Bool :=
  l.sendingReply && (match l.queue with | q :: _ => q.interimOf t | [] => false)

/-- Where a final reply of tag `e.reply.tag` goes (R78, R152, R175): held back while the tag's interim frame is being sent, in the
place of a still queued interim, else at the tail. -/
def Link.placeFinal (l : Link) (e : QueueEntry) : Link :=
  if l.sendingInterim e.reply.tag then { l with deferred := some e }
  else if l.queue.any (QueueEntry.interimOf e.reply.tag) then
    { l with queue := l.queue.map (fun q => if q.interimOf e.reply.tag then e else q) }
  else { l with queue := l.queue ++ [e] }

/-- The final reply of tag `t`, whose entry is `e`: the tag enters REPLYING and its reply is queued (R149, R151). -/
def State.answer (s : State) (t : Nat) (e : TagEntry) (status : Status) (fields : ReplyFields) (source : Option Source) : State :=
  let reply : Reply :=
    { tag := t, answers := .request e.kind, status := status, cls := .final, fields := fields, recallable := true }
  { s.setTag t (some { e with state := .replying }) with
    link := s.link.placeFinal { reply := reply, source := source } }

/-- A live tag ends. A tag in REPLYING has its one final reply and gets no second (R144), which no run tries (log 45). -/
def State.finish (s : State) (t : Nat) (status : Status) (fields : ReplyFields) (source : Option Source) : State :=
  match s.tag t with
  | none => s
  | some e => if e.state = .replying then s else s.answer t e status fields source

/-- The final reply of a write other than DURABLE (R79): the address of the tag entry (log 45), which no longer names a slot. -/
def State.endWrite (s : State) (t : Nat) (status : Status) : State :=
  match s.tag t with
  | none => s
  | some e =>
    (s.modTag t TagEntry.dropSlot).finish t status (.page (e.lane.getD 0) (e.block.getD 0) (e.page.getD 0)) none

/-- A write ends DURABLE (R79): the address the page now lives at and the physical block that serves it. -/
def State.endDurable (s : State) (t : Nat) : State :=
  match s.tag t with
  | none => s
  | some e =>
    let x := e.lane.getD 0
    let b := e.block.getD 0
    (s.modTag t TagEntry.dropSlot).finish t .durable (.durable x b (e.page.getD 0) (s.record x b).physical) none

/-- The interim STAGED reply of tag `t` (R78). -/
def State.queueStaged (s : State) (t : Nat) : State :=
  match s.tag t with
  | none => s
  | some e =>
    let reply : Reply :=
      { tag := t, answers := .request e.kind, status := .staged, cls := .interim,
        fields := .page (e.lane.getD 0) (e.block.getD 0) (e.page.getD 0), recallable := false }
    { s with link := { s.link with queue := s.link.queue ++ [{ reply := reply, source := none }] } }

/-- A refusal of a frame (R147): it takes a shared place and changes nothing else. A copy enters the recall ring later only for a
REQ frame with a tag below 64 and a status other than TAG_IN_USE. -/
def State.refuse (s : State) (f : InFrame) (status : Status) (fields : ReplyFields) : State :=
  let reply : Reply :=
    { tag := f.tag, answers := f.answers, status := status, cls := .refusal, fields := fields,
      recallable := decide (f.kind = kindReq) && decide (f.tag < Config.tags) && decide (status ≠ .tagInUse) }
  { s with link := { s.link with queue := s.link.queue ++ [{ reply := reply, source := none }] } }

/-- The live CLOSE of block `b` of lane `x` ends (R37, R132). DESIGN CHOICE (log 46): in states no run reaches, the lowest of several
CLOSE tags ends, and none when there is none. -/
def State.endClose (s : State) (x b : Nat) (status : Status) : State :=
  match (s.tagsWhere (fun e => decide (e.kind = .close) && decide (e.state = .waiting) && decide (e.lane = some x)
      && decide (e.block = some b))).head? with
  | some t => s.finish t status (.block x b) none
  | none => s

/-! ### Data sources (R57, R112, R153) -/

/-- Release of a reply's data source: the slot loses a pin, or the egress buffer becomes FREE. -/
def State.releaseSource (s : State) (src : Option Source) : State :=
  match src with
  | some (.slot i) => s.modSlot i Slot.unpin
  | some (.egress x) => s.modLane x (fun l => { l with egress := { l.egress with state := .free } })
  | none => s

/-- The bytes of chunk `c` of a data source (R111). -/
def State.sourceChunk (s : State) (src : Option Source) (c : Nat) : List Byte :=
  match src with
  | some (.slot i) => ((s.slot i).data.drop (Config.chunkBytes * c)).take Config.chunkBytes
  | some (.egress x) => ((s.lane x).egress.bytes[c]?).getD []
  | none => []

/-- A frame being sent whose reply entry is removed: it goes on without effect (R153, R175). -/
def OutFrame.drop (f : OutFrame) : OutFrame :=
  match f.what with
  | .rsp _ => { f with what := .rsp true }
  | .data c _ => { f with what := .data c true }
  | _ => f

/-- Removal of the reply-queue entries that satisfy `p` (R153): their sources are released, and what is being sent for a removed head
goes on without effect. -/
def State.removeReplies (s : State) (p : QueueEntry → Bool) : State :=
  let headGone := match s.link.queue with | q :: _ => p q | [] => false
  let released := (s.link.queue.filter p).foldl (fun s q => s.releaseSource q.source) s
  { released with
    link := { released.link with
      queue := s.link.queue.filter (fun q => !p q)
      tx := if headGone then s.link.tx.map OutFrame.drop else s.link.tx
      transmission := if headGone then none else s.link.transmission } }

/-! ### Substitution tables (R116) -/

/-- The target of host block `b` in a substitution map: `none` without an entry, `some none` for NONE. -/
def mapTarget (map : List (Nat × Option Nat)) (b : Nat) : Option (Option Nat) := (map.find? (fun e => decide (e.1 = b))).map Prod.snd

/-- The map with the target of host block `b` set, replaced or added in host block order (R116). -/
def setTarget (b : Nat) (target : Option Nat) : List (Nat × Option Nat) → List (Nat × Option Nat)
  | [] => [(b, target)]
  | e :: es => if e.1 = b then (b, target) :: es else if b < e.1 then (b, target) :: e :: es else e :: setTarget b target es

/-- The map can take a target for host block `b` (R117, R119). -/
def mapHasRoom (map : List (Nat × Option Nat)) (b : Nat) : Bool :=
  (mapTarget map b).isSome || decide (map.length < Config.mapEntries)

end Sys2Proof.Machine
end

