-- ==== Sys2Proof/Machine/Flags.lean ====
section
/-! DEFINITION. Flag computations: the NAK and acknowledgement flags of the link (R170, R171), the notice conditions (R161, R162) and the
pool-low armed flag (R60, R61). -/

namespace Sys2Proof.Machine

/-! ### The link's flags -/

/-- The NAK flag's test (R170): with the flag clear a NAK with this reason becomes due and the flag is set. DESIGN CHOICE (log 41): if a
NAK is still due from before the flag was cleared, one NAK stays due, with the later reason. -/
def Link.testNak (l : Link) (r : NakReason) : Link :=
  if l.nakFlag then l else { l with nakDue := some r, nakFlag := true }

/-- An acceptance owes an acknowledgement and starts the timer when none was owed (R171). -/
def Link.owe (l : Link) : Link := { l with owed := true, ackTimer := l.ackTimer || !l.owed }

/-- A frame is taken while the window-closed flag is set: an ACK is due at once (R171). -/
def Link.reopenWindow (l : Link) : Link :=
  { l with ackDue := l.ackDue || l.windowClosed, windowClosed := false }

/-- Acceptance of the expected frame (R169, R172). -/
def Link.accept (l : Link) (f : LineFrame) : Link :=
  let buffered : InFrame := { kind := f.kind, tag := f.tag, payload := f.payload, malformed := f.malformed }
  Link.owe { l with intake := l.intake ++ [buffered], expected := l.expected + 1, nakFlag := false }

/-- The distance from E forward to a frame's seq (R169). -/
def Link.distance (l : Link) (seq : Seq) : Nat := (seq - l.expected).toNat

/-- What LNK does with a sequenced frame, by its distance from E (R169). -/
def Link.takeSequenced (l : Link) (f : LineFrame) : Link :=
  let d := l.distance f.seq
  if d = 0 then
    if l.intake.length < Config.intakeBuffers then l.accept f
    else { l.testNak .noBuffer with windowClosed := true }
  else if d ≤ 127 then l.testNak .gap
  else { l with ackDue := true }

/-- What LNK does with a host SYNC (R173). -/
def Link.takeSync (l : Link) (e : Seq) : Link :=
  { l with expected := e, intake := [], nakFlag := false, windowClosed := false, nakDue := none, outbound := 0, syncDue := true }

/-- Every part frame carries E, so its composition settles the acknowledgement (R171). -/
def Link.settleAck (l : Link) : Link := { l with owed := false, ackTimer := false, ackDue := false }

/-! ### Notice conditions -/

/-- A notice frame of condition `n` is being sent (R162). -/
def Link.sendingNote (l : Link) (n : Notice) : Bool :=
  match l.tx with
  | some f => decide (f.what = .note n)
  | none => false

/-- A condition held by RQU is set (R161); a setting after composition is kept (R162). -/
def Condition.raise (sending : Bool) (c : Condition) : Condition := { pending := true, again := c.again || sending }

/-- The condition's frame leaves (R162). -/
def Condition.leave (c : Condition) : Condition := { pending := c.again, again := false }

/-- POOL_LOW becomes pending (R60). -/
def State.raisePoolLow (s : State) : State :=
  { s with rqu := { s.rqu with poolLow := s.rqu.poolLow.raise (s.link.sendingNote .poolLow) } }

/-- WP_CHANGED becomes pending (R161). -/
def State.raiseWpChanged (s : State) : State :=
  { s with rqu := { s.rqu with wpNotice := s.rqu.wpNotice.raise (s.link.sendingNote .wpChanged) } }

/-- STARTUP_DONE becomes pending (R187). -/
def State.raiseStartupDone (s : State) : State :=
  { s with rqu := { s.rqu with startupDone := s.rqu.startupDone.raise (s.link.sendingNote .startupDone) } }

/-! ### The pool-low armed flag -/

/-- Sets the armed flag. -/
def State.arm (s : State) (b : Bool) : State := { s with pool := { s.pool with armed := b } }

/-- The test of R60: armed, the condition on, and the FREE count below the watermark. -/
def State.testPoolLow (s : State) : State :=
  if 0 < s.rqu.settings.poolWatermark ∧ s.pool.armed = true ∧ s.freeCount < s.rqu.settings.poolWatermark then
    (s.arm false).raisePoolLow
  else s

/-- The test of R61: the FREE count has reached the lesser of 96 and pool_watermark + 8. -/
def State.testRearm (s : State) : State :=
  if min Config.slots (s.rqu.settings.poolWatermark + 8) ≤ s.freeCount then s.arm true else s

/-- The pool's tests at the end of a happening that changed the FREE count from `before` (R59, R60, R61). -/
def State.poolCheck (before : Nat) (s : State) : State :=
  if s.freeCount < before then s.testPoolLow else if before < s.freeCount then s.testRearm else s

end Sys2Proof.Machine
end

