-- ==== Sys2Proof/Machine/Flash.lean ====
section
/-! DEFINITION. What each array operation does to the physical array (Chapter 1). -/

namespace Sys2Proof

/-! ### Codewords (R2) -/

/-- The bytes a sector covers: its data bytes, and for sector 7 the tag area (R2). -/
def Codeword.covered (c : Codeword) : List Byte := c.bytes ++ if c.sector = 7 then c.tagArea else []

/-- The parity of a codeword (R2, log 15). -/
def Codeword.parity (c : Codeword) : BitVec Config.parityBits := Config.parity c.sector c.covered

namespace Machine

/-- Physical block `p`. -/
def FlashArray.block (a : FlashArray) (p : Nat) : PhysBlock := a.blocks[p]?.getD { factoryBad := false, cells := .unsettled }

/-- Changes physical block `p`. -/
def FlashArray.modBlock (a : FlashArray) (p : Nat) (f : PhysBlock → PhysBlock) : FlashArray :=
  { a with blocks := a.blocks.setIfInBounds p (f (a.block p)) }

/-- A BLANK strip. -/
def Strip.blank : Strip := { state := .blank, pages := [] }

/-- Strip `n` of a WRITTEN block. -/
def Written.strip (w : Written) (n : Nat) : Strip := w.strips[n]?.getD { state := .torn, pages := [] }

/-- Sets strip `n` of a WRITTEN block. -/
def Written.setStrip (w : Written) (n : Nat) (st : Strip) : Written := { w with strips := w.strips.setIfInBounds n st }

/-! ### Sectors of a page (R2) -/

/-- The data bytes of sector `k` of a page (R2). -/
def Page.sector (p : Page) (k : Nat) : List Byte := (p.data.drop (Config.chunkBytes * k)).take Config.chunkBytes

/-- The codeword of sector `k` of a page. -/
def Page.codeword (p : Page) (k : Nat) : Codeword := { sector := k, bytes := p.sector k, tagArea := p.tagArea }

/-- A page as the engine programs it: with the parity of its eight sectors, computed from its data (R2). -/
def Page.encode (p : Page) : StoredPage := { page := p, parity := tabulate 8 (fun k => (p.codeword k).parity) }

/-- The pad pattern: 8,192 data bytes and a tag area of value 0 (R8). -/
def padPage : Page := { data := List.replicate Config.pageBytes 0#8, tagArea := List.replicate Config.tagAreaBytes 0#8 }

/-- A page of a BLANK strip senses as all ones (R7). -/
def blankPage : StoredPage :=
  { page := { data := List.replicate Config.pageBytes 0xFF#8, tagArea := List.replicate Config.tagAreaBytes 0xFF#8 }
    parity := Vector.replicate 8 (BitVec.allOnes Config.parityBits) }

/-- What a page of a strip senses as where R7 states nothing: a free value (log 14). -/
def unspecifiedPage : StoredPage :=
  { page := { data := (List.range Config.pageBytes).map Config.unspecifiedByte
              tagArea := (List.range Config.tagAreaBytes).map (fun i => Config.unspecifiedByte (Config.pageBytes + i)) }
    parity := tabulate 8 Config.unspecifiedParity }

/-! ### Passes (R8 to R11) -/

/-- The pass kinds' starting states (R11). -/
def PhysBlock.canStart (pb : PhysBlock) (kind : PassKind) (strip : Nat) : Bool :=
  !pb.factoryBad &&
    match pb.cells, kind with
    | .blank, .rough => true
    | .blank, .terminator => true
    | .blank, .single => true
    | .blank, .final => false
    | .unsettled, _ => false
    | .written w, .rough => decide (w.marker = .dense) && decide ((w.strip strip).state = .blank)
    | .written w, .terminator => decide (w.marker = .dense) && decide ((w.strip strip).state = .blank)
    | .written w, .single => decide (w.marker = .swift) && decide ((w.strip strip).state = .blank)
    | .written w, .final =>
      decide (w.marker = .dense) && decide ((w.strip strip).state = .roughed)
        && !(match w.terminator with | some (n, _) => decide (n = strip) | none => false)

/-- The marker a pass writes on a BLANK block (R8, R10). -/
def PassKind.marker : PassKind → Density
  | .single => .swift
  | _ => .dense

/-- The start of a pass on a BLANK block makes it WRITTEN with its marker (R3, R8, R10). -/
def PhysBlock.beginPass (pb : PhysBlock) (kind : PassKind) : PhysBlock :=
  match pb.cells with
  | .blank => { pb with cells := .written { marker := kind.marker, strips := Vector.replicate 64 Strip.blank, terminator := none } }
  | _ => pb

/-- A strip of a WRITTEN block takes a new state. -/
def PhysBlock.setStrip (pb : PhysBlock) (n : Nat) (st : Strip) : PhysBlock :=
  match pb.cells with
  | .written w => { pb with cells := .written (w.setStrip n st) }
  | _ => pb

/-- The terminator mark is written (R8). -/
def PhysBlock.mark (pb : PhysBlock) (n dataEnd : Nat) : PhysBlock :=
  match pb.cells with
  | .written w => { pb with cells := .written { w with terminator := some (n, dataEnd) } }
  | _ => pb

/-- A strip whose pass failed or was cut short is TORN (R8 to R10, R16). -/
def PhysBlock.tear (pb : PhysBlock) (n : Nat) : PhysBlock := pb.setStrip n { state := .torn, pages := [] }

/-! ### ERASE (R12) -/

/-- The end of an ERASE. On a factory-bad block the state is unchanged. -/
def PhysBlock.endErase (pb : PhysBlock) (ending : Ending) : PhysBlock :=
  if pb.factoryBad then pb
  else
    match ending with
    | .pass => { pb with cells := .blank }
    | .fail => { pb with cells := .unsettled }

/-- An ERASE cut short leaves the block UNSETTLED, its factory-bad mark, if present, unchanged (R16). -/
def PhysBlock.cutErase (pb : PhysBlock) : PhysBlock := { pb with cells := .unsettled }

/-! ### SURVEY (R13) -/

/-- The survey record of a block. -/
def PhysBlock.survey (pb : PhysBlock) : SurveyRecord :=
  if pb.factoryBad then .factoryBad
  else
    match pb.cells with
    | .blank => .blank
    | .unsettled => .unsettled
    | .written w => .written w.marker (w.strips.toList.map Strip.state) w.terminator

/-! ### The lane directory (R5, R14, R15) -/

/-- The newest copy, with `true` when it is copy A: the readable copy with the higher generation number (R5, R14). DESIGN CHOICE (log
40): of two copies of one generation, which no run reaches and no rule orders, copy B is taken. -/
def FlashArray.newest (a : FlashArray) : Option (Bool × DirCopy) :=
  match a.copyA, a.copyB with
  | none, none => none
  | some c, none => some (true, c)
  | none, some c => some (false, c)
  | some c, some d => if d.generation < c.generation then some (true, c) else some (false, d)

/-- Sets one of the two copies. -/
def FlashArray.setCopy (a : FlashArray) (isA : Bool) (c : Option DirCopy) : FlashArray :=
  if isA then { a with copyA := c } else { a with copyB := c }

/-- The operation of a DIRECTORY write: into the copy that is not the newest, one generation up (R15). With no readable copy, which an
ERASE job never meets, it goes to copy A at generation 1 (log 26). -/
def FlashArray.directoryWrite (a : FlashArray) (contents : Directory) : Operation :=
  match a.newest with
  | some (isA, c) => .directoryWrite contents (c.generation + 1) (!isA)
  | none => .directoryWrite contents 1 true

/-! ### Operations as a whole -/

/-- What the start of an operation does to the array (R3, R8, R10, R15). -/
def Operation.begin (op : Operation) (a : FlashArray) : FlashArray :=
  match op with
  | .rough p _ _ refused => if refused then a else a.modBlock p (·.beginPass .rough)
  | .terminatorRough p _ _ refused => if refused then a else a.modBlock p (·.beginPass .terminator)
  | .single p _ _ refused => if refused then a else a.modBlock p (·.beginPass .single)
  | .directoryWrite _ _ toA => a.setCopy toA none
  | _ => a

/-- What the end of an operation does to the array (R8 to R15). A pass refused by R11 changes nothing. -/
def Operation.finish (op : Operation) (ending : Ending) (a : FlashArray) : FlashArray :=
  match op, ending with
  | .rough p n pages refused, .pass => if refused then a else a.modBlock p (·.setStrip n { state := .roughed, pages := pages.map Page.encode })
  | .rough p n _ refused, .fail => if refused then a else a.modBlock p (·.tear n)
  | .terminatorRough p n dataEnd refused, .pass =>
    if refused then a
    else a.modBlock p (fun b => (b.setStrip n { state := .roughed, pages := List.replicate 4 padPage.encode }).mark n dataEnd)
  | .terminatorRough p n _ refused, .fail => if refused then a else a.modBlock p (·.tear n)
  | .final p n pages refused, .pass => if refused then a else a.modBlock p (·.setStrip n { state := .final, pages := pages.map Page.encode })
  | .final p n _ refused, .fail => if refused then a else a.modBlock p (·.tear n)
  | .single p n page refused, .pass => if refused then a else a.modBlock p (·.setStrip n { state := .final, pages := [page.encode] })
  | .single p n _ refused, .fail => if refused then a else a.modBlock p (·.tear n)
  | .erase p, e => a.modBlock p (·.endErase e)
  | .directoryWrite contents g toA, .pass => a.setCopy toA (some { generation := g, contents := contents })
  | .directoryWrite _ _ toA, .fail => a.setCopy toA none
  | .sense _ _ _, _ => a
  | .survey _, _ => a
  | .directoryRead, _ => a

/-- What an operation cut short by RST# or power loss leaves in the array (R16). -/
def Operation.cut (op : Operation) (a : FlashArray) : FlashArray :=
  match op with
  | .rough p n _ refused => if refused then a else a.modBlock p (·.tear n)
  | .terminatorRough p n _ refused => if refused then a else a.modBlock p (·.tear n)
  | .final p n _ refused => if refused then a else a.modBlock p (·.tear n)
  | .single p n _ refused => if refused then a else a.modBlock p (·.tear n)
  | .erase p => a.modBlock p PhysBlock.cutErase
  | .directoryWrite _ _ toA => a.setCopy toA none
  | .sense _ _ _ => a
  | .survey _ => a
  | .directoryRead => a

/-- The outcome the engine reports: a pass refused by R11 and an ERASE of a factory-bad block end FAIL at once (R11, R12, log 17). -/
def Operation.outcome (op : Operation) (a : FlashArray) (ending : Ending) : Ending :=
  match op with
  | .rough _ _ _ refused => if refused then .fail else ending
  | .terminatorRough _ _ _ refused => if refused then .fail else ending
  | .final _ _ _ refused => if refused then .fail else ending
  | .single _ _ _ refused => if refused then .fail else ending
  | .erase p => if (a.block p).factoryBad then .fail else ending
  | _ => ending

/-! ### SENSE (R7) -/

/-- The page the cells hold on a FINAL strip: each of its sectors was programmed as a codeword (R2, R9, R10). -/
def PhysBlock.finalPage (pb : PhysBlock) (page : Nat) : Option StoredPage :=
  match pb.cells with
  | .written w =>
    let st := w.strip (page / w.marker.perStrip)
    if st.state = .final then st.pages[page % w.marker.perStrip]? else none
  | _ => none

/-- What the cells of page `page` of a block read as with no bit wrong (R7): what a FINAL strip was programmed with, all ones on a
BLANK strip, and a free value on any other (log 14). -/
def PhysBlock.stored (pb : PhysBlock) (page : Nat) : StoredPage :=
  match pb.cells with
  | .blank => blankPage
  | .unsettled => unspecifiedPage
  | .written w =>
    if (w.strip (page / w.marker.perStrip)).state = .blank then blankPage else (pb.finalPage page).getD unspecifiedPage

/-- A list of bytes with bit `n` inverted, counted from bit 0 of the first byte. -/
def flipBit (l : List Byte) (n : Nat) : List Byte := l.modify (n / 8) (· ^^^ (1#8 <<< (n % 8)))

/-- One bit sensed wrong (R7). -/
def StoredPage.flip (sp : StoredPage) (e : BitError) : StoredPage :=
  match e.place with
  | .data n => { sp with page := { sp.page with data := flipBit sp.page.data (8 * Config.chunkBytes * e.sector + n) } }
  | .tagArea n => { sp with page := { sp.page with tagArea := flipBit sp.page.tagArea n } }
  | .parity n =>
    { sp with parity := sp.parity.setIfInBounds e.sector ((sp.parity[e.sector]?.getD 0) ^^^ BitVec.twoPow Config.parityBits n) }

/-- A page as sensed with the given bits wrong, each named once however often it is listed (R7, log 12). -/
def StoredPage.sensed (sp : StoredPage) (noise : List BitError) : StoredPage := noise.dedup.foldl StoredPage.flip sp

/-- The raw result of a SENSE with the given bits sensed wrong (R7). -/
def PhysBlock.sense (pb : PhysBlock) (page : Nat) (noise : List BitError) : StoredPage := (pb.stored page).sensed noise

/-- Presents an operation to the lane's engine (R6): the engine holds it and the array takes what its start does. -/
def Lane.present (l : Lane) (op : Operation) : Lane := { l with engine := some op, array := op.begin l.array }

/-- The operation in flight ends (R6): the array takes its outcome and the engine is IDLE. -/
def Lane.endOperation (l : Lane) (op : Operation) (ending : Ending) : Lane :=
  { l with engine := none, array := op.finish ending l.array }

end Machine

end Sys2Proof
end

