-- ==== Sys2Proof/Machine/Eligibility.lean ====
section
/-! DEFINITION. The pass order and the ready list: R17 to R19, R28, R84. -/

namespace Sys2Proof.Machine

/-- Page `p` of the block is STAGED in its slot. -/
def State.stagedPage (s : State) (x b p : Nat) : Bool :=
  match s.slotOf x b p with
  | some i => decide ((s.slot i).state = .staged)
  | none => false

/-- The pages of strip `n` of a DENSE block (R2). -/
def stripPages (n : Nat) : List Nat := [4 * n, 4 * n + 1, 4 * n + 2, 4 * n + 3]

/-- A ROUGH of strip `n` does not come before the FINAL two strips below (R17). -/
def BlockRec.roughInOrder (r : BlockRec) (n : Nat) : Bool := decide (n < 2) || decide (n - 1 ≤ r.finalDone)

/-- A data ROUGH of strip rough_done is eligible (R17). -/
def State.roughEligible (s : State) (x b : Nat) : Bool :=
  let r := s.record x b
  decide (r.roughDone < Config.strips) && r.roughInOrder r.roughDone && (stripPages r.roughDone).all (s.stagedPage x b)

/-- Every slot the block owns in strip `n` has left FILLING and RESERVED (R17). -/
def State.stripSettled (s : State) (x b n : Nat) : Bool :=
  (s.ownedSlots x b).all (fun i =>
    decide ((s.slot i).pageNumber / 4 ≠ n) || (decide ((s.slot i).state ≠ .filling) && decide ((s.slot i).state ≠ .reserved)))

/-- A terminator ROUGH of strip rough_done is eligible (R17). -/
def State.terminatorEligible (s : State) (x b : Nat) : Bool :=
  let r := s.record x b
  match r.dataEnd with
  | some e =>
    decide (r.state = .closing) && decide (lastStrip e < 63) && decide (r.roughDone = lastStrip e + 1)
      && r.roughInOrder r.roughDone && s.stripSettled x b (lastStrip e)
  | none => false

/-- A FINAL of strip final_done is eligible (R18). -/
def BlockRec.finalEligible (r : BlockRec) : Bool :=
  decide (r.finalDone < Config.strips) && decide (r.finalDone < r.roughDone)
    && (decide (r.finalDone + 1 < r.roughDone) || decide (r.finalDone = 63))
    && (decide (r.state ≠ .closing) || (match r.dataEnd with | some e => decide (r.finalDone ≤ lastStrip e) | none => false))

/-- The block's one eligible pass (R17 to R19). DESIGN CHOICE (log 43): where the conditions of a data ROUGH and of a terminator ROUGH
both hold, which R17 says never happens and no run reaches, the data ROUGH is taken. A block without density and a FINAL of a CLOSING block
without data_end, which no run reaches either, are not eligible (log 46). -/
def State.eligible (s : State) (x b : Nat) : Option Pass :=
  let r := s.record x b
  if r.running then
    match r.density with
    | some .dense =>
      if r.finalEligible then some { kind := .final, strip := r.finalDone }
      else if s.roughEligible x b then some { kind := .rough, strip := r.roughDone }
      else if s.terminatorEligible x b then some { kind := .terminator, strip := r.roughDone }
      else none
    | some .swift =>
      if decide (r.finalDone < Config.strips) && s.stagedPage x b r.finalDone then some { kind := .single, strip := r.finalDone }
      else none
    | none => none
  else none

/-- A pass of the block is in flight (R29). -/
def Lane.passInFlight (l : Lane) (b : Nat) : Bool :=
  match l.job with
  | some (.pass b' _) => decide (b' = b)
  | _ => false

/-- The ready list changes; when it becomes empty read_run is 0 (R84, R89). -/
def Lane.setReady (l : Lane) (list : List ReadyEntry) : Lane :=
  { l with readyList := list, readRun := if list.isEmpty then 0 else l.readRun }

/-- The block's entry leaves the ready list and ready_pass becomes absent (R28, R29). -/
def Lane.unready (l : Lane) (b : Nat) : Lane :=
  (l.setReady (l.readyList.filter (fun e => decide (e.block ≠ b)))).modRecord b (fun r => { r with readyPass := none })

/-- The pass joins the tail of the ready list (R28). -/
def Lane.makeReady (l : Lane) (b : Nat) (p : Pass) : Lane :=
  (l.setReady (l.readyList ++ [{ block := b, pass := p }])).modRecord b (fun r => { r with readyPass := some p })

/-- The test of R28 for a block: an eligible pass joins the ready list, and a block that has left OPEN and CLOSING leaves it. -/
def State.testBlock (s : State) (x b : Nat) : State :=
  let r := s.record x b
  if r.running then
    if r.readyPass.isNone && !(s.lane x).passInFlight b then
      match s.eligible x b with
      | some p => s.modLane x (fun l => l.makeReady b p)
      | none => s
    else s
  else if r.readyPass.isSome then s.modLane x (fun l => l.unready b)
  else s

end Sys2Proof.Machine
end

