-- ==== Sys2Proof/Machine/ReadPath.lean ====
section
/-! DEFINITION. Where a page is found, and the READ replies that need no array job: R38, R56, R102, R109, R110. -/

namespace Sys2Proof.Machine

/-- The classes of R38. HELD names the page's slot. -/
inductive PageClass where
  | erased
  | notWritten
  | pad
  | finalized
  | held (slot : Nat)
  deriving DecidableEq, Repr

/-- The end of the pages the block counts: the strip end of data_end (DENSE), data_end (SWIFT), or intake_next without data_end. -/
def BlockRec.pagesEnd (r : BlockRec) : Nat :=
  match r.dataEnd with
  | some e => if r.density = some .swift then e else stripEnd e
  | none => r.intakeNext

/-- The page is a pad page (section 2.1). -/
def BlockRec.isPad (r : BlockRec) (p : Nat) : Bool :=
  match r.dataEnd with
  | some e => decide (e ≤ p) && decide (p < r.pagesEnd)
  | none => false

/-- The class of page `p` of block `b` (R38): the first row whose condition holds. DESIGN CHOICE (log 46): a page of the held range whose
slot is absent or in a state that no row names, which no run reaches, is NOT_WRITTEN. -/
def State.classify (s : State) (x b p : Nat) : PageClass :=
  let r := s.record x b
  if r.state = .erased then .erased
  else if r.state = .retired then .notWritten
  else if r.q * Config.strips ≤ p then .notWritten
  else if r.isPad p then .pad
  else if r.pagesEnd ≤ p then .notWritten
  else if p / r.q < r.finalDone then .finalized
  else
    match s.slotOf x b p with
    | some i => if (s.slot i).state = .staged ∨ (s.slot i).state = .roughed then .held i else .notWritten
    | none => .notWritten

/-- The status of a READ of a class that has no data source (R102). -/
def PageClass.status : PageClass → Status
  | .erased => .erasedPage
  | .pad => .padPage
  | _ => .notWritten

/-- The fields of a READ reply served from slot `i` (R109, R110). -/
def State.slotReadFields (s : State) (i : Nat) : ReadFields :=
  { source := .slot, physical := none, maxCorrected := 0, lostSectors := [], retryStep := 0, drifting := false,
    checked := some (pageCheck (s.slot i).page, (s.slot i).tagArea) }

/-- One more transmission reads from the slot (R56). -/
def Slot.pin (sl : Slot) : Slot := { sl with pins := sl.pins + 1 }

/-- A READ of a HELD page is served: its slot is pinned and the reply is queued with the slot as source (R56, R90). -/
def State.serveHeld (s : State) (t x b p i : Nat) : State :=
  (s.modSlot i Slot.pin).finish t .done (.read x b p (s.slotReadFields i)) (some (.slot i))

/-- A READ without data is answered by its class alone (R102). -/
def State.serveEmpty (s : State) (t x b p : Nat) (c : PageClass) : State := s.finish t c.status (.page x b p) none

end Sys2Proof.Machine
end

