-- ==== Sys2Proof/Machine/Scheduler.lean ====
section
/-! DEFINITION. The lane scheduler: R29, R86 to R91, R103, R117, R120, R123. -/

namespace Sys2Proof.Machine

/-! ### The choice (R87) -/

/-- What the scheduler takes at one choice. -/
inductive Choice where
  | read (tag block page : Nat) (cls : PageClass)
  | pass (e : ReadyEntry)
  | erase (tag block : Nat)
  | wait
  deriving DecidableEq, Repr

/-- A choice is due: no job in flight, the lane READY, and work on the ready list or in the queue (R86). -/
def Lane.choiceDue (l : Lane) : Bool :=
  l.job.isNone && decide (l.state = .ready) && (!l.readyList.isEmpty || !l.workQueue.isEmpty)

/-- Rule 1 of R87: a READ at the head, whose egress buffer is free if it needs it (R88), within its burst. -/
def State.readFirst (s : State) (x : Nat) : Option Choice :=
  let l := s.lane x
  match l.workQueue with
  | { tag := t, block := b, kind := .read p } :: _ =>
    let c := s.classify x b p
    if (c ≠ .finalized ∨ l.egress.state = .free) ∧ (l.readyList = [] ∨ l.readRun < s.rqu.settings.readBurst) then
      some (.read t b p c)
    else none
  | _ => none

/-- Rule 2 of R87: the oldest FINAL on the list, else the oldest entry. -/
def Lane.nextPass (l : Lane) : Option ReadyEntry :=
  match l.readyList.find? (fun e => decide (e.pass.kind = .final)) with
  | some e => some e
  | none => l.readyList.head?

/-- The rules of R87 in order. -/
def State.choice (s : State) (x : Nat) : Choice :=
  match s.readFirst x with
  | some c => c
  | none =>
    match (s.lane x).nextPass with
    | some e => .pass e
    | none =>
      match (s.lane x).workQueue with
      | { tag := t, block := b, kind := .erase } :: _ => .erase t b
      | _ => .wait

/-! ### Taking a READ (R90, R103) -/

/-- The head entry leaves the work queue; a READ taken while a pass is ready counts in read_run (R89). -/
def Lane.popRead (l : Lane) : Lane :=
  { l with workQueue := l.workQueue.tail, readRun := if l.readyList.isEmpty then l.readRun else l.readRun + 1 }

/-- The egress buffer is claimed with every sector PENDING (R103, R104). -/
def Egress.claim (e : Egress) : Egress := { e with state := .claimed, sectors := Vector.replicate 8 .pending, lastStep := 0 }

/-- A QUEUED tag becomes ACTIVE (R90, R91). -/
def TagEntry.activate (e : TagEntry) : TagEntry := if e.state = .queued then { e with state := .active } else e

/-- The start of an array READ job (R103). -/
def State.startRead (s : State) (x t b p : Nat) : State :=
  let phys := (s.record x b).physical
  (s.modTag t TagEntry.activate).modLane x (fun l =>
    { (l.present (.sense phys p 0)) with
      egress := l.egress.claim, job := some (.read t b p phys) })

/-- The scheduler takes a READ whose page is of class `c` (R90). -/
def State.takeRead (s : State) (x t b p : Nat) (c : PageClass) : State :=
  let s := s.modLane x Lane.popRead
  match c with
  | .finalized => s.startRead x t b p
  | .held i => s.serveHeld t x b p i
  | c => s.serveEmpty t x b p c

/-! ### Starting a pass (R29, R8 to R11) -/

/-- The page the engine copies for page `p` of the block: the slot's content, or the pad pattern for a pad slot (R8, R9, R52). DESIGN
CHOICE (log 44): the pad pattern also where no slot serves the page, which no run reaches. -/
def State.programPage (s : State) (x b p : Nat) : Page :=
  match s.slotOf x b p with
  | some i => if (s.slot i).pad then padPage else (s.slot i).page
  | none => padPage

/-- The operation of a pass, checked against its starting state (R11). The data_end of a terminator ROUGH is present in every run
(log 45). -/
def State.passOperation (s : State) (x b : Nat) (p : Pass) : Operation :=
  let r := s.record x b
  let refused := !((s.lane x).array.block r.physical).canStart p.kind p.strip
  match p.kind with
  | .rough => .rough r.physical p.strip ((stripPages p.strip).map (s.programPage x b)) refused
  | .terminator => .terminatorRough r.physical p.strip (r.dataEnd.getD 0) refused
  | .final => .final r.physical p.strip ((stripPages p.strip).map (s.programPage x b)) refused
  | .single => .single r.physical p.strip (s.programPage x b p.strip) refused

/-- The scheduler takes a pass: it leaves the ready list, read_run is 0, and its operation starts (R29, R87). -/
def State.startPass (s : State) (x : Nat) (e : ReadyEntry) : State :=
  let op := s.passOperation x e.block e.pass
  s.modLane x (fun l =>
    { ((l.unready e.block).present op) with readRun := 0, job := some (.pass e.block e.pass) })

/-! ### Taking an ERASE (R91, R117) -/

/-- A reserve is available for host block `b` (R117). -/
def Lane.reserveAvailable (l : Lane) (b : Nat) : Bool := !l.freeReserves.isEmpty && mapHasRoom l.substMap b

/-- The course of an ERASE (R117). `none` is NO_RESERVE. -/
def Lane.eraseCourse (l : Lane) (b : Nat) : Option EraseCourse :=
  let r := l.record b
  if r.suspect = true ∨ r.state = .retired then
    if l.reserveAvailable b then some (.substitution (l.freeReserves.headD 0))
    else if r.state = .retired then none
    else some .inPlace
  else some .inPlace

/-- erase_pending of a block is cleared (R41). -/
def State.clearErasePending (s : State) (x b : Nat) : State := s.modRecord x b (fun r => { r with erasePending := false })

/-- The physical block an ERASE of the course names. -/
def EraseCourse.block (c : EraseCourse) (physical : Nat) : Nat :=
  match c with
  | .inPlace => physical
  | .substitution r => r

/-- The free-reserve list without the reserve the course takes (R120). -/
def EraseCourse.takeReserve (c : EraseCourse) (free : List Nat) : List Nat :=
  match c with
  | .inPlace => free
  | .substitution _ => free.tail

/-- The start of an ERASE job on its course (R91, R117, R120). -/
def State.startErase (s : State) (x t b : Nat) (c : EraseCourse) : State :=
  let phys := (s.record x b).physical
  (s.modTag t TagEntry.activate).modLane x (fun l =>
    { (l.present (.erase (c.block phys))) with
      freeReserves := c.takeReserve l.freeReserves, job := some (.erase t b c none) })

/-- An ERASE of a RETIRED block ends NO_RESERVE at its take (R123, R125). -/
def State.endNoReserve (s : State) (x t b : Nat) : State :=
  let fields : EraseFields :=
    { course := none, physical := (s.record x b).physical, substituted := false, directory := .notNeeded,
      freeReserves := (s.lane x).freeReserves.length }
  (s.clearErasePending x b).finish t .noReserve (.erase x b (some fields)) none

/-- The scheduler takes an ERASE (R91, R117). -/
def State.takeErase (s : State) (x t b : Nat) : State :=
  let s := s.modLane x (fun l => { l with workQueue := l.workQueue.tail })
  if s.wpAsserted then (s.clearErasePending x b).finish t .writeProtected (.erase x b none) none
  else
    match (s.lane x).eraseCourse b with
    | some c => s.startErase x t b c
    | none => s.endNoReserve x t b

/-! ### The scheduler (R86) -/

/-- One choice carried out. -/
def State.take (s : State) (x : Nat) (c : Choice) : State :=
  match c with
  | .read t b p cls => s.takeRead x t b p cls
  | .pass e => s.startPass x e
  | .erase t b => s.takeErase x t b
  | .wait => s

/-- Choices of lane `x` until a job is in flight or the rules say wait (R86). Every choice but a start of a job takes an entry out of
the work queue, so `fuel` of its length and one more is enough. -/
def scheduleFuel : Nat → Nat → State → State
  | 0, _, s => s
  | fuel + 1, x, s => if (s.lane x).choiceDue then scheduleFuel fuel x (s.take x (s.choice x)) else s

/-- The lane scheduler at the end of a happening on lane `x` (R86). -/
def State.schedule (s : State) (x : Nat) : State := scheduleFuel ((s.lane x).workQueue.length + 1) x s

end Sys2Proof.Machine
end

