-- ==== Sys2Proof/Machine/Resets.lean ====
section
/-! DEFINITION. The application of LANE_RESET and PART_RESET to a lane, and the completion of PART_RESET: R42, R62, R81, R98, R99, R164. -/

namespace Sys2Proof.Machine

/-! ### Block records (R42) -/

/-- The reset sets the block ERASED: held pages, and no pass has started since its last erase. -/
def BlockRec.resetsErased (r : BlockRec) : Bool :=
  decide (0 < r.heldCount) && decide (r.roughDone = 0) && decide (r.finalDone = 0) && !r.suspect

/-- The reset sets the block CLOSED: held pages, and any other condition. -/
def BlockRec.resetsClosed (r : BlockRec) : Bool := decide (0 < r.heldCount) && !r.resetsErased

/-- The block record after a reset (R42). -/
def BlockRec.afterReset (r : BlockRec) : BlockRec :=
  let r' := { r with erasePending := false, failNotice := false, readyPass := none }
  if r.resetsErased then { r' with state := .erased, density := none, dataEnd := none, closedBy := none, intakeNext := 0 }
  else if r.resetsClosed then
    { r' with state := .closed, closedBy := some .reset, dataEnd := some r.firstHeld, intakeNext := r.firstHeld }
  else r'

/-- Steps 1 to 3 of R98 at the lane: empty work queue and ready list, read_run 0, block records by R42. -/
def Lane.applyReset (l : Lane) : Lane :=
  { l with workQueue := [], readyList := [], readRun := 0, records := changeAll BlockRec.afterReset l.records }

/-- The number of blocks a reset of the lane sets ERASED. -/
def Lane.countErased (l : Lane) : Nat := l.records.toList.countP BlockRec.resetsErased

/-- The number of blocks a reset of the lane sets CLOSED. -/
def Lane.countClosed (l : Lane) : Nat := l.records.toList.countP BlockRec.resetsClosed

/-- The slots owned by pages of lane `x` (R62). -/
def State.laneSlots (s : State) (x : Nat) : List Nat := slotNumbers.filter (fun i => (s.slot i).ofLane x)

/-! ### LANE_RESET (R98) -/

/-- A work queue entry ends ABORTED (R92, R98). -/
def State.abortItem (x : Nat) (s : State) (w : WorkItem) : State :=
  match w.kind with
  | .read p => s.finish w.tag .aborted (.page x w.block p) none
  | .erase => s.finish w.tag .aborted (.erase x w.block none) none

/-- A write that has not yet its final reply (R81). -/
def TagEntry.openWrite (e : TagEntry) : Bool :=
  decide (e.kind = .write) && (decide (e.state = .transfer) || decide (e.state = .staged) || decide (e.state = .heldFailed))

/-- The key of the order block by block and in page order. -/
def State.addressKey (s : State) (t : Nat) : Nat :=
  match s.tag t with
  | some e => e.block.getD 0 * 256 + e.page.getD 0
  | none => 0

/-- The write tags a LANE_RESET of lane `x` ends, in the order of their replies (R81, R98). -/
def State.laneWrites (s : State) (x : Nat) : List Nat :=
  sortByKey s.addressKey (s.tagsWhere (fun e => e.openWrite && decide (e.lane = some x)))

/-- The CLOSE tags a LANE_RESET of lane `x` ends, in increasing host block number (R98). -/
def State.laneCloses (s : State) (x : Nat) : List Nat :=
  sortByKey s.addressKey
    (s.tagsWhere (fun e => decide (e.kind = .close) && decide (e.state = .waiting) && decide (e.lane = some x)))

/-- A CLOSE tag ends ABORTED (R98, log 25). -/
def State.abortClose (s : State) (t : Nat) : State :=
  match s.tag t with
  | some e => s.finish t .aborted (.block (e.lane.getD 0) (e.block.getD 0)) none
  | none => s

/-- The waiting LANE_RESET tag of lane `x` ends DONE with its three counts (R98). DESIGN CHOICE (log 46): in states no run reaches, the
lowest of several such tags ends, and none when there is none. -/
def State.endLaneReset (s : State) (x aborted erased closed : Nat) : State :=
  match (s.tagsWhere (fun e => decide (e.kind = .laneReset) && decide (e.state = .waiting) && decide (e.lane = some x))).head? with
  | some t => s.finish t .done (.laneReset x aborted erased closed) none
  | none => s

/-- The lane becomes READY (R98, step 7). -/
def State.makeLaneReady (s : State) (x : Nat) : State := s.modLane x (fun l => { l with state := .ready })

/-- A LANE_RESET is applied to lane `x` (R98). -/
def State.applyLaneReset (s : State) (x : Nat) : State :=
  let items := (s.lane x).workQueue
  let writes := s.laneWrites x
  let closes := s.laneCloses x
  let s1 := items.foldl (State.abortItem x) s
  let s2 := s1.modLane x Lane.applyReset
  let s3 := s2.releaseSlots (s2.laneSlots x)
  let s4 := writes.foldl (fun s t => s.endWrite t .aborted) s3
  let s5 := closes.foldl State.abortClose s4
  let s6 := s5.endLaneReset x (items.length + writes.length + closes.length) (s.lane x).countErased (s.lane x).countClosed
  s6.makeLaneReady x

/-! ### PART_RESET (R99, R164) -/

/-- Tags leave the table with no reply and no copy, and their queued replies are removed (R153, R164). -/
def State.removeTags (s : State) (gone : List Nat) : State :=
  let s1 := gone.foldl (fun s t => s.setTag t none) s
  let s2 := s1.removeReplies (fun q => !q.isRefusal && gone.contains q.reply.tag)
  { s2 with
    link := { s2.link with
      deferred := s2.link.deferred.filter (fun q => !gone.contains q.reply.tag) } }

/-- Notes in the PART_RESET's progress what lane `x` did and how many tags were removed. -/
def State.noteReset (s : State) (x erased closed removed : Nat) : State :=
  { s with rqu := { s.rqu with partReset := s.rqu.partReset.map (fun p =>
      { p with lanes := p.lanes.setIfInBounds x (.applied erased closed), removed := p.removed + removed }) } }

/-- A PART_RESET is applied to lane `x` (R99, R164). -/
def State.applyPartReset (s : State) (x : Nat) : State :=
  let s1 := s.modLane x Lane.applyReset
  let s2 := s1.releaseSlots (s1.laneSlots x)
  let s3 := s2.makeLaneReady x
  let gone := s3.tagsWhere (fun e => decide (e.lane = some x))
  (s3.removeTags gone).noteReset x (s.lane x).countErased (s.lane x).countClosed gone.length

/-- The application of the reset that lane `x` is waiting for: due when the lane is RESETTING and no job is in flight (R96, R99). -/
def State.applyDueReset (s : State) (x : Nat) : State :=
  if (s.lane x).state = .resetting ∧ (s.lane x).job = none then
    if s.rqu.part = .resetting then s.applyPartReset x else s.applyLaneReset x
  else s

/-- Every lane the PART_RESET reached has applied its reset. -/
def PartReset.complete (p : PartReset) : Bool := p.lanes.toList.all (fun r => decide (r ≠ .waiting))

/-- The completing happening of a PART_RESET (R164). -/
def State.finishPartReset (s : State) (p : PartReset) : State :=
  let gone := (s.tagsWhere (fun _ => true)).filter (fun t => decide (t ≠ p.tag))
  let s1 := (s.removeTags gone).removeReplies (fun _ => true)
  let s2 := { s1 with
    link := { s1.link with deferred := none }
    rqu := { s1.rqu with ring := [], part := .running, partReset := none } }
  s2.finish p.tag .done (.partReset p.lanes.toList (p.removed + gone.length)) none

/-- PART_RESET completes in the happening in which the last reached lane applies its reset (R164). -/
def State.completeReset (s : State) : State :=
  match s.rqu.partReset with
  | some p => if p.complete then s.finishPartReset p else s
  | none => s

/-- The end of a happening on lane `x`: a due reset, the completion of a PART_RESET, the scheduler's choices (R86, R98, R99, R164). -/
def State.settleLane (s : State) (x : Nat) : State := (s.applyDueReset x).completeReset.schedule x

end Sys2Proof.Machine
end

