-- ==== Sys2Proof/Machine/Arbiter.lean ====
section
/-! DEFINITION. The outbound arbiter and the composing of frames: R134, R161, R162, R170, R171, R173 to R177. -/

namespace Sys2Proof.Machine

/-- A frame is composed (R171, R174, R175): its header is fixed from the state as it stands, the acknowledgement is settled, and a
numbered frame advances the outbound number. -/
def Link.compose (l : Link) (what : Sending) (numbered : Bool) (tag : Nat) (payload : List Byte) : Link :=
  let frame : OutFrame :=
    { what := what, seq := l.outbound, ack := l.expected, window := Config.intakeBuffers - l.intake.length, tag := tag,
      payload := payload }
  Link.settleAck { l with tx := some frame, outbound := if numbered then l.outbound + 1 else l.outbound }

/-- The tag field of NOTE, ACK, NAK and part SYNC frames (R167). -/
def noTag : Nat := 255

/-- The lowest host block of a lane with fail_notice set. -/
def Lane.firstFailed (l : Lane) : Option Nat := l.records.toList.findIdx? BlockRec.failNotice

/-- The first pending BLOCK_FAILED condition: lowest lane, then lowest host block (R177). -/
def State.firstBlockFailed (s : State) : Option Notice :=
  (List.range Config.lanes).findSome? (fun x => (s.lane x).firstFailed.map (fun b => .blockFailed x b))

/-- The notice the arbiter picks among the pending conditions (R177). -/
def State.nextNotice (s : State) : Option Notice :=
  if s.rqu.startupDone.pending then some .startupDone
  else if s.rqu.wpNotice.pending then some .wpChanged
  else if s.rqu.poolLow.pending then some .poolLow
  else s.firstBlockFailed

/-- The payload of a notice, its figures read at composition (R161, R167, log 20). -/
def State.noticePayload (s : State) (n : Notice) : List Byte :=
  match n with
  | .blockFailed x b => num1 1 ++ num1 x ++ num2 b ++ num2 (s.record x b).firstHeld ++ num1 (s.record x b).heldCount
  | .poolLow => num1 2 ++ num1 s.freeCount
  | .wpChanged => num1 3 ++ flag1 s.wpAsserted
  | .startupDone => num1 4 ++ s.rqu.scanEnd.toList.flatMap (fun ok => num1 (if ok then 2 else 4))

/-- Composes the frame of notice `n`. -/
def State.sendNotice (s : State) (n : Notice) : State :=
  { s with link := { s.link.compose (.note n) true noTag (s.noticePayload n) with lastTurn := some .notice } }

/-- Composes the reply frame of the head entry. -/
def State.sendReply (s : State) (r : Reply) : State :=
  { s with link := { s.link.compose (.rsp false) true r.tag r.bytes with lastTurn := some .reply } }

/-- Composes DATA chunk `c` of the head entry (R111, R176). -/
def State.sendChunk (s : State) (q : QueueEntry) (c : Nat) : State :=
  { s with
    link := { s.link.compose (.data c false) true q.reply.tag (num1 c ++ s.sourceChunk q.source c) with
      transmission := some (c + 1) } }

/-- Composes the SYNC answer, which carries seq 0 (R173). -/
def State.sendSync (s : State) : State :=
  let l := { s.link with outbound := 0, syncDue := false }
  { s with link := l.compose .sync false noTag [l.expected] }

/-- Composes a NAK (R170). -/
def State.sendNak (s : State) (r : NakReason) : State :=
  { s with link := { s.link.compose .nak false noTag (num1 r.code) with nakDue := none } }

/-- Composes an ACK (R171). -/
def State.sendAck (s : State) : State := { s with link := s.link.compose .ack false noTag [] }

/-- What the arbiter chooses (R177). -/
inductive Outbound where
  | sync
  | nak (r : NakReason)
  | data (q : QueueEntry) (chunk : Nat)
  | reply (r : Reply)
  | notice (n : Notice)
  | ack
  | nothing
  deriving DecidableEq, Repr

/-- Step 4 of R177: a reply or a notice, in turn when both wait. -/
def State.replyOrNotice (s : State) : Outbound :=
  match s.link.queue, s.nextNotice with
  | q :: _, some n => if s.link.lastTurn = some .notice then .reply q.reply else .notice n
  | q :: _, none => .reply q.reply
  | [], some n => .notice n
  | [], none => if s.link.ackDue then .ack else .nothing

/-- The arbiter's choice (R177). -/
def State.outbound (s : State) : Outbound :=
  if s.link.syncDue then .sync
  else
    match s.link.nakDue with
    | some r => .nak r
    | none =>
      match s.link.transmission, s.link.queue with
      | some c, q :: _ => .data q c
      | _, _ => s.replyOrNotice

/-- The arbiter at the end of a happening: with the transmitter idle, the chosen frame is composed (R175, R177). -/
def State.arbitrate (s : State) : State :=
  if s.link.tx.isSome then s
  else
    match s.outbound with
    | .sync => s.sendSync
    | .nak r => s.sendNak r
    | .data q c => s.sendChunk q c
    | .reply r => s.sendReply r
    | .notice n => s.sendNotice n
    | .ack => s.sendAck
    | .nothing => s

end Sys2Proof.Machine
end

