-- ==== Sys2Proof/Machine/Happening.lean ====
section
/-! DEFINITION. One happening as a whole: its own effects, then what the spec puts at the end of every happening. And the taking of an
intake frame with the checks that come first (R143, R145, R146). -/

namespace Sys2Proof.Machine

/-- The outcome of a command. -/
abbrev Result := Host.Outcome State Fault Refusal

/-- The end of a happening on the lanes `xs` that began in state `before` and whose own effects gave `after`: due resets and
scheduler choices (R86, R98), the pool's tests (R60, R61), the outbound arbiter (R177). DESIGN CHOICE (log 39): the arbiter chooses once,
after all the rest, so that a POOL_LOW the pool's test raises and a reply queued in the same happening both wait at its choice. -/
def State.conclude (before : State) (xs : List Nat) (after : State) : State :=
  ((xs.foldl State.settleLane after).poolCheck before.freeCount).arbitrate

/-- A happening that comes about. -/
def happen (before : State) (xs : List Nat) (after : State) : Result := .next (before.conclude xs after)

/-- While RST# is asserted no rule of any block acts (R180). -/
def unlessReset (s : State) (r : Result) : Result := if s.inReset then .refused .heldInReset else r

/-! ### Taking frames (R143, R145, R146) -/

/-- The conditions on which RQU takes a frame (R143). -/
def State.mayTake (s : State) (f : InFrame) : Bool :=
  decide ((s.link.queue.countP QueueEntry.isRefusal) < Config.sharedRefusals)
    && (decide (f.kind ≠ kindReq) || decide (Config.tags ≤ f.tag) || (s.tag f.tag).isSome
      || !s.link.queue.any (QueueEntry.reservedFor f.tag))

/-- The frame leaves its intake buffer (R143, R171, R172). -/
def State.unbuffer (s : State) : State := { s with link := ({ s.link with intake := s.link.intake.tail }).reopenWindow }

/-- The taking of the oldest frame as a frame of the row `p`: `k` is given the state without the frame. A frame that R143 holds back
waits in its buffer, and nothing changes (log 3). -/
def takeOldest (s : State) (p : InFrame → Bool) (k : State → InFrame → Result) : Result :=
  unlessReset s (
    match s.link.intake with
    | [] => .refused .noFrameToTake
    | f :: _ =>
      if p f then
        if s.mayTake f then k s.unbuffer f else .next s
      else .refused .otherFrameOldest)

/-- A refused frame: the happening changes nothing but the reply queue (R145). -/
def refused (s : State) (f : InFrame) (status : Status) (fields : ReplyFields) : Result := happen s [] (s.refuse f status fields)

/-- Check 3 (R146): IDENTIFY and TAG_STATUS are taken in every part state. -/
def partCheck (kind : ReqKind) (part : PartState) : Option Status :=
  match kind, part with
  | .identify, _ => none
  | .tagStatus, _ => none
  | _, .starting => some .starting
  | _, .resetting => some .resetting
  | _, .running => none

/-- Checks 1 to 3 of R145: MALFORMED, TAG_IN_USE, and STARTING or RESETTING. A request that passes goes on to `k` with its tag. -/
def takeRequest (s : State) (kind : ReqKind) (k : State → InFrame → Request → Result) : Result :=
  takeOldest s (fun f => f.isRequest kind) (fun s f =>
    match parseRequest f.payload with
    | none => refused s f .malformed .plain
    | some req =>
      if Config.tags ≤ f.tag then refused s f .malformed .plain
      else if (s.tag f.tag).isSome then refused s f .tagInUse .plain
      else
        match partCheck kind s.rqu.part with
        | some st => refused s f st .plain
        | none => k s f req)

/-- Check 5 (R95): the lane's state. -/
def laneCheck (l : Lane) : Option Status :=
  match l.state with
  | .ready => none
  | .scanning => some .laneNotReady
  | .resetting => some .laneNotReady
  | .offline => some .laneOffline

/-- Checks 4 and 5 for a request that names a lane and a block (R145, R95): BAD_ADDRESS, then the lane's state. -/
def addressCheck (s : State) (x b : Nat) : Option Status :=
  if Config.lanes ≤ x then some .badAddress
  else if Config.hostBlocks ≤ b then some .badAddress
  else laneCheck (s.lane x)

/-- A check of the dispatch order: its status when it fails. -/
def failsWith (c : Bool) (st : Status) : Option Status := if c then some st else none

/-- The first check that fails names the refusal; with none the request is taken (R145). -/
def dispatch (s : State) (f : InFrame) (check : Option Status) (taken : Result) : Result :=
  match check with
  | some st => refused s f st .plain
  | none => taken

end Sys2Proof.Machine
end

