-- ==== Sys2Proof/Machine/BlockRequests.lean ====
section
/-! DEFINITION. The requests that work on a block: WRITE, READ, ERASE, CLOSE (Chapters 2, 3, 4, 6, 7). -/

namespace Sys2Proof.Machine

/-! ### WRITE: the pool's part of an admission (R24, R25, R47 to R50) -/

/-- The block holds a slot in strip `n`. -/
def State.ownsStrip (s : State) (x b n : Nat) : Bool :=
  (s.ownedSlots x b).any (fun i => decide ((s.slot i).pageNumber / 4 = n))

/-- The four lowest FREE slots are reserved for strip `n`, the lowest for level 0 (R48). -/
def State.reserveStrip (s : State) (x b n : Nat) (is : List Nat) : State :=
  (is.zip (stripPages n)).foldl (fun s e => s.modSlot e.1 (Slot.reserveFor { lane := x, block := b, page := e.2 })) s

/-- The slot a DENSE page is to fill and the pool with it at hand (R24, R48, R50). `none` is POOL_FULL. DESIGN CHOICE (log 34): the
state of the page's own slot is not tested; one that is not RESERVED, which no run reaches, is taken as a RESERVED one is. A strip the
block owns slots in but none for this page, which no run reaches either, is POOL_FULL. -/
def State.grantDense (s : State) (x b p : Nat) : Option (State × Nat) :=
  if s.ownsStrip x b (p / 4) then
    match s.slotOf x b p with
    | some i =>
      if (s.slot i).pins = 0 then some (s, i)
      else
        match s.slotsIn .free with
        | j :: _ => some (s.releaseSlot i, j)
        | [] => none
    | none => none
  else
    let is := (s.slotsIn .free).take 4
    if is.length = 4 then (is[p % 4]?).map (fun i => (s.reserveStrip x b (p / 4) is, i)) else none

/-- The slot a SWIFT page is to fill (R25, R49). `none` is POOL_FULL. -/
def State.grantSwift (s : State) : Option (State × Nat) :=
  match s.slotsIn .free with
  | i :: _ => some (s, i)
  | [] => none

/-- The slot a page is to fill, by density. -/
def State.grant (s : State) (x b p : Nat) (d : Density) : Option (State × Nat) :=
  match d with
  | .dense => s.grantDense x b p
  | .swift => s.grantSwift

/-! ### WRITE: the checks (R23, R64, R65) -/

/-- The page lies in the intake window (R26). -/
def BlockRec.inWindow (r : BlockRec) (d : Density) (p : Nat) : Bool :=
  match d with
  | .dense => decide (p % 4 ≠ 0) || decide (p / 4 ≤ r.finalDone + 2)
  | .swift => decide (p ≤ r.finalDone + 3)

/-- The lane controller's admission checks but for the pool's (R23). -/
def BlockRec.admissionCheck (r : BlockRec) (d : Density) (p : Nat) : Option Status :=
  if r.state ≠ .erased ∧ r.state ≠ .opened then some .blockState
  else if r.erasePending then some .blockBusy
  else if r.state = .opened ∧ r.density ≠ some d then some .densityMismatch
  else if p ≠ r.intakeNext then some .outOfOrder
  else if r.inWindow d p then none
  else some .intakeAhead

/-- Checks 4 to 12 of a WRITE (R145): the page range follows the WRITE's density. -/
def State.writeCheck (s : State) (x b p : Nat) (d : Density) : Option Status :=
  if Config.lanes ≤ x ∨ Config.hostBlocks ≤ b ∨ d.pages ≤ p then some .badAddress
  else
    (laneCheck (s.lane x)).or
      ((failsWith s.wpAsserted .writeProtected).or
        (((s.record x b).admissionCheck d p).or (failsWith (s.grant x b p d).isNone .poolFull)))

/-! ### WRITE: the admission (R24, R25, R63) -/

/-- An ERASED block opens with the density of the WRITE (R24, R25). -/
def BlockRec.openFor (r : BlockRec) (d : Density) : BlockRec :=
  if r.state = .erased then
    { r with
      state := .opened
      density := some d
      intakeNext := 0
      roughDone := 0
      finalDone := 0
      dataEnd := none
      closedBy := none
      readyPass := none }
  else r

/-- The record after an admission: open, and intake_next one higher (R24, R25). -/
def BlockRec.takeIn (r : BlockRec) (d : Density) : BlockRec := { r.openFor d with intakeNext := (r.openFor d).intakeNext + 1 }

/-- The tag entry of a WRITE (R63). -/
def TagEntry.forWrite (x b p i : Nat) (check : Word32) : TagEntry :=
  { kind := .write, state := .transfer, lane := some x, block := some b, page := some p, slot := some i, interimSent := false,
    check := some check }

/-- The admission of a page into slot `i` of the pool at hand (R24, R25, R51, R63). -/
def State.takeIn (s : State) (t x b p i : Nat) (d : Density) (check : Word32) (area : List Byte) : State :=
  let s1 := s.modRecord x b (fun r => r.takeIn d)
  let s2 := s1.modSlot i (Slot.fill { lane := x, block := b, page := p } t s.rqu.settings.transferTimeout area)
  (s2.setTag t (some (.forWrite x b p i check))).testBlock x b

/-- WRITE (R64). -/
def execWrite (s : State) : Result :=
  takeRequest s .write (fun s f req =>
    match req with
    | .write x b p d check area =>
      match s.writeCheck x b p d with
      | some st => refused s f st .plain
      | none =>
        match s.grant x b p d with
        | some (s1, i) => happen s [x] (s1.takeIn f.tag x b p i d check area)
        | none => refused s f .poolFull .plain
    | _ => .refused .otherFrameOldest)

/-! ### READ (R100, R101) -/

/-- Checks 4 and 5 of a READ: pages 0 to 255 for both densities (R100). -/
def State.readCheck (s : State) (x b p : Nat) : Option Status := if 255 < p then some .badAddress else addressCheck s x b

/-- A request enters the lane work queue: its entry at the tail and its tag in QUEUED (R82). -/
def State.enqueue (s : State) (t x b : Nat) (e : TagEntry) (k : WorkKind) : State :=
  (s.setTag t (some e)).modLane x (fun l => { l with workQueue := l.workQueue ++ [{ tag := t, block := b, kind := k }] })

/-- The lane work queue holds 24 entries (R83). -/
def Lane.queueFull (l : Lane) : Bool := decide (Config.workQueueEntries ≤ l.workQueue.length)

/-- READ (R101): a HELD page is served at dispatch, any other READ enters the lane work queue. -/
def execRead (s : State) : Result :=
  takeRequest s .read (fun s f req =>
    match req with
    | .read x b p =>
      dispatch s f (s.readCheck x b p)
        (match s.classify x b p with
        | .held i =>
          happen s [x]
            ((s.modSlot i Slot.pin).answer f.tag (TagEntry.mk' .read .replying (some x) (some b) (some p)) .done
              (.read x b p (s.slotReadFields i)) (some (.slot i)))
        | _ =>
          dispatch s f (failsWith (s.lane x).queueFull .queueFull)
            (happen s [x]
              (s.enqueue f.tag x b (TagEntry.mk' .read .queued (some x) (some b) (some p)) (.read p))))
    | _ => .refused .otherFrameOldest)

/-! ### ERASE (R115) -/

/-- Checks 4 to 13 of an ERASE (R115). -/
def State.eraseCheck (s : State) (x b : Nat) : Option Status :=
  (addressCheck s x b).or
    ((failsWith s.wpAsserted .writeProtected).or
      ((failsWith ((s.record x b).erasePending || decide (0 < (s.record x b).heldCount)) .blockBusy).or
        (failsWith (s.lane x).queueFull .queueFull)))

/-- ERASE (R115): appended to the lane work queue with erase_pending set (R82). -/
def execErase (s : State) : Result :=
  takeRequest s .erase (fun s f req =>
    match req with
    | .erase x b =>
      dispatch s f (s.eraseCheck x b)
        (happen s [x]
          ((s.enqueue f.tag x b (TagEntry.mk' .erase .queued (some x) (some b) none) .erase).modRecord x b
            (fun r => { r with erasePending := true })))
    | _ => .refused .otherFrameOldest)

/-! ### CLOSE (R34 to R37) -/

/-- Some slot of the block is FILLING. -/
def State.anyFilling (s : State) (x b : Nat) : Bool := (s.ownedSlots x b).any (fun i => decide ((s.slot i).state = .filling))

/-- Checks 4 to 8 of a CLOSE (R34). -/
def State.closeCheck (s : State) (x b : Nat) : Option Status :=
  (addressCheck s x b).or
    ((failsWith s.wpAsserted .writeProtected).or
      ((failsWith (decide ((s.record x b).state ≠ .opened)) .blockState).or
        (failsWith (s.anyFilling x b || (s.record x b).erasePending) .blockBusy)))

/-- Nothing is left to program (R36). -/
def BlockRec.nothingLeft (r : BlockRec) : Bool :=
  decide (r.intakeNext = 0) || (decide (r.density = some .swift) && decide (r.finalDone = r.intakeNext))

/-- The slots of the block in strip `n` that are RESERVED. -/
def State.reservedIn (s : State) (x b n : Nat) : List Nat :=
  (s.ownedSlots x b).filter (fun i => decide ((s.slot i).state = .reserved) && decide ((s.slot i).pageNumber / 4 = n))

/-- A CLOSE of a DENSE block with pages (R35): pad fill of the last data strip, release above it, CLOSING. -/
def State.closeDense (s : State) (x b : Nat) : State :=
  let e := (s.record x b).intakeNext
  let n := lastStrip e
  let s1 := s.modSlots (s.reservedIn x b n) Slot.padFill
  let s2 := s1.releaseSlots (s1.reservedIn x b (n + 1))
  (s2.modRecord x b (fun r => { r with dataEnd := some e, intakeNext := stripEnd e, state := .closing })).testBlock x b

/-- A CLOSE of a SWIFT block with pages left to program (R37). -/
def State.closeSwift (s : State) (x b : Nat) : State :=
  (s.modRecord x b (fun r => { r with dataEnd := some r.intakeNext, state := .closing })).testBlock x b

/-- A CLOSE that ends at once (R36). -/
def State.closeEmpty (s : State) (x b : Nat) : State :=
  let s1 := s.modRecord x b (fun r => { r with dataEnd := some r.intakeNext, closedBy := some .host, state := .closed })
  (s1.endClose x b .done).testBlock x b

/-- What a taken CLOSE does to its block (R35 to R37). -/
def State.closeBlock (s : State) (x b : Nat) : State :=
  let r := s.record x b
  if r.nothingLeft then s.closeEmpty x b
  else if r.density = some .swift then s.closeSwift x b
  else s.closeDense x b

/-- CLOSE (R34 to R37). -/
def execClose (s : State) : Result :=
  takeRequest s .close (fun s f req =>
    match req with
    | .close x b =>
      dispatch s f (s.closeCheck x b)
        (happen s [x]
          ((s.setTag f.tag (some (TagEntry.mk' .close .waiting (some x) (some b) none))).closeBlock x b))
    | _ => .refused .otherFrameOldest)

end Sys2Proof.Machine
end

