-- ==== Sys2Proof/Machine/Departures.lean ====
section
/-! DEFINITION. The departures of frames: RSP_DEPARTURE, DATA_FRAME_DEPARTURE, NOTE_DEPARTURE, LINK_CONTROL_DEPARTURE (R150, R154, R162,
R175, R176). -/

namespace Sys2Proof.Machine

/-- The frame's END has been sent and the transmitter is idle (R175). -/
def State.idle (s : State) : State := { s with link := { s.link with tx := none } }

/-- The head entry leaves the reply queue (R151). -/
def State.popReply (s : State) : State := { s with link := { s.link with queue := s.link.queue.tail } }

/-- A ring with a copy appended: the oldest of 32 makes room (R154). -/
def pushCopy (ring : List Reply) (r : Reply) : List Reply := (ring ++ [r]).drop (ring.length + 1 - Config.recallCopies)

/-- A copy of a reply enters the recall ring, if the reply is one that is copied (R147, R154). -/
def State.keepCopy (s : State) (r : Reply) : State :=
  if r.recallable then { s with rqu := { s.rqu with ring := pushCopy s.rqu.ring r } } else s

/-- The reply frame of a DONE READ: DATA frames follow it (R109, R175). -/
def QueueEntry.withData (q : QueueEntry) : Bool := decide (q.reply.status = .done) && q.source.isSome

/-- The interim-sent flag is set (R78). -/
def TagEntry.sentInterim (e : TagEntry) : TagEntry := { e with interimSent := true }

/-- An interim STAGED frame leaves (R78, R175): its entry is freed, the flag is set, and a final reply held back meanwhile joins the
tail. -/
def State.interimLeft (s : State) (q : QueueEntry) : State :=
  let s1 := s.modTag q.reply.tag TagEntry.sentInterim
  { s1 with link := { s1.link with queue := s1.link.queue.tail ++ s1.link.deferred.toList, deferred := none } }

/-- A final reply frame leaves (R150, R154, R175): the tag leaves the table with a recall copy, and the read transmission begins or the
entry leaves with its source. -/
def State.finalLeft (s : State) (q : QueueEntry) : State :=
  let s1 := (s.setTag q.reply.tag none).keepCopy q.reply
  if q.withData then { s1 with link := { s1.link with transmission := some 0 } }
  else s1.popReply.releaseSource q.source

/-- What the departure of the head entry's reply frame does (R175). -/
def State.replyLeft (s : State) (q : QueueEntry) : State :=
  match q.reply.cls with
  | .interim => s.interimLeft q
  | .refusal => s.popReply.keepCopy q.reply
  | .final => s.finalLeft q

/-- The lane whose egress buffer becomes FREE with the source: its scheduler makes a choice (R86, R112). -/
def freedLane : Option Source → List Nat
  | some (.egress x) => [x]
  | _ => []

/-- The lanes on which the departure of a reply frame makes a choice due. -/
def QueueEntry.freedLanes (q : QueueEntry) : List Nat := if q.withData then [] else freedLane q.source

/-- RSP_DEPARTURE (R175). A frame whose entry a PART_RESET removed leaves without effect. -/
def execRspDeparture (s : State) : Result :=
  unlessReset s (
    match s.link.tx.map OutFrame.what, s.link.queue with
    | some (.rsp true), _ => happen s [] s.idle
    | some (.rsp false), q :: _ => happen s q.freedLanes (s.idle.replyLeft q)
    | _, _ => .refused .noSuchFrame)

/-- The last DATA frame leaves (R57, R112, R151, R176). -/
def State.transmitted (s : State) (q : QueueEntry) : State :=
  let s1 := s.popReply
  ({ s1 with link := { s1.link with transmission := none } }).releaseSource q.source

/-- DATA_FRAME_DEPARTURE (R176). Chunks 0 to 6, and a chunk whose entry a PART_RESET removed, leave without further effect. -/
def execDataFrameDeparture (s : State) : Result :=
  unlessReset s (
    match s.link.tx.map OutFrame.what, s.link.queue with
    | some (.data _ true), _ => happen s [] s.idle
    | some (.data c false), q :: _ =>
      if c + 1 < Config.chunks then happen s [] s.idle else happen s (freedLane q.source) (s.idle.transmitted q)
    | _, _ => .refused .noSuchFrame)

/-- A notice frame leaves: its condition is cleared unless it was set again (R134, R162). -/
def State.noteLeft (s : State) (n : Notice) : State :=
  match n with
  | .blockFailed x b => s.modRecord x b (fun r => { r with failNotice := false })
  | .poolLow => { s with rqu := { s.rqu with poolLow := s.rqu.poolLow.leave } }
  | .wpChanged => { s with rqu := { s.rqu with wpNotice := s.rqu.wpNotice.leave } }
  | .startupDone => { s with rqu := { s.rqu with startupDone := s.rqu.startupDone.leave } }

/-- NOTE_DEPARTURE (R162). -/
def execNoteDeparture (s : State) : Result :=
  unlessReset s (
    match s.link.tx.map OutFrame.what with
    | some (.note n) => happen s [] (s.idle.noteLeft n)
    | _ => .refused .noSuchFrame)

/-- ACK, NAK and SYNC frames have no departure effects (R175). -/
def Sending.isControl : Sending → Bool
  | .ack => true
  | .nak => true
  | .sync => true
  | _ => false

/-- LINK_CONTROL_DEPARTURE (R175). -/
def execLinkControlDeparture (s : State) : Result :=
  unlessReset s (
    match s.link.tx.map OutFrame.what with
    | some w => if w.isControl then happen s [] s.idle else .refused .noSuchFrame
    | none => .refused .noSuchFrame)

end Sys2Proof.Machine
end

