-- ==== Sys2Proof/Machine/EraseJobs.lean ====
section
/-! DEFINITION. The ERASE job: IN_PLACE_ERASE_END, RESERVE_ERASE_END, DIRECTORY_WRITE_END (Chapter 7). -/

namespace Sys2Proof.Machine

/-- The record of a block that an ERASE job leaves ERASED on block `phys` (R118, R121). -/
def BlockRec.afterErase (r : BlockRec) (phys : Nat) : BlockRec :=
  { r with
    state := .erased
    physical := phys
    density := none
    dataEnd := none
    closedBy := none
    intakeNext := 0
    roughDone := 0
    finalDone := 0
    suspect := false
    erasePending := false
    readyPass := none }

/-- The record of a block that an ERASE job leaves RETIRED, naming the block whose erase failed (R119, R122). -/
def BlockRec.retire (r : BlockRec) (phys : Nat) : BlockRec := { r.afterErase phys with state := .retired, suspect := r.suspect }

/-- The working tables of the lane as directory contents. -/
def Lane.tables (l : Lane) : Directory := { map := l.substMap, retired := l.retiredReserves }

/-- The directory contents of a retirement of host block `b` whose erase failed on `phys` (R119, R122). -/
def Directory.retire (d : Directory) (b phys : Nat) : Directory :=
  { map := setTarget b none d.map, retired := if Config.firstReserve ≤ phys then d.retired ++ [phys] else d.retired }

/-- The directory contents of a substitution of host block `b` by reserve `r` (R121). -/
def Directory.substitute (d : Directory) (b r : Nat) : Directory := { d with map := setTarget b (some r) d.map }

/-- The working tables take directory contents. -/
def Lane.takeTables (l : Lane) (d : Directory) : Lane := { l with substMap := d.map, retiredReserves := d.retired }

/-- A block placed in order on the free-reserve list (R116). -/
def Lane.addReserve (l : Lane) (p : Nat) : Lane := { l with freeReserves := insertByKey id p l.freeReserves }

/-- The replaced block goes back to the free-reserve list, when it is a reserve block, not factory-bad and not retired (R121). -/
def Lane.returnReserve (l : Lane) (p : Nat) : Lane :=
  if Config.firstReserve ≤ p ∧ (l.array.block p).factoryBad = false ∧ p ∉ l.retiredReserves then l.addReserve p else l

/-- The job's erase has ended with outcome `e`, and a DIRECTORY write carrying `d` is presented (R119, R121, R122, R124). -/
def Lane.presentDirectory (l : Lane) (t b : Nat) (c : EraseCourse) (e : Ending) (d : Directory) : Lane :=
  { l.present (l.array.directoryWrite d) with job := some (.erase t b c (some e)) }

/-- The final reply of an ERASE job (R125): the free-reserve count is that after the job. -/
def State.replyErase (s : State) (x t b : Nat) (status : Status) (c : EraseCourse) (phys : Nat) (subst : Bool) (dir : DirResult) :
    State :=
  let fields : EraseFields :=
    { course := some c, physical := phys, substituted := subst, directory := dir, freeReserves := (s.lane x).freeReserves.length }
  s.finish t status (.erase x b (some fields)) none

/-- IN_PLACE_ERASE_END (R118, R119). -/
def execInPlaceEraseEnd (x : Nat) (ending : Ending) (s : State) : Result :=
  unlessReset s (
    match (s.lane x).engine, (s.lane x).job with
    | some (.erase p), some (.erase t b .inPlace none) =>
      let outcome := (Operation.erase p).outcome (s.lane x).array ending
      let s1 := s.modLane x (fun l => l.endOperation (.erase p) outcome)
      match outcome with
      | .pass =>
        let s2 := s1.modLane x (fun l => { l.modRecord b (fun r => r.afterErase r.physical) with job := none })
        happen s [x] ((s2.replyErase x t b .done .inPlace p false .notNeeded).testBlock x b)
      | .fail =>
        if mapHasRoom (s.lane x).substMap b then
          happen s [x] (s1.modLane x (fun l => l.presentDirectory t b .inPlace .fail (l.tables.retire b p)))
        else
          let s2 := s1.modLane x (fun l => { l.modRecord b (fun r => r.retire p) with job := none })
          happen s [x] ((s2.replyErase x t b .eraseFailed .inPlace p false .mapFull).testBlock x b)
    | _, _ => .refused .noSuchOperation)

/-- RESERVE_ERASE_END (R121, R122). -/
def execReserveEraseEnd (x : Nat) (ending : Ending) (s : State) : Result :=
  unlessReset s (
    match (s.lane x).engine, (s.lane x).job with
    | some (.erase p), some (.erase t b (.substitution r) none) =>
      let outcome := (Operation.erase p).outcome (s.lane x).array ending
      let s1 := s.modLane x (fun l => l.endOperation (.erase p) outcome)
      happen s [x] (s1.modLane x (fun l =>
        l.presentDirectory t b (.substitution r) outcome
          (match outcome with
            | .pass => l.tables.substitute b r
            | .fail => l.tables.retire b r)))
    | _, _ => .refused .noSuchOperation)

/-- The result field of a directory write (R125). -/
def dirResult : Ending → DirResult
  | .pass => .written
  | .fail => .writeFailed

/-- A substitution takes effect (R121): tables, the old block's return, the record ERASED on the reserve. -/
def State.substitutionDone (s : State) (x t b r : Nat) (d : Directory) : State :=
  let old := (s.record x b).physical
  let s1 := s.modLane x (fun l =>
    { ((l.takeTables d).returnReserve old).modRecord b (fun q => q.afterErase r) with job := none })
  s1.replyErase x t b .done (.substitution r) r true .written

/-- A substitution whose directory write failed is undone (R121): the reserve returns and the record stays. -/
def State.substitutionUndone (s : State) (x t b r : Nat) : State :=
  let s1 := s.modLane x (fun l =>
    { (l.addReserve r).modRecord b (fun q => { q with erasePending := false }) with job := none })
  s1.replyErase x t b .eraseFailed (.substitution r) (s.record x b).physical false .writeFailed

/-- The retirement of a block whose substitute failed its erase (R122), whatever the directory write's outcome. -/
def State.reserveRetired (s : State) (x t b r : Nat) (d : Directory) (w : Ending) : State :=
  let old := (s.record x b).physical
  let s1 := s.modLane x (fun l =>
    { ((l.takeTables d).returnReserve old).modRecord b (fun q => q.retire r) with job := none })
  s1.replyErase x t b .eraseFailed (.substitution r) r true (dirResult w)

/-- The retirement of a block whose in-place erase failed (R119), whatever the directory write's outcome. -/
def State.blockRetired (s : State) (x t b : Nat) (d : Directory) (w : Ending) : State :=
  let phys := (s.record x b).physical
  let s1 := s.modLane x (fun l => { (l.takeTables d).modRecord b (fun q => q.retire phys) with job := none })
  s1.replyErase x t b .eraseFailed .inPlace phys false (dirResult w)

/-- What the end of the directory write does (R124), by course, the erase's outcome and the write's outcome. -/
def State.directoryWritten (s : State) (x t b : Nat) (c : EraseCourse) (erased : Ending) (d : Directory) (w : Ending) : State :=
  match c, erased, w with
  | .substitution r, .pass, .pass => s.substitutionDone x t b r d
  | .substitution r, .pass, .fail => s.substitutionUndone x t b r
  | .substitution r, .fail, w => s.reserveRetired x t b r d w
  | .inPlace, _, w => s.blockRetired x t b d w

/-- DIRECTORY_WRITE_END (R124). -/
def execDirectoryWriteEnd (x : Nat) (ending : Ending) (s : State) : Result :=
  unlessReset s (
    match (s.lane x).engine, (s.lane x).job with
    | some (.directoryWrite d g toA), some (.erase t b c (some erased)) =>
      let s1 := s.modLane x (fun l => l.endOperation (.directoryWrite d g toA) ending)
      happen s [x] ((s1.directoryWritten x t b c erased d ending).testBlock x b)
    | _, _ => .refused .noSuchOperation)

end Sys2Proof.Machine
end

