-- ==== Sys2Proof/Machine/LinkEvents.lean ====
section
/-! DEFINITION. The line events and the acknowledge timer: BAD_FRAME, SEQUENCED_FRAME, SYNC, ACK_TIMER_EXPIRY (Chapter 10). -/

namespace Sys2Proof.Machine

/-- The link unit alone changes. -/
def State.modLink (s : State) (f : Link → Link) : State := { s with link := f s.link }

/-- BAD_FRAME (R166, R170). The frame is discarded unread and tests the NAK flag. While RST# is asserted the receiver recognises
nothing. -/
def execBadFrame (ending : FrameEnding) (bytes : List Byte) (s : State) : Result :=
  if s.inReset then .next s
  else
    match ending, receive bytes with
    | .byStart, _ => happen s [] (s.modLink (·.testNak .badFrame))
    | .byEnd, .bad => happen s [] (s.modLink (·.testNak .badFrame))
    | .byEnd, _ => .refused .otherLineFrame

/-- SEQUENCED_FRAME (R169 to R172). -/
def execSequencedFrame (bytes : List Byte) (s : State) : Result :=
  if s.inReset then .next s
  else
    match receive bytes with
    | .sequenced f => happen s [] (s.modLink (·.takeSequenced f))
    | _ => .refused .otherLineFrame

/-- SYNC (R173). -/
def execSync (bytes : List Byte) (s : State) : Result :=
  if s.inReset then .next s
  else
    match receive bytes with
    | .sync e => happen s [] (s.modLink (·.takeSync e))
    | _ => .refused .otherLineFrame

/-- The acknowledge timer runs out: it stops, and an ACK is due when one is owed (R171). -/
def Link.expireAck (l : Link) : Link := { l with ackTimer := false, ackDue := l.ackDue || l.owed }

/-- ACK_TIMER_EXPIRY (R171). -/
def execAckTimerExpiry (s : State) : Result :=
  unlessReset s (if s.link.ackTimer then happen s [] (s.modLink Link.expireAck) else .refused .timerStopped)

end Sys2Proof.Machine
end

