-- ==== Sys2Proof/Machine/Passes.lean ====
section
/-! DEFINITION. The ends of passes: DATA_ROUGH_END, TERMINATOR_ROUGH_END, FINAL_END, SINGLE_END (R30 to R33, R53, R79, R128 to R132). -/

namespace Sys2Proof.Machine

/-! ### A pass that passes (R30 to R33) -/

/-- The slots that serve the pages of strip `n` of a DENSE block, in page order. -/
def State.stripSlots (s : State) (x b n : Nat) : List Nat := (stripPages n).filterMap (s.slotOf x b)

/-- A STAGED slot becomes ROUGHED (R30, R53). -/
def Slot.rough (sl : Slot) : Slot := if sl.state = .staged then { sl with state := .roughed } else sl

/-- A data ROUGH of strip `n` ended PASS (R30). -/
def State.roughPassed (s : State) (x b n : Nat) : State :=
  let s1 := s.modRecord x b (fun r => { r with roughDone := n + 1 })
  s1.modSlots (s.stripSlots x b n) Slot.rough

/-- A terminator ROUGH of strip `n` ended PASS (R31). -/
def State.terminatorPassed (s : State) (x b n : Nat) : State := s.modRecord x b (fun r => { r with roughDone := n + 1 })

/-- The pages in the slots `is` are finalized: the slots are released and their write tags end DURABLE, in order (R32, R33, R79). -/
def State.finalize (s : State) (is : List Nat) : State :=
  let tags := is.filterMap (fun i => (s.slot i).tag)
  tags.foldl State.endDurable (s.releaseSlots is)

/-- The block becomes FULL (R32, R33). -/
def BlockRec.fill (r : BlockRec) (pages : Nat) : BlockRec := { r with state := .full, dataEnd := some pages, intakeNext := pages }

/-- The block becomes CLOSED by its host's CLOSE (R32, R33). -/
def BlockRec.arrive (r : BlockRec) : BlockRec := { r with state := .closed, closedBy := some .host }

/-- FINAL of strip `n` ended PASS (R32). -/
def State.finalPassed (s : State) (x b n : Nat) : State :=
  let r := s.record x b
  let s1 := s.modRecord x b (fun r => { r with finalDone := n + 1 })
  let s2 := s1.finalize (s.stripSlots x b n)
  if r.state = .opened ∧ n = 63 then s2.modRecord x b (fun r => r.fill 256)
  else if r.state = .closing ∧ r.dataEnd.map lastStrip = some n then (s2.modRecord x b BlockRec.arrive).endClose x b .done
  else s2

/-- SINGLE of strip `n` ended PASS (R33). -/
def State.singlePassed (s : State) (x b n : Nat) : State :=
  let r := s.record x b
  let s1 := s.modRecord x b (fun r => { r with finalDone := n + 1 })
  let s2 := s1.finalize (s.slotOf x b n).toList
  if r.state = .opened ∧ n = 63 then s2.modRecord x b (fun r => r.fill 64)
  else if r.state = .closing ∧ r.dataEnd = some (n + 1) then
    (s2.modRecord x b (fun r => { r.arrive with intakeNext := n + 1 })).endClose x b .done
  else s2

/-! ### A pass that fails (R128 to R132) -/

/-- The record after a pass failure (R129, R132, log 45). -/
def BlockRec.fail (r : BlockRec) : BlockRec :=
  { r with
    state := .failed
    suspect := true
    failNotice := true
    intakeNext := if r.state = .closing then r.dataEnd.getD r.intakeNext else r.intakeNext
    dataEnd := none
    closedBy := none
    readyPass := none }

/-- A STAGED write tag of block `b` moves to HELD_FAILED (R131). -/
def TagEntry.holdFailed (x b : Nat) (e : TagEntry) : TagEntry :=
  if e.kind = .write ∧ e.state = .staged ∧ e.lane = some x ∧ e.block = some b then { e with state := .heldFailed } else e

/-- The pad slots of the block (R132). -/
def State.padSlots (s : State) (x b : Nat) : List Nat := (s.ownedSlots x b).filter (fun i => (s.slot i).pad)

/-- Every write tag of the block in STAGED moves to HELD_FAILED (R131). -/
def State.holdTags (s : State) (x b : Nat) : State :=
  { s with rqu := { s.rqu with tags := s.rqu.tags.map (Option.map (TagEntry.holdFailed x b)) } }

/-- A pass of block `b` ended FAIL (R129 to R132). A CLOSING block also gives up its pad slots and its CLOSE. -/
def State.passFailed (s : State) (x b : Nat) : State :=
  let closing := decide ((s.record x b).state = .closing)
  let s1 := if closing then s.releaseSlots (s.padSlots x b) else s
  let s2 := (s1.modRecord x b BlockRec.fail).holdTags x b
  if closing then s2.endClose x b .programFailed else s2

/-! ### The ends -/

/-- The kind of pass an operation is. -/
def Operation.passKind : Operation → Option PassKind
  | .rough _ _ _ _ => some .rough
  | .terminatorRough _ _ _ _ => some .terminator
  | .final _ _ _ _ => some .final
  | .single _ _ _ _ => some .single
  | _ => none

/-- The end of a pass of kind `kind` on lane `x` (R6, R29): the engine and the job end, the outcome is applied, and the test of R28 is
made. `passed` is what a PASS does for the block and the strip. -/
def endPass (kind : PassKind) (passed : State → Nat → Nat → Nat → State) (x : Nat) (ending : Ending) (s : State) : Result :=
  unlessReset s (
    match (s.lane x).engine, (s.lane x).job with
    | some op, some (.pass b p) =>
      if op.passKind = some kind ∧ p.kind = kind then
        let outcome := op.outcome (s.lane x).array ending
        let s1 := s.modLane x (fun l => { l.endOperation op outcome with job := none })
        let s2 :=
          match outcome with
          | .pass => passed s1 x b p.strip
          | .fail => s1.passFailed x b
        happen s [x] (s2.testBlock x b)
      else .refused .noSuchOperation
    | _, _ => .refused .noSuchOperation)

/-- DATA_ROUGH_END (R30). -/
def execDataRoughEnd (x : Nat) (ending : Ending) (s : State) : Result := endPass .rough State.roughPassed x ending s

/-- TERMINATOR_ROUGH_END (R31). -/
def execTerminatorRoughEnd (x : Nat) (ending : Ending) (s : State) : Result := endPass .terminator State.terminatorPassed x ending s

/-- FINAL_END (R32). -/
def execFinalEnd (x : Nat) (ending : Ending) (s : State) : Result := endPass .final State.finalPassed x ending s

/-- SINGLE_END (R33). -/
def execSingleEnd (x : Nat) (ending : Ending) (s : State) : Result := endPass .single State.singlePassed x ending s

end Sys2Proof.Machine
end

