-- ==== Sys2Proof/Machine/Pins.lean ====
section
/-! DEFINITION. The input lines: WP_CHANGED, RST_ASSERTED, RST_RELEASED (R16, R161, R179, R180). -/

namespace Sys2Proof.Machine

/-- The filtered level of WP# changes. -/
def State.toggleWp (s : State) : State := { s with wpAsserted := !s.wpAsserted }

/-- WP_CHANGED (R161, R179). While RST# is asserted the notice is not raised, since no rule of any block acts (R180). -/
def execWpChanged (s : State) : Result :=
  if s.inReset then .next s.toggleWp else happen s [] s.toggleWp.raiseWpChanged

/-- The array that RST# leaves behind: the operation in flight is cut short (R16). -/
def Lane.cutArray (l : Lane) : FlashArray :=
  match l.engine with
  | some op => op.cut l.array
  | none => l.array

/-- The arrays of the four lanes as RST# leaves them. -/
def State.cutArrays (s : State) : Vector FlashArray 4 := s.lanes.map Lane.cutArray

/-- RST_ASSERTED (R16, R180): operations in flight stop and controller memory is lost. Until the release the controllers stand in their
power-on state with engines idle (log 10). Power loss is the same happening. -/
def execRstAsserted (s : State) : Result := .next (State.powerOn s.cutArrays none s.wpAsserted true s.pending)

/-- RST_RELEASED (R180): start-up begins, and each lane presents its DIRECTORY read. -/
def execRstReleased (s : State) : Result :=
  if s.inReset then .next (State.powerOn (s.lanes.map Lane.array) (some .directoryRead) s.wpAsserted false s.pending)
  else .refused .notInReset

end Sys2Proof.Machine
end

