-- ==== Sys2Proof/WellFormed.lean ====
section
/-! DEFINITION. Well-formed commands: operands within the ranges the data book gives them. -/

namespace Sys2Proof

/-- The bit lies in the codeword of sector `k`: 1,024 data bytes, for sector 7 the 32 bytes of the tag area, and the parity (R2). -/
def BitPlace.inSector (k : Nat) : BitPlace → Bool
  | .data bit => decide (bit < 8 * Config.chunkBytes)
  | .tagArea bit => decide (k = 7) && decide (bit < 8 * Config.tagAreaBytes)
  | .parity bit => decide (bit < Config.parityBits)

/-- A wrong bit names one of the eight sectors and a bit of its codeword (R2, R7). -/
def BitError.wf (e : BitError) : Bool := decide (e.sector < Config.sectors) && e.place.inSector e.sector

/-- A codeword names a sector and covers a whole sector and tag area (R2, R104). -/
def Codeword.wf (c : Codeword) : Bool :=
  decide (c.sector < Config.sectors) && decide (c.bytes.length = Config.chunkBytes) && decide (c.tagArea.length = Config.tagAreaBytes)

/-- The operand ranges of every command: lanes 0 to 3, slots 0 to 95, sectors 0 to 7. -/
def Instr.wellFormed : Instr → Bool
  | .badFrame _ _ => true
  | .sequencedFrame _ => true
  | .sync _ => true
  | .ackTimerExpiry => true
  | .malformedFrameTaken => true
  | .identify => true
  | .configure => true
  | .readSettings => true
  | .blockStatus => true
  | .poolStatus => true
  | .tagStatus => true
  | .abort => true
  | .relocate => true
  | .discard => true
  | .read => true
  | .erase => true
  | .write => true
  | .close => true
  | .laneReset => true
  | .partReset => true
  | .data => true
  | .transferTimeout slot => decide (slot < Config.slots)
  | .dataRoughEnd lane _ => decide (lane < Config.lanes)
  | .terminatorRoughEnd lane _ => decide (lane < Config.lanes)
  | .finalEnd lane _ => decide (lane < Config.lanes)
  | .singleEnd lane _ => decide (lane < Config.lanes)
  | .senseEnd lane noise => decide (lane < Config.lanes) && noise.all BitError.wf
  | .decodeEnd lane found => decide (lane < Config.lanes) && found.all Codeword.wf
  | .inPlaceEraseEnd lane _ => decide (lane < Config.lanes)
  | .reserveEraseEnd lane _ => decide (lane < Config.lanes)
  | .directoryWriteEnd lane _ => decide (lane < Config.lanes)
  | .directoryReadEnd scan => decide (scan.lane < Config.lanes)
  | .surveyEnd lane => decide (lane < Config.lanes)
  | .rspDeparture => true
  | .dataFrameDeparture => true
  | .noteDeparture => true
  | .linkControlDeparture => true
  | .wpChanged => true
  | .rstAsserted => true
  | .rstReleased => true

end Sys2Proof
end

