-- ==== Sys2Proof/Machine/ReadJobs.lean ====
section
/-! DEFINITION. The array READ job: SENSE_END and DECODE_END (Chapter 6). -/

namespace Sys2Proof.Machine

/-! ### Sectors (R104, R105) -/

/-- The number of bits that are 1. -/
def bitCount {w : Nat} (v : BitVec w) : Nat := (List.range w).countP (fun i => v.getLsbD i)

/-- The number of bits in which two lists of bytes differ. A byte that one list lacks counts whole. -/
def bitDistance : List Byte → List Byte → Nat
  | [], bs => 8 * bs.length
  | a :: as, [] => 8 * (a :: as).length
  | a :: as, b :: bs => bitCount (a ^^^ b) + bitDistance as bs

/-- The number of bits of a sector as sensed that differ from a codeword, data, tag area (for sector 7) and parity alike (R105). -/
def StoredPage.distance (raw : StoredPage) (c : Codeword) : Nat :=
  bitDistance (raw.page.codeword c.sector).covered c.covered + bitCount ((raw.parity[c.sector]?.getD 0) ^^^ c.parity)

/-- The first list of bytes that satisfies `p` among those that differ from `l` in at most `n` bits, `l` itself before the others. -/
def searchNear : Nat → List Byte → (List Byte → Bool) → Option (List Byte)
  | _, [], p => if p [] then some [] else none
  | n, b :: bs, p =>
    (b :: (List.range 256).map (BitVec.ofNat 8)).findSome? (fun v =>
      let d := bitCount (b ^^^ v)
      if d ≤ n then (searchNear (n - d) bs (fun m => p (v :: m))).map (v :: ·) else none)

/-- A codeword of sector `k` given by the bytes it covers. A sector other than 7 covers no tag area, and `area` stands for it. -/
def codewordOver (k : Nat) (area covered : List Byte) : Codeword :=
  { sector := k, bytes := covered.take Config.chunkBytes, tagArea := if k = 7 then covered.drop Config.chunkBytes else area }

/-- A valid codeword of sector `k` in 24 bits or fewer of the sensed bits, if there is one (R105): the first, searched through every
sector content that near. -/
def StoredPage.nearCodeword (raw : StoredPage) (k : Nat) : Option Codeword :=
  (searchNear Config.correctable (raw.page.codeword k).covered
    (fun l => decide (raw.distance (codewordOver k raw.page.tagArea l) ≤ Config.correctable))).map (codewordOver k raw.page.tagArea)

/-- The codeword the decoder brings sector `k` of a raw result to, with the number of bits it changes (R105): one that differs from the
sensed bits in 24 bits or fewer, and nothing when there is none. Where more than one lies in reach, the codeword that the cells hold
(`held`, of a FINAL strip) goes first (log 12), then those that the command names, then the first that a search finds (log 13). -/
def StoredPage.decode (raw : StoredPage) (held : Option Page) (found : List Codeword) (k : Nat) : Option (Nat × Codeword) :=
  ((((held.map (fun p => p.codeword k)).toList ++ found.filter (fun c => decide (c.sector = k))).find?
    (fun c => decide (raw.distance c ≤ Config.correctable))).or (raw.nearCodeword k)).map (fun c => (raw.distance c, c))

/-- One PENDING sector at the decode of the egress buffer's last step (R105). A sector that is not PENDING is left alone. -/
def Egress.decodeSector (raw : StoredPage) (held : Option Page) (found : List Codeword) (e : Egress) (k : Nat) : Egress :=
  if e.sectors[k]? = some .pending then
    match raw.decode held found k with
    | some (n, c) =>
      { e with
        sectors := e.sectors.setIfInBounds k (.good n e.lastStep)
        bytes := e.bytes.setIfInBounds k c.bytes
        tagArea := if k = 7 then c.tagArea else e.tagArea }
    | none => e
  else e

/-- The decode of a step over the eight sectors (R105). -/
def Egress.decodeStep (raw : StoredPage) (held : Option Page) (found : List Codeword) (e : Egress) : Egress :=
  (List.range Config.sectors).foldl (Egress.decodeSector raw held found) e

/-- Some sector is still PENDING. -/
def Egress.anyPending (e : Egress) : Bool := e.sectors.toList.any (fun r => decide (r = .pending))

/-- Another step follows (R106). -/
def Egress.climbs (e : Egress) : Bool := e.anyPending && decide (e.lastStep < Config.lastRetryStep)

/-! ### The job's end (R107 to R110) -/

/-- A PENDING sector becomes LOST (R107). -/
def SectorResult.settle : SectorResult → SectorResult
  | .pending => .lost
  | r => r

/-- The buffer at the job's end: LOADED, PENDING sectors LOST (R107, R112). -/
def Egress.load (e : Egress) : Egress := { e with state := .loaded, sectors := e.sectors.map SectorResult.settle }

/-- The LOST sectors in increasing number (R109). -/
def Egress.lost (e : Egress) : List Nat := (List.range Config.sectors).filter (fun k => decide (e.sectors[k]? = some .lost))

/-- The corrected bit count of a sector, 0 when it is not GOOD. -/
def SectorResult.corrected : SectorResult → Nat
  | .good n _ => n
  | _ => 0

/-- The highest corrected bit count among the GOOD sectors, 0 when none is GOOD (R108). -/
def Egress.maxCorrected (e : Egress) : Nat := (e.sectors.toList.map SectorResult.corrected).foldl max 0

/-- The corrected page in the buffer. -/
def Egress.page (e : Egress) : Page := { data := e.bytes.toList.flatten, tagArea := e.tagArea }

/-- The status of the job (R107). -/
def Egress.status (e : Egress) : Status := if e.lost = [] then .done else .uncorrectable

/-- The reply's fields (R108 to R110). -/
def Egress.readFields (e : Egress) (phys threshold : Nat) : ReadFields :=
  { source := .array, physical := some phys, maxCorrected := e.maxCorrected, lostSectors := e.lost, retryStep := e.lastStep,
    drifting := decide (threshold ≤ e.maxCorrected),
    checked := if e.lost = [] then some (pageCheck e.page, e.tagArea) else none }

/-- The end of an array READ job whose buffer stands as `e` (R107). -/
def State.endRead (s : State) (x t b p phys : Nat) (e : Egress) : State :=
  let s1 := s.modLane x (fun l => { l with egress := e.load, sense := none, job := none })
  s1.finish t e.load.status (.read x b p (e.load.readFields phys s.rqu.settings.driftThreshold)) (some (.egress x))

/-- The next step of the ladder (R106). -/
def State.climb (s : State) (x p phys : Nat) (e : Egress) : State :=
  s.modLane x (fun l =>
    { l.present (.sense phys p (e.lastStep + 1)) with
      egress := { e with lastStep := e.lastStep + 1 }
      sense := none })

/-! ### The ends -/

/-- SENSE_END (R7): the raw result stands in the sense buffer, and the decoder begins. -/
def execSenseEnd (x : Nat) (noise : List BitError) (s : State) : Result :=
  unlessReset s (
    if noise.all BitError.wf then
      match (s.lane x).engine with
      | some (.sense phys page step) =>
        let result := ((s.lane x).array.block phys).sense page noise
        happen s [x] (s.modLane x (fun l => { l.endOperation (.sense phys page step) .pass with sense := some result }))
      | _ => .refused .noSuchOperation
    else .refused .illFormed)

/-- The page that the cells hold where an array READ job senses, whose codewords the decoder prefers (log 12). -/
def Lane.heldPage (l : Lane) (phys page : Nat) : Option Page := ((l.array.block phys).finalPage page).map StoredPage.page

/-- DECODE_END (R105 to R107): the step's sectors are decoded, the sense buffer is released, and the job climbs or ends. -/
def execDecodeEnd (x : Nat) (found : List Codeword) (s : State) : Result :=
  unlessReset s (
    if found.all Codeword.wf then
      match (s.lane x).sense, (s.lane x).job with
      | some raw, some (.read t b p phys) =>
        let e := (s.lane x).egress.decodeStep raw ((s.lane x).heldPage phys p) found
        if e.climbs then happen s [x] (s.climb x p phys e) else happen s [x] (s.endRead x t b p phys e)
      | _, _ => .refused .noSuchOperation
    else .refused .illFormed)

end Sys2Proof.Machine
end

