-- ==== Sys2Proof/Machine/Recovery.lean ====
section
/-! DEFINITION. RELOCATE and DISCARD (Chapter 8). -/

namespace Sys2Proof.Machine

/-! ### RELOCATE (R135 to R139) -/

/-- The slots RELOCATE reserves in the target's last strip: one for each page from `m` to the strip end, in a DENSE block (R136). -/
def relocateNeeds (d : Option Density) (m : Nat) : Nat := if d = some .swift then 0 else stripEnd m - m

/-- The FREE slots RELOCATE can count on: those FREE, and the source's unpinned RESERVED slots (R136). -/
def State.relocateSupply (s : State) (x a : Nat) : Nat :=
  s.freeCount
    + (s.ownedSlots x a).countP (fun i => decide ((s.slot i).state = .reserved) && decide ((s.slot i).pins = 0))

/-- Checks 4 to 12 of a RELOCATE of block `a` to block `b` (R135). -/
def State.relocateCheck (s : State) (x a b : Nat) : Option Status :=
  (if Config.hostBlocks ≤ b then some .badAddress else addressCheck s x a).or
    ((failsWith s.wpAsserted .writeProtected).or
      ((failsWith (decide ((s.record x a).state ≠ .failed)) .blockState).or
        ((failsWith (decide ((s.record x b).state ≠ .erased)) .blockState).or
          ((failsWith (s.anyFilling x a || (s.record x b).erasePending) .blockBusy).or
            (failsWith (decide (s.relocateSupply x a < relocateNeeds (s.record x a).density (s.record x a).heldCount)) .poolFull)))))

/-- A held slot is relabelled to its new page, and a ROUGHED one returns to STAGED (R58, R136). -/
def Slot.relocate (x b first : Nat) (sl : Slot) : Slot :=
  { sl with
    owner := some { lane := x, block := b, page := sl.pageNumber - first }
    state := if sl.state = .roughed then .staged else sl.state }

/-- The moved write's tag names its new page and is STAGED again (R138). -/
def TagEntry.relocate (b first : Nat) (e : TagEntry) : TagEntry :=
  { e with
    state := if e.state = .heldFailed then .staged else e.state
    block := some b
    page := e.page.map (fun p => p - first) }

/-- The source's record after RELOCATE or DISCARD: CLOSED at its last finalized strip (R137, R141). -/
def BlockRec.closeAtFinal (r : BlockRec) : BlockRec :=
  { r with state := .closed, closedBy := some .host, intakeNext := r.firstHeld, dataEnd := some r.firstHeld, readyPass := none }

/-- The target's record after RELOCATE (R137). -/
def BlockRec.openWith (r : BlockRec) (d : Option Density) (m : Nat) : BlockRec :=
  { r with
    state := .opened
    density := d
    intakeNext := m
    roughDone := 0
    finalDone := 0
    dataEnd := none
    closedBy := none }

/-- The held slots of a block: STAGED or ROUGHED (R136). -/
def State.heldSlots (s : State) (x a : Nat) : List Nat :=
  (s.ownedSlots x a).filter (fun i => decide ((s.slot i).state = .staged) || decide ((s.slot i).state = .roughed))

/-- The pages of the target's last strip that RELOCATE reserves (R136). -/
def relocatePages (d : Option Density) (m : Nat) : List Nat := (List.range (relocateNeeds d m)).map (fun i => m + i)

/-- The move of A's held pages to B (R136 to R138): slots relabelled, A's other slots released, B's last strip reserved, both records
set, the write tags renamed, and the test of R28 for B. -/
def State.relocate (s : State) (x a b : Nat) : State :=
  let r := s.record x a
  let first := r.firstHeld
  let m := r.heldCount
  let held := s.heldSlots x a
  let tags := held.filterMap (fun i => (s.slot i).tag)
  let s1 := s.modSlots held (Slot.relocate x b first)
  let s2 := s1.releaseSlots (s1.ownedSlots x a)
  let s3 := ((s2.slotsIn .free).zip (relocatePages r.density m)).foldl
    (fun s e => s.modSlot e.1 (Slot.reserveFor { lane := x, block := b, page := e.2 })) s2
  let s4 := s3.modRecord x a BlockRec.closeAtFinal
  let s5 := s4.modRecord x b (fun q => q.openWith r.density m)
  let s6 := tags.foldl (fun s t => s.modTag t (TagEntry.relocate b first)) s5
  s6.testBlock x b

/-- RELOCATE (R135 to R139). -/
def execRelocate (s : State) : Result :=
  takeRequest s .relocate (fun s f req =>
    match req with
    | .relocate x a b =>
      dispatch s f (s.relocateCheck x a b)
        (happen s [x]
          ((s.relocate x a b).answer f.tag (TagEntry.mk' .relocate .replying (some x) (some a) none) .done
            (.relocated x a b (s.record x a).density (s.record x a).heldCount (s.record x a).firstHeld) none))
    | _ => .refused .otherFrameOldest)

/-! ### DISCARD (R140, R141) -/

/-- Checks 4 to 8 of a DISCARD (R140). -/
def State.discardCheck (s : State) (x b : Nat) : Option Status :=
  (addressCheck s x b).or
    ((failsWith (decide ((s.record x b).state ≠ .failed)) .blockState).or (failsWith (s.anyFilling x b) .blockBusy))

/-- The write tags of the block's slots, in page order. -/
def State.slotTags (s : State) (x b : Nat) : List Nat :=
  (sortByKey (fun i => (s.slot i).pageNumber) (s.ownedSlots x b)).filterMap (fun i => (s.slot i).tag)

/-- The held pages are given up (R141): slots released, the block CLOSED, the tags ended DISCARDED. -/
def State.discard (s : State) (x b : Nat) : State :=
  let tags := s.slotTags x b
  let s1 := s.releaseSlots (s.ownedSlots x b)
  let s2 := s1.modRecord x b BlockRec.closeAtFinal
  tags.foldl (fun s t => s.endWrite t .discarded) s2

/-- DISCARD (R140, R141). -/
def execDiscard (s : State) : Result :=
  takeRequest s .discard (fun s f req =>
    match req with
    | .discard x b =>
      dispatch s f (s.discardCheck x b)
        (happen s [x]
          ((s.discard x b).answer f.tag (TagEntry.mk' .discard .replying (some x) (some b) none) .done
            (.discarded x b (s.record x b).heldCount (s.record x b).firstHeld) none))
    | _ => .refused .otherFrameOldest)

end Sys2Proof.Machine
end

