-- ==== Sys2Proof/Machine/ResetRequests.lean ====
section
/-! DEFINITION. LANE_RESET and PART_RESET at their take (R96, R163). Their application is in Resets.lean. -/

namespace Sys2Proof.Machine

/-- Checks 4 and 5 of a LANE_RESET (R96). -/
def State.laneResetCheck (s : State) (x : Nat) : Option Status :=
  if Config.lanes ≤ x then some .badAddress else laneCheck (s.lane x)

/-- LANE_RESET (R96): its tag WAITING and the lane RESETTING. The happening's end applies the reset when no job is in flight. -/
def execLaneReset (s : State) : Result :=
  takeRequest s .laneReset (fun s f req =>
    match req with
    | .laneReset x =>
      dispatch s f (s.laneResetCheck x)
        (happen s [x]
          ((s.setTag f.tag (some (TagEntry.mk' .laneReset .waiting (some x) none none))).modLane x
            (fun l => { l with state := .resetting })))
    | _ => .refused .otherFrameOldest)

/-- A PART_RESET reaches the lane: it is READY or already RESETTING (R99, R163). -/
def Lane.reached (l : Lane) : Bool := decide (l.state = .ready) || decide (l.state = .resetting)

/-- The take of a PART_RESET by tag `t` (R163). -/
def State.beginPartReset (s : State) (t : Nat) : State :=
  let progress : PartReset :=
    { tag := t, lanes := s.lanes.map (fun l => if l.reached then .waiting else .offline), removed := 0 }
  let s1 := s.setTag t (some (TagEntry.mk' .partReset .waiting none none none))
  { s1 with
    lanes := s1.lanes.map (fun l => if l.reached then { l with state := .resetting } else l)
    rqu := { s1.rqu with part := .resetting, partReset := some progress } }

/-- PART_RESET (R163). The happening's end applies the reset on every lane with no job in flight and completes it when none is left. -/
def execPartReset (s : State) : Result :=
  takeRequest s .partReset (fun s f _ => happen s (List.range Config.lanes) (s.beginPartReset f.tag))

end Sys2Proof.Machine
end

