-- ==== Sys2Proof/Machine/Scan.lean ====
section
/-! DEFINITION. The start-up scan: DIRECTORY_READ_END and SURVEY_END (Chapter 11). -/

namespace Sys2Proof.Machine

/-! ### The survey records (R183, R184) -/

/-- The survey record kept for physical block `p`. One that is missing, which no run reaches at its use, reads UNSETTLED (log 46). -/
def Lane.surveyOf (l : Lane) (p : Nat) : SurveyRecord := l.surveys[p]?.getD .unsettled

/-- An entry of the substitution map names block `p` as its target. -/
def Lane.isTarget (l : Lane) (p : Nat) : Bool := l.substMap.any (fun e => decide (e.2 = some p))

/-- The survey of a block lets it serve as a reserve: no factory-bad mark, BLANK or WRITTEN (R184). -/
def SurveyRecord.usable : SurveyRecord → Bool
  | .factoryBad => false
  | .blank => true
  | .unsettled => false
  | .written _ _ _ => true

/-- A reserve block joins the free-reserve list (R184). -/
def Lane.joinsReserves (l : Lane) (p : Nat) : Bool :=
  (l.surveyOf p).usable && !l.isTarget p && !l.retiredReserves.contains p

/-- The free-reserve list built from the tables and the survey, in ascending block number (R184). -/
def Lane.surveyedReserves (l : Lane) : List Nat :=
  ((List.range Config.reserveBlocks).map (fun i => Config.firstReserve + i)).filter l.joinsReserves

/-! ### Classification (R185, R186) -/

/-- A rebuilt record before its state is known: flags clear, ready_pass absent (R43, R186). -/
def BlockRec.rebuilt (phys : Nat) : BlockRec := { BlockRec.unbuilt with physical := phys }

/-- A block given the standing RETIRED (R185). -/
def BlockRec.standingRetired (phys : Nat) : BlockRec := { BlockRec.rebuilt phys with state := .retired }

/-- F of R186: the strips counted from strip 0 that are FINAL without a break. -/
def finalRun (strips : List StripState) : Nat := (strips.takeWhile (fun s => decide (s = .final))).length

/-- G of R186: the strips counted from strip 0 that are FINAL or ROUGHED without a break. -/
def programmedRun (strips : List StripState) : Nat :=
  (strips.takeWhile (fun s => decide (s = .final) || decide (s = .roughed))).length

/-- The rough frontier of a rebuilt record: 0 for SWIFT. -/
def roughFrontier (d : Density) (n : Nat) : Nat := if d = .dense then n else 0

/-- The terminator row of R186: the mark stands on strip `f`, `f` at least 1, and its data_end lies inside the strip below. -/
def terminatorRow (d : Density) (f : Nat) (mark : Option (Nat × Nat)) : Option Nat :=
  match d, mark with
  | .dense, some (n, e) => if n = f ∧ 1 ≤ f ∧ 4 * (f - 1) < e ∧ e ≤ 4 * f then some e else none
  | _, _ => none

/-- The record of a WRITTEN block: the last three rows of R186. -/
def BlockRec.ofWritten (phys : Nat) (d : Density) (strips : List StripState) (mark : Option (Nat × Nat)) : BlockRec :=
  let f := finalRun strips
  let g := programmedRun strips
  let base : BlockRec := { BlockRec.rebuilt phys with density := some d, finalDone := f }
  if f = Config.strips then
    { base with
      state := .full
      dataEnd := some d.pages
      roughDone := roughFrontier d Config.strips
      intakeNext := d.pages }
  else
    match terminatorRow d f mark with
    | some e =>
      { base with
        state := .closed
        closedBy := some .host
        dataEnd := some e
        roughDone := f + 1
        intakeNext := 4 * f }
    | none =>
      { base with
        state := .closed
        closedBy := some .scan
        dataEnd := some (f * d.perStrip)
        roughDone := roughFrontier d g
        intakeNext := f * d.perStrip }

/-- The record of a block classified by its survey record (R186). The factory-bad record takes no part in it: R185 gives such a block
the standing RETIRED. -/
def BlockRec.ofSurvey (phys : Nat) : SurveyRecord → BlockRec
  | .factoryBad => BlockRec.standingRetired phys
  | .blank => BlockRec.rebuilt phys
  | .unsettled =>
    { BlockRec.rebuilt phys with state := .closed, closedBy := some .scan, density := some .dense, dataEnd := some 0 }
  | .written d strips mark => BlockRec.ofWritten phys d strips mark

/-- Another entry of the map than that of host block `h` names block `p` as well (R185). -/
def Lane.sharedTarget (l : Lane) (h p : Nat) : Bool :=
  l.substMap.any (fun e => decide (e.1 ≠ h) && decide (e.2 = some p))

/-- The record the scan builds for host block `h` (R185). -/
def Lane.rebuild (l : Lane) (h : Nat) : BlockRec :=
  match mapTarget l.substMap h with
  | some none => BlockRec.standingRetired h
  | some (some p) =>
    if l.surveyOf p = .factoryBad ∨ p ∈ l.retiredReserves then BlockRec.standingRetired p
    else if l.sharedTarget h p then BlockRec.standingRetired h
    else BlockRec.ofSurvey p (l.surveyOf p)
  | none => BlockRec.ofSurvey h (l.surveyOf h)

/-- The classification of a lane whose last SURVEY has ended (R183 to R186). The survey records are not kept (log 27). -/
def Lane.classifyBlocks (l : Lane) : Lane :=
  { l with
    records := tabulate 1024 l.rebuild
    freeReserves := l.surveyedReserves
    built := true
    surveys := [] }

/-! ### The end of start-up (R187) -/

/-- The lane has ended its scan, by classification or by becoming OFFLINE. -/
def Lane.scanEnded (l : Lane) : Bool := l.built || decide (l.state = .offline)

/-- A lane with its records built becomes READY, with nothing queued (R187). -/
def Lane.startRunning (l : Lane) : Lane :=
  if l.state = .offline then l
  else
    { l with
      state := .ready
      workQueue := []
      readyList := []
      readRun := 0
      egress := { l.egress with state := .free } }

/-- The last lane has ended its scan: lanes READY, part RUNNING, STARTUP_DONE pending (R187). -/
def State.startRunning (s : State) : State :=
  let s1 : State :=
    { s with
      lanes := s.lanes.map Lane.startRunning
      rqu := { s.rqu with part := .running, scanEnd := s.lanes.map (fun l => decide (l.state ≠ .offline)) } }
  s1.raiseStartupDone

/-- The test whether every lane has ended its scan (R187). -/
def State.endScan (s : State) : State :=
  if s.rqu.part = .starting ∧ s.lanes.toList.all Lane.scanEnded = true then s.startRunning else s

/-! ### The ends -/

/-- The tables of the newest readable copy are loaded as they stand (R182). -/
def Lane.loadTables (l : Lane) (d : Directory) : Lane := { l with substMap := d.map, retiredReserves := d.retired }

/-- The end of the DIRECTORY read for the lane (R14, R182): after PASS the survey begins, after FAIL the lane is OFFLINE. With no
readable copy the read ends FAIL (R14). A FAIL changes neither copy, so a later start-up may read them (R182, log 38). -/
def Lane.directoryRead (ending : Ending) (l : Lane) : Lane :=
  let l1 := l.endOperation .directoryRead ending
  match ending, l.array.newest with
  | .pass, some (_, c) => (l1.loadTables c.contents).present (.survey 0)
  | _, _ => { l1 with state := .offline }

/-- DIRECTORY_READ_END (R182). -/
def execDirectoryReadEnd (r : DirectoryRead) (s : State) : Result :=
  unlessReset s (
    match (s.lane r.lane).engine with
    | some .directoryRead => happen s [] (s.modLane r.lane (Lane.directoryRead r.ending)).endScan
    | _ => .refused .noSuchOperation)

/-- The end of the SURVEY of block `p` for the lane (R183). -/
def Lane.surveyed (l : Lane) (p : Nat) : Lane :=
  let l1 := l.endOperation (.survey p) .pass
  let l2 := { l1 with surveys := l1.surveys ++ [(l.array.block p).survey] }
  if p + 1 < Config.physBlocks then l2.present (.survey (p + 1)) else l2.classifyBlocks

/-- SURVEY_END (R183). -/
def execSurveyEnd (x : Nat) (s : State) : Result :=
  unlessReset s (
    match (s.lane x).engine with
    | some (.survey p) => happen s [] (s.modLane x (fun l => l.surveyed p)).endScan
    | _ => .refused .noSuchOperation)

end Sys2Proof.Machine
end

