-- ==== Sys2Proof/Machine/Transfers.lean ====
section
/-! DEFINITION. Page intake after the WRITE: the abandonment chain, DATA, TRANSFER_TIMEOUT, and MALFORMED_FRAME_TAKEN (Chapter 4). -/

namespace Sys2Proof.Machine

/-! ### The abandonment chain (R72, R73, R55, R27) -/

/-- The block's slots at or above page `p` that hold a write tag, in page order. -/
def State.chainSlots (s : State) (x b p : Nat) : List Nat :=
  sortByKey (fun i => (s.slot i).pageNumber)
    ((s.ownedSlots x b).filter (fun i => decide (p ≤ (s.slot i).pageNumber) && (s.slot i).tag.isSome))

/-- The write tags the chain ends, each with its status, in page order (R73). -/
def State.chainTags (s : State) (x b p : Nat) (status : Status) : List (Nat × Status) :=
  (s.chainSlots x b p).filterMap (fun i =>
    (s.slot i).tag.map (fun t => (t, if (s.slot i).pageNumber = p then status else .abandoned)))

/-- What the chain does to one slot of the block at or above page `p` (R55). -/
def State.chainSlot (s : State) (back : Bool) (p i : Nat) : State :=
  if back = true ∧ (s.slot i).pageNumber / 4 = p / 4 then s.unfillSlot i else s.releaseSlot i

/-- The block's slots that the chain changes (R55): all of them when a DENSE chain starts at the first unfinalized page, else those at
or above `p`. -/
def State.chainTargets (s : State) (x b p : Nat) : List Nat :=
  let r := s.record x b
  if r.density = some .dense ∧ p = r.firstHeld then s.ownedSlots x b
  else (s.ownedSlots x b).filter (fun i => decide (p ≤ (s.slot i).pageNumber))

/-- Slots of the failed page's strip go back to RESERVED: DENSE, above the first unfinalized page (R55). -/
def BlockRec.chainReturns (r : BlockRec) (p : Nat) : Bool := decide (r.density = some .dense) && decide (p ≠ r.firstHeld)

/-- The abandonment chain for failed page `p` of block `b`, whose write ends with `status` (R72, R73). -/
def State.abandon (s : State) (x b p : Nat) (status : Status) : State :=
  let tags := s.chainTags x b p status
  let back := (s.record x b).chainReturns p
  let s1 := s.modRecord x b (fun r => { r with intakeNext := p })
  let s2 := (s.chainTargets x b p).foldl (fun s i => s.chainSlot back p i) s1
  tags.foldl (fun s e => s.endWrite e.1 e.2) s2

/-! ### DATA (R67 to R69) -/

/-- The slot becomes STAGED (R51, R69). -/
def Slot.stage (sl : Slot) : Slot := { sl with state := .staged, timer := none }

/-- The tag's state when its page is staged: HELD_FAILED on a FAILED block, else STAGED (R69). -/
def stagedState (r : BlockRec) : TagState := if r.state = .failed then .heldFailed else .staged

/-- A page is staged (R69): slot, tag, interim reply, and the test of R28. -/
def State.stagePage (s : State) (t i : Nat) (o : Owner) : State :=
  let s1 := s.modSlot i Slot.stage
  let s2 := s1.modTag t (fun e => { e with state := stagedState (s.record o.lane o.block) })
  (s2.queueStaged t).testBlock o.lane o.block

/-- STP takes a chunk with index `c` for FILLING slot `i` of tag `t` (R68, R69). A WRITE without a page check, which no run reaches, ends
CHECK_MISMATCH (log 46). -/
def State.takeChunk (s : State) (t i : Nat) (o : Owner) (check : Option Word32) (c : Nat) (bytes : List Byte) : State :=
  if c ≠ (s.slot i).chunks ∨ 7 < c then s.abandon o.lane o.block o.page .chunkOrder
  else
    let s1 := s.modSlot i (Slot.takeChunk bytes)
    if c < 7 then s1
    else if some (pageCheck (s1.slot i).page) = check then s1.stagePage t i o
    else s1.abandon o.lane o.block o.page .checkMismatch

/-- The transfer a DATA frame's tag names: a live WRITE in TRANSFER, with its FILLING slot and its page (R66, R67). DESIGN CHOICE (log 46):
a tag in TRANSFER whose entry names no slot, or a slot that is not FILLING or has no owner, which no run reaches, names no transfer, and its
chunk is refused STRAY_DATA. -/
def State.transferOf (s : State) (t : Nat) : Option (Nat × Owner × Option Word32) :=
  match s.tag t with
  | some e =>
    if e.kind = .write ∧ e.state = .transfer then
      match e.slot with
      | some i => if (s.slot i).state = .filling then (s.slot i).owner.map (fun o => (i, o, e.check)) else none
      | none => none
    else none
  | none => none

/-- DATA (R67): the chunk goes to the tag's FILLING slot, or the frame is refused STRAY_DATA. -/
def execData (s : State) : Result :=
  takeOldest s InFrame.isData (fun s f =>
    match s.transferOf f.tag with
    | some (i, o, check) => happen s [o.lane] (s.takeChunk f.tag i o check (byteAt f.payload 0) (f.payload.drop 1))
    | none => refused s f .strayData (.chunk f.chunkIndex))

/-! ### MALFORMED_FRAME_TAKEN and TRANSFER_TIMEOUT -/

/-- MALFORMED_FRAME_TAKEN (R146, R147): the refusal echoes the tag byte and, for a DATA frame, the chunk index. -/
def execMalformedFrameTaken (s : State) : Result :=
  takeOldest s InFrame.isMalformed (fun s f =>
    refused s f .malformed (if f.kind = kindData then .chunk f.chunkIndex else .plain))

/-- TRANSFER_TIMEOUT (R70): the timer of a FILLING slot runs out. DESIGN CHOICE (log 46): a FILLING slot without an owner, which no run
reaches, has no timer to run out. -/
def execTransferTimeout (i : Nat) (s : State) : Result :=
  unlessReset s (
    if (s.slot i).state = .filling ∧ (s.slot i).timer.isSome = true then
      match (s.slot i).owner with
      | some o => happen s [o.lane] (s.abandon o.lane o.block o.page .transferTimeout)
      | none => .refused .timerStopped
    else .refused .timerStopped)

end Sys2Proof.Machine
end

