-- ==== Sys2Proof/Machine/StatusRequests.lean ====
section
/-! DEFINITION. The requests RQU answers itself: IDENTIFY, CONFIGURE, READ_SETTINGS, BLOCK_STATUS, POOL_STATUS, TAG_STATUS, ABORT
(section 9.6). -/

namespace Sys2Proof.Machine

/-- The entry of a request that is answered at its dispatch and names no lane (R148, R149). -/
def TagEntry.immediate (k : ReqKind) : TagEntry := TagEntry.mk' k .replying none none none

/-! ### IDENTIFY (R155) -/

/-- IDENTIFY (R155). -/
def execIdentify (s : State) : Result :=
  takeRequest s .identify (fun s f _ =>
    happen s [] (s.answer f.tag (.immediate .identify) .done (.figures s.rqu.part) none))

/-! ### CONFIGURE (R157) -/

/-- A value the CONFIGURE carries lies outside its range. -/
def outside (lo hi : Nat) : Option Nat → Bool
  | some n => decide (n < lo) || decide (hi < n)
  | none => false

/-- The first setting out of range, counted from 1 in the order of R156. -/
def firstOutOfRange (tt rb dt pw : Option Nat) : Option Nat :=
  if outside 1 250 tt then some 1
  else if outside 1 16 rb then some 2
  else if outside 1 24 dt then some 3
  else if outside 0 64 pw then some 4
  else none

/-- The settings with the named ones changed (R157). -/
def Settings.update (c : Settings) (tt rb dt pw : Option Nat) : Settings :=
  { transferTimeout := tt.getD c.transferTimeout, readBurst := rb.getD c.readBurst, driftThreshold := dt.getD c.driftThreshold,
    poolWatermark := pw.getD c.poolWatermark }

/-- New settings take effect; a changed pool_watermark re-arms the pool and is tested at once (R61, R157). -/
def State.configure (s : State) (new : Settings) : State :=
  let s1 : State := { s with rqu := { s.rqu with settings := new } }
  if new.poolWatermark = s.rqu.settings.poolWatermark then s1 else (s1.arm true).testPoolLow

/-- CONFIGURE (R157). -/
def execConfigure (s : State) : Result :=
  takeRequest s .configure (fun s f req =>
    match req with
    | .configure tt rb dt pw =>
      match firstOutOfRange tt rb dt pw with
      | some n => refused s f .range (.setting n)
      | none =>
        let new := s.rqu.settings.update tt rb dt pw
        happen s [] ((s.configure new).answer f.tag (.immediate .configure) .done (.settings new) none)
    | _ => .refused .otherFrameOldest)

/-! ### READ_SETTINGS (R156) -/

/-- READ_SETTINGS (R156). -/
def execReadSettings (s : State) : Result :=
  takeRequest s .readSettings (fun s f _ =>
    happen s [] (s.answer f.tag (.immediate .readSettings) .done (.settings s.rqu.settings) none))

/-! ### BLOCK_STATUS and POOL_STATUS (R158) -/

/-- BLOCK_STATUS (R158, R20, R40). -/
def execBlockStatus (s : State) : Result :=
  takeRequest s .blockStatus (fun s f req =>
    match req with
    | .blockStatus x b =>
      dispatch s f (addressCheck s x b)
        (happen s [] (s.answer f.tag (TagEntry.mk' .blockStatus .replying (some x) (some b) none) .done
          (.blockStatus x b (s.record x b) (s.record x b).heldCount) none))
    | _ => .refused .otherFrameOldest)

/-- The held-page count of a lane: the sum over its blocks (R59). -/
def Lane.heldCount (l : Lane) : Nat := (l.records.toList.map BlockRec.heldCount).sum

/-- The counts of slots in the six states, in the order of R45. -/
def State.slotCounts (s : State) : List Nat :=
  [SlotState.free, .reserved, .filling, .staged, .roughed, .detached].map (fun st => (s.slotsIn st).length)

/-- The number of slots with a pin count above zero (R59). -/
def State.pinnedCount (s : State) : Nat := slotNumbers.countP (fun i => decide (0 < (s.slot i).pins))

/-- POOL_STATUS (R158, R59). -/
def execPoolStatus (s : State) : Result :=
  takeRequest s .poolStatus (fun s f _ =>
    happen s [] (s.answer f.tag (.immediate .poolStatus) .done
      (.poolStatus s.slotCounts s.pinnedCount ((List.range Config.lanes).map (fun x => (s.lane x).heldCount))) none))

/-! ### TAG_STATUS (R159) -/

/-- The newest recall copy for a tag (R154, R159). -/
def newestCopy (ring : List Reply) (t : Nat) : Option Reply := ring.reverse.find? (fun r => decide (r.tag = t))

/-- TAG_STATUS (R159). -/
def execTagStatus (s : State) : Result :=
  takeRequest s .tagStatus (fun s f req =>
    match req with
    | .tagStatus target =>
      match s.tag target with
      | some e => happen s [] (s.answer f.tag (.immediate .tagStatus) .done (.live e) none)
      | none =>
        match newestCopy s.rqu.ring target with
        | some r => happen s [] (s.answer f.tag (.immediate .tagStatus) .done (.recalled r.bytes) none)
        | none => refused s f .unknownTag .plain
    | _ => .refused .otherFrameOldest)

/-! ### ABORT (R160, R76, R92) -/

/-- Whether an ABORT withdraws a target (R76, R92, R160): a WRITE in TRANSFER, a READ or ERASE that is QUEUED. -/
def TagEntry.withdrawable (e : TagEntry) : Bool :=
  (decide (e.kind = .write) && decide (e.state = .transfer))
    || ((decide (e.kind = .read) || decide (e.kind = .erase)) && decide (e.state = .queued))

/-- A queued READ or ERASE is withdrawn (R92): its entry leaves the work queue and its tag ends ABORTED. -/
def State.withdrawQueued (s : State) (t : Nat) (e : TagEntry) : State :=
  let x := e.lane.getD 0
  let b := e.block.getD 0
  let s1 := s.modLane x (fun l => { l with workQueue := l.workQueue.filter (fun w => decide (w.tag ≠ t)) })
  if e.kind = .erase then (s1.clearErasePending x b).finish t .aborted (.erase x b none) none
  else s1.finish t .aborted (.page x b (e.page.getD 0)) none

/-- What an ABORT that takes effect does to its target (R76, R92). -/
def State.withdraw (s : State) (t : Nat) (e : TagEntry) : State :=
  if e.kind = .write then s.abandon (e.lane.getD 0) (e.block.getD 0) (e.page.getD 0) .aborted else s.withdrawQueued t e

/-- ABORT (R160). The target's replies are queued first, then its own DONE. -/
def execAbort (s : State) : Result :=
  takeRequest s .abort (fun s f req =>
    match req with
    | .abort target =>
      match s.tag target with
      | none => refused s f .notLive (.target target)
      | some e =>
        if e.withdrawable then
          happen s [e.lane.getD 0] ((s.withdraw target e).answer f.tag (.immediate .abort) .done (.target target) none)
        else refused s f .tooLate (.lateTarget target e.kind e.state)
    | _ => .refused .otherFrameOldest)

end Sys2Proof.Machine
end

