-- ==== Sys2Proof/Machine/Dispatch.lean ====
section
/-! DEFINITION. The dispatch of commands: one arm for each row of the opcode table. -/

namespace Sys2Proof.Machine

/-- The effect of a command on everything but the queue of waiting commands. -/
def exec (i : Instr) (s : State) : Host.Outcome State Fault Refusal :=
  match i with
  | .badFrame ending bytes => Sys2Proof.Machine.execBadFrame ending bytes s
  | .sequencedFrame bytes => Sys2Proof.Machine.execSequencedFrame bytes s
  | .sync bytes => Sys2Proof.Machine.execSync bytes s
  | .ackTimerExpiry => Sys2Proof.Machine.execAckTimerExpiry s
  | .malformedFrameTaken => Sys2Proof.Machine.execMalformedFrameTaken s
  | .identify => Sys2Proof.Machine.execIdentify s
  | .configure => Sys2Proof.Machine.execConfigure s
  | .readSettings => Sys2Proof.Machine.execReadSettings s
  | .blockStatus => Sys2Proof.Machine.execBlockStatus s
  | .poolStatus => Sys2Proof.Machine.execPoolStatus s
  | .tagStatus => Sys2Proof.Machine.execTagStatus s
  | .abort => Sys2Proof.Machine.execAbort s
  | .relocate => Sys2Proof.Machine.execRelocate s
  | .discard => Sys2Proof.Machine.execDiscard s
  | .read => Sys2Proof.Machine.execRead s
  | .erase => Sys2Proof.Machine.execErase s
  | .write => Sys2Proof.Machine.execWrite s
  | .close => Sys2Proof.Machine.execClose s
  | .laneReset => Sys2Proof.Machine.execLaneReset s
  | .partReset => Sys2Proof.Machine.execPartReset s
  | .data => Sys2Proof.Machine.execData s
  | .transferTimeout slot => Sys2Proof.Machine.execTransferTimeout slot s
  | .dataRoughEnd lane ending => Sys2Proof.Machine.execDataRoughEnd lane ending s
  | .terminatorRoughEnd lane ending => Sys2Proof.Machine.execTerminatorRoughEnd lane ending s
  | .finalEnd lane ending => Sys2Proof.Machine.execFinalEnd lane ending s
  | .singleEnd lane ending => Sys2Proof.Machine.execSingleEnd lane ending s
  | .senseEnd lane noise => Sys2Proof.Machine.execSenseEnd lane noise s
  | .decodeEnd lane found => Sys2Proof.Machine.execDecodeEnd lane found s
  | .inPlaceEraseEnd lane ending => Sys2Proof.Machine.execInPlaceEraseEnd lane ending s
  | .reserveEraseEnd lane ending => Sys2Proof.Machine.execReserveEraseEnd lane ending s
  | .directoryWriteEnd lane ending => Sys2Proof.Machine.execDirectoryWriteEnd lane ending s
  | .directoryReadEnd scan => Sys2Proof.Machine.execDirectoryReadEnd scan s
  | .surveyEnd lane => Sys2Proof.Machine.execSurveyEnd lane s
  | .rspDeparture => Sys2Proof.Machine.execRspDeparture s
  | .dataFrameDeparture => Sys2Proof.Machine.execDataFrameDeparture s
  | .noteDeparture => Sys2Proof.Machine.execNoteDeparture s
  | .linkControlDeparture => Sys2Proof.Machine.execLinkControlDeparture s
  | .wpChanged => Sys2Proof.Machine.execWpChanged s
  | .rstAsserted => Sys2Proof.Machine.execRstAsserted s
  | .rstReleased => Sys2Proof.Machine.execRstReleased s

end Sys2Proof.Machine
end

