-- ==== Sys2Proof/Safety.lean ====
section
/-! DEFINITION. What counts as a safe run, in the terms the statements use: the forms that every step keeps, and short names for the
premises and effects that many statements share. -/

namespace Sys2Proof.Machine

/-! ### Forms that every step keeps -/

/-- The chunks count and tag of a slot that holds a complete page or a pad page (R45, rows STAGED and ROUGHED). -/
def Slot.complete (sl : Slot) : Bool :=
  if sl.pad then decide (sl.tag = none) && decide (sl.chunks = 0) else sl.tag.isSome && decide (sl.chunks = 8)

/-- The row of R45 for the slot's state. -/
def Slot.wf (sl : Slot) : Bool :=
  match sl.state with
  | .free =>
    decide (sl.owner = none) && decide (sl.tag = none) && !sl.pad && decide (sl.chunks = 0) && decide (sl.pins = 0)
      && decide (sl.timer = none)
  | .reserved =>
    sl.owner.isSome && decide (sl.tag = none) && !sl.pad && decide (sl.chunks = 0) && decide (sl.timer = none)
  | .filling =>
    sl.owner.isSome && sl.tag.isSome && !sl.pad && decide (sl.chunks ≤ 8) && decide (sl.pins = 0) && sl.timer.isSome
  | .staged => sl.owner.isSome && sl.complete && decide (sl.timer = none)
  | .roughed => sl.owner.isSome && sl.complete && decide (sl.timer = none)
  | .detached =>
    decide (sl.owner = none) && decide (sl.tag = none) && !sl.pad && decide (sl.chunks ≤ 8) && decide (1 ≤ sl.pins)
      && decide (sl.timer = none)

/-- Every slot of the pool has the form R45 gives its state. -/
def State.SlotsFormed (s : State) : Prop := ∀ i, (s.slot i).wf = true

/-- The states R149 gives a tag of each kind. -/
def TagState.legalFor (k : ReqKind) (st : TagState) : Bool :=
  match k, st with
  | _, .replying => true
  | .write, .transfer => true
  | .write, .staged => true
  | .write, .heldFailed => true
  | .read, .queued => true
  | .read, .active => true
  | .erase, .queued => true
  | .erase, .active => true
  | .close, .waiting => true
  | .laneReset, .waiting => true
  | .partReset, .waiting => true
  | _, _ => false

/-- Every live tag is in a state that R149 gives its kind. -/
def State.TagsLegal (s : State) : Prop := ∀ t e, s.tag t = some e → TagState.legalFor e.kind e.state = true

/-- The settings lie in their ranges (R156). -/
def Settings.inRange (c : Settings) : Bool :=
  decide (1 ≤ c.transferTimeout) && decide (c.transferTimeout ≤ 250) && decide (1 ≤ c.readBurst) && decide (c.readBurst ≤ 16)
    && decide (1 ≤ c.driftThreshold) && decide (c.driftThreshold ≤ 24) && decide (c.poolWatermark ≤ 64)

/-- The capacities: sixteen intake buffers (R172), sixteen shared refusal places (R151), 32 recall copies (R154), 24 entries of each
lane work queue (R82). A reply held back (R175) is not a refusal. -/
def State.WithinCapacity (s : State) : Prop :=
  s.link.intake.length ≤ Config.intakeBuffers
    ∧ s.link.queue.countP QueueEntry.isRefusal ≤ Config.sharedRefusals
    ∧ (∀ q, s.link.deferred = some q → q.isRefusal = false)
    ∧ s.rqu.ring.length ≤ Config.recallCopies
    ∧ ∀ x, (s.lane x).workQueue.length ≤ Config.workQueueEntries

/-- The places reserved for the tags (R151): each holds one reply at most, and only an interim reply while its tag, STAGED or
HELD_FAILED, has no final reply. A reply held back is the final reply of a tag whose interim frame is being sent (R175). -/
def State.RepliesPlaced (s : State) : Prop :=
  (∀ t, s.link.queue.countP (QueueEntry.reservedFor t) ≤ 1)
    ∧ (∀ t e, s.tag t = some e → e.state ≠ .replying → ∀ q ∈ s.link.queue, q.reservedFor t = true →
      q.reply.cls = .interim ∧ (e.state = .staged ∨ e.state = .heldFailed))
    ∧ ∀ q, s.link.deferred = some q →
      q.reply.cls = .final ∧ s.link.sendingInterim q.reply.tag = true
        ∧ ∀ e, s.tag q.reply.tag = some e → e.state = .replying

/-- The outbound number is 0 while a SYNC answer is due (R173, R174). -/
def Link.syncedWhenDue (l : Link) : Prop := l.syncDue = true → l.outbound = 0

/-- A safe state: all of the forms above. -/
def State.Safe (s : State) : Prop :=
  s.SlotsFormed ∧ s.TagsLegal ∧ s.WithinCapacity ∧ s.RepliesPlaced ∧ s.rqu.settings.inRange = true ∧ s.link.syncedWhenDue

/-- The lane is OFFLINE with nothing on its engine and nothing sensed (R94, R182). -/
def Lane.atRestOffline (l : Lane) : Prop := l.state = .offline ∧ l.engine = none ∧ l.sense = none

/-! ### Premises of the statements about frames -/

/-- RST# is released, `f` is the oldest intake frame, and RQU may take it (R143). -/
def State.Offers (s : State) (f : InFrame) : Prop := s.inReset = false ∧ s.link.intake.head? = some f ∧ s.mayTake f = true

/-- The oldest frame is a request of kind `k` that carries `r` and passes checks 1 to 3 of R145. -/
def State.Admits (s : State) (f : InFrame) (k : ReqKind) (r : Request) : Prop :=
  s.Offers f ∧ f.isRequest k = true ∧ parseRequest f.payload = some r ∧ f.tag < Config.tags ∧ s.tag f.tag = none
    ∧ partCheck k s.rqu.part = none

/-- The lane and block are in range and the lane is READY: checks 4 and 5 of R145. -/
def State.Reaches (s : State) (x b : Nat) : Prop := x < Config.lanes ∧ b < Config.hostBlocks ∧ (s.lane x).state = .ready

/-- The command that takes a request of each kind. -/
def ReqKind.command : ReqKind → Instr
  | .identify => .identify
  | .configure => .configure
  | .readSettings => .readSettings
  | .blockStatus => .blockStatus
  | .poolStatus => .poolStatus
  | .tagStatus => .tagStatus
  | .abort => .abort
  | .relocate => .relocate
  | .discard => .discard
  | .read => .read
  | .erase => .erase
  | .write => .write
  | .close => .close
  | .laneReset => .laneReset
  | .partReset => .partReset

/-! ### Effects the statements share -/

/-- The final reply of tag `t`, a request of kind `k`. -/
def Reply.finalOf (t : Nat) (k : ReqKind) (st : Status) (fields : ReplyFields) : Reply :=
  { tag := t, answers := .request k, status := st, cls := .final, fields := fields, recallable := true }

/-- The reply-queue entry of a final reply, with its data source. -/
def QueueEntry.finalOf (t : Nat) (k : ReqKind) (st : Status) (fields : ReplyFields) (source : Option Source) : QueueEntry :=
  { reply := Reply.finalOf t k st fields, source := source }

/-- The reply of tag `t`, a write that ends with a status other than DURABLE (R79, log 45). -/
def QueueEntry.writeEnd (t : Nat) (e : TagEntry) (st : Status) : QueueEntry :=
  QueueEntry.finalOf t e.kind st (.page (e.lane.getD 0) (e.block.getD 0) (e.page.getD 0)) none

/-- The reply of tag `t`, a write that ends DURABLE (R79, log 45). -/
def State.durableReply (s : State) (t : Nat) (e : TagEntry) : QueueEntry :=
  QueueEntry.finalOf t e.kind .durable
    (.durable (e.lane.getD 0) (e.block.getD 0) (e.page.getD 0) (s.record (e.lane.getD 0) (e.block.getD 0)).physical) none

/-- The replies of the live tags that the slots hold, in the order of the slots. `reply i t e` is the one of slot `i`, which holds tag
`t` with entry `e`. -/
def State.slotReplies (s : State) (slots : List Nat) (reply : Nat → Nat → TagEntry → QueueEntry) : List QueueEntry :=
  slots.filterMap (fun i => (s.slot i).tag.bind (fun t => (s.tag t).map (reply i t)))

/-- No two of the slots hold one tag, and no tag they hold has its final reply: as in every run. -/
def State.WritesOpen (s : State) (hit : Nat → Prop) : Prop :=
  (∀ i j t, hit i → hit j → (s.slot i).tag = some t → (s.slot j).tag = some t → i = j)
    ∧ ∀ i t e, hit i → (s.slot i).tag = some t → s.tag t = some e → e.state ≠ .replying

/-- The link after the oldest frame has left its buffer and a reply has joined the tail of the reply queue. -/
def State.linkWith (s : State) (q : QueueEntry) : Link := { s.unbuffer.link with queue := s.link.queue ++ [q] }

/-- The tag table with the entry of tag `t` set. -/
def Rqu.withTag (r : Rqu) (t : Nat) (e : TagEntry) : Rqu := { r with tags := r.tags.setIfInBounds t (some e) }

/-- The state after a request has been taken and answered at its dispatch, and nothing else has changed. -/
def State.answered (s : State) (t : Nat) (e : TagEntry) (r : Reply) : State :=
  { s with link := s.linkWith { reply := r, source := none }, rqu := s.rqu.withTag t e }

/-- The refusal of a frame (R147). -/
def InFrame.refusal (f : InFrame) (st : Status) (fields : ReplyFields) : Reply :=
  { tag := f.tag, answers := f.answers, status := st, cls := .refusal, fields := fields,
    recallable := decide (f.kind = kindReq) && decide (f.tag < Config.tags) && decide (st ≠ .tagInUse) }

/-- The state after a frame has been refused: only the reply queue and the frame's buffer have changed (R145). -/
def State.refusedWith (s : State) (f : InFrame) (st : Status) (fields : ReplyFields) : State :=
  { s with link := s.linkWith { reply := f.refusal st fields, source := none } }

/-- The lanes of two states are the same but for lane `x`. -/
def State.sameLanesBut (s m : State) (x : Nat) : Prop := ∀ y, y ≠ x → m.lane y = s.lane y

/-- The records of a lane are the same but for host block `b`. -/
def Lane.sameRecordsBut (l m : Lane) (b : Nat) : Prop := ∀ c, c ≠ b → m.record c = l.record c

/-- The input lines and the waiting commands are the same. -/
def State.sameInputs (s m : State) : Prop := m.wpAsserted = s.wpAsserted ∧ m.inReset = s.inReset ∧ m.pending = s.pending

/-- The two records are the same but for the ready_pass field, which the test of R28 may set. -/
def BlockRec.sameButReady (r q : BlockRec) : Prop := q = { r with readyPass := q.readyPass }

/-- A pass end may change these of the lane, and nothing else: the records, the ready list with read_run, the engine, the job and the
array. -/
def Lane.sameButPass (l m : Lane) : Prop :=
  m = { l with
    records := m.records, readyList := m.readyList, readRun := m.readRun, engine := m.engine, job := m.job, array := m.array }

/-- A dispatched request may change these of the lane, and nothing else: the records, the ready list with read_run, and the work
queue. -/
def Lane.sameButWork (l m : Lane) : Prop :=
  m = { l with records := m.records, readyList := m.readyList, readRun := m.readRun, workQueue := m.workQueue }

/-- The end of an ERASE job's operation may change these of the lane, and nothing else: the records, the ready list with read_run, the
engine, the job, the array and the tables. -/
def Lane.sameButErase (l m : Lane) : Prop :=
  m = { l with
    records := m.records, readyList := m.readyList, readRun := m.readRun, engine := m.engine, job := m.job, array := m.array
    substMap := m.substMap, freeReserves := m.freeReserves, retiredReserves := m.retiredReserves }

/-- The request unit is the same but for the tag table. -/
def Rqu.sameButTags (r q : Rqu) : Prop := q = { r with tags := q.tags }

/-- The link is the same but for the reply queue and a reply held back (R175). -/
def Link.sameButReplies (l m : Link) : Prop := m = { l with queue := m.queue, deferred := m.deferred }

/-- A reply is in the reply queue, or held back for its interim frame to leave (R175). -/
def Link.holds (l : Link) (q : QueueEntry) : Prop := q ∈ l.queue ∨ l.deferred = some q

/-- The command that ends a pass of each kind. -/
def PassKind.endCommand (k : PassKind) (x : Nat) (e : Ending) : Instr :=
  match k with
  | .rough => .dataRoughEnd x e
  | .terminator => .terminatorRoughEnd x e
  | .final => .finalEnd x e
  | .single => .singleEnd x e

/-- The lane a request names, for the eight kinds that name one (R95). -/
def Request.lane : Request → Option Nat
  | .blockStatus x _ => some x
  | .relocate x _ _ => some x
  | .discard x _ => some x
  | .read x _ _ => some x
  | .erase x _ => some x
  | .write x _ _ _ _ _ => some x
  | .close x _ => some x
  | .laneReset x => some x
  | _ => none

/-- The lane, blocks and page a request names are in range (check 4 of R145). A WRITE's page range follows its density, a READ's is 0 to
255 for both (R100). -/
def Request.inRange : Request → Bool
  | .blockStatus x b => decide (x ≤ 3) && decide (b ≤ 1023)
  | .relocate x a b => decide (x ≤ 3) && decide (a ≤ 1023) && decide (b ≤ 1023)
  | .discard x b => decide (x ≤ 3) && decide (b ≤ 1023)
  | .read x b p => decide (x ≤ 3) && decide (b ≤ 1023) && decide (p ≤ 255)
  | .erase x b => decide (x ≤ 3) && decide (b ≤ 1023)
  | .write x b p d _ _ => decide (x ≤ 3) && decide (b ≤ 1023) && decide (p < d.pages)
  | .close x b => decide (x ≤ 3) && decide (b ≤ 1023)
  | .laneReset x => decide (x ≤ 3)
  | _ => true

/-- A WRITE of page `p` with density `d` passes checks 6 to 11 of R145 at block `b` (R23, R26, R65). -/
def State.WriteFits (s : State) (x b p : Nat) (d : Density) : Prop :=
  s.wpAsserted = false
    ∧ ((s.record x b).state = .erased ∨ ((s.record x b).state = .opened ∧ (s.record x b).density = some d))
    ∧ (s.record x b).erasePending = false ∧ p = (s.record x b).intakeNext ∧ (s.record x b).inWindow d p = true

/-- The record after the admission of a page, but for ready_pass (R24, R25). -/
def BlockRec.admitted (r : BlockRec) (d : Density) : BlockRec :=
  if r.state = .erased then
    { r with
      state := .opened
      density := some d
      intakeNext := 1
      roughDone := 0
      finalDone := 0
      dataEnd := none
      closedBy := none }
  else { r with intakeNext := r.intakeNext + 1 }

/-- A slot that a WRITE has just filled: FILLING, no chunk, no pin, its timer running (R51, R63). -/
def Slot.filledBy (sl : Slot) (o : Owner) (t timeout : Nat) (area : List Byte) : Slot :=
  { state := .filling, owner := some o, pad := false, tag := some t, chunks := 0, pins := 0, timer := some timeout, data := sl.data,
    tagArea := area }

/-- What the test of R28 leaves, made on block `b` at the end of a happening that began in `s` and gave `m`. `before` is the block's
ready_pass at the test. An eligible pass joins the tail of the ready list when none is on it or in flight, and a block that is neither
OPEN nor CLOSING leaves the list. -/
def State.BlockTested (s m : State) (x b : Nat) (before : Option Pass) : Prop :=
  let list := (s.lane x).readyList
  let running := (m.record x b).state = .opened ∨ (m.record x b).state = .closing
  let inFlight := ∃ q, (m.lane x).job = some (.pass b q)
  let leaves := fun (ready : Option Pass) (list : List ReadyEntry) (run : Nat) =>
    (m.record x b).readyPass = ready ∧ (m.lane x).readyList = list ∧ (m.lane x).readRun = run
  (running → before = none → ¬inFlight → ∀ q, m.eligible x b = some q →
      leaves (some q) (list ++ [{ block := b, pass := q }]) (s.lane x).readRun)
    ∧ (running → (before ≠ none ∨ inFlight ∨ m.eligible x b = none) → leaves before list (s.lane x).readRun)
    ∧ (¬running → before ≠ none →
      let rest := list.filter (fun e => decide (e.block ≠ b))
      leaves none rest (if rest = [] then 0 else (s.lane x).readRun))
    ∧ (¬running → before = none → leaves none list (s.lane x).readRun)

/-- What an admission does beyond the slots: the record, the tag in TRANSFER, the test of R28, and nothing else (R24, R25, R63). -/
def State.AdmitsPage (s m : State) (f : InFrame) (x b p i : Nat) (d : Density) (check : Word32) : Prop :=
  (BlockRec.sameButReady ((s.record x b).admitted d) (m.record x b))
    ∧ m.tag f.tag
      = some { kind := .write, state := .transfer, lane := some x, block := some b, page := some p, slot := some i,
               interimSent := false, check := some check }
    ∧ (∀ u, u ≠ f.tag → m.tag u = s.tag u)
    ∧ s.rqu.sameButTags m.rqu ∧ m.link = s.unbuffer.link ∧ m.pool.armed = s.pool.armed
    ∧ (s.lane x).sameButWork (m.lane x) ∧ (s.lane x).sameRecordsBut (m.lane x) b ∧ (m.lane x).workQueue = (s.lane x).workQueue
    ∧ s.BlockTested m x b (if (s.record x b).state = .erased then none else (s.record x b).readyPass)
    ∧ s.sameLanesBut m x ∧ s.sameInputs m

/-! ### The end of a happening -/

/-- What the pool's tests leave at the end of a happening that began in `s` and whose own effects gave `m` (R60, R61): a fall of the FREE
count below the watermark with the armed flag set clears the flag and makes POOL_LOW pending, a rise to the lesser of 96 and the
watermark + 8 sets the flag, and otherwise both stay. -/
def State.PoolTested (s m t : State) : Prop :=
  let mark := m.rqu.settings.poolWatermark
  let fell := t.freeCount < s.freeCount ∧ 0 < mark ∧ m.pool.armed = true ∧ t.freeCount < mark
  let rose := s.freeCount < t.freeCount ∧ min 96 (mark + 8) ≤ t.freeCount
  (fell → t.pool.armed = false
      ∧ t.rqu.poolLow = { pending := true, again := m.rqu.poolLow.again || m.link.sendingNote .poolLow })
    ∧ (rose → t.pool.armed = true ∧ t.rqu.poolLow = m.rqu.poolLow)
    ∧ (¬fell → ¬rose → t.pool.armed = m.pool.armed ∧ t.rqu.poolLow = m.rqu.poolLow)

/-- The scheduler's choices may change these of their lane, and nothing else. -/
def Lane.sameButChoices (l m : Lane) : Prop :=
  m = { l with
    records := m.records, readyList := m.readyList, workQueue := m.workQueue, readRun := m.readRun, freeReserves := m.freeReserves,
    egress := m.egress, engine := m.engine, job := m.job, array := m.array }

/-- What the start of job `j` at a choice of lane `x` leaves of the lane (R29, R103, R117, R120): the operation that is presented, what
its start does to the array, and the egress buffer or the reserve it takes. `m` is the state before the choice, `k` the lane after. -/
def State.JobStarted (m : State) (x : Nat) (j : Job) (k : Lane) : Prop :=
  let l := m.lane x
  match j with
  | .pass b p =>
    k.engine = some (m.passOperation x b p) ∧ k.array = (m.passOperation x b p).begin l.array ∧ k.readRun = 0
      ∧ k.egress = l.egress ∧ k.freeReserves = l.freeReserves
  | .read _ b p phys =>
    phys = (m.record x b).physical ∧ k.engine = some (.sense phys p 0) ∧ k.array = l.array
      ∧ k.egress = { l.egress with state := .claimed, sectors := Vector.replicate 8 .pending, lastStep := 0 }
      ∧ k.freeReserves = l.freeReserves
  | .erase _ b c erased =>
    erased = none ∧ l.eraseCourse b = some c ∧ k.engine = some (.erase (c.block (m.record x b).physical)) ∧ k.array = l.array
      ∧ k.egress = l.egress ∧ k.freeReserves = c.takeReserve l.freeReserves

/-! ### Resets and the end of start-up -/

/-- The block record after a reset of its lane (R42). -/
def BlockRec.SetByReset (r q : BlockRec) : Prop :=
  let live := (r.state = .opened ∨ r.state = .closing ∨ r.state = .failed) ∧ 0 < r.heldCount
  let kept := { r with erasePending := false, failNotice := false, readyPass := none }
  (live → r.roughDone = 0 → r.finalDone = 0 → r.suspect = false →
    q = { kept with state := .erased, density := none, dataEnd := none, closedBy := none, intakeNext := 0 })
  ∧ (live → (r.roughDone ≠ 0 ∨ r.finalDone ≠ 0 ∨ r.suspect = true) →
    q = { kept with state := .closed, closedBy := some .reset, dataEnd := some r.firstHeld, intakeNext := r.firstHeld })
  ∧ (¬live → q = kept)

/-- The number of blocks of lane `x` that stand in state `st` in `m` and did not in `s`. -/
def State.blocksSet (s m : State) (x : Nat) (st : BlockState) : Nat :=
  (List.range 1024).countP (fun b => decide ((m.record x b).state = st) && decide ((s.record x b).state ≠ st))

/-- The number of queued replies whose data source is `src`. -/
def sourceCount (queue : List QueueEntry) (src : Source) : Nat := queue.countP (fun q => decide (q.source = some src))

/-- The sources of the queued replies `gone` are released (R153): each slot loses a pin for each, and an egress buffer becomes FREE. `sl`
is what a slot is but for that. -/
def State.SourcesReleased (s m : State) (gone : List QueueEntry) (sl : Nat → Slot) : Prop :=
  (∀ i, m.slot i = Slot.unpin^[sourceCount gone (.slot i)] (sl i))
    ∧ ∀ y, y < 4 → (m.lane y).egress
        = if 0 < sourceCount gone (.egress y) then { (s.lane y).egress with state := .free } else (s.lane y).egress

/-- The last lane has ended its scan (R187): every lane that is not OFFLINE becomes READY with nothing queued, the part is RUNNING and
STARTUP_DONE is pending with the lanes' states. -/
def State.StartUpEnds (s m : State) : Prop :=
  m.rqu.part = .running
    ∧ m.rqu.startupDone = { pending := true, again := s.rqu.startupDone.again || s.link.sendingNote .startupDone }
    ∧ m.rqu = { s.rqu with part := m.rqu.part, startupDone := m.rqu.startupDone, scanEnd := m.rqu.scanEnd }
    ∧ m.link = s.link ∧ m.pool = s.pool ∧ s.sameInputs m
    ∧ ∀ y, y < 4 →
      m.rqu.scanEnd[y]? = some (decide ((s.lane y).state ≠ .offline))
        ∧ m.lane y
          = if (s.lane y).state = .offline then s.lane y
            else
              { s.lane y with
                state := .ready, workQueue := [], readyList := [], readRun := 0,
                egress := { (s.lane y).egress with state := .free } }

end Sys2Proof.Machine
end

