-- ==== Sys2Proof/Certificates/Slice0/Obligations.lean ====
section
/-! DEFINITION. The statements for the provers. In most of them the next state is written s.conclude xs m: m is what the command's own
rules leave, and conclude is the end that every happening has (HappeningEnd, SchedulerOrder, ArbiterOrder say what it can do). That the
pool's tests come before the arbiter's choice there is the model's choice (log 39). -/

open Sys2Proof Sys2Proof.Machine

/-! ### The step, reset and the forms that every step keeps -/

/-- A step carries out the command at the front of the queue, and idles on an empty queue (log 4). -/
def Obligations.StepRunsFrontCommand : Prop :=
  (∀ (s : State) (c : Instr) (rest : List Instr), s.pending = c :: rest → step s = exec c { s with pending := rest })
    ∧ ∀ s : State, s.pending = [] → step s = .next s

/-- What reset leaves: the values of R62, R156, R165, R178 and R180. -/
def Obligations.ResetState : Prop :=
  let s := State.reset
  (∀ t, s.tag t = none) ∧ s.rqu.ring = [] ∧ s.link.queue = [] ∧ s.rqu.part = .starting
    ∧ s.rqu.settings = { transferTimeout := 20, readBurst := 4, driftThreshold := 18, poolWatermark := 12 }
    ∧ s.rqu.wpNotice.pending = false ∧ s.rqu.poolLow.pending = false ∧ s.rqu.startupDone.pending = false
    ∧ s.link.expected = 0 ∧ s.link.outbound = 0 ∧ s.link.nakFlag = false ∧ s.link.windowClosed = false ∧ s.link.nakDue = none
    ∧ s.link.owed = false ∧ s.link.ackTimer = false ∧ s.link.ackDue = false ∧ s.link.intake = [] ∧ s.link.syncDue = false
    ∧ s.link.transmission = none ∧ s.link.tx = none ∧ s.link.lastTurn = none
    ∧ (∀ i, (s.slot i).state = .free ∧ (s.slot i).wf = true) ∧ s.freeCount = 96 ∧ s.pool.armed = true
    ∧ ∀ x, x < 4 → (s.lane x).state = .scanning ∧ (s.lane x).engine = some .directoryRead ∧ (s.lane x).job = none
        ∧ (s.lane x).workQueue = [] ∧ (s.lane x).readyList = [] ∧ (s.lane x).readRun = 0 ∧ (s.lane x).egress.state = .free
        ∧ (s.lane x).sense = none ∧ (s.lane x).substMap = [] ∧ (s.lane x).freeReserves = [] ∧ (s.lane x).retiredReserves = []

/-- The forms of Safety.lean hold at reset. -/
def Obligations.ResetIsSafe : Prop := State.reset.Safe

/-- R45: every step keeps the form R45 gives each slot, and the six counts add up to 96 in every state. -/
def Obligations.SlotsStayFormed : Prop :=
  (∀ s t : State, s.SlotsFormed → step s = .next t → t.SlotsFormed)
    ∧ ∀ s : State, (s.slotsIn .free).length + (s.slotsIn .reserved).length + (s.slotsIn .filling).length
        + (s.slotsIn .staged).length + (s.slotsIn .roughed).length + (s.slotsIn .detached).length = 96

/-- R149: every step keeps each live tag in a state of its kind. -/
def Obligations.TagsStayLegal : Prop := ∀ s t : State, s.TagsLegal → step s = .next t → t.TagsLegal

/-- The capacities (R82, R151, R154, R172), the ranges of the settings (R156), and an outbound number of 0 while a SYNC answer is due
(R173) are kept by every step. So is one reply at most in the place reserved for each tag, with what that rests on (R144, R151, R152). -/
def Obligations.CapacitiesKept : Prop :=
  ∀ s t : State, step s = .next t →
    (s.WithinCapacity → s.rqu.settings.inRange = true → s.link.syncedWhenDue →
      t.WithinCapacity ∧ t.rqu.settings.inRange = true ∧ t.link.syncedWhenDue)
    ∧ (s.RepliesPlaced → t.RepliesPlaced)

/-- An OFFLINE lane stays OFFLINE and presents no operation until RST# (R94, R182). -/
def Obligations.OfflineLanesRest : Prop :=
  ∀ (c : Instr) (s t : State) (x : Nat), (s.lane x).atRestOffline → exec c s = .next t → c ≠ .rstAsserted → c ≠ .rstReleased →
    (t.lane x).atRestOffline

/-- A command leaves the waiting commands as they are; the level of WP# changes at WP_CHANGED alone (R161), and RST# at its own
happenings alone (R180). -/
def Obligations.ExecLeavesQueueAndPins : Prop :=
  ∀ (c : Instr) (s t : State), exec c s = .next t →
    t.pending = s.pending ∧ (c ≠ .wpChanged → t.wpAsserted = s.wpAsserted)
      ∧ (c ≠ .rstAsserted → c ≠ .rstReleased → t.inReset = s.inReset)

/-- R156: the settings change at CONFIGURE, at power-on and at RST# alone. -/
def Obligations.SettingsOnlyByConfigure : Prop :=
  ∀ (c : Instr) (s t : State), exec c s = .next t → c ≠ .configure → c ≠ .rstAsserted → c ≠ .rstReleased →
    t.rqu.settings = s.rqu.settings

/-- R169: the expected number moves by one at an acceptance, and otherwise at a host SYNC and at RST# alone. -/
def Obligations.ExpectedNumberMoves : Prop :=
  ∀ (c : Instr) (s t : State), exec c s = .next t → t.link.expected ≠ s.link.expected →
    (∃ bytes, c = .sequencedFrame bytes ∧ t.link.expected = s.link.expected + 1 ∧ s.link.intake.length < 16)
      ∨ (∃ bytes, c = .sync bytes) ∨ c = .rstAsserted ∨ c = .rstReleased

/-- R1: while no PART_RESET is under way, the end of an operation on a lane leaves every other lane, its array included, as it was. -/
def Obligations.LanesIndependent : Prop :=
  ∀ (s t : State) (x y : Nat) (e : Ending) (noise : List BitError) (found : List Codeword),
    s.rqu.partReset = none → s.rqu.part ≠ .resetting → y ≠ x →
    (exec (.dataRoughEnd x e) s = .next t ∨ exec (.terminatorRoughEnd x e) s = .next t ∨ exec (.finalEnd x e) s = .next t
      ∨ exec (.singleEnd x e) s = .next t ∨ exec (.senseEnd x noise) s = .next t ∨ exec (.decodeEnd x found) s = .next t
      ∨ exec (.inPlaceEraseEnd x e) s = .next t ∨ exec (.reserveEraseEnd x e) s = .next t
      ∨ exec (.directoryWriteEnd x e) s = .next t) →
    t.lane y = s.lane y

/-! ### The end of a happening -/

/-- R60, R61, R86, R96, R98, R99, R164, R177: what the end of a happening does and can change. On each lane concerned, in turn, a due reset
is applied, a PART_RESET whose last reached lane has applied its reset completes, and the scheduler chooses; then come the pool's tests,
and last the arbiter's choice and composition (ArbiterOrder), made on the state that the tests leave. With no lane concerned: the frame
being composed and what its composition settles, and the pool-low condition and its armed flag by the pool's tests. On a READY lane `x`
further what the scheduler's choices take: entries leave the work queue and the ready list, read_run follows them, ready_pass of a block
whose pass starts and erase_pending of a block whose ERASE ends become clear, pins rise, tags of taken entries become ACTIVE or REPLYING
and their final replies join the queue, and at most one job starts, with its operation, the array as its start leaves it, the egress buffer
claimed and a reserve taken. Nothing else of the state changes. When no job is in flight then, the ready list is empty, and the queue is
empty or begins with a READ that waits for the egress buffer. That the arbiter chooses after the pool's tests is the model's choice (log
39). -/
def Obligations.HappeningEnd : Prop :=
  (∀ s m : State,
    let t := s.conclude [] m
    t.lanes = m.lanes ∧ t.pool.slots = m.pool.slots ∧ m.sameInputs t ∧ s.PoolTested m t
      ∧ t.rqu = { m.rqu with poolLow := t.rqu.poolLow }
      ∧ t.link.queue = m.link.queue ∧ t.link.deferred = m.link.deferred ∧ t.link.intake = m.link.intake
      ∧ t.link.expected = m.link.expected ∧ t.link.nakFlag = m.link.nakFlag ∧ t.link.windowClosed = m.link.windowClosed
      ∧ (m.link.tx.isSome = true → t.link = m.link)
      ∧ ∃ p : State, t = p.arbitrate ∧ s.PoolTested m p
          ∧ p = { m with
              pool := { m.pool with armed := p.pool.armed }
              rqu := { m.rqu with poolLow := p.rqu.poolLow } })
  ∧ (∀ (s m : State) (x : Nat) (xs : List Nat),
    s.conclude (x :: xs) m = s.conclude xs (((m.applyDueReset x).completeReset).schedule x))
  ∧ ∀ (s m : State) (x : Nat), (m.lane x).state = .ready → m.rqu.partReset = none →
      let t := s.conclude [x] m
      let l := m.lane x
      let k := t.lane x
      ((l.job ≠ none ∨ (l.readyList = [] ∧ l.workQueue = [])) → t = s.conclude [] m)
        ∧ m.sameLanesBut t x ∧ m.sameInputs t ∧ l.sameButChoices k
        ∧ (k.job = l.job →
          k.engine = l.engine ∧ k.array = l.array ∧ k.egress = l.egress ∧ k.freeReserves = l.freeReserves)
        ∧ (∀ j, l.job = none → k.job = some j → m.JobStarted x j k)
        ∧ (k.job = none →
          k.readyList = []
            ∧ (k.workQueue = []
              ∨ ∃ u b p rest, k.workQueue = { tag := u, block := b, kind := .read p } :: rest
                ∧ t.classify x b p = .finalized ∧ k.egress.state ≠ .free))
        ∧ k.workQueue <:+ l.workQueue ∧ k.readyList.Sublist l.readyList
        ∧ (k.readRun = 0
          ∨ (l.readRun ≤ k.readRun ∧ k.readRun + k.workQueue.length ≤ l.readRun + l.workQueue.length))
        ∧ (∀ b,
          t.record x b
              = { m.record x b with
                  readyPass := (t.record x b).readyPass, erasePending := (t.record x b).erasePending }
            ∧ ((t.record x b).readyPass = (m.record x b).readyPass
              ∨ ((t.record x b).readyPass = none ∧ ∃ p, k.job = some (.pass b p)))
            ∧ ((t.record x b).erasePending = (m.record x b).erasePending
              ∨ ((t.record x b).erasePending = false ∧ ∃ w ∈ l.workQueue, w.block = b ∧ w.kind = .erase)))
        ∧ (∀ i, t.slot i = { m.slot i with pins := (t.slot i).pins } ∧ (m.slot i).pins ≤ (t.slot i).pins)
        ∧ (∀ u, (∀ w ∈ l.workQueue, w.tag ≠ u) → t.tag u = m.tag u)
        ∧ (∀ u, m.tag u = none → t.tag u = none)
        ∧ (∀ u e, m.tag u = some e →
          ∃ st, t.tag u = some { e with state := st } ∧ (st = e.state ∨ st = .active ∨ st = .replying))
        ∧ t.rqu = { m.rqu with tags := t.rqu.tags, poolLow := t.rqu.poolLow } ∧ s.PoolTested m t
        ∧ t.link.intake = m.link.intake ∧ t.link.expected = m.link.expected ∧ t.link.nakFlag = m.link.nakFlag
        ∧ t.link.windowClosed = m.link.windowClosed
        ∧ (m.link.tx.isSome = true → m.link.sameButReplies t.link)
        ∧ ((∀ w ∈ l.workQueue, ∀ q ∈ m.link.queue, q.interimOf w.tag = false) →
          t.link.deferred = m.link.deferred
            ∧ ∃ new, t.link.queue = m.link.queue ++ new ∧ new.length + k.workQueue.length ≤ l.workQueue.length
              ∧ ∀ q ∈ new, q.reply.cls = .final ∧ ∃ w ∈ l.workQueue, w.tag = q.reply.tag)

/-- R86, R87: what the scheduler takes at a choice. A READ at the head goes first within its burst if its page needs no egress buffer or
the buffer is FREE (R88). Otherwise, when the head is no READ, or its page needs the buffer and it is not FREE, or a pass is ready and
read_run has reached read_burst: the oldest FINAL, otherwise the oldest pass, otherwise an ERASE at the head, otherwise nothing. Choices
follow one another until a job is in flight or the choice is to wait. What taking a pass, a READ and an ERASE leaves is said in PassOrder,
ReadDispatched and EraseQueued. -/
def Obligations.SchedulerOrder : Prop :=
  let noRead := fun (s : State) (x : Nat) =>
    ∀ t b p rest, (s.lane x).workQueue = { tag := t, block := b, kind := .read p } :: rest →
      (s.classify x b p = .finalized ∧ (s.lane x).egress.state ≠ .free)
        ∨ ((s.lane x).readyList ≠ [] ∧ s.rqu.settings.readBurst ≤ (s.lane x).readRun)
  (∀ (s : State) (x t b p : Nat) (rest : List WorkItem),
      (s.lane x).workQueue = { tag := t, block := b, kind := .read p } :: rest →
      (s.classify x b p ≠ .finalized ∨ (s.lane x).egress.state = .free) →
      ((s.lane x).readyList = [] ∨ (s.lane x).readRun < s.rqu.settings.readBurst) →
      s.choice x = .read t b p (s.classify x b p))
    ∧ (∀ (s : State) (x : Nat) (e : ReadyEntry) (before after : List ReadyEntry),
      noRead s x → (s.lane x).readyList = before ++ e :: after → e.pass.kind = .final →
      (∀ f ∈ before, f.pass.kind ≠ .final) → s.choice x = .pass e)
    ∧ (∀ (s : State) (x : Nat) (e : ReadyEntry) (after : List ReadyEntry),
      noRead s x → (s.lane x).readyList = e :: after → (∀ f ∈ (s.lane x).readyList, f.pass.kind ≠ .final) →
      s.choice x = .pass e)
    ∧ (∀ (s : State) (x t b : Nat) (rest : List WorkItem),
      (s.lane x).readyList = [] → (s.lane x).workQueue = { tag := t, block := b, kind := .erase } :: rest →
      s.choice x = .erase t b)
    ∧ (∀ (s : State) (x t b p : Nat) (rest : List WorkItem),
      (s.lane x).readyList = [] → (s.lane x).workQueue = { tag := t, block := b, kind := .read p } :: rest →
      s.classify x b p = .finalized → (s.lane x).egress.state ≠ .free → s.choice x = .wait)
    ∧ ∀ (s : State) (x : Nat),
      let due := (s.lane x).job = none ∧ (s.lane x).state = .ready
        ∧ ((s.lane x).readyList ≠ [] ∨ (s.lane x).workQueue ≠ [])
      (¬due → s.schedule x = s) ∧ (s.choice x = .wait → s.schedule x = s)
        ∧ (due → s.schedule x = (s.take x (s.choice x)).schedule x)

/-- R177: with the transmitter idle, the arbiter takes the SYNC answer, then a NAK, then the next DATA frame, then a reply or a notice in
turn, then an ACK; and among the pending notices STARTUP_DONE, WP_CHANGED, POOL_LOW, then BLOCK_FAILED of the lowest lane and block. -/
def Obligations.ArbiterOrder : Prop :=
  (∀ s : State, s.link.tx = none →
    (s.link.syncDue = true → s.arbitrate.link.tx.map OutFrame.what = some .sync)
    ∧ (s.link.syncDue = false →
      (∀ r, s.link.nakDue = some r → s.arbitrate.link.tx.map OutFrame.what = some .nak)
      ∧ (s.link.nakDue = none →
        (∀ c q rest, s.link.transmission = some c → s.link.queue = q :: rest →
          s.arbitrate.link.tx.map OutFrame.what = some (.data c false))
        ∧ (s.link.transmission = none →
          (∀ q rest, s.link.queue = q :: rest → (s.nextNotice = none ∨ s.link.lastTurn = some .notice) →
            s.arbitrate.link.tx.map (fun f => (f.what, f.tag)) = some (.rsp false, q.reply.tag)
              ∧ s.arbitrate.link.lastTurn = some .reply)
          ∧ (∀ n, s.nextNotice = some n → (s.link.queue = [] ∨ s.link.lastTurn ≠ some .notice) →
            s.arbitrate.link.tx.map (fun f => (f.what, f.tag)) = some (.note n, 255)
              ∧ s.arbitrate.link.lastTurn = some .notice)
          ∧ (s.link.queue = [] → s.nextNotice = none →
            s.arbitrate.link.tx.map OutFrame.what = if s.link.ackDue then some .ack else none)))))
  ∧ ∀ s : State,
    (s.rqu.startupDone.pending = true → s.nextNotice = some .startupDone)
    ∧ (s.rqu.startupDone.pending = false →
      (s.rqu.wpNotice.pending = true → s.nextNotice = some .wpChanged)
      ∧ (s.rqu.wpNotice.pending = false → s.rqu.poolLow.pending = true → s.nextNotice = some .poolLow)
      ∧ (s.rqu.wpNotice.pending = false → s.rqu.poolLow.pending = false →
        (∀ x b, s.nextNotice = some (.blockFailed x b)
          ↔ x < 4 ∧ b < 1024 ∧ (s.record x b).failNotice = true ∧ (∀ c, c < b → (s.record x c).failNotice = false)
            ∧ ∀ y c, y < x → c < 1024 → (s.record y c).failNotice = false)
        ∧ ((∀ x b, x < 4 → b < 1024 → (s.record x b).failNotice = false) → s.nextNotice = none)))

/-- R111, R161, R170, R171, R173 to R176: a frame composed by the arbiter carries E, the free buffer count and the outbound number; RSP,
NOTE and DATA frames advance that number, the SYNC answer carries 0, and the composition settles the acknowledgement. A SYNC answer
carries E and a NAK its reason, and neither is then due; an RSP carries the head reply, a DATA frame its chunk index and the chunk of the
head's source, with one chunk more of the transmission sent, and a NOTE its code and figures (log 20). The composition changes nothing else
of the link, and nothing outside it. -/
def Obligations.ComposedHeader : Prop :=
  ∀ (s : State) (f : OutFrame), s.link.tx = none → s.arbitrate.link.tx = some f →
    let l := s.link
    let m := s.arbitrate.link
    f.ack = l.expected ∧ f.window = 16 - l.intake.length ∧ f.seq = (if f.what = .sync then 0 else l.outbound)
      ∧ m = { l with
          tx := some f, outbound := m.outbound, owed := false, ackTimer := false, ackDue := false, syncDue := m.syncDue
          nakDue := m.nakDue, transmission := m.transmission, lastTurn := m.lastTurn }
      ∧ m.outbound = (match f.what with | .sync => 0 | .ack => l.outbound | .nak => l.outbound | _ => l.outbound + 1)
      ∧ m.syncDue = (match f.what with | .sync => false | _ => l.syncDue)
      ∧ m.nakDue = (match f.what with | .nak => none | _ => l.nakDue)
      ∧ m.transmission = (match f.what with | .data c _ => some (c + 1) | _ => l.transmission)
      ∧ m.lastTurn = (match f.what with | .rsp _ => some .reply | .note _ => some .notice | _ => l.lastTurn)
      ∧ (match f.what with
        | .sync => l.syncDue = true ∧ f.tag = 255 ∧ f.payload = [l.expected]
        | .nak =>
          ∃ r, l.nakDue = some r ∧ f.tag = 255
            ∧ f.payload = [match r with | .badFrame => 1#8 | .gap => 2#8 | .noBuffer => 3#8]
        | .data c dropped =>
          dropped = false ∧ l.transmission = some c
            ∧ ∃ q rest, l.queue = q :: rest ∧ f.tag = q.reply.tag
              ∧ (∀ i, q.source = some (.slot i) →
                f.payload = BitVec.ofNat 8 c :: ((s.slot i).data.drop (1024 * c)).take 1024)
              ∧ (∀ x sector, q.source = some (.egress x) → (s.lane x).egress.bytes[c]? = some sector →
                f.payload = BitVec.ofNat 8 c :: sector)
        | .rsp dropped =>
          dropped = false ∧ ∃ q rest, l.queue = q :: rest ∧ f.tag = q.reply.tag ∧ f.payload = q.reply.bytes
        | .note n =>
          s.nextNotice = some n ∧ f.tag = 255
            ∧ f.payload = (match n with
              | .blockFailed x b =>
                let first := (s.record x b).firstHeld
                [1#8, BitVec.ofNat 8 x, BitVec.ofNat 8 b, BitVec.ofNat 8 (b / 256), BitVec.ofNat 8 first,
                  BitVec.ofNat 8 (first / 256), BitVec.ofNat 8 (s.record x b).heldCount]
              | .poolLow => [2#8, BitVec.ofNat 8 s.freeCount]
              | .wpChanged => [3#8, if s.wpAsserted then 1#8 else 0#8]
              | .startupDone => 4#8 :: s.rqu.scanEnd.toList.map (fun ready => if ready then 2#8 else 4#8))
        | .ack => l.ackDue = true ∧ f.tag = 255 ∧ f.payload = [])
      ∧ s.arbitrate.rqu = s.rqu ∧ s.arbitrate.pool = s.pool ∧ s.arbitrate.lanes = s.lanes ∧ s.sameInputs s.arbitrate

/-! ### The link -/

/-- R166 to R168, R173: a frame laid out by R167 with its CRC is received with its fields, a SYNC frame with its payload byte. A run of
fewer than 11 bytes, with a length field above 1,040 or other than its byte count less 11, or whose last four bytes are not the CRC of the
others, low byte first, is a bad frame, and so is a SYNC frame whose payload is not one byte (log 32). The CRC has the check value of
R168. -/
def Obligations.LineFrames : Prop :=
  (∀ (kind : Nat) (seq ack : Byte) (window tag : Nat) (payload : List Byte), kind < 256 → kind ≠ 3 → tag < 256 →
      payload.length ≤ 1040 →
      receive (lineBytes kind seq ack window tag payload)
        = .sequenced { kind := kind, seq := seq, tag := tag, payload := payload })
    ∧ (∀ (seq ack e : Byte) (window tag : Nat), receive (lineBytes 3 seq ack window tag [e]) = .sync e)
    ∧ (∀ (seq ack : Byte) (window tag : Nat) (payload : List Byte), payload.length ≤ 1040 → payload.length ≠ 1 →
      receive (lineBytes 3 seq ack window tag payload) = .bad)
    ∧ (∀ bytes : List Byte, bytes.length < 11 → receive bytes = .bad)
    ∧ (∀ (bytes : List Byte) (lo hi : Byte), bytes[5]? = some lo → bytes[6]? = some hi →
      (1040 < lo.toNat + 256 * hi.toNat ∨ bytes.length ≠ lo.toNat + 256 * hi.toNat + 11) → receive bytes = .bad)
    ∧ (∀ (body : List Byte) (c0 c1 c2 c3 : Byte), crc32 body ≠ c3 ++ c2 ++ c1 ++ c0 → receive (body ++ [c0, c1, c2, c3]) = .bad)
    ∧ crc32 [0x31#8, 0x32#8, 0x33#8, 0x34#8, 0x35#8, 0x36#8, 0x37#8, 0x38#8, 0x39#8] = 0xCBF43926#32

/-- R169 to R172: the expected frame, with a buffer free, is accepted: buffered with its malformed mark, E one higher, the NAK flag clear,
an acknowledgement owed, and its timer started if none was owed. -/
def Obligations.SequencedFrameAccepted : Prop :=
  ∀ (s : State) (bytes : List Byte) (f : LineFrame), s.inReset = false → receive bytes = .sequenced f → f.seq = s.link.expected →
    s.link.intake.length < 16 →
    exec (.sequencedFrame bytes) s
      = .next (s.conclude []
          { s with link := { s.link with
              intake := s.link.intake
                ++ [{ kind := f.kind
                      tag := f.tag
                      payload := f.payload
                      malformed := (decide (f.kind ≠ 1) && decide (f.kind ≠ 2)) || (decide (f.kind = 1) && decide (f.payload = []))
                        || (decide (f.kind = 2) && decide (f.payload.length ≠ 1025)) }]
              expected := s.link.expected + 1
              nakFlag := false
              owed := true
              ackTimer := s.link.ackTimer || !s.link.owed } })

/-- R166, R169 to R171: frames that are discarded change nothing but the link's flags. A bad frame, the expected frame with no buffer
free, and a frame ahead of E make a NAK with their reason due and set the NAK flag, if it is clear; a duplicate makes an ACK due. That a
NAK still due while the flag is clear then gives way to the new one is the model's choice (log 41). -/
def Obligations.FramesDiscarded : Prop :=
  (∀ (s : State) (ending : FrameEnding) (bytes : List Byte), s.inReset = false → (ending = .byStart ∨ receive bytes = .bad) →
    exec (.badFrame ending bytes) s
      = .next (s.conclude []
          { s with link := { s.link with
              nakFlag := true
              nakDue := if s.link.nakFlag then s.link.nakDue else some .badFrame } }))
  ∧ ∀ (s : State) (bytes : List Byte) (f : LineFrame), s.inReset = false → receive bytes = .sequenced f →
    (f.seq = s.link.expected → 16 ≤ s.link.intake.length →
      exec (.sequencedFrame bytes) s
        = .next (s.conclude []
            { s with link := { s.link with
                windowClosed := true
                nakFlag := true
                nakDue := if s.link.nakFlag then s.link.nakDue else some .noBuffer } }))
    ∧ (1 ≤ (f.seq - s.link.expected).toNat → (f.seq - s.link.expected).toNat ≤ 127 →
      exec (.sequencedFrame bytes) s
        = .next (s.conclude []
            { s with link := { s.link with
                nakFlag := true
                nakDue := if s.link.nakFlag then s.link.nakDue else some .gap } }))
    ∧ (128 ≤ (f.seq - s.link.expected).toNat →
      exec (.sequencedFrame bytes) s = .next (s.conclude [] { s with link := { s.link with ackDue := true } }))

/-- R171, R173: a host SYNC sets E, empties the intake buffers, clears the NAK and window flags, restarts the outbound number and makes
the answer due, and changes nothing above the link. When the acknowledge timer runs out it stops, and an ACK is due when one is owed; a
stopped timer does not run out. That the expiry of a stopped timer is refused is the model's choice (log 2). -/
def Obligations.SyncAndAckTimer : Prop :=
  (∀ (s : State) (bytes : List Byte) (e : Byte), s.inReset = false → receive bytes = .sync e →
    exec (.sync bytes) s
      = .next (s.conclude []
          { s with link := { s.link with
              expected := e
              intake := []
              nakFlag := false
              windowClosed := false
              nakDue := none
              outbound := 0
              syncDue := true } }))
  ∧ ∀ s : State, s.inReset = false →
    (s.link.ackTimer = true →
      exec .ackTimerExpiry s
        = .next (s.conclude []
            { s with link := { s.link with
                ackTimer := false
                ackDue := s.link.ackDue || s.link.owed } }))
    ∧ (s.link.ackTimer = false → exec .ackTimerExpiry s = .refused .timerStopped)

/-! ### Replies -/

/-- R78, R152, R175: a tag's final reply takes the place of its interim reply while that is queued and not being sent; it waits while the
interim frame is being sent; otherwise it joins the tail. How a waiting final reply is held is the model's choice (log 18). -/
def Obligations.FinalReplyPlace : Prop :=
  ∀ (l : Link) (e : QueueEntry),
    (l.sendingInterim e.reply.tag = true → l.placeFinal e = { l with deferred := some e })
    ∧ (l.sendingInterim e.reply.tag = false →
      (∀ before after q, l.queue = before ++ q :: after → q.interimOf e.reply.tag = true →
        (∀ r ∈ before ++ after, r.interimOf e.reply.tag = false) →
        l.placeFinal e = { l with queue := before ++ e :: after })
      ∧ ((∀ q ∈ l.queue, q.interimOf e.reply.tag = false) → l.placeFinal e = { l with queue := l.queue ++ [e] }))

/-- R143, R145 to R147: for every kind of request, checks 1 to 3 in their order. A refused request leaves its buffer, gains a refusal in the
reply queue, and changes nothing else. A frame that R143 holds back waits in its buffer, and nothing changes (log 3): one that comes while
the sixteen shared refusal places are taken, or a REQ whose tag is not live while the place reserved for that tag holds a reply. -/
def Obligations.FirstChecksRefuse : Prop :=
  (∀ (s : State) (f : InFrame),
    s.mayTake f = true
      ↔ s.link.queue.countP (fun q => decide (q.reply.cls = .refusal)) < 16
        ∧ (f.kind = 1 → f.tag < 64 → s.tag f.tag = none →
          ∀ q ∈ s.link.queue, q.reply.cls = .refusal ∨ q.reply.tag ≠ f.tag))
  ∧ (∀ (k : ReqKind) (s : State) (f : InFrame), s.inReset = false → s.link.intake.head? = some f → f.isRequest k = true →
    s.mayTake f = false → exec k.command s = .next s)
  ∧ ∀ (k : ReqKind) (s : State) (f : InFrame), s.Offers f → f.isRequest k = true →
    ((parseRequest f.payload = none ∨ 64 ≤ f.tag) →
      exec k.command s = .next (s.conclude [] (s.refusedWith f .malformed .plain)))
    ∧ (parseRequest f.payload ≠ none → f.tag < 64 →
      (s.tag f.tag ≠ none → exec k.command s = .next (s.conclude [] (s.refusedWith f .tagInUse .plain)))
      ∧ (s.tag f.tag = none → k ≠ .identify → k ≠ .tagStatus →
        (s.rqu.part = .starting → exec k.command s = .next (s.conclude [] (s.refusedWith f .starting .plain)))
        ∧ (s.rqu.part = .resetting → exec k.command s = .next (s.conclude [] (s.refusedWith f .resetting .plain)))))

/-- R95, R145: for every kind that names a lane, check 4 and then check 5. -/
def Obligations.AddressAndLaneRefusals : Prop :=
  ∀ (k : ReqKind) (s : State) (f : InFrame) (r : Request) (x : Nat), s.Admits f k r → r.lane = some x →
    (r.inRange = false → exec k.command s = .next (s.conclude [] (s.refusedWith f .badAddress .plain)))
    ∧ (r.inRange = true →
      (((s.lane x).state = .scanning ∨ (s.lane x).state = .resetting) →
        exec k.command s = .next (s.conclude [] (s.refusedWith f .laneNotReady .plain)))
      ∧ ((s.lane x).state = .offline →
        exec k.command s = .next (s.conclude [] (s.refusedWith f .laneOffline .plain))))

/-- R146, R147: a frame marked malformed, or a REQ of no known kind, is refused MALFORMED when it is taken, with its tag byte, and for a
DATA frame with its chunk index; one that R143 holds back waits, and nothing changes (log 3). That a REQ of no known kind belongs to this
row is the model's reading (log 29). -/
def Obligations.MalformedFrameRefused : Prop :=
  (∀ (s : State) (f : InFrame), s.inReset = false → s.link.intake.head? = some f → f.isMalformed = true → s.mayTake f = false →
    exec .malformedFrameTaken s = .next s)
  ∧ ∀ (s : State) (f : InFrame), s.Offers f → f.isMalformed = true →
    exec .malformedFrameTaken s
      = .next (s.conclude []
          (s.refusedWith f .malformed (if f.kind = 2 then .chunk (f.payload.head?.map BitVec.toNat) else .plain)))

/-! ### Requests that the request unit answers itself -/

/-- R155, R156, R158: IDENTIFY, READ_SETTINGS, POOL_STATUS and BLOCK_STATUS are answered DONE with the figures as they stand, and change
nothing but the tag table, the reply queue and the frame's buffer. -/
def Obligations.StatusRequestsAnswered : Prop :=
  (∀ (s : State) (f : InFrame), s.Admits f .identify .identify →
    exec .identify s
      = .next (s.conclude []
          (s.answered f.tag (TagEntry.mk' .identify .replying none none none)
            (Reply.finalOf f.tag .identify .done (.figures s.rqu.part)))))
  ∧ (∀ (s : State) (f : InFrame), s.Admits f .readSettings .readSettings →
    exec .readSettings s
      = .next (s.conclude []
          (s.answered f.tag (TagEntry.mk' .readSettings .replying none none none)
            (Reply.finalOf f.tag .readSettings .done (.settings s.rqu.settings)))))
  ∧ (∀ (s : State) (f : InFrame), s.Admits f .poolStatus .poolStatus →
    exec .poolStatus s
      = .next (s.conclude []
          (s.answered f.tag (TagEntry.mk' .poolStatus .replying none none none)
            (Reply.finalOf f.tag .poolStatus .done
              (.poolStatus
                [(s.slotsIn .free).length, (s.slotsIn .reserved).length, (s.slotsIn .filling).length, (s.slotsIn .staged).length,
                  (s.slotsIn .roughed).length, (s.slotsIn .detached).length]
                ((List.range 96).countP (fun i => decide (0 < (s.slot i).pins)))
                [(s.lane 0).heldCount, (s.lane 1).heldCount, (s.lane 2).heldCount, (s.lane 3).heldCount])))))
  ∧ ∀ (s : State) (f : InFrame) (x b : Nat), s.Admits f .blockStatus (.blockStatus x b) → s.Reaches x b →
    exec .blockStatus s
      = .next (s.conclude []
          (s.answered f.tag (TagEntry.mk' .blockStatus .replying (some x) (some b) none)
            (Reply.finalOf f.tag .blockStatus .done (.blockStatus x b (s.record x b) (s.record x b).heldCount))))

/-- R156, R157, R61: a CONFIGURE with a value out of range is refused RANGE, naming the first such setting. Otherwise the named settings
take their values, DONE carries all four, and a changed watermark re-arms the pool and is tested at once. -/
def Obligations.ConfigureTaken : Prop :=
  ∀ (s : State) (f : InFrame) (tt rb dt pw : Option Nat), s.Admits f .configure (.configure tt rb dt pw) →
    let bad1 := ∃ v, tt = some v ∧ (v < 1 ∨ 250 < v)
    let bad2 := ∃ v, rb = some v ∧ (v < 1 ∨ 16 < v)
    let bad3 := ∃ v, dt = some v ∧ (v < 1 ∨ 24 < v)
    let bad4 := ∃ v, pw = some v ∧ 64 < v
    let old := s.rqu.settings
    let new : Settings :=
      { transferTimeout := tt.getD old.transferTimeout, readBurst := rb.getD old.readBurst,
        driftThreshold := dt.getD old.driftThreshold, poolWatermark := pw.getD old.poolWatermark }
    let a := s.answered f.tag (TagEntry.mk' .configure .replying none none none)
      (Reply.finalOf f.tag .configure .done (.settings new))
    let low := 0 < new.poolWatermark ∧ s.freeCount < new.poolWatermark
    let m : State := { a with rqu := { a.rqu with settings := new } }
    (bad1 → exec .configure s = .next (s.conclude [] (s.refusedWith f .range (.setting 1))))
    ∧ (¬bad1 → bad2 → exec .configure s = .next (s.conclude [] (s.refusedWith f .range (.setting 2))))
    ∧ (¬bad1 → ¬bad2 → bad3 → exec .configure s = .next (s.conclude [] (s.refusedWith f .range (.setting 3))))
    ∧ (¬bad1 → ¬bad2 → ¬bad3 → bad4 → exec .configure s = .next (s.conclude [] (s.refusedWith f .range (.setting 4))))
    ∧ (¬bad1 → ¬bad2 → ¬bad3 → ¬bad4 →
      (new.poolWatermark = old.poolWatermark → exec .configure s = .next (s.conclude [] m))
      ∧ (new.poolWatermark ≠ old.poolWatermark → ¬low →
        exec .configure s = .next (s.conclude [] { m with pool := { m.pool with armed := true } }))
      ∧ (new.poolWatermark ≠ old.poolWatermark → low →
        exec .configure s = .next (s.conclude [] ({ m with pool := { m.pool with armed := false } } : State).raisePoolLow)))

/-- R159: TAG_STATUS answers with the live entry, else with the newest copy in the recall ring, and is refused UNKNOWN_TAG with neither. A
copy is told by its whole payload (log 24). -/
def Obligations.TagStatusAnswered : Prop :=
  ∀ (s : State) (f : InFrame) (target : Nat), s.Admits f .tagStatus (.tagStatus target) →
    (∀ e, s.tag target = some e →
      exec .tagStatus s
        = .next (s.conclude []
            (s.answered f.tag (TagEntry.mk' .tagStatus .replying none none none)
              (Reply.finalOf f.tag .tagStatus .done (.live e)))))
    ∧ (s.tag target = none →
      (∀ before r after, s.rqu.ring = before ++ r :: after → r.tag = target → (∀ q ∈ after, q.tag ≠ target) →
        exec .tagStatus s
          = .next (s.conclude []
              (s.answered f.tag (TagEntry.mk' .tagStatus .replying none none none)
                (Reply.finalOf f.tag .tagStatus .done (.recalled r.bytes)))))
      ∧ ((∀ q ∈ s.rqu.ring, q.tag ≠ target) →
        exec .tagStatus s = .next (s.conclude [] (s.refusedWith f .unknownTag .plain))))

/-- R76, R92, R160: an ABORT of a QUEUED READ or ERASE takes its entry out of the work queue, ends it ABORTED, and for an ERASE clears
erase_pending; an ABORT of a WRITE in TRANSFER runs the abandonment chain; its own DONE follows. Any other target is refused. An absent
address in a tag entry reads as 0 (log 45). -/
def Obligations.AbortAnswered : Prop :=
  ∀ (s : State) (f : InFrame) (target : Nat), s.Admits f .abort (.abort target) →
    (s.tag target = none → exec .abort s = .next (s.conclude [] (s.refusedWith f .notLive (.target target))))
    ∧ ∀ e, s.tag target = some e →
      (e.kind = .write → e.state = .transfer →
        exec .abort s
          = .next (s.conclude [e.lane.getD 0]
              ((s.unbuffer.abandon (e.lane.getD 0) (e.block.getD 0) (e.page.getD 0) .aborted).answer f.tag
                (TagEntry.mk' .abort .replying none none none) .done (.target target) none)))
      ∧ (∀ x b, (e.kind = .read ∨ e.kind = .erase) → e.state = .queued → e.lane = some x → e.block = some b → x < 4 → b < 1024 →
        ∃ m, exec .abort s = .next (s.conclude [x] m)
          ∧ m.tag target = some { e with state := .replying }
          ∧ m.tag f.tag = some (TagEntry.mk' .abort .replying none none none)
          ∧ (∀ u, u ≠ target → u ≠ f.tag → m.tag u = s.tag u)
          ∧ m.link
            = [QueueEntry.finalOf target e.kind .aborted
                  (if e.kind = .erase then .erase x b none else .page x b (e.page.getD 0)) none,
                QueueEntry.finalOf f.tag .abort .done (.target target) none].foldl Link.placeFinal s.unbuffer.link
          ∧ m.link.queue.getLast? = some (QueueEntry.finalOf f.tag .abort .done (.target target) none)
          ∧ m.lane x
            = { s.lane x with
                records := (m.lane x).records
                workQueue := (s.lane x).workQueue.filter (fun w => decide (w.tag ≠ target)) }
          ∧ m.record x b = (if e.kind = .erase then { s.record x b with erasePending := false } else s.record x b)
          ∧ (s.lane x).sameRecordsBut (m.lane x) b ∧ s.sameLanesBut m x ∧ m.pool = s.pool
          ∧ s.rqu.sameButTags m.rqu ∧ s.unbuffer.link.sameButReplies m.link ∧ s.sameInputs m)
      ∧ ((e.kind ≠ .write ∨ e.state ≠ .transfer) → ((e.kind ≠ .read ∧ e.kind ≠ .erase) ∨ e.state ≠ .queued) →
        exec .abort s = .next (s.conclude [] (s.refusedWith f .tooLate (.lateTarget target e.kind e.state))))

/-! ### Writing -/

/-- R23, R65: the checks of a WRITE after the lane's, in their order. -/
def Obligations.WriteRefusals : Prop :=
  ∀ (s : State) (f : InFrame) (x b p : Nat) (d : Density) (check : Word32) (area : List Byte),
    s.Admits f .write (.write x b p d check area) → s.Reaches x b → p < d.pages →
    let r := s.record x b
    (s.wpAsserted = true → exec .write s = .next (s.conclude [] (s.refusedWith f .writeProtected .plain)))
    ∧ (s.wpAsserted = false →
      (r.state ≠ .erased → r.state ≠ .opened → exec .write s = .next (s.conclude [] (s.refusedWith f .blockState .plain)))
      ∧ ((r.state = .erased ∨ r.state = .opened) →
        (r.erasePending = true → exec .write s = .next (s.conclude [] (s.refusedWith f .blockBusy .plain)))
        ∧ (r.erasePending = false →
          (r.state = .opened → r.density ≠ some d →
            exec .write s = .next (s.conclude [] (s.refusedWith f .densityMismatch .plain)))
          ∧ ((r.state = .erased ∨ r.density = some d) →
            (p ≠ r.intakeNext → exec .write s = .next (s.conclude [] (s.refusedWith f .outOfOrder .plain)))
            ∧ (p = r.intakeNext → d = .dense → p % 4 = 0 → r.finalDone + 2 < p / 4 →
              exec .write s = .next (s.conclude [] (s.refusedWith f .intakeAhead .plain)))
            ∧ (p = r.intakeNext → d = .swift → r.finalDone + 3 < p →
              exec .write s = .next (s.conclude [] (s.refusedWith f .intakeAhead .plain)))))))

/-- R49: a SWIFT admission takes the lowest-numbered FREE slot straight to FILLING, and the FREE count falls by 1; with no slot FREE the
WRITE is refused POOL_FULL. The test of R28 is made on the block. -/
def Obligations.WriteAdmitsSwift : Prop :=
  ∀ (s : State) (f : InFrame) (x b p : Nat) (check : Word32) (area : List Byte),
    s.Admits f .write (.write x b p .swift check area) → s.Reaches x b → p < 64 → s.WriteFits x b p .swift →
    (∀ i, (s.slot i).state = .free → (∀ j, j < i → (s.slot j).state ≠ .free) → i < 96 →
      ∃ m, exec .write s = .next (s.conclude [x] m) ∧ s.AdmitsPage m f x b p i .swift check
        ∧ m.slot i = (s.slot i).filledBy { lane := x, block := b, page := p } f.tag s.rqu.settings.transferTimeout area
        ∧ (∀ j, j ≠ i → m.slot j = s.slot j) ∧ m.freeCount + 1 = s.freeCount)
    ∧ ((∀ i, i < 96 → (s.slot i).state ≠ .free) → exec .write s = .next (s.conclude [] (s.refusedWith f .poolFull .plain)))

/-- R24, R28, R48, R50: the admission of a DENSE page. In a strip where the block holds no slot, the four lowest FREE slots are reserved for
the strip's pages and the page's own is filled, or the WRITE is refused POOL_FULL. Otherwise the page's RESERVED slot is filled if it is not
pinned; if it is, the lowest FREE slot is filled and the pinned one becomes DETACHED, or the WRITE is refused POOL_FULL. The test of R28 is
made on the block. -/
def Obligations.WriteAdmitsDense : Prop :=
  ∀ (s : State) (f : InFrame) (x b p : Nat) (check : Word32) (area : List Byte),
    s.Admits f .write (.write x b p .dense check area) → s.Reaches x b → p < 256 → s.WriteFits x b p .dense →
    let own : Owner := { lane := x, block := b, page := p }
    let timeout := s.rqu.settings.transferTimeout
    ((∀ i, (s.slot i).ownedBy x b = true → (s.slot i).pageNumber / 4 ≠ p / 4) →
      (∀ i0 i1 i2 i3 rest, s.slotsIn .free = i0 :: i1 :: i2 :: i3 :: rest →
        ∃ m i, [i0, i1, i2, i3][p % 4]? = some i ∧ exec .write s = .next (s.conclude [x] m)
          ∧ s.AdmitsPage m f x b p i .dense check ∧ m.slot i = (s.slot i).filledBy own f.tag timeout area
          ∧ (∀ k j, [i0, i1, i2, i3][k]? = some j → j ≠ i →
            m.slot j = (s.slot j).reserveFor { lane := x, block := b, page := 4 * (p / 4) + k })
          ∧ ∀ j, j ∉ [i0, i1, i2, i3] → m.slot j = s.slot j)
      ∧ (s.freeCount < 4 → exec .write s = .next (s.conclude [] (s.refusedWith f .poolFull .plain))))
    ∧ ∀ i, s.slotOf x b p = some i → (s.slot i).state = .reserved → (s.slot i).tag = none →
      ((s.slot i).pins = 0 →
        ∃ m, exec .write s = .next (s.conclude [x] m) ∧ s.AdmitsPage m f x b p i .dense check
          ∧ m.slot i = (s.slot i).filledBy own f.tag timeout area ∧ ∀ j, j ≠ i → m.slot j = s.slot j)
      ∧ (0 < (s.slot i).pins →
        (∀ j rest, s.slotsIn .free = j :: rest →
          ∃ m, exec .write s = .next (s.conclude [x] m) ∧ s.AdmitsPage m f x b p j .dense check
            ∧ m.slot j = (s.slot j).filledBy own f.tag timeout area ∧ m.slot i = (s.slot i).detach
            ∧ ∀ k, k ≠ i → k ≠ j → m.slot k = s.slot k)
        ∧ (s.slotsIn .free = [] → exec .write s = .next (s.conclude [] (s.refusedWith f .poolFull .plain))))

/-- R67, R68: a chunk below 7 whose index is the slot's count is written at its place and counted, and changes nothing else; a DATA frame
whose tag names no WRITE in TRANSFER is refused STRAY_DATA with its chunk index; one that R143 holds back waits (log 3). -/
def Obligations.ChunkTaken : Prop :=
  (∀ (s : State) (f : InFrame), s.inReset = false → s.link.intake.head? = some f → f.isData = true → s.mayTake f = false →
    exec .data s = .next s)
  ∧ ∀ (s : State) (f : InFrame), s.Offers f → f.isData = true →
    (∀ e i o, s.tag f.tag = some e → e.kind = .write → e.state = .transfer → e.slot = some i → (s.slot i).state = .filling →
      (s.slot i).owner = some o → (s.slot i).chunks < 7 → byteAt f.payload 0 = (s.slot i).chunks →
      exec .data s
        = .next (s.conclude [o.lane]
            (s.unbuffer.modSlot i (fun sl =>
              { sl with
                chunks := sl.chunks + 1
                data := sl.data.take (1024 * sl.chunks) ++ f.payload.drop 1 ++ sl.data.drop (1024 * (sl.chunks + 1)) }))))
    ∧ ((∀ e, s.tag f.tag = some e → e.kind ≠ .write ∨ e.state ≠ .transfer) →
      exec .data s
        = .next (s.conclude [] (s.refusedWith f .strayData (.chunk (f.payload.head?.map BitVec.toNat)))))

/-- R28, R68, R69, R75: the eighth chunk. When the page check matches, the slot is STAGED with its timer stopped, the tag is STAGED
(HELD_FAILED on a FAILED block), the interim reply is queued and the test of R28 is made on the block; when it differs, or an index is out
of order, the chain runs. An absent address in a tag entry reads as 0 (log 45). -/
def Obligations.LastChunkTaken : Prop :=
  ∀ (s : State) (f : InFrame) (e : TagEntry) (i : Nat) (o : Owner), s.Offers f → f.isData = true → s.tag f.tag = some e →
    e.kind = .write → e.state = .transfer → e.slot = some i → (s.slot i).state = .filling → (s.slot i).owner = some o →
    let full := s.unbuffer.modSlot i (fun sl =>
      { sl with chunks := 8, data := sl.data.take 7168 ++ f.payload.drop 1 ++ sl.data.drop 8192 })
    (byteAt f.payload 0 ≠ (s.slot i).chunks →
      exec .data s = .next (s.conclude [o.lane] (s.unbuffer.abandon o.lane o.block o.page .chunkOrder)))
    ∧ ((s.slot i).chunks = 7 → byteAt f.payload 0 = 7 →
      (some (crc32 ((full.slot i).data ++ (full.slot i).tagArea)) ≠ e.check →
        exec .data s = .next (s.conclude [o.lane] (full.abandon o.lane o.block o.page .checkMismatch)))
      ∧ (some (crc32 ((full.slot i).data ++ (full.slot i).tagArea)) = e.check →
        ∃ m, exec .data s = .next (s.conclude [o.lane] m)
          ∧ m.slot i = { full.slot i with state := .staged, timer := none } ∧ (∀ j, j ≠ i → m.slot j = s.slot j)
          ∧ m.tag f.tag
            = some { e with state := if (s.record o.lane o.block).state = .failed then .heldFailed else .staged }
          ∧ (∀ u, u ≠ f.tag → m.tag u = s.tag u)
          ∧ m.link.queue = s.link.queue
            ++ [{ reply := { tag := f.tag, answers := .request e.kind, status := .staged, cls := .interim,
                             fields := .page (e.lane.getD 0) (e.block.getD 0) (e.page.getD 0), recallable := false },
                  source := none }]
          ∧ BlockRec.sameButReady (s.record o.lane o.block) (m.record o.lane o.block)
          ∧ (s.lane o.lane).sameButWork (m.lane o.lane) ∧ (s.lane o.lane).sameRecordsBut (m.lane o.lane) o.block
          ∧ (m.lane o.lane).workQueue = (s.lane o.lane).workQueue
          ∧ s.BlockTested m o.lane o.block (s.record o.lane o.block).readyPass ∧ s.sameLanesBut m o.lane ∧ s.rqu.sameButTags m.rqu
          ∧ s.unbuffer.link.sameButReplies m.link ∧ s.sameInputs m))

/-- R55, R70, R72, R73: the abandonment chain for page `p` of a block. intake_next becomes p. The block's slots at or above p return to
RESERVED in p's strip and are released above it (DENSE), or are all released when p is the first unfinalized page or the block is SWIFT.
Their tags end: page p's with the status of the failure, the others ABANDONED. Their replies take their places in the reply queue in page
order, page p's first; this is said where no two of the slots hold one tag and none of the tags has its final reply. A transfer timer that
runs out runs the chain. That the expiry of a stopped timer is refused is the model's choice (log 2). An absent address in a tag entry
reads as 0 (log 45). -/
def Obligations.AbandonmentChain : Prop :=
  (∀ (s : State) (x b p : Nat) (st : Status), x < 4 → b < 1024 →
    let r := s.record x b
    let m := s.abandon x b p st
    let hit := fun i => (s.slot i).ownedBy x b = true ∧ p ≤ (s.slot i).pageNumber
    m.record x b = { r with intakeNext := p }
    ∧ (s.lane x).sameRecordsBut (m.lane x) b ∧ m.lane x = { s.lane x with records := (m.lane x).records }
    ∧ s.sameLanesBut m x ∧ s.sameInputs m ∧ s.rqu.sameButTags m.rqu ∧ s.link.sameButReplies m.link ∧ m.pool.armed = s.pool.armed
    ∧ (∀ i, r.density = some .dense → p = r.finalDone * 4 → (s.slot i).ownedBy x b = true → m.slot i = (s.slot i).release)
    ∧ (∀ i, r.density = some .dense → p ≠ r.finalDone * 4 → hit i → (s.slot i).pageNumber / 4 = p / 4 →
      m.slot i = (s.slot i).unfill)
    ∧ (∀ i, r.density = some .dense → p ≠ r.finalDone * 4 → hit i → (s.slot i).pageNumber / 4 ≠ p / 4 →
      m.slot i = (s.slot i).release)
    ∧ (∀ i, r.density = some .swift → hit i → m.slot i = (s.slot i).release)
    ∧ (∀ i, (s.slot i).ownedBy x b = false → m.slot i = s.slot i)
    ∧ (∀ i, (s.slot i).pageNumber < p → (r.density = some .swift ∨ p ≠ r.finalDone * 4) → m.slot i = s.slot i)
    ∧ (∀ i t e, hit i → (s.slot i).tag = some t → s.tag t = some e → e.state ≠ .replying →
      (∀ j, (s.slot j).tag = some t → j = i) →
      m.tag t = some { e with state := .replying, slot := none }
        ∧ m.link.holds (QueueEntry.finalOf t e.kind (if (s.slot i).pageNumber = p then st else .abandoned)
            (.page (e.lane.getD 0) (e.block.getD 0) (e.page.getD 0)) none))
    ∧ (∃ slots : List Nat,
      (∀ i, i ∈ slots ↔ hit i ∧ (s.slot i).tag.isSome = true) ∧ slots.Nodup
        ∧ slots.Pairwise (fun i j => (s.slot i).pageNumber ≤ (s.slot j).pageNumber)
        ∧ (s.WritesOpen hit →
          m.link
            = (s.slotReplies slots (fun i t e =>
                QueueEntry.writeEnd t e (if (s.slot i).pageNumber = p then st else .abandoned))).foldl Link.placeFinal s.link))
    ∧ ∀ t, (∀ i, (s.slot i).ownedBy x b = true → (s.slot i).tag ≠ some t) → m.tag t = s.tag t)
  ∧ ∀ (s : State) (i : Nat) (o : Owner), s.inReset = false →
    ((s.slot i).state = .filling → (s.slot i).timer.isSome = true → (s.slot i).owner = some o →
      exec (.transferTimeout i) s = .next (s.conclude [o.lane] (s.abandon o.lane o.block o.page .transferTimeout)))
    ∧ ((s.slot i).state ≠ .filling → exec (.transferTimeout i) s = .refused .timerStopped)

/-! ### Reading -/

/-- R38: the class of a page, by the first row whose condition holds. -/
def Obligations.PageClasses : Prop :=
  ∀ (s : State) (x b p : Nat),
    let r := s.record x b
    let stop := match r.dataEnd with
      | some e => if r.density = some .swift then e else (e + 3) / 4 * 4
      | none => r.intakeNext
    (r.state = .erased → s.classify x b p = .erased)
    ∧ (r.state = .retired → s.classify x b p = .notWritten)
    ∧ (r.state ≠ .erased → r.state ≠ .retired → r.density = some .swift → 64 ≤ p → s.classify x b p = .notWritten)
    ∧ (r.state ≠ .erased → r.state ≠ .retired → ∀ d, r.density = some d → p < d.pages →
      (∀ e, r.dataEnd = some e → e ≤ p → p < stop → s.classify x b p = .pad)
      ∧ (stop ≤ p → s.classify x b p = .notWritten)
      ∧ (p < stop → (∀ e, r.dataEnd = some e → p < e) →
        (p / d.perStrip < r.finalDone → s.classify x b p = .finalized)
        ∧ (r.finalDone ≤ p / d.perStrip → ∀ i, s.slotOf x b p = some i →
          ((s.slot i).state = .staged ∨ (s.slot i).state = .roughed → s.classify x b p = .held i)
          ∧ ((s.slot i).state = .filling → s.classify x b p = .notWritten))))

/-- R56, R82, R89, R90, R100 to R103, R109, R110: a READ of a HELD page is served at dispatch from its slot, which gains a pin, however
full the work queue is; a READ of any other class joins the tail of a work queue that has room. When the scheduler takes it, its entry
leaves the queue and counts in read_run while a pass is ready; by the class its page then has, the egress buffer is claimed and SENSE at
step 0 presented with the tag ACTIVE, or the reply is queued from the slot, or with the class's status and no data. -/
def Obligations.ReadDispatched : Prop :=
  (∀ (s : State) (f : InFrame) (x b p : Nat), s.Admits f .read (.read x b p) → s.Reaches x b → p ≤ 255 →
    (∀ i, s.classify x b p = .held i →
      exec .read s
        = .next (s.conclude [x]
            { s with
              pool := (s.modSlot i (fun sl => { sl with pins := sl.pins + 1 })).pool
              rqu := s.rqu.withTag f.tag (TagEntry.mk' .read .replying (some x) (some b) (some p))
              link := s.linkWith
                (QueueEntry.finalOf f.tag .read .done
                    (.read x b p
                      { source := .slot, physical := none, maxCorrected := 0, lostSectors := [], retryStep := 0, drifting := false,
                        checked := some (crc32 ((s.slot i).data ++ (s.slot i).tagArea), (s.slot i).tagArea) }) (some (.slot i))) }))
    ∧ ((∀ i, s.classify x b p ≠ .held i) → (s.lane x).workQueue.length < 24 →
      exec .read s
        = .next (s.conclude [x]
            (({ s.unbuffer with
                rqu := s.rqu.withTag f.tag (TagEntry.mk' .read .queued (some x) (some b) (some p)) } : State).modLane x
              (fun l => { l with workQueue := l.workQueue ++ [{ tag := f.tag, block := b, kind := .read p }] })))))
  ∧ ∀ (s : State) (x t b p : Nat) (entry : TagEntry), s.tag t = some entry → entry.state = .queued →
    let l := s.lane x
    let phys := (s.record x b).physical
    let taken := { l with workQueue := l.workQueue.tail, readRun := if l.readyList = [] then l.readRun else l.readRun + 1 }
    let ended := fun (st : Status) (fields : ReplyFields) (source : Option Source) =>
      ({ s.setLane x taken with
          rqu := s.rqu.withTag t { entry with state := .replying }
          link := s.link.placeFinal (QueueEntry.finalOf t entry.kind st fields source) } : State)
    s.take x (.read t b p .finalized)
        = ({ s with rqu := s.rqu.withTag t { entry with state := .active } } : State).setLane x
            { taken with
              engine := some (.sense phys p 0)
              job := some (.read t b p phys)
              egress := { l.egress with state := .claimed, sectors := Vector.replicate 8 .pending, lastStep := 0 } }
      ∧ (∀ i,
        s.take x (.read t b p (.held i))
          = { ended .done
                (.read x b p
                  { source := .slot, physical := none, maxCorrected := 0, lostSectors := [], retryStep := 0, drifting := false,
                    checked := some (crc32 ((s.slot i).data ++ (s.slot i).tagArea), (s.slot i).tagArea) }) (some (.slot i)) with
              pool := (s.modSlot i (fun sl => { sl with pins := sl.pins + 1 })).pool })
      ∧ s.take x (.read t b p .erased) = ended .erasedPage (.page x b p) none
      ∧ s.take x (.read t b p .pad) = ended .padPage (.page x b p) none
      ∧ s.take x (.read t b p .notWritten) = ended .notWritten (.page x b p) none

/-- R83: a READ or ERASE that would enter a lane work queue of 24 entries is refused QUEUE_FULL, as the last check, and changes nothing;
a READ served at dispatch is not refused, however full the queue is. -/
def Obligations.QueueFullRefusals : Prop :=
  (∀ (s : State) (f : InFrame) (x b p : Nat), s.Admits f .read (.read x b p) → s.Reaches x b → p ≤ 255 →
    24 ≤ (s.lane x).workQueue.length →
    ((∀ i, s.classify x b p ≠ .held i) → exec .read s = .next (s.conclude [] (s.refusedWith f .queueFull .plain)))
    ∧ ∀ i, s.classify x b p = .held i →
      ∃ m, exec .read s = .next (s.conclude [x] m)
        ∧ m.tag f.tag = some (TagEntry.mk' .read .replying (some x) (some b) (some p)) ∧ m.lanes = s.lanes)
  ∧ ∀ (s : State) (f : InFrame) (x b : Nat), s.Admits f .erase (.erase x b) → s.Reaches x b → s.wpAsserted = false →
    (s.record x b).erasePending = false → (s.record x b).heldCount = 0 → 24 ≤ (s.lane x).workQueue.length →
    exec .erase s = .next (s.conclude [] (s.refusedWith f .queueFull .plain))

/-- R7, R105 to R107: the end of a SENSE puts what the cells hold, with the bits that were sensed wrong, in the sense buffer. The end of a
decode releases the sense buffer, and the job senses one step higher while a sector is PENDING and the step is below 3; otherwise it ends
with the buffer LOADED, DONE when no sector is LOST and UNCORRECTABLE otherwise. Which bits a SENSE reads wrong (log 12), and which
codeword is taken where more than one lies in reach (log 13), are the commands' operands. -/
def Obligations.SenseAndDecode : Prop :=
  (∀ (s : State) (x phys page step : Nat) (noise : List BitError), s.inReset = false → noise.all BitError.wf = true →
    (s.lane x).engine = some (.sense phys page step) →
    exec (.senseEnd x noise) s
      = .next (s.conclude [x]
          (s.setLane x { s.lane x with
            engine := none
            sense := some ((((s.lane x).array.block phys).stored page).sensed noise) })))
  ∧ ∀ (s : State) (x t b p phys : Nat) (raw : StoredPage) (found : List Codeword), s.inReset = false →
    found.all Codeword.wf = true → (s.lane x).sense = some raw → (s.lane x).job = some (.read t b p phys) →
    let e := (s.lane x).egress.decodeStep raw ((s.lane x).heldPage phys p) found
    ((∃ k, k < 8 ∧ e.sectors[k]? = some .pending) → e.lastStep < 3 →
      exec (.decodeEnd x found) s
        = .next (s.conclude [x]
            (s.setLane x { s.lane x with
              engine := some (.sense phys p (e.lastStep + 1))
              egress := { e with lastStep := e.lastStep + 1 }
              sense := none })))
    ∧ ((3 ≤ e.lastStep ∨ ∀ k, k < 8 → e.sectors[k]? ≠ some .pending) →
      ∃ m g, exec (.decodeEnd x found) s = .next (s.conclude [x] m)
        ∧ g.state = .loaded ∧ g.bytes = e.bytes ∧ g.tagArea = e.tagArea ∧ g.lastStep = e.lastStep
        ∧ (∀ k : Nat, g.sectors[k]? = (e.sectors[k]?).map (fun r => if r = .pending then .lost else r))
        ∧ m.lane x = { s.lane x with egress := g, sense := none, job := none }
        ∧ s.sameLanesBut m x ∧ m.pool = s.pool ∧ s.sameInputs m ∧ s.link.sameButReplies m.link ∧ s.rqu.sameButTags m.rqu
        ∧ ∀ entry, s.tag t = some entry → entry.state ≠ .replying →
          m.tag t = some { entry with state := .replying } ∧ (∀ u, u ≠ t → m.tag u = s.tag u)
            ∧ m.link = s.link.placeFinal
              (QueueEntry.finalOf t entry.kind (if g.lost = [] then .done else .uncorrectable)
                  (.read x b p
                    { source := .array, physical := some phys, maxCorrected := g.maxCorrected, lostSectors := g.lost,
                      retryStep := g.lastStep, drifting := decide (s.rqu.settings.driftThreshold ≤ g.maxCorrected),
                      checked := if g.lost = [] then some (crc32 (g.bytes.toList.flatten ++ g.tagArea), g.tagArea) else none }) (some (.egress x))))

/-- R2, R7, R105: a page is programmed with the parity of its eight sectors, each over its 1,024 data bytes and sector 7 over the tag area
too. A page of a FINAL strip senses as it was programmed and a page of a BLANK strip as all ones, each but for the wrong bits; the sensed
bits of a sector differ from what was programmed in as many bits as the list names. A PENDING sector becomes GOOD, with the number of bits
changed, the step and a valid codeword's bytes, exactly when a valid codeword lies within 24 bits of the sensed ones: any sector's bytes
with the parity the code gives them. Otherwise it stays PENDING, and a sector that is not PENDING keeps its result and bytes. The parity
code is a free value (log 15); which bits are wrong (log 12) and which codeword is taken where more than one lies in reach (log 13) are the
commands' operands. -/
def Obligations.DecodeRule : Prop :=
  (∀ (p : Page) (k : Nat), k < 8 →
    p.encode.page = p
      ∧ p.encode.parity[k]? = some (Config.parity k ((p.data.drop (1024 * k)).take 1024 ++ if k = 7 then p.tagArea else [])))
  ∧ (∀ (l : Lane) (w : Written) (phys page : Nat) (noise : List BitError), (l.array.block phys).cells = .written w →
    let strip := w.strip (page / w.marker.perStrip)
    (strip.state = .final → ∀ c, strip.pages[page % w.marker.perStrip]? = some c →
      (l.array.block phys).sense page noise = c.sensed noise ∧ l.heldPage phys page = some c.page)
    ∧ (strip.state = .blank →
      (l.array.block phys).sense page noise
        = ({ page := { data := List.replicate 8192 0xFF#8, tagArea := List.replicate 32 0xFF#8 }
             parity := Vector.replicate 8 (BitVec.allOnes Config.parityBits) } : StoredPage).sensed noise)
    ∧ (strip.state ≠ .final → l.heldPage phys page = none))
  ∧ (∀ (p : Page) (noise : List BitError) (k : Nat), p.data.length = 8192 → p.tagArea.length = 32 → noise.all BitError.wf = true →
    k < 8 →
    (p.encode.sensed noise).distance (p.codeword k) = (noise.dedup.filter (fun e => decide (e.sector = k))).length)
  ∧ ∀ (e : Egress) (raw : StoredPage) (held : Option Page) (found : List Codeword) (k : Nat), k < 8 →
    raw.page.data.length = 8192 → raw.page.tagArea.length = 32 → found.all Codeword.wf = true →
    (∀ p, held = some p → p.data.length = 8192 ∧ p.tagArea.length = 32) →
    let g := e.decodeStep raw held found
    let valid := fun c : Codeword => c.sector = k ∧ c.bytes.length = 1024 ∧ c.tagArea.length = 32
    let taken := fun c : Codeword =>
      g.sectors[k]? = some (.good (raw.distance c) e.lastStep) ∧ g.bytes[k]? = some c.bytes ∧ (k = 7 → g.tagArea = c.tagArea)
    (e.sectors[k]? ≠ some .pending → g.sectors[k]? = e.sectors[k]? ∧ g.bytes[k]? = e.bytes[k]?)
    ∧ (e.sectors[k]? = some .pending →
      (∀ c, valid c → raw.distance c ≤ 24 → ∃ d, valid d ∧ raw.distance d ≤ 24 ∧ taken d)
      ∧ (∀ p, held = some p → raw.distance (p.codeword k) ≤ 24 → taken (p.codeword k))
      ∧ (∀ before c after, found = before ++ c :: after → c.sector = k → raw.distance c ≤ 24 →
        (∀ d ∈ before, d.sector = k → 24 < raw.distance d) → (∀ p, held = some p → 24 < raw.distance (p.codeword k)) → taken c)
      ∧ ((∀ c, valid c → 24 < raw.distance c) → g.sectors[k]? = some .pending ∧ g.bytes[k]? = e.bytes[k]?))

/-! ### Blocks: pass order, closing, erasing, recovery -/

/-- R8, R9, R17 to R19, R28, R29, R52: what is eligible. A block that is neither OPEN nor CLOSING has no eligible pass. Of a DENSE block
that is, FINAL is eligible by its frontiers, and in a CLOSING block up to its last data strip; a data ROUGH when its four pages are STAGED,
pad pages among them, and the FINAL two strips below has passed; a terminator ROUGH above the settled last data strip of a CLOSING block.
SINGLE is eligible when its page is STAGED. An eligible pass joins the tail of the ready list when none of the block is on it or in flight.
A pass that is taken leaves the list, and its operation, with the slots' pages or the pad pattern, is in flight. That a data ROUGH goes
before a terminator ROUGH of the same strip, which R17 says are never both eligible, is the model's choice for states that no run reaches
(log 43), and so is the pad pattern for a page that no slot serves (log 44). A CLOSING block without data_end, which no run reaches, has no
eligible FINAL (log 46). -/
def Obligations.PassOrder : Prop :=
  (∀ (s : State) (x b : Nat),
    let r := s.record x b
    let staged := fun n => ∀ k, k < 4 → ∃ i, s.slotOf x b (4 * n + k) = some i ∧ (s.slot i).state = .staged
    let inOrder := fun n => n < 2 ∨ n - 1 ≤ r.finalDone
    (r.state ≠ .opened → r.state ≠ .closing → s.eligible x b = none)
    ∧ (r.state = .opened ∨ r.state = .closing → r.density = some .dense →
      (∀ n, s.eligible x b = some { kind := .final, strip := n }
        ↔ n = r.finalDone ∧ n < 64 ∧ n < r.roughDone ∧ (n + 1 < r.roughDone ∨ n = 63)
          ∧ (r.state = .closing → ∃ e, r.dataEnd = some e ∧ n ≤ (e - 1) / 4))
      ∧ (∀ n, s.eligible x b = some { kind := .rough, strip := n }
        ↔ n = r.roughDone ∧ n < 64 ∧ inOrder n ∧ staged n)
      ∧ (∀ n, s.eligible x b = some { kind := .terminator, strip := n }
        ↔ n = r.roughDone ∧ inOrder n ∧ r.state = .closing
          ∧ (∃ e, r.dataEnd = some e ∧ (e - 1) / 4 < 63 ∧ n = (e - 1) / 4 + 1
            ∧ ∀ i, (s.slot i).ownedBy x b = true → (s.slot i).pageNumber / 4 = (e - 1) / 4 →
              (s.slot i).state ≠ .filling ∧ (s.slot i).state ≠ .reserved)
          ∧ ¬staged n)
      ∧ ∀ n, s.eligible x b ≠ some { kind := .single, strip := n })
    ∧ (r.state = .opened ∨ r.state = .closing → r.density = some .swift → ∀ q,
      s.eligible x b = some q
        ↔ q = { kind := .single, strip := r.finalDone } ∧ r.finalDone < 64
          ∧ ∃ i, s.slotOf x b r.finalDone = some i ∧ (s.slot i).state = .staged)
    ∧ (x < 4 → b < 1024 → r.readyPass = none → (s.lane x).passInFlight b = false → ∀ q, s.eligible x b = some q →
      ((s.testBlock x b).lane x).readyList = (s.lane x).readyList ++ [{ block := b, pass := q }]
        ∧ (s.testBlock x b).record x b = { r with readyPass := some q }))
  ∧ (∀ (s : State) (x : Nat) (e : ReadyEntry),
    let l := s.lane x
    let op := s.passOperation x e.block e.pass
    s.take x (.pass e)
      = s.setLane x
          { l with
            records := l.records.setIfInBounds e.block { s.record x e.block with readyPass := none }
            readyList := l.readyList.filter (fun f => decide (f.block ≠ e.block))
            readRun := 0
            engine := some op
            array := op.begin l.array
            job := some (.pass e.block e.pass) })
  ∧ ∀ (s : State) (x b n : Nat),
    let r := s.record x b
    let refused := fun kind => !((s.lane x).array.block r.physical).canStart kind n
    let page := fun p =>
      match s.slotOf x b p with
      | some i =>
        if (s.slot i).pad = true then { data := List.replicate 8192 0#8, tagArea := List.replicate 32 0#8 }
        else ({ data := (s.slot i).data, tagArea := (s.slot i).tagArea } : Page)
      | none => padPage
    let four := [page (4 * n), page (4 * n + 1), page (4 * n + 2), page (4 * n + 3)]
    s.passOperation x b { kind := .rough, strip := n } = .rough r.physical n four (refused .rough)
      ∧ s.passOperation x b { kind := .final, strip := n } = .final r.physical n four (refused .final)
      ∧ s.passOperation x b { kind := .single, strip := n } = .single r.physical n (page n) (refused .single)
      ∧ ∀ e, r.dataEnd = some e →
        s.passOperation x b { kind := .terminator, strip := n } = .terminatorRough r.physical n e (refused .terminator)

/-- R28, R36: a CLOSE of an OPEN block with nothing left to program ends at once: the block is CLOSED by HOST with data_end equal to
intake_next, nothing is programmed, the CLOSE is answered DONE, and the test of R28 takes the block off the ready list if its ready_pass is
present. -/
def Obligations.CloseWithNothingLeft : Prop :=
  ∀ (s : State) (f : InFrame) (x b : Nat), s.Admits f .close (.close x b) → s.Reaches x b → s.wpAsserted = false →
    (s.record x b).state = .opened → (s.record x b).erasePending = false →
    (∀ i, (s.slot i).ownedBy x b = true → (s.slot i).state ≠ .filling) →
    ((s.record x b).intakeNext = 0
      ∨ ((s.record x b).density = some .swift ∧ (s.record x b).finalDone = (s.record x b).intakeNext)) →
    (∀ t e, s.tag t = some e → e.kind = .close → e.state = .waiting → e.lane = some x → e.block ≠ some b) →
    ∃ m, exec .close s = .next (s.conclude [x] m)
      ∧ m.record x b
        = { s.record x b with
            state := .closed, closedBy := some .host, dataEnd := some (s.record x b).intakeNext, readyPass := none }
      ∧ m.rqu = s.rqu.withTag f.tag (TagEntry.mk' .close .replying (some x) (some b) none)
      ∧ m.link = s.linkWith (QueueEntry.finalOf f.tag .close .done (.block x b) none)
      ∧ m.pool = s.pool ∧ (s.lane x).sameButWork (m.lane x) ∧ (m.lane x).workQueue = (s.lane x).workQueue
      ∧ s.BlockTested m x b (s.record x b).readyPass
      ∧ (s.lane x).sameRecordsBut (m.lane x) b ∧ s.sameLanesBut m x ∧ s.sameInputs m

/-- R28, R34, R35, R37: after the checks of its lane a CLOSE is refused PROTECTED, then BLOCK_STATE unless the block is OPEN, then
BLOCK_BUSY while a page is in transfer or an ERASE is pending, and changes nothing. A CLOSE with pages left makes the block CLOSING with
data_end at intake_next. In a DENSE block the RESERVED slots of the last data strip become pad pages, those of the strip above are released,
and intake_next goes to the strip end. Its tag is WAITING, and the test of R28 is made on the block. -/
def Obligations.CloseBegins : Prop :=
  (∀ (s : State) (f : InFrame) (x b : Nat), s.Admits f .close (.close x b) → s.Reaches x b →
    let r := s.record x b
    let busy := r.erasePending = true ∨ ∃ i, (s.slot i).ownedBy x b = true ∧ (s.slot i).state = .filling
    (s.wpAsserted = true → exec .close s = .next (s.conclude [] (s.refusedWith f .writeProtected .plain)))
    ∧ (s.wpAsserted = false → r.state ≠ .opened →
      exec .close s = .next (s.conclude [] (s.refusedWith f .blockState .plain)))
    ∧ (s.wpAsserted = false → r.state = .opened → busy →
      exec .close s = .next (s.conclude [] (s.refusedWith f .blockBusy .plain))))
  ∧ ∀ (s : State) (f : InFrame) (x b : Nat), s.Admits f .close (.close x b) → s.Reaches x b → s.SlotsFormed → s.wpAsserted = false →
    (s.record x b).state = .opened → (s.record x b).erasePending = false →
    (∀ i, (s.slot i).ownedBy x b = true → (s.slot i).state ≠ .filling) → 0 < (s.record x b).intakeNext →
    let r := s.record x b
    let n := (r.intakeNext - 1) / 4
    ((r.density = some .dense ∨ (r.density = some .swift ∧ r.finalDone ≠ r.intakeNext)) →
      ∃ m, exec .close s = .next (s.conclude [x] m)
        ∧ m.tag f.tag = some (TagEntry.mk' .close .waiting (some x) (some b) none)
        ∧ (∀ u, u ≠ f.tag → m.tag u = s.tag u) ∧ s.rqu.sameButTags m.rqu ∧ m.link = s.unbuffer.link
        ∧ m.pool.armed = s.pool.armed ∧ (s.lane x).sameButWork (m.lane x) ∧ (m.lane x).workQueue = (s.lane x).workQueue
        ∧ s.BlockTested m x b r.readyPass
        ∧ (s.lane x).sameRecordsBut (m.lane x) b ∧ s.sameLanesBut m x ∧ s.sameInputs m
        ∧ (r.density = some .swift →
          BlockRec.sameButReady { r with state := .closing, dataEnd := some r.intakeNext } (m.record x b)
            ∧ ∀ i, m.slot i = s.slot i)
        ∧ (r.density = some .dense →
          BlockRec.sameButReady
              { r with state := .closing, dataEnd := some r.intakeNext, intakeNext := 4 * n + 4 } (m.record x b)
            ∧ (∀ i, (s.slot i).ownedBy x b = true → (s.slot i).state = .reserved → (s.slot i).pageNumber / 4 = n →
              m.slot i = { s.slot i with state := .staged, pad := true })
            ∧ (∀ i, (s.slot i).ownedBy x b = true → (s.slot i).state = .reserved → (s.slot i).pageNumber / 4 = n + 1 →
              m.slot i = (s.slot i).release)
            ∧ ∀ i, ((s.slot i).ownedBy x b = false ∨ (s.slot i).state ≠ .reserved
                ∨ ((s.slot i).pageNumber / 4 ≠ n ∧ (s.slot i).pageNumber / 4 ≠ n + 1)) →
              m.slot i = s.slot i))

/-- R28, R30, R31: a ROUGH that ends PASS raises rough_done, leaves the strip ROUGHED in the array, and a data ROUGH moves the strip's
STAGED slots to ROUGHED; no reply is queued. The test of R28 is made on the block. -/
def Obligations.RoughPasses : Prop :=
  (∀ (s : State) (x b n phys : Nat) (pages : List Page), s.inReset = false → b < 1024 →
    (s.lane x).engine = some (.rough phys n pages false) →
    (s.lane x).job = some (.pass b { kind := .rough, strip := n }) →
    ∃ m, exec (.dataRoughEnd x .pass) s = .next (s.conclude [x] m)
      ∧ BlockRec.sameButReady { s.record x b with roughDone := n + 1 } (m.record x b)
      ∧ (m.lane x).array = (s.lane x).array.modBlock phys (fun pb => pb.setStrip n { state := .roughed, pages := pages.map Page.encode })
      ∧ (∀ i k, k < 4 → s.slotOf x b (4 * n + k) = some i → (s.slot i).state = .staged →
        m.slot i = { s.slot i with state := .roughed })
      ∧ (∀ i, ((s.slot i).state ≠ .staged ∨ (s.slot i).ownedBy x b = false ∨ (s.slot i).pageNumber / 4 ≠ n) →
        m.slot i = s.slot i)
      ∧ (m.lane x).engine = none ∧ (m.lane x).job = none ∧ (s.lane x).sameButPass (m.lane x)
      ∧ s.BlockTested m x b (s.record x b).readyPass
      ∧ (s.lane x).sameRecordsBut (m.lane x) b ∧ s.sameLanesBut m x ∧ m.rqu = s.rqu ∧ m.link = s.link
      ∧ m.pool.armed = s.pool.armed ∧ s.sameInputs m)
  ∧ ∀ (s : State) (x b n phys dataEnd : Nat), s.inReset = false → b < 1024 →
    (s.lane x).engine = some (.terminatorRough phys n dataEnd false) →
    (s.lane x).job = some (.pass b { kind := .terminator, strip := n }) →
    ∃ m, exec (.terminatorRoughEnd x .pass) s = .next (s.conclude [x] m)
      ∧ BlockRec.sameButReady { s.record x b with roughDone := n + 1 } (m.record x b)
      ∧ (m.lane x).array
        = (s.lane x).array.modBlock phys (fun pb =>
            (pb.setStrip n { state := .roughed, pages := List.replicate 4 padPage.encode }).mark n dataEnd)
      ∧ (m.lane x).engine = none ∧ (m.lane x).job = none ∧ (s.lane x).sameButPass (m.lane x)
      ∧ s.BlockTested m x b (s.record x b).readyPass
      ∧ (s.lane x).sameRecordsBut (m.lane x) b ∧ s.sameLanesBut m x ∧ m.rqu = s.rqu ∧ m.link = s.link ∧ m.pool = s.pool
      ∧ s.sameInputs m

/-- R28, R32, R33, R54, R79: a FINAL or SINGLE that ends PASS raises final_done, releases the slots of its strip, ends their tags DURABLE
in page order with the physical block that serves the block, and makes the block FULL at strip 63 of an OPEN block. A CLOSING block below
its last data strip stays CLOSING; the pass of that strip is CloseArrives. The test of R28 is made on the block. The order of the replies
is said where no two of the strip's slots hold one tag and none of the tags has its final reply. An absent address in a tag entry reads as
0 (log 45). -/
def Obligations.FinalizingPasses : Prop :=
  ∀ (s : State) (x b n phys q : Nat) (c : Instr) (op : Operation) (kind : PassKind), s.inReset = false → b < 1024 →
    (s.lane x).engine = some op → (s.lane x).job = some (.pass b { kind := kind, strip := n }) →
    ((∃ pages, c = .finalEnd x .pass ∧ kind = .final ∧ q = 4 ∧ op = .final phys n pages false)
      ∨ (∃ page, c = .singleEnd x .pass ∧ kind = .single ∧ q = 1 ∧ op = .single phys n page false)) →
    ((s.record x b).state = .closing → ∀ e, (s.record x b).dataEnd = some e →
      (kind = .final → (e - 1) / 4 ≠ n) ∧ (kind = .single → e ≠ n + 1)) →
    ∃ m, exec c s = .next (s.conclude [x] m)
      ∧ BlockRec.sameButReady
          (if (s.record x b).state = .opened ∧ n = 63 then
            { s.record x b with state := .full, finalDone := 64, dataEnd := some (64 * q), intakeNext := 64 * q }
          else { s.record x b with finalDone := n + 1 })
          (m.record x b)
      ∧ (∀ i k, k < q → s.slotOf x b (q * n + k) = some i →
        m.slot i = (s.slot i).release
          ∧ ∀ t e, (s.slot i).tag = some t → s.tag t = some e → e.state ≠ .replying →
            m.tag t = some { e with state := .replying, slot := none }
              ∧ m.link.holds (QueueEntry.finalOf t e.kind .durable
                  (.durable (e.lane.getD 0) (e.block.getD 0) (e.page.getD 0)
                    (s.record (e.lane.getD 0) (e.block.getD 0)).physical) none))
      ∧ (let slots := (List.range q).filterMap (fun k => s.slotOf x b (q * n + k))
        s.WritesOpen (fun i => i ∈ slots) →
          m.link = (s.slotReplies slots (fun _ => s.durableReply)).foldl Link.placeFinal s.link)
      ∧ (∀ i, (∀ k, k < q → s.slotOf x b (q * n + k) ≠ some i) → m.slot i = s.slot i)
      ∧ (∀ t, (∀ i k, k < q → s.slotOf x b (q * n + k) = some i → (s.slot i).tag ≠ some t) → m.tag t = s.tag t)
      ∧ (∀ pages, op = .final phys n pages false →
        (m.lane x).array = (s.lane x).array.modBlock phys (fun pb => pb.setStrip n { state := .final, pages := pages.map Page.encode }))
      ∧ (∀ page, op = .single phys n page false →
        (m.lane x).array = (s.lane x).array.modBlock phys (fun pb => pb.setStrip n { state := .final, pages := [page.encode] }))
      ∧ (m.lane x).engine = none ∧ (m.lane x).job = none ∧ (s.lane x).sameButPass (m.lane x)
      ∧ s.BlockTested m x b (s.record x b).readyPass
      ∧ (s.lane x).sameRecordsBut (m.lane x) b ∧ s.sameLanesBut m x ∧ s.rqu.sameButTags m.rqu
      ∧ s.link.sameButReplies m.link ∧ m.pool.armed = s.pool.armed ∧ s.sameInputs m

/-- R28, R32, R33, R37, R54, R79: the pass that finalizes the last page of a CLOSING block makes it CLOSED by HOST and ends its CLOSE DONE.
Its strip's slots are released, and their tags end DURABLE, as in FinalizingPasses, with their replies before the CLOSE's. The test of R28
takes the block off the ready list if its ready_pass is present. An absent address in a tag entry reads as 0 (log 45). -/
def Obligations.CloseArrives : Prop :=
  ∀ (s : State) (x b n phys t : Nat) (entry : TagEntry) (c : Instr) (op : Operation) (kind : PassKind), s.inReset = false →
    b < 1024 → (s.lane x).engine = some op → (s.lane x).job = some (.pass b { kind := kind, strip := n }) →
    (s.record x b).state = .closing →
    ((∃ pages e, c = .finalEnd x .pass ∧ kind = .final ∧ op = .final phys n pages false ∧ (s.record x b).dataEnd = some e
        ∧ (e - 1) / 4 = n)
      ∨ (∃ page, c = .singleEnd x .pass ∧ kind = .single ∧ op = .single phys n page false
        ∧ (s.record x b).dataEnd = some (n + 1))) →
    s.tag t = some entry → entry.kind = .close → entry.state = .waiting → entry.lane = some x → entry.block = some b →
    (∀ u g, s.tag u = some g → g.kind = .close → g.state = .waiting → g.lane = some x → g.block = some b → u = t) →
    (∀ i, (s.slot i).tag ≠ some t) →
    ∃ m, exec c s = .next (s.conclude [x] m)
      ∧ m.record x b
        = { s.record x b with
            state := .closed
            closedBy := some .host
            finalDone := n + 1
            intakeNext := if kind = .single then n + 1 else (s.record x b).intakeNext
            readyPass := none }
      ∧ m.tag t = some { entry with state := .replying }
      ∧ m.link.holds (QueueEntry.finalOf t .close .done (.block x b) none)
      ∧ (let q := if kind = .single then 1 else 4
        (∀ i k, k < q → s.slotOf x b (q * n + k) = some i → m.slot i = (s.slot i).release)
          ∧ (∀ i k u e, k < q → s.slotOf x b (q * n + k) = some i → (s.slot i).tag = some u → s.tag u = some e →
            e.state ≠ .replying →
            m.tag u = some { e with state := .replying, slot := none }
              ∧ m.link.holds (QueueEntry.finalOf u e.kind .durable
                  (.durable (e.lane.getD 0) (e.block.getD 0) (e.page.getD 0)
                    (s.record (e.lane.getD 0) (e.block.getD 0)).physical) none))
          ∧ (let slots := (List.range q).filterMap (fun k => s.slotOf x b (q * n + k))
            s.WritesOpen (fun i => i ∈ slots) →
              m.link
                = (s.slotReplies slots (fun _ => s.durableReply) ++ [QueueEntry.finalOf t .close .done (.block x b) none]).foldl
                    Link.placeFinal s.link)
          ∧ (∀ u, u ≠ t → (∀ i k, k < q → s.slotOf x b (q * n + k) = some i → (s.slot i).tag ≠ some u) → m.tag u = s.tag u)
          ∧ ∀ i, (∀ k, k < q → s.slotOf x b (q * n + k) ≠ some i) → m.slot i = s.slot i)
      ∧ (∀ pages, op = .final phys n pages false →
        (m.lane x).array = (s.lane x).array.modBlock phys (fun pb => pb.setStrip n { state := .final, pages := pages.map Page.encode }))
      ∧ (∀ page, op = .single phys n page false →
        (m.lane x).array = (s.lane x).array.modBlock phys (fun pb => pb.setStrip n { state := .final, pages := [page.encode] }))
      ∧ (m.lane x).engine = none ∧ (m.lane x).job = none ∧ (s.lane x).sameButPass (m.lane x)
      ∧ s.BlockTested m x b (s.record x b).readyPass
      ∧ (s.lane x).sameRecordsBut (m.lane x) b ∧ s.sameLanesBut m x ∧ s.rqu.sameButTags m.rqu
      ∧ s.link.sameButReplies m.link ∧ m.pool.armed = s.pool.armed ∧ s.sameInputs m

/-- R11, R128 to R132: a pass whose block or strip is not in its starting state is refused by the engine and ends FAIL with the array as it
was, whatever the command names (log 17). Any other pass that ends FAIL tears its strip. Either makes the block FAILED and suspect with a
notice pending, and leaves the ready list as it was; its STAGED tags move to HELD_FAILED with no reply. A CLOSING block also takes
intake_next back to data_end and gives up its pad slots and its CLOSE. The fields of the CLOSE's reply are the model's reading (log 25). An
absent data_end leaves intake_next (log 45). -/
def Obligations.PassFails : Prop :=
  (∀ (pb : PhysBlock) (kind : PassKind) (n : Nat),
    pb.canStart kind n = true
      ↔ pb.factoryBad = false
        ∧ ((pb.cells = .blank ∧ kind ≠ .final)
          ∨ ∃ w, pb.cells = .written w
            ∧ ((kind = .rough ∨ kind = .terminator) → w.marker = .dense ∧ (w.strip n).state = .blank)
            ∧ (kind = .final → w.marker = .dense ∧ (w.strip n).state = .roughed ∧ ∀ e, w.terminator ≠ some (n, e))
            ∧ (kind = .single → w.marker = .swift ∧ (w.strip n).state = .blank)))
  ∧ ∀ (s : State) (x b n phys : Nat) (kind : PassKind) (op : Operation) (refused : Bool) (ending : Ending), s.inReset = false →
    b < 1024 → (refused = true ∨ ending = .fail) → (s.lane x).engine = some op → (s.lane x).job = some (.pass b { kind := kind, strip := n }) →
    ((∃ pages, kind = .rough ∧ op = .rough phys n pages refused) ∨ (∃ e, kind = .terminator ∧ op = .terminatorRough phys n e refused)
      ∨ (∃ pages, kind = .final ∧ op = .final phys n pages refused)
      ∨ (∃ page, kind = .single ∧ op = .single phys n page refused)) →
    let r := s.record x b
    ∃ m, exec (kind.endCommand x ending) s = .next (s.conclude [x] m)
      ∧ m.record x b
        = { r with
            state := .failed
            suspect := true
            failNotice := true
            intakeNext := if r.state = .closing then r.dataEnd.getD r.intakeNext else r.intakeNext
            dataEnd := none
            closedBy := none
            readyPass := none }
      ∧ (m.lane x).array
        = (if refused then (s.lane x).array
          else (s.lane x).array.modBlock phys (fun pb => pb.setStrip n { state := .torn, pages := [] }))
      ∧ (∀ i, m.slot i
        = if r.state = .closing ∧ (s.slot i).pad = true ∧ (s.slot i).ownedBy x b = true then (s.slot i).release else s.slot i)
      ∧ (∀ t e, s.tag t = some e → e.kind = .write → e.state = .staged → e.lane = some x → e.block = some b →
        (m.tag t).map TagEntry.state = some .heldFailed)
      ∧ (∀ t e, s.tag t = some e → e.kind ≠ .close →
        (e.kind ≠ .write ∨ e.state ≠ .staged ∨ e.lane ≠ some x ∨ e.block ≠ some b) →
        (m.tag t).map TagEntry.state = some e.state)
      ∧ (r.state ≠ .closing → m.link = s.link)
      ∧ (∀ t entry, r.state = .closing → s.tag t = some entry → entry.kind = .close → entry.state = .waiting →
        entry.lane = some x → entry.block = some b →
        (∀ u g, s.tag u = some g → g.kind = .close → g.state = .waiting → g.lane = some x → g.block = some b → u = t) →
        (m.tag t).map TagEntry.state = some .replying
          ∧ m.link = s.link.placeFinal (QueueEntry.finalOf t .close .programFailed (.block x b) none))
      ∧ (m.lane x).engine = none ∧ (m.lane x).job = none ∧ (s.lane x).sameButPass (m.lane x)
      ∧ (m.lane x).readyList = (s.lane x).readyList ∧ (m.lane x).readRun = (s.lane x).readRun
      ∧ (s.lane x).sameRecordsBut (m.lane x) b ∧ s.sameLanesBut m x ∧ s.rqu.sameButTags m.rqu
      ∧ s.link.sameButReplies m.link ∧ m.pool.armed = s.pool.armed ∧ s.sameInputs m

/-- R82, R91, R115, R117, R120, R123, R125: an ERASE of a block with nothing held and no ERASE pending joins the tail of the work queue,
its tag QUEUED and erase_pending set. It is refused PROTECTED while WP# is asserted, and BLOCK_BUSY while pages are held or an ERASE is
pending. When the scheduler takes it, its entry leaves the queue. With WP# asserted it ends PROTECTED. Otherwise it starts in place, or on
the first free reserve for a suspect or RETIRED block with a reserve and room in the map, and a RETIRED block without ends NO_RESERVE. -/
def Obligations.EraseQueued : Prop :=
  (∀ (s : State) (f : InFrame) (x b : Nat), s.Admits f .erase (.erase x b) → s.Reaches x b →
    (s.wpAsserted = true → exec .erase s = .next (s.conclude [] (s.refusedWith f .writeProtected .plain)))
    ∧ (s.wpAsserted = false → ((s.record x b).erasePending = true ∨ 0 < (s.record x b).heldCount) →
      exec .erase s = .next (s.conclude [] (s.refusedWith f .blockBusy .plain)))
    ∧ (s.wpAsserted = false → (s.record x b).erasePending = false → (s.record x b).heldCount = 0 →
      (s.lane x).workQueue.length < 24 →
      exec .erase s
        = .next (s.conclude [x]
            ((({ s.unbuffer with
                rqu := s.rqu.withTag f.tag (TagEntry.mk' .erase .queued (some x) (some b) none) } : State).modLane x
              (fun l => { l with workQueue := l.workQueue ++ [{ tag := f.tag, block := b, kind := .erase }] })).modRecord x b
              (fun r => { r with erasePending := true })))))
  ∧ ∀ (s : State) (x t b : Nat) (entry : TagEntry), s.tag t = some entry → entry.state = .queued →
    let l := s.lane x
    let r := s.record x b
    let spare := l.freeReserves ≠ [] ∧ ((∃ e ∈ l.substMap, e.1 = b) ∨ l.substMap.length < 64)
    let taken := { l with workQueue := l.workQueue.tail }
    let started := fun (p : Nat) (c : EraseCourse) (free : List Nat) =>
      ({ s with rqu := s.rqu.withTag t { entry with state := .active } } : State).setLane x
        { taken with engine := some (.erase p), job := some (.erase t b c none), freeReserves := free }
    let ended := fun (st : Status) (fields : Option EraseFields) =>
      ({ s.setLane x { taken with records := l.records.setIfInBounds b { r with erasePending := false } } with
          rqu := s.rqu.withTag t { entry with state := .replying }
          link := s.link.placeFinal (QueueEntry.finalOf t entry.kind st (.erase x b fields) none) } : State)
    (s.wpAsserted = true → s.take x (.erase t b) = ended .writeProtected none)
    ∧ (s.wpAsserted = false →
      (r.suspect = false → r.state ≠ .retired → s.take x (.erase t b) = started r.physical .inPlace l.freeReserves)
      ∧ (∀ p rest, (r.suspect = true ∨ r.state = .retired) → spare → l.freeReserves = p :: rest →
        s.take x (.erase t b) = started p (.substitution p) rest)
      ∧ (r.suspect = true → r.state ≠ .retired → ¬spare →
        s.take x (.erase t b) = started r.physical .inPlace l.freeReserves)
      ∧ (r.state = .retired → ¬spare →
        s.take x (.erase t b)
          = ended .noReserve
              (some { course := none, physical := r.physical, substituted := false, directory := .notNeeded,
                      freeReserves := l.freeReserves.length })))

/-- R12: ERASE of one physical block. A factory-bad block ends FAIL and is unchanged; any other is BLANK after PASS, whatever it was, and
UNSETTLED after FAIL. The mark, the other blocks and the directory copies stay. -/
def Obligations.EraseOfBlock : Prop :=
  ∀ (a : FlashArray) (p : Nat) (e : Ending), p < 1056 →
    let out := (Operation.erase p).outcome a e
    let a' := (Operation.erase p).finish out ((Operation.erase p).begin a)
    ((a.block p).factoryBad = true → out = .fail ∧ a'.block p = a.block p)
    ∧ ((a.block p).factoryBad = false →
      out = e ∧ (e = .pass → (a'.block p).cells = .blank) ∧ (e = .fail → (a'.block p).cells = .unsettled))
    ∧ (a'.block p).factoryBad = (a.block p).factoryBad ∧ a'.copyA = a.copyA ∧ a'.copyB = a.copyB
    ∧ ∀ q, q ≠ p → a'.block q = a.block q

/-- R118, R119, R125: the end of an in-place erase. PASS leaves the record ERASED and replies DONE. FAIL retires the block: with room in
the map a directory write with a target of NONE is presented; with none the block is RETIRED and the reply says MAP_FULL. -/
def Obligations.InPlaceErase : Prop :=
  ∀ (s : State) (x t b p : Nat) (e : Ending) (entry : TagEntry), s.inReset = false → b < 1024 →
    (s.lane x).engine = some (.erase p) → (s.lane x).job = some (.erase t b .inPlace none) → s.tag t = some entry →
    entry.state ≠ .replying →
    let out := if ((s.lane x).array.block p).factoryBad then .fail else e
    let l := s.lane x
    let erased := l.array.modBlock p (fun pb => pb.endErase out)
    let reply := fun st dir => (QueueEntry.finalOf t entry.kind st
      (.erase x b (some { course := some .inPlace, physical := p, substituted := false, directory := dir,
                          freeReserves := l.freeReserves.length })) none)
    ∃ m, exec (.inPlaceEraseEnd x e) s = .next (s.conclude [x] m)
      ∧ s.sameLanesBut m x ∧ m.pool = s.pool ∧ s.sameInputs m ∧ (l.sameRecordsBut (m.lane x) b) ∧ l.sameButPass (m.lane x)
      ∧ (m.lane x).readyList = l.readyList ∧ (m.lane x).readRun = l.readRun
      ∧ s.rqu.sameButTags m.rqu ∧ s.link.sameButReplies m.link ∧ (∀ u, u ≠ t → m.tag u = s.tag u)
      ∧ (out = .pass →
        m.record x b
            = { s.record x b with
                state := .erased, density := none, dataEnd := none, closedBy := none, intakeNext := 0, roughDone := 0,
                finalDone := 0, suspect := false, erasePending := false, readyPass := none }
          ∧ (m.lane x).array = erased ∧ (m.lane x).engine = none ∧ (m.lane x).job = none
          ∧ m.tag t = some { entry with state := .replying } ∧ m.link = s.link.placeFinal (reply .done .notNeeded))
      ∧ (out = .fail → mapHasRoom l.substMap b = false →
        m.record x b
            = { s.record x b with
                state := .retired, physical := p, density := none, dataEnd := none, closedBy := none, intakeNext := 0,
                roughDone := 0, finalDone := 0, erasePending := false, readyPass := none }
          ∧ (m.lane x).substMap = l.substMap ∧ (m.lane x).array = erased ∧ (m.lane x).engine = none ∧ (m.lane x).job = none
          ∧ m.tag t = some { entry with state := .replying } ∧ m.link = s.link.placeFinal (reply .eraseFailed .mapFull))
      ∧ (out = .fail → mapHasRoom l.substMap b = true →
        m = s.setLane x
          { l with
            array := (erased.directoryWrite
                { map := setTarget b none l.substMap
                  retired := if 1024 ≤ p then l.retiredReserves ++ [p] else l.retiredReserves }).begin erased
            engine := some (erased.directoryWrite
                { map := setTarget b none l.substMap
                  retired := if 1024 ≤ p then l.retiredReserves ++ [p] else l.retiredReserves })
            job := some (.erase t b .inPlace (some .fail)) })

/-- R15, R121, R122: the end of a substitute's erase presents the directory write that records the substitution after PASS, and the
retirement of the block and of the reserve after FAIL. A directory write goes to the copy that is not the newest readable one, at a
generation one above the newest's. From its start that copy is unreadable; after PASS it holds what was written and is the newest; after
FAIL it stays unreadable and the other stays the newest. Nothing is said of two unreadable copies (log 26) or of equal generations (log
40). -/
def Obligations.ReserveErase : Prop :=
  (∀ (s : State) (x t b p r : Nat) (e : Ending), s.inReset = false → (s.lane x).engine = some (.erase p) →
    (s.lane x).job = some (.erase t b (.substitution r) none) →
    let out := if ((s.lane x).array.block p).factoryBad then .fail else e
    let l := s.lane x
    let erased := l.array.modBlock p (fun pb => pb.endErase out)
    let d : Directory :=
      if out = .pass then { map := setTarget b (some r) l.substMap, retired := l.retiredReserves }
      else
        { map := setTarget b none l.substMap
          retired := if 1024 ≤ r then l.retiredReserves ++ [r] else l.retiredReserves }
    exec (.reserveEraseEnd x e) s
      = .next (s.conclude [x]
          (s.setLane x
            { l with
              array := (erased.directoryWrite d).begin erased
              engine := some (erased.directoryWrite d)
              job := some (.erase t b (.substitution r) (some out)) })))
  ∧ ∀ (a : FlashArray) (d : Directory) (c : DirCopy),
    let op := a.directoryWrite d
    let new : DirCopy := { generation := c.generation + 1, contents := d }
    (a.copyA = some c → (∀ o, a.copyB = some o → o.generation < c.generation) →
      op = .directoryWrite d (c.generation + 1) false ∧ op.begin a = { a with copyB := none }
        ∧ op.finish .pass (op.begin a) = { a with copyB := some new }
        ∧ (op.finish .pass (op.begin a)).newest = some (false, new)
        ∧ op.finish .fail (op.begin a) = { a with copyB := none }
        ∧ (op.finish .fail (op.begin a)).newest = some (true, c))
    ∧ (a.copyB = some c → (∀ o, a.copyA = some o → o.generation < c.generation) →
      op = .directoryWrite d (c.generation + 1) true ∧ op.begin a = { a with copyA := none }
        ∧ op.finish .pass (op.begin a) = { a with copyA := some new }
        ∧ (op.finish .pass (op.begin a)).newest = some (true, new)
        ∧ op.finish .fail (op.begin a) = { a with copyA := none }
        ∧ (op.finish .fail (op.begin a)).newest = some (false, c))

/-- R15, R118, R119, R121, R122, R124, R125: the end of the directory write of an ERASE job. The copy that was written is readable after
PASS alone. A substitution that is written makes the block ERASED on the reserve, a retirement makes it RETIRED on the block whose erase
failed, whether or not it is written; both reset the record, and the working tables take what was written. A substitution whose write
failed is undone: the reserve goes back, and of the record erase_pending alone is cleared. The replaced block goes back to the free-reserve
list when it is a reserve block with no factory-bad mark that is not retired. The reply carries the course and its outcome. -/
def Obligations.DirectoryWriteSettles : Prop :=
  ∀ (s : State) (x t b g : Nat) (d : Directory) (toA : Bool) (course : EraseCourse) (erased w : Ending) (entry : TagEntry),
    s.inReset = false → b < 1024 → (s.lane x).engine = some (.directoryWrite d g toA) →
    (s.lane x).job = some (.erase t b course (some erased)) → s.tag t = some entry → entry.state ≠ .replying →
    let l := s.lane x
    let r := s.record x b
    let copy : Option DirCopy := if w = .pass then some { generation := g, contents := d } else none
    let cleared : BlockRec :=
      { r with
        density := none, dataEnd := none, closedBy := none, intakeNext := 0, roughDone := 0, finalDone := 0, erasePending := false,
        readyPass := none }
    let returned :=
      if 1024 ≤ r.physical ∧ (l.array.block r.physical).factoryBad = false ∧ r.physical ∉ d.retired then
        insertByKey id r.physical l.freeReserves
      else l.freeReserves
    ∃ m, exec (.directoryWriteEnd x w) s = .next (s.conclude [x] m)
      ∧ (m.lane x).array = l.array.setCopy toA copy ∧ (m.lane x).engine = none ∧ (m.lane x).job = none
      ∧ m.tag t = some { entry with state := .replying }
      ∧ l.sameRecordsBut (m.lane x) b ∧ s.sameLanesBut m x ∧ m.pool = s.pool ∧ s.sameInputs m
      ∧ s.rqu.sameButTags m.rqu ∧ s.link.sameButReplies m.link ∧ (∀ u, u ≠ t → m.tag u = s.tag u)
      ∧ l.sameButErase (m.lane x) ∧ (course = .inPlace → (m.lane x).freeReserves = l.freeReserves)
      ∧ (let leaves := fun (status : Status) (phys : Nat) (substituted : Bool) (dir : DirResult) =>
          m.link = s.link.placeFinal (QueueEntry.finalOf t entry.kind status
            (.erase x b (some { course := some course, physical := phys, substituted := substituted, directory := dir,
                                freeReserves := (m.lane x).freeReserves.length })) none)
        let tables := fun (map : List (Nat × Option Nat)) (retired free : List Nat) =>
          (m.lane x).substMap = map ∧ (m.lane x).retiredReserves = retired ∧ (m.lane x).freeReserves = free
        let waits := (m.lane x).readyList = l.readyList ∧ (m.lane x).readRun = l.readRun
        let result := if w = .pass then DirResult.written else .writeFailed
        (∀ p, course = .substitution p → erased = .pass → w = .pass →
          m.record x b = { cleared with state := .erased, physical := p, suspect := false } ∧ tables d.map d.retired returned ∧ waits
            ∧ leaves .done p true .written)
        ∧ (∀ p, course = .substitution p → erased = .pass → w = .fail →
          BlockRec.sameButReady { r with erasePending := false } (m.record x b) ∧ s.BlockTested m x b r.readyPass
            ∧ tables l.substMap l.retiredReserves (insertByKey id p l.freeReserves)
            ∧ leaves .eraseFailed r.physical false .writeFailed)
        ∧ (∀ p, course = .substitution p → erased = .fail →
          m.record x b = { cleared with state := .retired, physical := p } ∧ tables d.map d.retired returned ∧ waits
            ∧ leaves .eraseFailed p true result)
        ∧ (course = .inPlace → erased = .fail →
          m.record x b = { cleared with state := .retired } ∧ tables d.map d.retired l.freeReserves ∧ waits
            ∧ leaves .eraseFailed r.physical false result))

/-- R58, R135 to R138: after the checks of its lane a RELOCATE is refused PROTECTED, then BLOCK_STATE unless the source is FAILED and the
target ERASED, then BLOCK_BUSY while a page of the source is in transfer or an ERASE of the target is pending. A RELOCATE moves the held
pages of a FAILED block to an ERASED block: held slots are relabelled and STAGED, the source's other slots released, both records set,
HELD_FAILED tags STAGED at their new address, and DONE is queued. The pages of the target's last DENSE strip that were not moved take the
lowest-numbered slots that are then FREE, in page order, and the test of R28 is made on the target. -/
def Obligations.RelocateMoves : Prop :=
  (∀ (s : State) (f : InFrame) (x a b : Nat), s.Admits f .relocate (.relocate x a b) → s.Reaches x a → b < 1024 →
    let fits := (s.record x a).state = .failed ∧ (s.record x b).state = .erased
    let busy := (s.record x b).erasePending = true ∨ ∃ i, (s.slot i).ownedBy x a = true ∧ (s.slot i).state = .filling
    (s.wpAsserted = true → exec .relocate s = .next (s.conclude [] (s.refusedWith f .writeProtected .plain)))
    ∧ (s.wpAsserted = false → ¬fits → exec .relocate s = .next (s.conclude [] (s.refusedWith f .blockState .plain)))
    ∧ (s.wpAsserted = false → fits → busy → exec .relocate s = .next (s.conclude [] (s.refusedWith f .blockBusy .plain))))
  ∧ ∀ (s : State) (f : InFrame) (x a b : Nat), s.Admits f .relocate (.relocate x a b) → s.Reaches x a → b < 1024 → s.SlotsFormed →
    s.wpAsserted = false → (s.record x a).state = .failed → (s.record x b).state = .erased → (s.record x b).erasePending = false →
    (∀ i, (s.slot i).ownedBy x a = true → (s.slot i).state ≠ .filling) →
    let r := s.record x a
    let first := r.firstHeld
    let moved := r.intakeNext - first
    let needs := if r.density = some .swift then 0 else (moved + 3) / 4 * 4 - moved
    let held := fun i => (s.slot i).ownedBy x a = true ∧ ((s.slot i).state = .staged ∨ (s.slot i).state = .roughed)
    let free := (List.range 96).filter (fun i =>
      decide ((s.slot i).state = .free)
        || ((s.slot i).ownedBy x a && decide ((s.slot i).state = .reserved) && decide ((s.slot i).pins = 0)))
    let supply := free.length
    (supply < needs → exec .relocate s = .next (s.conclude [] (s.refusedWith f .poolFull .plain)))
    ∧ (needs ≤ supply →
      ∃ m, exec .relocate s = .next (s.conclude [x] m)
        ∧ m.record x a
          = { r with state := .closed, closedBy := some .host, intakeNext := first, dataEnd := some first, readyPass := none }
        ∧ BlockRec.sameButReady
          { s.record x b with
            state := .opened, density := r.density, intakeNext := moved, roughDone := 0, finalDone := 0, dataEnd := none,
            closedBy := none } (m.record x b)
        ∧ (∀ i, held i →
          m.slot i
            = { s.slot i with state := .staged, owner := some { lane := x, block := b, page := (s.slot i).pageNumber - first } })
        ∧ (∀ k, k < needs →
          ∃ i, free[k]? = some i
            ∧ m.slot i = (s.slot i).release.reserveFor { lane := x, block := b, page := moved + k })
        ∧ (∀ k i, needs ≤ k → free[k]? = some i → m.slot i = (s.slot i).release)
        ∧ (∀ i, (s.slot i).ownedBy x a = true → (s.slot i).state = .reserved → 0 < (s.slot i).pins → m.slot i = (s.slot i).release)
        ∧ (∀ i, (s.slot i).ownedBy x a = false → (s.slot i).state ≠ .free → m.slot i = s.slot i)
        ∧ m.freeCount + needs = supply
        ∧ (∀ u, u ≠ f.tag → (∀ i, held i → (s.slot i).tag ≠ some u) → m.tag u = s.tag u)
        ∧ (∀ i t e, held i → (s.slot i).tag = some t → s.tag t = some e → e.state = .heldFailed →
          (∀ j, (s.slot j).tag = some t → j = i) →
          m.tag t = some { e with state := .staged, block := some b, page := e.page.map (fun p => p - first) })
        ∧ m.tag f.tag = some (TagEntry.mk' .relocate .replying (some x) (some a) none)
        ∧ m.link = s.linkWith
          (QueueEntry.finalOf f.tag .relocate .done (.relocated x a b r.density r.heldCount first) none)
        ∧ (∀ c, c ≠ a → c ≠ b → m.record x c = s.record x c) ∧ (s.lane x).sameButWork (m.lane x)
        ∧ s.BlockTested m x b (s.record x b).readyPass
        ∧ (m.lane x).workQueue = (s.lane x).workQueue ∧ s.sameLanesBut m x ∧ s.rqu.sameButTags m.rqu ∧ m.pool.armed = s.pool.armed
        ∧ s.sameInputs m)

/-- R140, R141: after the checks of its lane a DISCARD is refused BLOCK_STATE unless the block is FAILED, then BLOCK_BUSY while a page of
it is in transfer, and changes nothing; WP# plays no part. A DISCARD of a FAILED block with no page in transfer releases its slots, closes
it at its last finalized strip, ends the held pages' tags DISCARDED in page order, and queues its own DONE after them. The order of the
replies is said where no two of the slots hold one tag and none of the tags has its final reply. An absent address in a tag entry reads as
0 (log 45). -/
def Obligations.DiscardGivesUp : Prop :=
  (∀ (s : State) (f : InFrame) (x b : Nat), s.Admits f .discard (.discard x b) → s.Reaches x b →
    ((s.record x b).state ≠ .failed → exec .discard s = .next (s.conclude [] (s.refusedWith f .blockState .plain)))
    ∧ ((s.record x b).state = .failed → (∃ i, (s.slot i).ownedBy x b = true ∧ (s.slot i).state = .filling) →
      exec .discard s = .next (s.conclude [] (s.refusedWith f .blockBusy .plain))))
  ∧ ∀ (s : State) (f : InFrame) (x b : Nat), s.Admits f .discard (.discard x b) → s.Reaches x b →
    (s.record x b).state = .failed → (∀ i, (s.slot i).ownedBy x b = true → (s.slot i).state ≠ .filling) →
    let r := s.record x b
    ∃ m, exec .discard s = .next (s.conclude [x] m)
      ∧ m.record x b
        = { r with
            state := .closed, closedBy := some .host, intakeNext := r.firstHeld, dataEnd := some r.firstHeld, readyPass := none }
      ∧ (∀ i, (s.slot i).ownedBy x b = true → m.slot i = (s.slot i).release)
      ∧ (∀ i, (s.slot i).ownedBy x b = false → m.slot i = s.slot i)
      ∧ (∀ i t e, (s.slot i).ownedBy x b = true → (s.slot i).tag = some t → s.tag t = some e → e.state ≠ .replying →
        m.tag t = some { e with state := .replying, slot := none }
          ∧ m.link.holds (QueueEntry.finalOf t e.kind .discarded
              (.page (e.lane.getD 0) (e.block.getD 0) (e.page.getD 0)) none))
      ∧ (∃ slots : List Nat,
        (∀ i, i ∈ slots ↔ (s.slot i).ownedBy x b = true) ∧ slots.Nodup
          ∧ slots.Pairwise (fun i j => (s.slot i).pageNumber ≤ (s.slot j).pageNumber)
          ∧ (s.WritesOpen (fun i => (s.slot i).ownedBy x b = true) →
            m.link
              = (s.slotReplies slots (fun _ t e => QueueEntry.writeEnd t e .discarded)
                  ++ [QueueEntry.finalOf f.tag .discard .done (.discarded x b (r.intakeNext - r.firstHeld) r.firstHeld)
                      none]).foldl Link.placeFinal s.unbuffer.link))
      ∧ m.tag f.tag = some (TagEntry.mk' .discard .replying (some x) (some b) none)
      ∧ m.link.queue.getLast?
        = some (QueueEntry.finalOf f.tag .discard .done (.discarded x b (r.intakeNext - r.firstHeld) r.firstHeld) none)
      ∧ (∀ u, u ≠ f.tag → (∀ i, (s.slot i).ownedBy x b = true → (s.slot i).tag ≠ some u) → m.tag u = s.tag u)
      ∧ m.lane x = { s.lane x with records := (m.lane x).records } ∧ (s.lane x).sameRecordsBut (m.lane x) b
      ∧ s.sameLanesBut m x ∧ s.rqu.sameButTags m.rqu ∧ s.unbuffer.link.sameButReplies m.link ∧ m.pool.armed = s.pool.armed
      ∧ s.sameInputs m

/-! ### Resets -/

/-- R42, R62, R81, R96, R98: a LANE_RESET of a READY lane makes the lane RESETTING and its tag WAITING. Its application waits while a job
is in flight, and a lane that is not RESETTING has none due. HappeningEnd says when it is tried. Then the work queue and ready list are
empty, the records are set by R42, the lane's slots released, and the lane is READY. Its queued work, then its open writes in the order of
their addresses, then its CLOSEs end ABORTED, and last its own tag ends DONE with the number of tags it ended ABORTED and of blocks it set
ERASED and CLOSED; each reply takes its place in the reply queue in that order. Tags that its queue and its slots do not name, of other
lanes or already REPLYING, stay as they were. That a CLOSE's reply carries its lane and block is the model's reading (log 25). An absent
address in a tag entry reads as 0 (log 45). -/
def Obligations.LaneResetRuns : Prop :=
  (∀ (s : State) (f : InFrame) (x : Nat), s.Admits f .laneReset (.laneReset x) → x < 4 → (s.lane x).state = .ready →
    exec .laneReset s
      = .next (s.conclude [x]
          (({ s.unbuffer with
              rqu := s.rqu.withTag f.tag (TagEntry.mk' .laneReset .waiting (some x) none none) } : State).modLane x
            (fun l => { l with state := .resetting }))))
  ∧ (∀ (s : State) (x : Nat), ((s.lane x).job ≠ none ∨ (s.lane x).state ≠ .resetting) → s.applyDueReset x = s)
  ∧ ∀ (s : State) (x : Nat), x < 4 → (s.lane x).state = .resetting → (s.lane x).job = none → s.rqu.part ≠ .resetting →
    let m := s.applyDueReset x
    let items := (s.lane x).workQueue
    let openWrite := fun e : TagEntry =>
      e.kind = .write ∧ (e.state = .transfer ∨ e.state = .staged ∨ e.state = .heldFailed) ∧ e.lane = some x
    let openClose := fun e : TagEntry => e.kind = .close ∧ e.state = .waiting ∧ e.lane = some x
    let itsReset := fun e : TagEntry => e.kind = .laneReset ∧ e.state = .waiting ∧ e.lane = some x
    let place := fun t => ((s.tag t).map (fun e => e.block.getD 0 * 256 + e.page.getD 0)).getD 0
    m.lane x
      = { s.lane x with state := .ready, workQueue := [], readyList := [], readRun := 0, records := (m.lane x).records }
    ∧ (∀ b, b < 1024 → BlockRec.SetByReset (s.record x b) (m.record x b))
    ∧ (∀ i, (s.slot i).ofLane x = true → m.slot i = (s.slot i).release)
    ∧ (∀ i, (s.slot i).ofLane x = false → m.slot i = s.slot i)
    ∧ (∃ writes closes : List Nat,
      (∀ t, t ∈ writes ↔ ∃ e, s.tag t = some e ∧ openWrite e) ∧ writes.Nodup ∧ writes.Pairwise (fun t u => place t ≤ place u)
      ∧ (∀ t, t ∈ closes ↔ ∃ e, s.tag t = some e ∧ openClose e) ∧ closes.Nodup ∧ closes.Pairwise (fun t u => place t ≤ place u)
      ∧ ∀ own e, s.tag own = some e → itsReset e → (items.map WorkItem.tag).Nodup →
        (∀ w ∈ items, ∀ g, s.tag w.tag = some g → g.state = .queued) →
        (∀ u g, s.tag u = some g → itsReset g → u = own) →
        (m.tag own).map TagEntry.state = some .replying
          ∧ m.link
            = (items.filterMap (fun w => (s.tag w.tag).map (fun e =>
                  QueueEntry.finalOf w.tag e.kind .aborted
                    (match w.kind with | .read p => .page x w.block p | .erase => .erase x w.block none) none))
                ++ writes.filterMap (fun t => (s.tag t).map (fun e =>
                  QueueEntry.finalOf t .write .aborted (.page x (e.block.getD 0) (e.page.getD 0)) none))
                ++ closes.filterMap (fun t => (s.tag t).map (fun e =>
                  QueueEntry.finalOf t .close .aborted (.block x (e.block.getD 0)) none))
                ++ [QueueEntry.finalOf own .laneReset .done
                    (.laneReset x (items.length + writes.length + closes.length) (s.blocksSet m x .erased)
                      (s.blocksSet m x .closed)) none]).foldl Link.placeFinal s.link)
    ∧ (∀ t e, s.tag t = some e → openWrite e → m.tag t = some { e with state := .replying, slot := none })
    ∧ (∀ t e, s.tag t = some e → (openClose e ∨ ∃ w ∈ items, w.tag = t) → (m.tag t).map TagEntry.state = some .replying)
    ∧ (∀ t, (∀ w ∈ items, w.tag ≠ t) → (∀ i, (s.slot i).ofLane x = true → (s.slot i).tag ≠ some t) →
      (∀ e, s.tag t = some e → ¬openWrite e ∧ ¬openClose e ∧ ¬itsReset e) → m.tag t = s.tag t)
    ∧ s.sameLanesBut m x ∧ s.sameInputs m ∧ s.rqu.sameButTags m.rqu ∧ m.pool.armed = s.pool.armed
    ∧ s.link.sameButReplies m.link

/-- R42, R62, R99, R153, R163, R164: a PART_RESET makes the part and every READY lane RESETTING, its tag WAITING, and notes which lanes it
reached. At a reached lane with no job in flight its application empties the work queue and ready list, sets the records by R42, releases
the lane's slots, takes the lane's tags out of the table with no reply, removes their queued replies with their data sources, counts what
it did, and makes the lane READY. Nothing completes while no PART_RESET is in progress or a lane it reached still waits. When every lane it
reached has applied its reset, only its own tag stays, in REPLYING, the reply queue holds only its DONE, the recall ring is empty and the
part is RUNNING; settings, notice conditions, lanes' arrays and the link's sequence state are kept. What becomes of a frame being sent
whose entry is removed is the model's reading (log 19). -/
def Obligations.PartResetRuns : Prop :=
  (∀ (s : State) (f : InFrame), s.Admits f .partReset .partReset →
    ∃ m p, exec .partReset s = .next (s.conclude [0, 1, 2, 3] m)
      ∧ m.rqu = { s.rqu with tags := m.rqu.tags, part := .resetting, partReset := some p } ∧ p.tag = f.tag ∧ p.removed = 0
      ∧ m.tag f.tag = some (TagEntry.mk' .partReset .waiting none none none) ∧ (∀ u, u ≠ f.tag → m.tag u = s.tag u)
      ∧ (∀ x, x < 4 →
        let reached := (s.lane x).state = .ready ∨ (s.lane x).state = .resetting
        m.lane x = (if reached then { s.lane x with state := .resetting } else s.lane x)
          ∧ p.lanes[x]? = some (if reached then .waiting else .offline))
      ∧ m.pool = s.pool ∧ m.link = s.unbuffer.link ∧ s.sameInputs m)
  ∧ (∀ (s : State) (x : Nat) (p : PartReset), x < 4 → (s.lane x).state = .resetting → (s.lane x).job = none →
    s.rqu.part = .resetting → s.rqu.partReset = some p →
    let m := s.applyDueReset x
    let ofLane := fun t => decide ((s.tag t).any (fun e => decide (e.lane = some x)) = true)
    let gone := fun q : QueueEntry => decide (q.reply.cls ≠ .refusal) && ofLane q.reply.tag
    let headGone := s.link.queue.head?.any gone
    (∃ g, m.lane x
        = { s.lane x with
            state := .ready, workQueue := [], readyList := [], readRun := 0, records := (m.lane x).records, egress := g })
      ∧ (∀ b, b < 1024 → BlockRec.SetByReset (s.record x b) (m.record x b))
      ∧ (∀ y, y ≠ x → ∃ g, m.lane y = { s.lane y with egress := g })
      ∧ s.SourcesReleased m (s.link.queue.filter gone)
          (fun i => if (s.slot i).ofLane x then (s.slot i).release else s.slot i)
      ∧ (∀ t, ofLane t = true → m.tag t = none)
      ∧ (∀ t, ofLane t = false → (∀ i, (s.slot i).ofLane x = true → (s.slot i).tag ≠ some t) → m.tag t = s.tag t)
      ∧ m.link.queue = s.link.queue.filter (fun q => !gone q)
      ∧ m.link.deferred = s.link.deferred.filter (fun q => !ofLane q.reply.tag)
      ∧ m.link.tx = (if headGone then s.link.tx.map OutFrame.drop else s.link.tx)
      ∧ m.link.transmission = (if headGone then none else s.link.transmission)
      ∧ m.link
        = { s.link with
            queue := m.link.queue, deferred := m.link.deferred, tx := m.link.tx, transmission := m.link.transmission }
      ∧ m.rqu
        = { s.rqu with
            tags := m.rqu.tags
            partReset := some { p with
              lanes := p.lanes.setIfInBounds x (.applied (s.blocksSet m x .erased) (s.blocksSet m x .closed))
              removed := p.removed + (List.range 64).countP ofLane } }
      ∧ m.pool.armed = s.pool.armed ∧ s.sameInputs m)
  ∧ (∀ s : State,
    (s.rqu.partReset = none ∨ ∃ p, s.rqu.partReset = some p ∧ LaneReset.waiting ∈ p.lanes.toList) → s.completeReset = s)
  ∧ ∀ (s : State) (p : PartReset) (e : TagEntry), s.rqu.partReset = some p → (∀ r ∈ p.lanes.toList, r ≠ .waiting) →
    s.tag p.tag = some e → e.state ≠ .replying → (s.link.queue = [] → s.link.transmission = none) →
    let m := s.completeReset
    let others := (List.range 64).countP (fun t => (s.tag t).isSome && decide (t ≠ p.tag))
    m.rqu = { s.rqu with tags := m.rqu.tags, part := .running, ring := [], partReset := none }
    ∧ m.tag p.tag = some { e with state := .replying } ∧ (∀ u, u ≠ p.tag → m.tag u = none)
    ∧ m.link.queue = [QueueEntry.finalOf p.tag e.kind .done (.partReset p.lanes.toList (p.removed + others)) none]
    ∧ m.link.tx = (if s.link.queue = [] then s.link.tx else s.link.tx.map OutFrame.drop)
    ∧ m.link
      = { s.link with queue := m.link.queue, deferred := none, tx := m.link.tx, transmission := none }
    ∧ s.SourcesReleased m s.link.queue s.slot ∧ m.pool.armed = s.pool.armed ∧ s.sameInputs m
    ∧ ∀ x, ∃ g, m.lane x = { s.lane x with egress := g }

/-! ### Start-up -/

/-- R14, R182, R183, R187: a DIRECTORY read that ends PASS loads the copy with the higher generation, or the one readable copy, and the
SURVEY of block 0 begins. One that ends FAIL, or that finds no readable copy, leaves both copies and the tables as they were (log 38) and
the lane OFFLINE, and ends start-up when every other lane has ended its scan. A SURVEY before the last keeps its record and the next
begins. -/
def Obligations.ScanSteps : Prop :=
  (∀ (s : State) (x : Nat), s.inReset = false → (s.lane x).engine = some .directoryRead → (s.lane x).state = .scanning →
    (s.lane x).built = false →
    (∀ c, ((s.lane x).array.copyA = some c ∧ (s.lane x).array.copyB = none)
        ∨ ((s.lane x).array.copyA = none ∧ (s.lane x).array.copyB = some c)
        ∨ (∃ d, d.generation < c.generation
          ∧ (((s.lane x).array.copyA = some c ∧ (s.lane x).array.copyB = some d)
            ∨ ((s.lane x).array.copyA = some d ∧ (s.lane x).array.copyB = some c))) →
      exec (.directoryReadEnd ⟨x, .pass⟩) s
        = .next (s.conclude []
            (s.setLane x { s.lane x with
              engine := some (.survey 0)
              substMap := c.contents.map
              retiredReserves := c.contents.retired })))
    ∧ ∀ e, (e = .fail ∨ ((s.lane x).array.copyA = none ∧ (s.lane x).array.copyB = none)) →
      let m := s.setLane x { s.lane x with engine := none, state := .offline }
      ((s.rqu.part ≠ .starting ∨ ∃ y, y < 4 ∧ y ≠ x ∧ (s.lane y).built = false ∧ (s.lane y).state ≠ .offline) →
        exec (.directoryReadEnd ⟨x, e⟩) s = .next (s.conclude [] m))
      ∧ (s.rqu.part = .starting → (∀ y, y < 4 → y ≠ x → (s.lane y).built = true ∨ (s.lane y).state = .offline) →
        ∃ t, exec (.directoryReadEnd ⟨x, e⟩) s = .next (s.conclude [] t) ∧ m.StartUpEnds t))
  ∧ ∀ (s : State) (x p : Nat), s.inReset = false → (s.lane x).engine = some (.survey p) → (s.lane x).state = .scanning →
    (s.lane x).built = false → p < 1055 →
    exec (.surveyEnd x) s
      = .next (s.conclude []
          (s.setLane x { s.lane x with
            engine := some (.survey (p + 1))
            surveys := (s.lane x).surveys ++ [((s.lane x).array.block p).survey] }))

/-- R183 to R187: the SURVEY of block 1055 builds the lane's records and free-reserve list. When every other lane has ended its scan, every
lane that is not OFFLINE becomes READY with nothing queued, the part is RUNNING and STARTUP_DONE is pending. -/
def Obligations.ScanEnds : Prop :=
  ∀ (s : State) (x : Nat), s.inReset = false → s.rqu.part = .starting → (s.lane x).engine = some (.survey 1055) →
    (s.lane x).state = .scanning →
    let l := { s.lane x with surveys := (s.lane x).surveys ++ [((s.lane x).array.block 1055).survey] }
    ∃ m, exec (.surveyEnd x) s = .next (s.conclude [] m)
      ∧ (m.lane x).built = true ∧ (m.lane x).engine = none ∧ (m.lane x).freeReserves = l.surveyedReserves
      ∧ (∀ h, h < 1024 → m.record x h = l.rebuild h) ∧ (m.lane x).array = (s.lane x).array ∧ s.sameInputs m
      ∧ ((∃ y, y < 4 ∧ y ≠ x ∧ (s.lane y).built = false ∧ (s.lane y).state ≠ .offline) →
        (m.lane x).state = .scanning ∧ m.rqu = s.rqu ∧ s.sameLanesBut m x)
      ∧ ((∀ y, y < 4 → y ≠ x → (s.lane y).built = true ∨ (s.lane y).state = .offline) →
        m.rqu.part = .running ∧ m.rqu.startupDone.pending = true
          ∧ ∀ y, y < 4 →
            (m.rqu.scanEnd[y]? = some (decide ((s.lane y).state ≠ .offline)))
              ∧ ((s.lane y).state = .offline → m.lane y = s.lane y)
              ∧ ((s.lane y).state ≠ .offline →
                (m.lane y).state = .ready ∧ (m.lane y).workQueue = [] ∧ (m.lane y).readyList = [] ∧ (m.lane y).readRun = 0
                  ∧ (m.lane y).egress.state = .free))

/-- R184: a reserve block joins the free-reserve list when its survey shows no factory-bad mark and BLANK or WRITTEN, no map entry names
it, and it is not retired. The list is in ascending order. -/
def Obligations.FreeReserveList : Prop :=
  ∀ l : Lane,
    (∀ p, p ∈ l.surveyedReserves
      ↔ 1024 ≤ p ∧ p < 1056 ∧ (l.surveyOf p = .blank ∨ ∃ d strips mark, l.surveyOf p = .written d strips mark)
        ∧ (∀ e ∈ l.substMap, e.2 ≠ some p) ∧ p ∉ l.retiredReserves)
    ∧ l.surveyedReserves.Pairwise (fun p q => p < q)

/-- R185, R186: the record the scan builds for a host block, by the first row whose condition holds. -/
def Obligations.RebuiltRecords : Prop :=
  (∀ (l : Lane) (h : Nat),
    let retired := fun p => ({ BlockRec.unbuilt with physical := p, state := .retired } : BlockRec)
    (mapTarget l.substMap h = some none → l.rebuild h = retired h)
    ∧ (∀ p, mapTarget l.substMap h = some (some p) →
      (l.surveyOf p = .factoryBad ∨ p ∈ l.retiredReserves → l.rebuild h = retired p)
      ∧ (l.surveyOf p ≠ .factoryBad → p ∉ l.retiredReserves →
        ((∃ e ∈ l.substMap, e.1 ≠ h ∧ e.2 = some p) → l.rebuild h = retired h)
        ∧ ((∀ e ∈ l.substMap, e.1 ≠ h → e.2 ≠ some p) → l.rebuild h = BlockRec.ofSurvey p (l.surveyOf p))))
    ∧ (mapTarget l.substMap h = none →
      (l.surveyOf h = .factoryBad → l.rebuild h = retired h)
      ∧ (l.surveyOf h ≠ .factoryBad → l.rebuild h = BlockRec.ofSurvey h (l.surveyOf h))))
  ∧ ∀ (p F G : Nat) (d : Density) (strips : List StripState) (mark : Option (Nat × Nat)),
    let base := { BlockRec.unbuilt with physical := p }
    (BlockRec.ofSurvey p .blank = base)
    ∧ (BlockRec.ofSurvey p .unsettled
      = { base with state := .closed, closedBy := some .scan, density := some .dense, dataEnd := some 0 })
    ∧ (strips.length = 64 → F ≤ 64 → F ≤ G → G ≤ 64 →
      (∀ i, i < F → strips[i]? = some .final) → strips[F]? ≠ some .final →
      (∀ i, i < G → strips[i]? = some .final ∨ strips[i]? = some .roughed) →
      (strips[G]? ≠ some .final ∧ strips[G]? ≠ some .roughed) →
      let full : BlockRec := { base with
        state := .full
        density := some d
        dataEnd := some (64 * d.perStrip)
        finalDone := 64
        roughDone := if d = .dense then 64 else 0
        intakeNext := 64 * d.perStrip }
      let byScan : BlockRec := { base with
        state := .closed
        closedBy := some .scan
        density := some d
        dataEnd := some (F * d.perStrip)
        finalDone := F
        roughDone := if d = .dense then G else 0
        intakeNext := F * d.perStrip }
      (F = 64 → BlockRec.ofSurvey p (.written d strips mark) = full)
      ∧ (F < 64 →
        (∀ e, d = .dense → mark = some (F, e) → 1 ≤ F → 4 * (F - 1) < e → e ≤ 4 * F →
          BlockRec.ofSurvey p (.written d strips mark)
            = { base with
                state := .closed
                closedBy := some .host
                density := some .dense
                dataEnd := some e
                finalDone := F
                roughDone := F + 1
                intakeNext := 4 * F })
        ∧ ((d = .swift ∨ ∀ e, mark = some (F, e) → F = 0 ∨ e ≤ 4 * (F - 1) ∨ 4 * F < e) →
          BlockRec.ofSurvey p (.written d strips mark) = byScan)))

/-! ### Departures and input lines -/

/-- R150, R154, R162, R175, R176: what each frame changes as it leaves, and that it changes nothing else. A frame marked dropped (log 19)
and the clearing of BLOCK_FAILED (log 30) are the model's reading. -/
def Obligations.Departures : Prop :=
  ∀ (s : State) (fr : OutFrame), s.inReset = false → s.link.tx = some fr →
    let idle : State := { s with link := { s.link with tx := none } }
    (fr.what = .rsp true → exec .rspDeparture s = .next (s.conclude [] idle))
    ∧ (∀ q rest, fr.what = .rsp false → s.link.queue = q :: rest → q.reply.cls = .interim → q.source = none →
      ∃ m, exec .rspDeparture s = .next (s.conclude [] m)
        ∧ m.link = { s.link with tx := none, queue := rest ++ s.link.deferred.toList, deferred := none }
        ∧ m.tag q.reply.tag = (s.tag q.reply.tag).map (fun e => { e with interimSent := true })
        ∧ (∀ u, u ≠ q.reply.tag → m.tag u = s.tag u) ∧ s.rqu.sameButTags m.rqu ∧ m.lanes = s.lanes ∧ m.pool = s.pool
        ∧ s.sameInputs m)
    ∧ (∀ q rest, fr.what = .rsp false → s.link.queue = q :: rest → q.reply.cls = .refusal → q.source = none →
      exec .rspDeparture s
        = .next (s.conclude []
            { s with
              link := { s.link with tx := none, queue := rest }
              rqu := if q.reply.recallable then { s.rqu with ring := pushCopy s.rqu.ring q.reply } else s.rqu }))
    ∧ (∀ q rest, fr.what = .rsp false → s.link.queue = q :: rest → q.reply.cls = .final → q.reply.recallable = true →
      (q.reply.status = .done → q.source.isSome = true →
        ∃ m, exec .rspDeparture s = .next (s.conclude [] m) ∧ m.tag q.reply.tag = none
          ∧ (∀ u, u ≠ q.reply.tag → m.tag u = s.tag u)
          ∧ m.rqu = { s.rqu with tags := m.rqu.tags, ring := pushCopy s.rqu.ring q.reply }
          ∧ m.link = { s.link with tx := none, transmission := some 0 } ∧ m.lanes = s.lanes ∧ m.pool = s.pool ∧ s.sameInputs m)
      ∧ (q.source = none →
        ∃ m, exec .rspDeparture s = .next (s.conclude [] m) ∧ m.tag q.reply.tag = none
          ∧ (∀ u, u ≠ q.reply.tag → m.tag u = s.tag u)
          ∧ m.rqu = { s.rqu with tags := m.rqu.tags, ring := pushCopy s.rqu.ring q.reply }
          ∧ m.link = { s.link with tx := none, queue := rest } ∧ m.lanes = s.lanes ∧ m.pool = s.pool ∧ s.sameInputs m)
      ∧ (∀ x, q.reply.status = .uncorrectable → q.source = some (.egress x) → x < 4 →
        ∃ m, exec .rspDeparture s = .next (s.conclude [x] m) ∧ m.tag q.reply.tag = none
          ∧ (∀ u, u ≠ q.reply.tag → m.tag u = s.tag u)
          ∧ m.rqu = { s.rqu with tags := m.rqu.tags, ring := pushCopy s.rqu.ring q.reply }
          ∧ m.link = { s.link with tx := none, queue := rest }
          ∧ m.lane x = { s.lane x with egress := { (s.lane x).egress with state := .free } } ∧ s.sameLanesBut m x
          ∧ m.pool = s.pool ∧ s.sameInputs m))
    ∧ (∀ c dropped, fr.what = .data c dropped → (dropped = true ∨ (s.link.queue ≠ [] ∧ c < 7)) →
      exec .dataFrameDeparture s = .next (s.conclude [] idle))
    ∧ (∀ q rest i, fr.what = .data 7 false → s.link.queue = q :: rest → q.source = some (.slot i) →
      exec .dataFrameDeparture s
        = .next (s.conclude []
            (({ s with link := { s.link with tx := none, queue := rest, transmission := none } } : State).modSlot i Slot.unpin)))
    ∧ (∀ q rest x, fr.what = .data 7 false → s.link.queue = q :: rest → q.source = some (.egress x) →
      exec .dataFrameDeparture s
        = .next (s.conclude [x]
            (({ s with link := { s.link with tx := none, queue := rest, transmission := none } } : State).modLane x
              (fun l => { l with egress := { l.egress with state := .free } }))))
    ∧ (∀ x b, fr.what = .note (.blockFailed x b) →
      exec .noteDeparture s = .next (s.conclude [] (idle.modRecord x b (fun r => { r with failNotice := false }))))
    ∧ (fr.what = .note .poolLow →
      exec .noteDeparture s
        = .next (s.conclude [] { idle with rqu := { s.rqu with poolLow := { pending := s.rqu.poolLow.again, again := false } } }))
    ∧ (fr.what = .note .wpChanged →
      exec .noteDeparture s
        = .next (s.conclude [] { idle with rqu := { s.rqu with wpNotice := { pending := s.rqu.wpNotice.again, again := false } } }))
    ∧ (fr.what = .note .startupDone →
      exec .noteDeparture s
        = .next (s.conclude []
            { idle with rqu := { s.rqu with startupDone := { pending := s.rqu.startupDone.again, again := false } } }))
    ∧ (fr.what = .ack ∨ fr.what = .nak ∨ fr.what = .sync → exec .linkControlDeparture s = .next (s.conclude [] idle))

/-- R16, R161, R180: a change of WP# is seen and raises WP_CHANGED. RST# cuts the operations in flight short and loses every controller
block's state, the arrays and the level of WP# apart; its release begins start-up with a DIRECTORY read on every lane. A pass that is cut
short leaves its strip TORN, in a block whose start made it WRITTEN if it was BLANK; an ERASE leaves its block UNSETTLED with its
factory-bad mark unchanged, a directory write the copy it was writing unreadable, and any other operation leaves the array as it was. The
state while RST# is held (log 10), that line events then change nothing (log 33) and other commands are refused, the refusal of a release
out of reset (log 2) and a pass that R11 refused (log 17) are the model's choice. -/
def Obligations.InputLines : Prop :=
  (∀ s : State, s.inReset = false →
    ∃ m, exec .wpChanged s = .next (s.conclude [] m) ∧ m.wpAsserted = !s.wpAsserted ∧ m.rqu.wpNotice.pending = true
      ∧ m.rqu = { s.rqu with wpNotice := m.rqu.wpNotice } ∧ m.link = s.link ∧ m.pool = s.pool ∧ m.lanes = s.lanes
      ∧ m.inReset = false ∧ m.pending = s.pending)
  ∧ (∀ (s : State) (c : Instr), s.inReset = true →
      match c with
      | .wpChanged => exec .wpChanged s = .next { s with wpAsserted := !s.wpAsserted }
      | .rstAsserted => True
      | .rstReleased => True
      | .badFrame ending bytes => exec (.badFrame ending bytes) s = .next s
      | .sequencedFrame bytes => exec (.sequencedFrame bytes) s = .next s
      | .sync bytes => exec (.sync bytes) s = .next s
      | c => exec c s = .refused .heldInReset)
  ∧ (∀ s : State, ∃ t, exec .rstAsserted s = .next t ∧ t.inReset = true ∧ t.wpAsserted = s.wpAsserted ∧ t.pending = s.pending
      ∧ t.link = Link.powerOn ∧ t.rqu = Rqu.powerOn ∧ t.pool = Pool.powerOn
      ∧ ∀ x, x < 4 → t.lane x
        = Lane.powerOn (match (s.lane x).engine with | some op => op.cut (s.lane x).array | none => (s.lane x).array) none)
  ∧ (∀ s : State, s.inReset = true →
      ∃ t, exec .rstReleased s = .next t ∧ t.inReset = false ∧ t.wpAsserted = s.wpAsserted ∧ t.pending = s.pending
        ∧ t.link = Link.powerOn ∧ t.rqu = Rqu.powerOn ∧ t.pool = Pool.powerOn
        ∧ ∀ x, x < 4 → t.lane x = Lane.powerOn (s.lane x).array (some .directoryRead))
  ∧ (∀ s : State, s.inReset = false → exec .rstReleased s = .refused .notInReset)
  ∧ ∀ (a : FlashArray) (op : Operation) (p n : Nat), p < 1056 →
    let cut := op.cut a
    let others := cut.copyA = a.copyA ∧ cut.copyB = a.copyB ∧ ∀ q, q ≠ p → cut.block q = a.block q
    let pass := fun refused =>
      (∃ pages, op = .rough p n pages refused) ∨ (∃ dataEnd, op = .terminatorRough p n dataEnd refused)
        ∨ (∃ pages, op = .final p n pages refused) ∨ ∃ page, op = .single p n page refused
    (pass true → cut = a ∧ op.begin a = a)
    ∧ (pass false → others
      ∧ (∀ w, (a.block p).cells = .written w →
        cut.block p
          = { a.block p with cells := .written { w with strips := w.strips.setIfInBounds n { state := .torn, pages := [] } } })
      ∧ ((a.block p).cells = .blank → ∀ kind, op.passKind = some kind → kind ≠ .final →
        ((op.begin a).block p).cells
          = .written { marker := if kind = .single then .swift else .dense
                       strips := Vector.replicate 64 { state := .blank, pages := [] }, terminator := none }))
    ∧ (op = .erase p → others ∧ cut.block p = { a.block p with cells := .unsettled })
    ∧ (∀ contents g, op = .directoryWrite contents g true → cut = { a with copyA := none })
    ∧ (∀ contents g, op = .directoryWrite contents g false → cut = { a with copyB := none })
    ∧ ((∃ page step, op = .sense p page step) ∨ op = .survey p ∨ op = .directoryRead → cut = a)
end

