-- ==== Sys2Proof/Laws/State.lean ====
section
/-! SUPPORT. What the accessors of State give after each of its updates: one lemma per field per update, true by rfl, and the
read-after-write lemmas of lanes, records, slots and tags. -/

namespace Sys2Proof.Machine

/-! ### Vectors -/

@[simp] theorem changeAll_eq {α β : Type} {n : Nat} (f : α → β) (v : Vector α n) : changeAll f v = v.map f := by
  ext i hi; simp [changeAll]

@[simp] theorem tabulate_eq {α : Type} (n : Nat) (f : Nat → α) : tabulate n f = Vector.ofFn (fun i : Fin n => f i) := by
  ext i hi; simp [tabulate]

/-! ### Lanes -/

@[simp] theorem State.setLane_link (s : State) (x : Nat) (l : Lane) : (s.setLane x l).link = s.link := rfl
@[simp] theorem State.setLane_rqu (s : State) (x : Nat) (l : Lane) : (s.setLane x l).rqu = s.rqu := rfl
@[simp] theorem State.setLane_pool (s : State) (x : Nat) (l : Lane) : (s.setLane x l).pool = s.pool := rfl
@[simp] theorem State.setLane_wp (s : State) (x : Nat) (l : Lane) : (s.setLane x l).wpAsserted = s.wpAsserted := rfl
@[simp] theorem State.setLane_inReset (s : State) (x : Nat) (l : Lane) : (s.setLane x l).inReset = s.inReset := rfl
@[simp] theorem State.setLane_pending (s : State) (x : Nat) (l : Lane) : (s.setLane x l).pending = s.pending := rfl
@[simp] theorem State.setLane_slot (s : State) (x : Nat) (l : Lane) (i : Nat) : (s.setLane x l).slot i = s.slot i := rfl
@[simp] theorem State.setLane_tag (s : State) (x : Nat) (l : Lane) (t : Nat) : (s.setLane x l).tag t = s.tag t := rfl
@[simp] theorem State.setLane_freeCount (s : State) (x : Nat) (l : Lane) : (s.setLane x l).freeCount = s.freeCount := rfl

@[simp] theorem State.modLane_link (s : State) (x : Nat) (f : Lane → Lane) : (s.modLane x f).link = s.link := rfl
@[simp] theorem State.modLane_rqu (s : State) (x : Nat) (f : Lane → Lane) : (s.modLane x f).rqu = s.rqu := rfl
@[simp] theorem State.modLane_pool (s : State) (x : Nat) (f : Lane → Lane) : (s.modLane x f).pool = s.pool := rfl
@[simp] theorem State.modLane_wp (s : State) (x : Nat) (f : Lane → Lane) : (s.modLane x f).wpAsserted = s.wpAsserted := rfl
@[simp] theorem State.modLane_inReset (s : State) (x : Nat) (f : Lane → Lane) : (s.modLane x f).inReset = s.inReset := rfl
@[simp] theorem State.modLane_pending (s : State) (x : Nat) (f : Lane → Lane) : (s.modLane x f).pending = s.pending := rfl
@[simp] theorem State.modLane_slot (s : State) (x : Nat) (f : Lane → Lane) (i : Nat) : (s.modLane x f).slot i = s.slot i := rfl
@[simp] theorem State.modLane_tag (s : State) (x : Nat) (f : Lane → Lane) (t : Nat) : (s.modLane x f).tag t = s.tag t := rfl
@[simp] theorem State.modLane_freeCount (s : State) (x : Nat) (f : Lane → Lane) : (s.modLane x f).freeCount = s.freeCount := rfl

@[simp] theorem State.lane_setLane_ne (s : State) {x y : Nat} (l : Lane) (h : y ≠ x) : (s.setLane x l).lane y = s.lane y := by
  simp [State.lane, State.setLane, Ne.symm h]

@[simp] theorem State.lane_setLane_same (s : State) {x : Nat} (l : Lane) (h : x < 4) : (s.setLane x l).lane x = l := by
  simp [State.lane, State.setLane, h]

/-- A lane number out of range names the lane that no update reaches. -/
theorem State.lane_out (s : State) {x : Nat} (h : ¬x < 4) : s.lane x = Lane.powerOn FlashArray.delivered none := by
  simp [State.lane, h]

theorem State.lane_setLane_out (s : State) {x y : Nat} (l : Lane) (h : ¬x < 4) : (s.setLane x l).lane y = s.lane y := by
  by_cases hy : y = x
  · subst hy; simp [State.lane_out _ h]
  · exact State.lane_setLane_ne s l hy

@[simp] theorem State.lane_modLane_ne (s : State) {x y : Nat} (f : Lane → Lane) (h : y ≠ x) :
    (s.modLane x f).lane y = s.lane y := State.lane_setLane_ne s _ h

@[simp] theorem State.lane_modLane_same (s : State) {x : Nat} (f : Lane → Lane) (h : x < 4) :
    (s.modLane x f).lane x = f (s.lane x) := State.lane_setLane_same s _ h

theorem State.lane_modLane_out (s : State) {x y : Nat} (f : Lane → Lane) (h : ¬x < 4) : (s.modLane x f).lane y = s.lane y :=
  State.lane_setLane_out s _ h

theorem State.setLane_setLane (s : State) (x : Nat) (l m : Lane) : (s.setLane x l).setLane x m = s.setLane x m := by
  simp only [State.setLane]
  congr 1
  ext i hi
  simp [Vector.getElem_setIfInBounds]

theorem State.modLane_modLane (s : State) {x : Nat} (f g : Lane → Lane) (h : x < 4) :
    (s.modLane x f).modLane x g = s.modLane x (fun l => g (f l)) := by
  unfold State.modLane
  rw [State.lane_setLane_same s _ h, State.setLane_setLane]

/-! ### Records -/

@[simp] theorem Lane.record_modRecord_ne (l : Lane) {b c : Nat} (f : BlockRec → BlockRec) (h : c ≠ b) :
    (l.modRecord b f).record c = l.record c := by
  simp [Lane.record, Lane.modRecord, Ne.symm h]

@[simp] theorem Lane.record_modRecord_same (l : Lane) {b : Nat} (f : BlockRec → BlockRec) (h : b < 1024) :
    (l.modRecord b f).record b = f (l.record b) := by
  simp [Lane.record, Lane.modRecord, h]

/-- A block number out of range names the record that no update reaches. -/
theorem Lane.record_out (l : Lane) {b : Nat} (h : ¬b < 1024) : l.record b = BlockRec.unbuilt := by
  simp [Lane.record, h]

theorem Lane.record_modRecord_out (l : Lane) {b c : Nat} (f : BlockRec → BlockRec) (h : ¬b < 1024) :
    (l.modRecord b f).record c = l.record c := by
  by_cases hc : c = b
  · subst hc; simp [Lane.record_out _ h]
  · exact Lane.record_modRecord_ne l f hc

@[simp] theorem Lane.modRecord_state (l : Lane) (b : Nat) (f : BlockRec → BlockRec) : (l.modRecord b f).state = l.state := rfl
@[simp] theorem Lane.modRecord_built (l : Lane) (b : Nat) (f : BlockRec → BlockRec) : (l.modRecord b f).built = l.built := rfl
@[simp] theorem Lane.modRecord_readyList (l : Lane) (b : Nat) (f : BlockRec → BlockRec) :
    (l.modRecord b f).readyList = l.readyList := rfl
@[simp] theorem Lane.modRecord_workQueue (l : Lane) (b : Nat) (f : BlockRec → BlockRec) :
    (l.modRecord b f).workQueue = l.workQueue := rfl
@[simp] theorem Lane.modRecord_readRun (l : Lane) (b : Nat) (f : BlockRec → BlockRec) :
    (l.modRecord b f).readRun = l.readRun := rfl
@[simp] theorem Lane.modRecord_substMap (l : Lane) (b : Nat) (f : BlockRec → BlockRec) :
    (l.modRecord b f).substMap = l.substMap := rfl
@[simp] theorem Lane.modRecord_freeReserves (l : Lane) (b : Nat) (f : BlockRec → BlockRec) :
    (l.modRecord b f).freeReserves = l.freeReserves := rfl
@[simp] theorem Lane.modRecord_retiredReserves (l : Lane) (b : Nat) (f : BlockRec → BlockRec) :
    (l.modRecord b f).retiredReserves = l.retiredReserves := rfl
@[simp] theorem Lane.modRecord_egress (l : Lane) (b : Nat) (f : BlockRec → BlockRec) : (l.modRecord b f).egress = l.egress := rfl
@[simp] theorem Lane.modRecord_engine (l : Lane) (b : Nat) (f : BlockRec → BlockRec) : (l.modRecord b f).engine = l.engine := rfl
@[simp] theorem Lane.modRecord_sense (l : Lane) (b : Nat) (f : BlockRec → BlockRec) : (l.modRecord b f).sense = l.sense := rfl
@[simp] theorem Lane.modRecord_job (l : Lane) (b : Nat) (f : BlockRec → BlockRec) : (l.modRecord b f).job = l.job := rfl
@[simp] theorem Lane.modRecord_array (l : Lane) (b : Nat) (f : BlockRec → BlockRec) : (l.modRecord b f).array = l.array := rfl

@[simp] theorem State.modRecord_link (s : State) (x b : Nat) (f : BlockRec → BlockRec) : (s.modRecord x b f).link = s.link := rfl
@[simp] theorem State.modRecord_rqu (s : State) (x b : Nat) (f : BlockRec → BlockRec) : (s.modRecord x b f).rqu = s.rqu := rfl
@[simp] theorem State.modRecord_pool (s : State) (x b : Nat) (f : BlockRec → BlockRec) : (s.modRecord x b f).pool = s.pool := rfl
@[simp] theorem State.modRecord_wp (s : State) (x b : Nat) (f : BlockRec → BlockRec) :
    (s.modRecord x b f).wpAsserted = s.wpAsserted := rfl
@[simp] theorem State.modRecord_inReset (s : State) (x b : Nat) (f : BlockRec → BlockRec) :
    (s.modRecord x b f).inReset = s.inReset := rfl
@[simp] theorem State.modRecord_pending (s : State) (x b : Nat) (f : BlockRec → BlockRec) :
    (s.modRecord x b f).pending = s.pending := rfl
@[simp] theorem State.modRecord_slot (s : State) (x b i : Nat) (f : BlockRec → BlockRec) :
    (s.modRecord x b f).slot i = s.slot i := rfl
@[simp] theorem State.modRecord_tag (s : State) (x b t : Nat) (f : BlockRec → BlockRec) :
    (s.modRecord x b f).tag t = s.tag t := rfl

@[simp] theorem State.lane_modRecord_ne (s : State) {x y : Nat} (b : Nat) (f : BlockRec → BlockRec) (h : y ≠ x) :
    (s.modRecord x b f).lane y = s.lane y := State.lane_modLane_ne s _ h

@[simp] theorem State.lane_modRecord_same (s : State) {x : Nat} (b : Nat) (f : BlockRec → BlockRec) (h : x < 4) :
    (s.modRecord x b f).lane x = (s.lane x).modRecord b f := State.lane_modLane_same s _ h

@[simp] theorem State.record_modRecord_same (s : State) {x b : Nat} (f : BlockRec → BlockRec) (hx : x < 4) (hb : b < 1024) :
    (s.modRecord x b f).record x b = f (s.record x b) := by
  simp [State.record, hx, hb]

@[simp] theorem State.record_setLane (s : State) {x : Nat} (b : Nat) (l : Lane) (hx : x < 4) :
    (s.setLane x l).record x b = l.record b := by
  simp [State.record, hx]

@[simp] theorem State.record_modLane (s : State) {x : Nat} (b : Nat) (f : Lane → Lane) (hx : x < 4) :
    (s.modLane x f).record x b = (f (s.lane x)).record b := by
  simp [State.record, hx]

/-- A change of a record that leaves it as it is leaves the state as it is. -/
theorem State.modRecord_id (s : State) (x b : Nat) : s.modRecord x b (fun r => r) = s := by
  have hr : (s.lane x).modRecord b (fun r => r) = s.lane x := by
    have : (s.lane x).records.setIfInBounds b ((s.lane x).record b) = (s.lane x).records := by
      ext i hi
      simp only [Vector.getElem_setIfInBounds, Lane.record]
      split
      · rename_i h; subst h; rw [Vector.getElem?_eq_getElem hi]; rfl
      · rfl
    simp only [Lane.modRecord, this]
  have : s.lanes.setIfInBounds x (s.lane x) = s.lanes := by
    ext i hi
    simp only [Vector.getElem_setIfInBounds, State.lane]
    split
    · rename_i h; subst h; rw [Vector.getElem?_eq_getElem hi]; rfl
    · rfl
  unfold State.modRecord State.modLane State.setLane
  beta_reduce
  rw [hr, this]

/-! ### Slots -/

@[simp] theorem State.modSlot_link (s : State) (i : Nat) (f : Slot → Slot) : (s.modSlot i f).link = s.link := rfl
@[simp] theorem State.modSlot_rqu (s : State) (i : Nat) (f : Slot → Slot) : (s.modSlot i f).rqu = s.rqu := rfl
@[simp] theorem State.modSlot_lanes (s : State) (i : Nat) (f : Slot → Slot) : (s.modSlot i f).lanes = s.lanes := rfl
@[simp] theorem State.modSlot_lane (s : State) (i x : Nat) (f : Slot → Slot) : (s.modSlot i f).lane x = s.lane x := rfl
@[simp] theorem State.modSlot_record (s : State) (i x b : Nat) (f : Slot → Slot) : (s.modSlot i f).record x b = s.record x b := rfl
@[simp] theorem State.modSlot_armed (s : State) (i : Nat) (f : Slot → Slot) : (s.modSlot i f).pool.armed = s.pool.armed := rfl
@[simp] theorem State.modSlot_wp (s : State) (i : Nat) (f : Slot → Slot) : (s.modSlot i f).wpAsserted = s.wpAsserted := rfl
@[simp] theorem State.modSlot_inReset (s : State) (i : Nat) (f : Slot → Slot) : (s.modSlot i f).inReset = s.inReset := rfl
@[simp] theorem State.modSlot_pending (s : State) (i : Nat) (f : Slot → Slot) : (s.modSlot i f).pending = s.pending := rfl
@[simp] theorem State.modSlot_tag (s : State) (i t : Nat) (f : Slot → Slot) : (s.modSlot i f).tag t = s.tag t := rfl

@[simp] theorem State.slot_modSlot_ne (s : State) {i j : Nat} (f : Slot → Slot) (h : j ≠ i) : (s.modSlot i f).slot j = s.slot j := by
  simp [State.slot, State.modSlot, Ne.symm h]

@[simp] theorem State.slot_modSlot_same (s : State) {i : Nat} (f : Slot → Slot) (h : i < 96) : (s.modSlot i f).slot i = f (s.slot i) := by
  simp [State.slot, State.modSlot, h]

/-- A slot number out of range names a FREE slot that no update reaches. -/
theorem State.slot_out (s : State) {i : Nat} (h : ¬i < 96) : s.slot i = Slot.powerOn := by
  simp [State.slot, h]

theorem State.slot_modSlot_out (s : State) {i j : Nat} (f : Slot → Slot) (h : ¬i < 96) : (s.modSlot i f).slot j = s.slot j := by
  by_cases hj : j = i
  · subst hj; simp [State.slot_out _ h]
  · exact State.slot_modSlot_ne s f hj

/-- A slot that is not FREE is one of the 96. -/
theorem State.slot_lt (s : State) {i : Nat} (h : (s.slot i).state ≠ .free) : i < 96 := by
  by_contra hi
  exact h (by simp [State.slot_out s hi, Slot.powerOn])

/-- A slot with an owner is one of the 96. -/
theorem State.owned_lt (s : State) {i x b : Nat} (h : (s.slot i).ownedBy x b = true) : i < 96 := by
  by_contra hi
  simp [State.slot_out s hi, Slot.powerOn, Slot.ownedBy] at h

/-! ### Tags -/

@[simp] theorem State.setTag_link (s : State) (t : Nat) (e : Option TagEntry) : (s.setTag t e).link = s.link := rfl
@[simp] theorem State.setTag_pool (s : State) (t : Nat) (e : Option TagEntry) : (s.setTag t e).pool = s.pool := rfl
@[simp] theorem State.setTag_lanes (s : State) (t : Nat) (e : Option TagEntry) : (s.setTag t e).lanes = s.lanes := rfl
@[simp] theorem State.setTag_lane (s : State) (t x : Nat) (e : Option TagEntry) : (s.setTag t e).lane x = s.lane x := rfl
@[simp] theorem State.setTag_record (s : State) (t x b : Nat) (e : Option TagEntry) :
    (s.setTag t e).record x b = s.record x b := rfl
@[simp] theorem State.setTag_slot (s : State) (t i : Nat) (e : Option TagEntry) : (s.setTag t e).slot i = s.slot i := rfl
@[simp] theorem State.setTag_wp (s : State) (t : Nat) (e : Option TagEntry) : (s.setTag t e).wpAsserted = s.wpAsserted := rfl
@[simp] theorem State.setTag_inReset (s : State) (t : Nat) (e : Option TagEntry) : (s.setTag t e).inReset = s.inReset := rfl
@[simp] theorem State.setTag_pending (s : State) (t : Nat) (e : Option TagEntry) : (s.setTag t e).pending = s.pending := rfl
@[simp] theorem State.setTag_ring (s : State) (t : Nat) (e : Option TagEntry) : (s.setTag t e).rqu.ring = s.rqu.ring := rfl
@[simp] theorem State.setTag_settings (s : State) (t : Nat) (e : Option TagEntry) :
    (s.setTag t e).rqu.settings = s.rqu.settings := rfl
@[simp] theorem State.setTag_part (s : State) (t : Nat) (e : Option TagEntry) : (s.setTag t e).rqu.part = s.rqu.part := rfl
@[simp] theorem State.setTag_partReset (s : State) (t : Nat) (e : Option TagEntry) :
    (s.setTag t e).rqu.partReset = s.rqu.partReset := rfl

@[simp] theorem State.tag_setTag_ne (s : State) {t u : Nat} (e : Option TagEntry) (h : u ≠ t) : (s.setTag t e).tag u = s.tag u := by
  simp [State.tag, State.setTag, Ne.symm h]

@[simp] theorem State.tag_setTag_same (s : State) {t : Nat} (e : Option TagEntry) (h : t < 64) : (s.setTag t e).tag t = e := by
  simp [State.tag, State.setTag, h]

/-- A live tag is one of the 64. -/
theorem State.tag_lt (s : State) {t : Nat} {e : TagEntry} (h : s.tag t = some e) : t < 64 := by
  by_contra ht
  simp [State.tag, ht] at h

theorem State.modTag_of_none (s : State) {t : Nat} (f : TagEntry → TagEntry) (h : s.tag t = none) : s.modTag t f = s := by
  simp [State.modTag, h]

theorem State.modTag_of_some (s : State) {t : Nat} {e : TagEntry} (f : TagEntry → TagEntry) (h : s.tag t = some e) :
    s.modTag t f = s.setTag t (some (f e)) := by
  simp [State.modTag, h]

/-- Reading a tag after a change of a live tag's entry. -/
theorem State.tag_modTag (s : State) (t u : Nat) (f : TagEntry → TagEntry) :
    (s.modTag t f).tag u = if u = t then (s.tag u).map f else s.tag u := by
  rcases h : s.tag t with _ | e
  · rw [State.modTag_of_none s f h]
    split
    · subst u; simp [h]
    · rfl
  · rw [State.modTag_of_some s f h]
    have ht := s.tag_lt h
    split
    · subst u; simp [ht, h]
    · rename_i hu; simp [hu]

/-- A change of a tag's entry reaches nothing but the tag table. -/
theorem State.modTag_frame (s : State) (t : Nat) (f : TagEntry → TagEntry) :
    (s.modTag t f).link = s.link ∧ (s.modTag t f).pool = s.pool ∧ (s.modTag t f).lanes = s.lanes
      ∧ s.rqu.sameButTags (s.modTag t f).rqu ∧ s.sameInputs (s.modTag t f) := by
  unfold State.modTag
  split <;> simp [State.setTag, Rqu.sameButTags, State.sameInputs]

@[simp] theorem State.modTag_link (s : State) (t : Nat) (f : TagEntry → TagEntry) : (s.modTag t f).link = s.link :=
  (s.modTag_frame t f).1
@[simp] theorem State.modTag_pool (s : State) (t : Nat) (f : TagEntry → TagEntry) : (s.modTag t f).pool = s.pool :=
  (s.modTag_frame t f).2.1
@[simp] theorem State.modTag_lanes (s : State) (t : Nat) (f : TagEntry → TagEntry) : (s.modTag t f).lanes = s.lanes :=
  (s.modTag_frame t f).2.2.1
@[simp] theorem State.modTag_slot (s : State) (t i : Nat) (f : TagEntry → TagEntry) : (s.modTag t f).slot i = s.slot i := by
  simp [State.slot]
@[simp] theorem State.modTag_lane (s : State) (t x : Nat) (f : TagEntry → TagEntry) : (s.modTag t f).lane x = s.lane x := by
  simp [State.lane]

end Sys2Proof.Machine
end

