-- ==== Sys2Proof/Laws/Replies.lean ====
section
/-! SUPPORT. What ending a tag does: the place of its final reply, its entry in the tag table, the
frame of both, and that each place holds one reply at most. -/

namespace Sys2Proof.Machine

/-! ### The frame of ending tags -/

/-- Nothing has changed but the tag table, the reply queue and a reply held back. -/
structure State.OnlyReplies (s m : State) : Prop where
  pool : m.pool = s.pool
  lanes : m.lanes = s.lanes
  inputs : s.sameInputs m
  rqu : s.rqu.sameButTags m.rqu
  link : s.link.sameButReplies m.link

theorem State.OnlyReplies.refl (s : State) : s.OnlyReplies s :=
  ⟨rfl, rfl, ⟨rfl, rfl, rfl⟩, rfl, rfl⟩

theorem State.OnlyReplies.trans {s m n : State} (h : s.OnlyReplies m) (k : m.OnlyReplies n) : s.OnlyReplies n := by
  refine ⟨k.pool.trans h.pool, k.lanes.trans h.lanes, ?_, ?_, ?_⟩
  · exact ⟨k.inputs.1.trans h.inputs.1, k.inputs.2.1.trans h.inputs.2.1, k.inputs.2.2.trans h.inputs.2.2⟩
  · rw [Rqu.sameButTags, k.rqu, h.rqu]
  · rw [Link.sameButReplies, k.link, h.link]

theorem State.OnlyReplies.slot {s m : State} (h : s.OnlyReplies m) (i : Nat) : m.slot i = s.slot i := by
  simp [State.slot, h.pool]

theorem State.OnlyReplies.lane {s m : State} (h : s.OnlyReplies m) (x : Nat) : m.lane x = s.lane x := by
  simp [State.lane, h.lanes]

theorem State.OnlyReplies.record {s m : State} (h : s.OnlyReplies m) (x b : Nat) : m.record x b = s.record x b := by
  simp [State.record, h.lane]

/-- A fold of operations that change nothing but replies. -/
theorem State.OnlyReplies.foldl {α : Type} {f : State → α → State} (hf : ∀ (s : State) (a : α), s.OnlyReplies (f s a)) (s : State)
    (as : List α) :
    s.OnlyReplies (as.foldl f s) := by
  induction as generalizing s with
  | nil => exact .refl s
  | cons a as ih => exact (hf s a).trans (ih _)

/-! ### The place of a final reply -/

theorem Link.placeFinal_frame (l : Link) (e : QueueEntry) : l.sameButReplies (l.placeFinal e) := by
  unfold Link.placeFinal Link.sameButReplies
  split_ifs <;> rfl

/-- A reply is in the queue, or held back behind its own tag's interim frame. -/
def Link.keeps (l : Link) (q : QueueEntry) : Prop :=
  q ∈ l.queue ∨ (l.deferred = some q ∧ l.sendingInterim q.reply.tag = true)

theorem Link.keeps.holds {l : Link} {q : QueueEntry} (h : l.keeps q) : l.holds q := h.imp id And.left

/-- While a tag's interim frame is being sent its entry stays at the head, so a later final reply does not disturb it. -/
theorem Link.sendingInterim_placeFinal (l : Link) (e : QueueEntry) (t : Nat) (h : l.sendingInterim t = true) :
    (l.placeFinal e).sendingInterim t = true := by
  have htx : ∀ m : Link, m.tx = l.tx → m.sendingReply = l.sendingReply := fun m hm => by simp [Link.sendingReply, hm]
  rcases hq : l.queue with _ | ⟨q, rest⟩
  · simp [Link.sendingInterim, hq] at h
  · have hr : l.sendingReply = true ∧ q.interimOf t = true := by simpa [Link.sendingInterim, hq] using h
    unfold Link.placeFinal
    split
    · exact h
    · rename_i hn
      have hi : q.interimOf e.reply.tag = false := by
        by_contra hc
        exact hn (by simpa [Link.sendingInterim, hq, hr.1] using hc)
      split <;> simp [Link.sendingInterim, htx, hq, hi, hr]

/-- A final reply is kept where placeFinal puts it. -/
theorem Link.keeps_placeFinal (l : Link) (e : QueueEntry) : (l.placeFinal e).keeps e := by
  unfold Link.keeps
  by_cases h : l.sendingInterim e.reply.tag = true
  · exact .inr ⟨by simp [Link.placeFinal, h], l.sendingInterim_placeFinal e _ h⟩
  · left
    unfold Link.placeFinal
    rw [if_neg h]
    split
    · rename_i hq
      obtain ⟨q, hq, hi⟩ := List.any_eq_true.mp hq
      simp only [List.mem_map]
      exact ⟨q, hq, by simp [hi]⟩
    · simp

/-- A kept final reply stays while another tag's final reply is placed. -/
theorem Link.keeps.placeFinal {l : Link} {q : QueueEntry} (h : l.keeps q) (hq : q.reply.cls = .final) (e : QueueEntry)
    (ht : e.reply.tag ≠ q.reply.tag) : (l.placeFinal e).keeps q := by
  have hi : q.interimOf e.reply.tag = false := by simp [QueueEntry.interimOf, hq]
  rcases h with h | ⟨hd, hs⟩
  · left
    unfold Link.placeFinal
    split_ifs
    · exact h
    · exact List.mem_map.mpr ⟨q, h, by simp [hi]⟩
    · simp [h]
  · have hn : l.sendingInterim e.reply.tag = false := by
      by_contra hc
      simp only [Bool.not_eq_false] at hc
      unfold Link.sendingInterim at hc hs
      rcases hl : l.queue with _ | ⟨r, rest⟩
      · simp [hl] at hs
      · simp only [hl, Bool.and_eq_true, QueueEntry.interimOf, decide_eq_true_eq] at hc hs
        exact ht (hc.2.2.symm.trans hs.2.2)
    refine .inr ⟨?_, l.sendingInterim_placeFinal e _ hs⟩
    unfold Link.placeFinal
    rw [if_neg (by simp [hn])]
    split_ifs <;> exact hd

/-- With the reserved place of its tag empty, a final reply joins the tail. -/
theorem Link.placeFinal_tail (l : Link) (e : QueueEntry) (h : l.queue.any (QueueEntry.reservedFor e.reply.tag) = false) :
    l.placeFinal e = { l with queue := l.queue ++ [e] } := by
  have hi : ∀ q ∈ l.queue, q.interimOf e.reply.tag = false := by
    intro q hq
    have := (List.any_eq_false.mp h) q hq
    simp only [QueueEntry.reservedFor, QueueEntry.isRefusal, QueueEntry.interimOf] at this ⊢
    by_contra hc
    simp at hc this
    simp [hc.1, hc.2] at this
  have hs : l.sendingInterim e.reply.tag = false := by
    unfold Link.sendingInterim
    rcases hl : l.queue with _ | ⟨q, rest⟩
    · simp
    · simp [hi q (by simp [hl])]
  have ha : l.queue.any (QueueEntry.interimOf e.reply.tag) = false := by
    rw [List.any_eq_false]
    intro q hq
    simp [hi q hq]
  simp [Link.placeFinal, hs, ha]

/-! ### Ending a tag -/

theorem State.finish_of_none (s : State) {t : Nat} (st : Status) (fields : ReplyFields) (src : Option Source) (h : s.tag t = none) :
    s.finish t st fields src = s := by
  simp [State.finish, h]

/-- A tag that has its final reply gets no second. -/
theorem State.finish_of_replying (s : State) {t : Nat} {e : TagEntry} (st : Status) (fields : ReplyFields) (src : Option Source)
    (h : s.tag t = some e) (he : e.state = .replying) : s.finish t st fields src = s := by
  simp [State.finish, h, he]

/-- Ending a live tag: it is REPLYING and its final reply is placed. -/
theorem State.finish_of_some (s : State) {t : Nat} {e : TagEntry} (st : Status) (fields : ReplyFields) (src : Option Source)
    (h : s.tag t = some e) (he : e.state ≠ .replying) :
    s.finish t st fields src
      = { s.setTag t (some { e with state := .replying }) with
          link := s.link.placeFinal (QueueEntry.finalOf t e.kind st fields src) } := by
  simp [State.finish, State.answer, h, he, QueueEntry.finalOf, Reply.finalOf]

/-- Ending a tag does nothing, or makes a live tag that has no final reply REPLYING and places its reply. -/
theorem State.finish_cases (s : State) (t : Nat) (st : Status) (fields : ReplyFields) (src : Option Source) :
    (s.finish t st fields src = s ∧ ∀ e, s.tag t = some e → e.state = .replying)
      ∨ ∃ e, s.tag t = some e ∧ e.state ≠ .replying
        ∧ s.finish t st fields src
          = { s.setTag t (some { e with state := .replying }) with
              link := s.link.placeFinal (QueueEntry.finalOf t e.kind st fields src) } := by
  rcases h : s.tag t with _ | e
  · exact .inl ⟨s.finish_of_none st fields src h, by simp⟩
  · by_cases he : e.state = .replying
    · exact .inl ⟨s.finish_of_replying st fields src h he, by simpa using he⟩
    · exact .inr ⟨e, rfl, he, s.finish_of_some st fields src h he⟩

theorem State.finish_frame (s : State) (t : Nat) (st : Status) (fields : ReplyFields) (src : Option Source) :
    s.OnlyReplies (s.finish t st fields src) := by
  rcases s.finish_cases t st fields src with ⟨h, -⟩ | ⟨e, -, -, h⟩
  · rw [h]; exact .refl s
  · rw [h]
    exact ⟨rfl, rfl, ⟨rfl, rfl, rfl⟩, rfl, Link.placeFinal_frame _ _⟩

/-- The tag table after a tag has ended. -/
theorem State.finish_tag (s : State) (t u : Nat) (st : Status) (fields : ReplyFields) (src : Option Source) :
    (s.finish t st fields src).tag u = if u = t then (s.tag u).map (fun e => { e with state := .replying }) else s.tag u := by
  rcases s.finish_cases t st fields src with ⟨h, hr⟩ | ⟨e, h, -, heq⟩
  · rw [h]
    split
    · subst u
      rcases hu : s.tag t with _ | e
      · rfl
      · simp [← hr e hu]
    · rfl
  · rw [heq]
    have ht := s.tag_lt h
    change (s.setTag t _).tag u = _
    split
    · subst u; simp [ht, h]
    · rename_i hu; simp [hu]

/-- The reply of a tag that ends takes its place. -/
theorem State.finish_link (s : State) {t : Nat} {e : TagEntry} (st : Status) (fields : ReplyFields) (src : Option Source)
    (h : s.tag t = some e) (he : e.state ≠ .replying) :
    (s.finish t st fields src).link = s.link.placeFinal (QueueEntry.finalOf t e.kind st fields src) := by
  rw [s.finish_of_some st fields src h he]

/-- The reply of a tag that has ended is kept. -/
theorem State.finish_keeps (s : State) {t : Nat} {e : TagEntry} (st : Status) (fields : ReplyFields) (src : Option Source)
    (h : s.tag t = some e) (he : e.state ≠ .replying) :
    (s.finish t st fields src).link.keeps (QueueEntry.finalOf t e.kind st fields src) := by
  rw [s.finish_of_some st fields src h he]
  exact Link.keeps_placeFinal _ _

theorem QueueEntry.finalOf_tag (t : Nat) (k : ReqKind) (st : Status) (fields : ReplyFields) (src : Option Source) :
    (QueueEntry.finalOf t k st fields src).reply.tag = t := rfl

theorem QueueEntry.finalOf_cls (t : Nat) (k : ReqKind) (st : Status) (fields : ReplyFields) (src : Option Source) :
    (QueueEntry.finalOf t k st fields src).reply.cls = .final := rfl

/-- A kept reply stays while another tag ends. -/
theorem State.keeps_finish {s : State} {q : QueueEntry} (h : s.link.keeps q) (hq : q.reply.cls = .final) (t : Nat) (st : Status)
    (fields : ReplyFields) (src : Option Source) (ht : t ≠ q.reply.tag) : (s.finish t st fields src).link.keeps q := by
  rcases s.finish_cases t st fields src with ⟨hs, -⟩ | ⟨e, -, -, hs⟩
  · rwa [hs]
  · rw [hs]
    exact h.placeFinal hq _ ht

theorem TagEntry.dropSlot_frame (e : TagEntry) : e.dropSlot = { e with slot := none } := rfl

theorem State.modTag_onlyReplies (s : State) (t : Nat) (f : TagEntry → TagEntry) : s.OnlyReplies (s.modTag t f) := by
  obtain ⟨h1, h2, h3, h4, h5⟩ := s.modTag_frame t f
  exact ⟨h2, h3, h5, h4, by rw [h1]; rfl⟩

/-- Ending a tag does not fill the reserved place of another tag, nor of a tag that is not live. -/
theorem State.finish_placeFree (s : State) (t u : Nat) (st : Status) (fields : ReplyFields) (src : Option Source)
    (hu : u ≠ t ∨ s.tag u = none) (h : s.link.queue.any (QueueEntry.reservedFor u) = false) :
    (s.finish t st fields src).link.queue.any (QueueEntry.reservedFor u) = false := by
  rcases s.finish_cases t st fields src with ⟨hs, -⟩ | ⟨e, hs, -, heq⟩
  · rwa [hs]
  · have hut : u ≠ t := by
      rcases hu with hu | hu
      · exact hu
      · rintro rfl
        rw [hs] at hu
        cases hu
    rw [heq]
    have hq : ∀ q ∈ s.link.queue, QueueEntry.reservedFor u q = false := by simpa using h
    have hn : QueueEntry.reservedFor u (QueueEntry.finalOf t e.kind st fields src) = false := by
      simp [QueueEntry.reservedFor, QueueEntry.finalOf, Reply.finalOf, Ne.symm hut]
    change (Link.placeFinal _ _).queue.any _ = false
    rw [List.any_eq_false]
    unfold Link.placeFinal
    split_ifs
    · intro q hm
      simpa using hq q hm
    · intro q hm
      obtain ⟨r, hr, rfl⟩ := List.mem_map.mp hm
      split
      · simpa using hn
      · simpa using hq r hr
    · intro q hm
      rcases List.mem_append.mp hm with hm | hm
      · simpa using hq q hm
      · obtain rfl := List.mem_singleton.mp hm
        simpa using hn

/-! ### Ending a write -/

theorem State.endWrite_of_some (s : State) {t : Nat} {e : TagEntry} (st : Status) (h : s.tag t = some e) :
    s.endWrite t st = (s.modTag t TagEntry.dropSlot).finish t st (.page (e.lane.getD 0) (e.block.getD 0) (e.page.getD 0)) none := by
  simp [State.endWrite, h]

theorem State.endWrite_frame (s : State) (t : Nat) (st : Status) : s.OnlyReplies (s.endWrite t st) := by
  rcases h : s.tag t with _ | e
  · simp [State.endWrite, h]; exact .refl s
  · rw [s.endWrite_of_some st h]
    exact (s.modTag_onlyReplies t _).trans (State.finish_frame _ _ _ _ _)

/-- The tag table after a write has ended: REPLYING, no slot named. -/
theorem State.endWrite_tag (s : State) (t u : Nat) (st : Status) :
    (s.endWrite t st).tag u = if u = t then (s.tag u).map (fun e => { e with state := .replying, slot := none }) else s.tag u := by
  rcases h : s.tag t with _ | e
  · simp only [State.endWrite, h]
    split
    · subst u; simp [h]
    · rfl
  · rw [s.endWrite_of_some st h, State.finish_tag, State.tag_modTag]
    split
    · subst u; simp [h, TagEntry.dropSlot]
    · rfl

theorem State.endWrite_keeps (s : State) {t : Nat} {e : TagEntry} (st : Status) (h : s.tag t = some e) (he : e.state ≠ .replying) :
    (s.endWrite t st).link.keeps
      (QueueEntry.finalOf t e.kind st (.page (e.lane.getD 0) (e.block.getD 0) (e.page.getD 0)) none) := by
  rw [s.endWrite_of_some st h]
  have hd : (s.modTag t TagEntry.dropSlot).tag t = some e.dropSlot := by simp [State.tag_modTag, h]
  exact State.finish_keeps (e := e.dropSlot) _ _ _ _ hd he

theorem State.keeps_endWrite {s : State} {q : QueueEntry} (h : s.link.keeps q) (hq : q.reply.cls = .final) (t : Nat) (st : Status)
    (ht : t ≠ q.reply.tag) : (s.endWrite t st).link.keeps q := by
  rcases hs : s.tag t with _ | e
  · simpa [State.endWrite, hs] using h
  · rw [s.endWrite_of_some st hs]
    exact State.keeps_finish (by simpa using h) hq t _ _ _ ht

/-- Writes ended one after another leave the reserved place of a tag that is not live as it is. -/
theorem State.endWrites_placeFree (s : State) (ts : List (Nat × Status)) (u : Nat) (hu : s.tag u = none)
    (h : s.link.queue.any (QueueEntry.reservedFor u) = false) :
    (ts.foldl (fun s e => s.endWrite e.1 e.2) s).link.queue.any (QueueEntry.reservedFor u) = false := by
  induction ts generalizing s with
  | nil => exact h
  | cons a ts ih =>
    rw [List.foldl_cons]
    refine ih _ ?_ ?_
    · rw [State.endWrite_tag]
      split <;> simp [hu]
    · rcases hs : s.tag a.1 with _ | e
      · simpa [State.endWrite, hs] using h
      · rw [s.endWrite_of_some a.2 hs]
        exact State.finish_placeFree _ _ _ _ _ _ (.inl (by rintro rfl; rw [hs] at hu; cases hu)) (by simpa using h)

/-- Writes ended one after another: the frame. -/
theorem State.endWrites_frame (s : State) (ts : List (Nat × Status)) :
    s.OnlyReplies (ts.foldl (fun s e => s.endWrite e.1 e.2) s) := .foldl (fun s e => s.endWrite_frame e.1 e.2) s ts

/-- Writes ended one after another: the tag table. -/
theorem State.endWrites_tag (s : State) (ts : List (Nat × Status)) (u : Nat) :
    (ts.foldl (fun s e => s.endWrite e.1 e.2) s).tag u
      = if u ∈ ts.map Prod.fst then (s.tag u).map (fun e => { e with state := .replying, slot := none }) else s.tag u := by
  induction ts generalizing s with
  | nil => simp
  | cons a ts ih =>
    rw [List.foldl_cons, ih, State.endWrite_tag]
    by_cases h : u = a.1
    · subst h
      rcases s.tag a.1 <;> simp
    · rw [if_neg h, List.map_cons]
      have : (u ∈ a.1 :: ts.map Prod.fst) = (u ∈ ts.map Prod.fst) := by simp [h]
      simp only [this]

/-- A kept final reply of a tag that is REPLYING stays while a write ends. -/
theorem State.keeps_endWrite_replying {s : State} {q : QueueEntry} {e : TagEntry} (h : s.link.keeps q) (hq : q.reply.cls = .final)
    (ht : s.tag q.reply.tag = some e) (he : e.state = .replying) (t : Nat) (st : Status) : (s.endWrite t st).link.keeps q := by
  by_cases hn : t = q.reply.tag
  · subst hn
    rw [s.endWrite_of_some st ht, State.finish_of_replying (e := e.dropSlot) _ _ _ _ (by simp [State.tag_modTag, ht]) he]
    simpa using h
  · exact State.keeps_endWrite h hq t st hn

/-- A kept final reply of a tag that is REPLYING stays while writes end. -/
theorem State.keeps_endWrites {s : State} (ts : List (Nat × Status)) {q : QueueEntry} {e : TagEntry} (h : s.link.keeps q)
    (hq : q.reply.cls = .final) (ht : s.tag q.reply.tag = some e) (he : e.state = .replying) :
    (ts.foldl (fun s e => s.endWrite e.1 e.2) s).link.keeps q := by
  induction ts generalizing s e with
  | nil => exact h
  | cons a ts ih =>
    have hk := State.keeps_endWrite_replying h hq ht he a.1 a.2
    rw [List.foldl_cons]
    by_cases ha : q.reply.tag = a.1
    · exact ih (e := { e with state := .replying, slot := none }) hk (by rw [State.endWrite_tag, if_pos ha, ht]; rfl) rfl
    · exact ih hk (by rw [State.endWrite_tag, if_neg ha, ht]) he

/-- Writes ended one after another: the reply of a tag that always ends with one status is kept. -/
theorem State.endWrites_keeps (s : State) (ts : List (Nat × Status)) {t : Nat} {st : Status} {e : TagEntry} (h : s.tag t = some e)
    (he : e.state ≠ .replying) (hm : (t, st) ∈ ts) (hu : ∀ a ∈ ts, a.1 = t → a.2 = st) :
    (ts.foldl (fun s e => s.endWrite e.1 e.2) s).link.keeps
      (QueueEntry.finalOf t e.kind st (.page (e.lane.getD 0) (e.block.getD 0) (e.page.getD 0)) none) := by
  induction ts generalizing s e with
  | nil => simp at hm
  | cons a ts ih =>
    rw [List.foldl_cons]
    by_cases ha : a.1 = t
    · obtain ⟨u, v⟩ := a
      obtain rfl : u = t := ha
      obtain rfl : v = st := hu (u, v) (by simp) rfl
      exact State.keeps_endWrites (e := { e with state := .replying, slot := none }) ts (State.endWrite_keeps s v h he) rfl
        (by rw [QueueEntry.finalOf_tag, State.endWrite_tag]; simp [h]) rfl
    · refine ih _ (by rw [State.endWrite_tag, if_neg (Ne.symm ha)]; exact h) he ?_ (fun a ha => hu a (by simp [ha]))
      rcases List.mem_cons.mp hm with rfl | hm
      · exact absurd rfl ha
      · exact hm

/-- Writes ended one after another, each of its own tag and none that has its final reply: the replies take their places in that
order. -/
theorem State.endWrites_link (s : State) (ts : List (Nat × Status)) (hn : (ts.map Prod.fst).Nodup)
    (ho : ∀ a ∈ ts, ∀ e, s.tag a.1 = some e → e.state ≠ .replying) :
    (ts.foldl (fun s e => s.endWrite e.1 e.2) s).link
      = (ts.filterMap (fun a => (s.tag a.1).map (fun e => QueueEntry.writeEnd a.1 e a.2))).foldl Link.placeFinal s.link := by
  induction ts generalizing s with
  | nil => rfl
  | cons a ts ih =>
    obtain ⟨ha, hn⟩ := List.nodup_cons.mp hn
    have htag : ∀ c ∈ ts, (s.endWrite a.1 a.2).tag c.1 = s.tag c.1 := fun c hc => by
      rw [State.endWrite_tag, if_neg (fun h : c.1 = a.1 => ha (h ▸ List.mem_map_of_mem hc))]
    rw [List.foldl_cons, ih _ hn (fun c hc e he => ho c (by simp [hc]) e (by rwa [htag c hc] at he)),
      List.filterMap_congr (fun c hc => by rw [htag c hc])]
    rcases h : s.tag a.1 with _ | e
    · simp [State.endWrite, h]
    · have hd : (s.modTag a.1 TagEntry.dropSlot).tag a.1 = some e.dropSlot := by simp [State.tag_modTag, h]
      rw [s.endWrite_of_some a.2 h, State.finish_of_some _ _ _ _ hd (ho a (by simp) e h)]
      simp [h]
      rfl

/-! ### Ending a write DURABLE -/

theorem State.endDurable_of_some (s : State) {t : Nat} {e : TagEntry} (h : s.tag t = some e) :
    s.endDurable t
      = (s.modTag t TagEntry.dropSlot).finish t .durable
          (.durable (e.lane.getD 0) (e.block.getD 0) (e.page.getD 0) (s.record (e.lane.getD 0) (e.block.getD 0)).physical) none := by
  simp [State.endDurable, h]

theorem State.endDurable_frame (s : State) (t : Nat) : s.OnlyReplies (s.endDurable t) := by
  rcases h : s.tag t with _ | e
  · simp [State.endDurable, h]; exact .refl s
  · rw [s.endDurable_of_some h]
    exact (s.modTag_onlyReplies t _).trans (State.finish_frame _ _ _ _ _)

theorem State.endDurable_tag (s : State) (t u : Nat) :
    (s.endDurable t).tag u = if u = t then (s.tag u).map (fun e => { e with state := .replying, slot := none }) else s.tag u := by
  rcases h : s.tag t with _ | e
  · simp only [State.endDurable, h]
    split
    · subst u; simp [h]
    · rfl
  · rw [s.endDurable_of_some h, State.finish_tag, State.tag_modTag]
    split
    · subst u; simp [h, TagEntry.dropSlot]
    · rfl

theorem State.endDurable_keeps (s : State) {t : Nat} {e : TagEntry} (h : s.tag t = some e) (he : e.state ≠ .replying) :
    (s.endDurable t).link.keeps (s.durableReply t e) := by
  rw [s.endDurable_of_some h]
  have hd : (s.modTag t TagEntry.dropSlot).tag t = some e.dropSlot := by simp [State.tag_modTag, h]
  exact State.finish_keeps (e := e.dropSlot) _ _ _ _ hd he

theorem State.keeps_endDurable {s : State} {q : QueueEntry} (h : s.link.keeps q) (hq : q.reply.cls = .final) (t : Nat)
    (ht : t ≠ q.reply.tag) : (s.endDurable t).link.keeps q := by
  rcases hs : s.tag t with _ | e
  · simpa [State.endDurable, hs] using h
  · rw [s.endDurable_of_some hs]
    exact State.keeps_finish (by simpa using h) hq t _ _ _ ht

theorem State.endDurables_frame (s : State) (ts : List Nat) : s.OnlyReplies (ts.foldl State.endDurable s) :=
  .foldl (fun s t => s.endDurable_frame t) s ts

theorem State.endDurables_tag (s : State) (ts : List Nat) (u : Nat) :
    (ts.foldl State.endDurable s).tag u
      = if u ∈ ts then (s.tag u).map (fun e => { e with state := .replying, slot := none }) else s.tag u := by
  induction ts generalizing s with
  | nil => simp
  | cons a ts ih =>
    rw [List.foldl_cons, ih, State.endDurable_tag]
    by_cases h : u = a
    · subst h
      rcases s.tag u <;> simp
    · have : (u ∈ a :: ts) = (u ∈ ts) := by simp [h]
      simp only [if_neg h, this]

theorem State.durableReply_congr {s m : State} (t : Nat) {e g : TagEntry} (h : ∀ x b, m.record x b = s.record x b)
    (h1 : g.kind = e.kind) (h2 : g.lane = e.lane) (h3 : g.block = e.block) (h4 : g.page = e.page) :
    m.durableReply t g = s.durableReply t e := by
  simp [State.durableReply, h, h1, h2, h3, h4]

/-- A kept final reply of a tag that is REPLYING stays while writes end DURABLE. -/
theorem State.keeps_endDurables {s : State} (ts : List Nat) {q : QueueEntry} {e : TagEntry} (h : s.link.keeps q)
    (hq : q.reply.cls = .final) (ht : s.tag q.reply.tag = some e) (he : e.state = .replying) :
    (ts.foldl State.endDurable s).link.keeps q := by
  induction ts generalizing s e with
  | nil => exact h
  | cons a ts ih =>
    rw [List.foldl_cons]
    by_cases ha : q.reply.tag = a
    · subst ha
      refine ih (e := { e with state := .replying, slot := none }) ?_ (by rw [State.endDurable_tag, if_pos rfl, ht]; rfl) rfl
      rw [s.endDurable_of_some ht, State.finish_of_replying (e := e.dropSlot) _ _ _ _ (by simp [State.tag_modTag, ht]) he]
      simpa using h
    · exact ih (State.keeps_endDurable h hq a (Ne.symm ha)) (by rw [State.endDurable_tag, if_neg ha, ht]) he

/-- Writes ended DURABLE one after another: the reply of each is kept. -/
theorem State.endDurables_keeps (s : State) (ts : List Nat) {t : Nat} {e : TagEntry} (ht : s.tag t = some e)
    (he : e.state ≠ .replying) (hm : t ∈ ts) :
    (ts.foldl State.endDurable s).link.keeps (s.durableReply t e) := by
  induction ts generalizing s e with
  | nil => simp at hm
  | cons a ts ih =>
    rw [List.foldl_cons]
    by_cases ha : a = t
    · subst ha
      exact State.keeps_endDurables (e := { e with state := .replying, slot := none }) ts (s.endDurable_keeps ht he) rfl
        (by rw [State.durableReply, QueueEntry.finalOf_tag, State.endDurable_tag]; simp [ht]) rfl
    · have hr := State.durableReply_congr (m := s.endDurable a) t (e := e) (g := e) (s.endDurable_frame a).record rfl rfl rfl rfl
      rw [← hr]
      exact ih _ (by rw [State.endDurable_tag, if_neg (Ne.symm ha)]; exact ht) he
        ((List.mem_cons.mp hm).resolve_left (Ne.symm ha))

/-- Writes ended DURABLE one after another, each of its own tag and none that has its final reply: the replies take their places in
that order. -/
theorem State.endDurables_link (s : State) (ts : List Nat) (hn : ts.Nodup)
    (ho : ∀ t ∈ ts, ∀ e, s.tag t = some e → e.state ≠ .replying) :
    (ts.foldl State.endDurable s).link = (ts.filterMap (fun t => (s.tag t).map (s.durableReply t))).foldl Link.placeFinal s.link := by
  induction ts generalizing s with
  | nil => rfl
  | cons a ts ih =>
    obtain ⟨ha, hn⟩ := List.nodup_cons.mp hn
    have htag : ∀ t ∈ ts, (s.endDurable a).tag t = s.tag t := fun t ht => by
      rw [State.endDurable_tag, if_neg (fun h : t = a => ha (h ▸ ht))]
    have hrep : ∀ t, (s.endDurable a).durableReply t = s.durableReply t := fun t =>
      funext fun e => State.durableReply_congr t (s.endDurable_frame a).record rfl rfl rfl rfl
    rw [List.foldl_cons, ih _ hn (fun t ht e he => ho t (by simp [ht]) e (by rwa [htag t ht] at he)),
      List.filterMap_congr (fun t ht => by rw [htag t ht, hrep])]
    rcases h : s.tag a with _ | e
    · simp [State.endDurable, h]
    · have hd : (s.modTag a TagEntry.dropSlot).tag a = some e.dropSlot := by simp [State.tag_modTag, h]
      rw [s.endDurable_of_some h, State.finish_of_some _ _ _ _ hd (ho a (by simp) e h)]
      simp [h]
      rfl

/-! ### One reply at most in each place (R144, R151, R152) -/

/-- An interim reply fills its own tag's place. -/
theorem QueueEntry.reservedFor_of_interimOf {q : QueueEntry} {t : Nat} (h : q.interimOf t = true) (u : Nat) :
    q.reservedFor u = decide (t = u) := by
  simp only [QueueEntry.interimOf, Bool.and_eq_true, decide_eq_true_eq] at h
  simp [QueueEntry.reservedFor, QueueEntry.isRefusal, h.1, h.2]

/-- Placing a final reply fills no place but its tag's, which holds one reply at most when it held none but an interim reply. -/
theorem Link.placeFinal_count {l : Link} {e : QueueEntry} (he : e.reply.cls = .final)
    (hi : ∀ q ∈ l.queue, q.reservedFor e.reply.tag = true → q.interimOf e.reply.tag = true) {u : Nat}
    (hc : l.queue.countP (QueueEntry.reservedFor u) ≤ 1) : (l.placeFinal e).queue.countP (QueueEntry.reservedFor u) ≤ 1 := by
  have hres : e.reservedFor u = decide (e.reply.tag = u) := by simp [QueueEntry.reservedFor, QueueEntry.isRefusal, he]
  unfold Link.placeFinal
  split_ifs with h1 h2
  · exact hc
  · rw [List.countP_map]
    refine Nat.le_trans (Nat.le_of_eq (List.countP_congr fun q _ => ?_)) hc
    rw [Function.comp_apply]
    split
    · rw [hres, QueueEntry.reservedFor_of_interimOf ‹_›]
    · rfl
  · rw [List.countP_append]
    by_cases hu : e.reply.tag = u
    · subst hu
      have : l.queue.countP (QueueEntry.reservedFor e.reply.tag) = 0 := by
        refine List.countP_eq_zero.mpr fun q hq hr => h2 ?_
        exact List.any_eq_true.mpr ⟨q, hq, hi q hq hr⟩
      rw [this, Nat.zero_add]
      exact List.countP_le_length
    · simpa [hres, hu] using hc

/-- Placing a final reply puts no other reply in a place. -/
theorem Link.mem_placeFinal {l : Link} {e q : QueueEntry} (h : q ∈ (l.placeFinal e).queue) : q ∈ l.queue ∨ q = e := by
  unfold Link.placeFinal at h
  split_ifs at h
  · exact .inl h
  · obtain ⟨r, hr, rfl⟩ := List.mem_map.mp h
    split
    · exact .inr rfl
    · exact .inl hr
  · simpa using h

/-- Ending a tag keeps one reply at most in each place. -/
theorem State.RepliesPlaced.finish {s : State} (h : s.RepliesPlaced) (t : Nat) (st : Status) (fields : ReplyFields)
    (src : Option Source) : (s.finish t st fields src).RepliesPlaced := by
  rcases s.finish_cases t st fields src with ⟨hs, -⟩ | ⟨e, ht, he, hs⟩
  · rwa [hs]
  obtain ⟨h1, h2, h3⟩ := h
  rw [hs]
  generalize hq : QueueEntry.finalOf t e.kind st fields src = r
  have hr : r.reply.cls = .final ∧ r.reply.tag = t := hq ▸ ⟨rfl, rfl⟩
  have htag : ∀ u, State.tag { s.setTag t (some { e with state := .replying }) with link := s.link.placeFinal r } u
      = if u = t then some { e with state := .replying } else s.tag u := by
    intro u
    change (s.setTag t _).tag u = _
    split
    · subst u; simp [s.tag_lt ht]
    · rename_i hu; simp [hu]
  refine ⟨fun u => Link.placeFinal_count hr.1 (fun q hm hres => ?_) (h1 u), fun u g hu hg q hm hres => ?_, fun q hd => ?_⟩
  · rw [hr.2] at hres ⊢
    have hc := (h2 t e ht he q hm hres).1
    simp only [QueueEntry.reservedFor, Bool.and_eq_true, decide_eq_true_eq] at hres
    simp [QueueEntry.interimOf, hc, hres.2]
  · rw [htag] at hu
    split at hu
    · cases hu; exact absurd rfl hg
    · rename_i hn
      rcases Link.mem_placeFinal hm with hm | rfl
      · exact h2 u g hu hg q hm hres
      · simp only [QueueEntry.reservedFor, Bool.and_eq_true, decide_eq_true_eq] at hres
        exact absurd (hres.2.symm.trans hr.2) hn
  · have hcase : (q = r ∧ s.link.sendingInterim q.reply.tag = true) ∨ s.link.deferred = some q := by
      change (s.link.placeFinal r).deferred = some q at hd
      unfold Link.placeFinal at hd
      split_ifs at hd with hi
      · obtain rfl := Option.some.inj hd
        exact .inl ⟨rfl, hi⟩
      · exact .inr hd
      · exact .inr hd
    rcases hcase with ⟨rfl, hi⟩ | hd
    · refine ⟨hr.1, s.link.sendingInterim_placeFinal _ _ hi, fun g hg => ?_⟩
      rw [htag, if_pos hr.2] at hg
      exact Option.some.inj hg ▸ rfl
    · obtain ⟨hf, hi, hg⟩ := h3 q hd
      refine ⟨hf, s.link.sendingInterim_placeFinal _ _ hi, fun g hu => ?_⟩
      rw [htag] at hu
      split at hu
      · exact Option.some.inj hu ▸ rfl
      · exact hg g hu

/-- A tag entry that keeps its state leaves the places as they are. -/
theorem State.RepliesPlaced.modTag {s : State} (h : s.RepliesPlaced) (t : Nat) {f : TagEntry → TagEntry}
    (hf : ∀ e, (f e).state = e.state) : (s.modTag t f).RepliesPlaced := by
  obtain ⟨h1, h2, h3⟩ := h
  have hl := (s.modTag_frame t f).1
  have htag : ∀ u e, (s.modTag t f).tag u = some e → ∃ g, s.tag u = some g ∧ e.state = g.state := by
    intro u e hu
    rw [State.tag_modTag] at hu
    split at hu
    · obtain ⟨g, hg, rfl⟩ := Option.map_eq_some_iff.mp hu
      exact ⟨g, hg, hf g⟩
    · exact ⟨e, hu, rfl⟩
  unfold State.RepliesPlaced
  rw [hl]
  refine ⟨h1, fun u e hu he => ?_, fun q hd => ⟨(h3 q hd).1, (h3 q hd).2.1, fun e hu => ?_⟩⟩
  · obtain ⟨g, hg, hs⟩ := htag u e hu
    rw [hs] at he ⊢
    exact h2 u g hg he
  · obtain ⟨g, hg, hs⟩ := htag _ e hu
    rw [hs]
    exact (h3 q hd).2.2 g hg

theorem State.RepliesPlaced.endWrite {s : State} (h : s.RepliesPlaced) (t : Nat) (st : Status) : (s.endWrite t st).RepliesPlaced := by
  unfold State.endWrite
  split
  · exact h
  · exact (h.modTag t (f := TagEntry.dropSlot) (fun _ => rfl)).finish _ _ _ _

theorem State.RepliesPlaced.endDurable {s : State} (h : s.RepliesPlaced) (t : Nat) : (s.endDurable t).RepliesPlaced := by
  unfold State.endDurable
  split
  · exact h
  · exact (h.modTag t (f := TagEntry.dropSlot) (fun _ => rfl)).finish _ _ _ _

/-- A fold of operations that keep the places. -/
theorem State.RepliesPlaced.foldl {α : Type} {f : State → α → State}
    (hf : ∀ (s : State) (a : α), s.RepliesPlaced → (f s a).RepliesPlaced) {s : State} (h : s.RepliesPlaced) (as : List α) :
    (as.foldl f s).RepliesPlaced := by
  induction as generalizing s with
  | nil => exact h
  | cons a as ih => exact ih (hf s a h)

end Sys2Proof.Machine
end

