-- ==== Sys2Proof/Laws/Happening.lean ====
section
/-! SUPPORT. What the end of a happening can do, and how a frame is taken: the lemmas that take an exec apart. -/

namespace Sys2Proof.Machine

/-! ### The arbiter -/

/-- A composition changes the frame being sent, the outbound number, the acknowledgement flags, and what its choice settles. -/
theorem State.arbitrate_frame (s : State) :
    s.arbitrate.rqu = s.rqu ∧ s.arbitrate.pool = s.pool ∧ s.arbitrate.lanes = s.lanes ∧ s.sameInputs s.arbitrate
      ∧ s.arbitrate.link.queue = s.link.queue ∧ s.arbitrate.link.deferred = s.link.deferred
      ∧ s.arbitrate.link.intake = s.link.intake ∧ s.arbitrate.link.expected = s.link.expected
      ∧ s.arbitrate.link.nakFlag = s.link.nakFlag ∧ s.arbitrate.link.windowClosed = s.link.windowClosed := by
  unfold State.arbitrate
  split
  · simp [State.sameInputs]
  · split <;>
      simp [State.sendSync, State.sendNak, State.sendChunk, State.sendReply, State.sendNotice, State.sendAck, Link.compose,
        Link.settleAck, State.sameInputs]

theorem State.arbitrate_busy (s : State) (h : s.link.tx.isSome = true) : s.arbitrate = s := by
  simp [State.arbitrate, h]

/-! ### The pool's tests -/

/-- The pool's tests change the armed flag and the pool-low condition alone. -/
theorem State.poolCheck_cases (n : Nat) (s : State) :
    s.poolCheck n = s ∨ s.poolCheck n = (s.arm false).raisePoolLow ∨ s.poolCheck n = s.arm true := by
  unfold State.poolCheck State.testPoolLow State.testRearm
  split_ifs <;> simp

theorem State.poolCheck_frame (n : Nat) (s : State) :
    (s.poolCheck n).link = s.link ∧ (s.poolCheck n).lanes = s.lanes ∧ (s.poolCheck n).pool.slots = s.pool.slots
      ∧ s.sameInputs (s.poolCheck n) ∧ (s.poolCheck n).rqu = { s.rqu with poolLow := (s.poolCheck n).rqu.poolLow } := by
  rcases s.poolCheck_cases n with h | h | h <;> rw [h] <;> simp [State.arm, State.raisePoolLow, State.sameInputs]

/-- The FREE count reads the slots alone. -/
theorem State.freeCount_congr {s m : State} (h : m.pool.slots = s.pool.slots) : m.freeCount = s.freeCount := by
  unfold State.freeCount State.slotsIn State.slot
  rw [h]

/-- The pool's tests do what PoolTested says (R60, R61). -/
theorem State.poolCheck_tested (s m : State) : s.PoolTested m (m.poolCheck s.freeCount) := by
  have hf := State.freeCount_congr (State.poolCheck_frame s.freeCount m).2.2.1
  dsimp only [State.PoolTested]
  rw [hf]
  unfold State.poolCheck State.testPoolLow State.testRearm Config.slots
  refine ⟨fun h => ?_, fun h => ?_, fun hn hr => ?_⟩
  · rw [if_pos h.1, if_pos h.2]
    exact ⟨rfl, rfl⟩
  · rw [if_neg (Nat.not_lt_of_lt h.1), if_pos h.1, if_pos h.2]
    exact ⟨rfl, rfl⟩
  · split_ifs with h1 h2 h1 h2
    · exact absurd ⟨h1, h2⟩ hn
    · exact ⟨rfl, rfl⟩
    · exact absurd ⟨h1, h2⟩ hr
    · exact ⟨rfl, rfl⟩
    · exact ⟨rfl, rfl⟩

/-! ### The end of a happening -/

theorem State.conclude_nil (s m : State) : s.conclude [] m = (m.poolCheck s.freeCount).arbitrate := rfl

/-- The end of a happening reads the state before for its FREE count alone. -/
theorem State.conclude_before {s s' : State} (xs : List Nat) (m : State) (h : s.freeCount = s'.freeCount) :
    s.conclude xs m = s'.conclude xs m := by
  simp [State.conclude, h]

@[simp] theorem State.unbuffer_rqu (s : State) : s.unbuffer.rqu = s.rqu := rfl
@[simp] theorem State.unbuffer_pool (s : State) : s.unbuffer.pool = s.pool := rfl
@[simp] theorem State.unbuffer_lanes (s : State) : s.unbuffer.lanes = s.lanes := rfl
@[simp] theorem State.unbuffer_lane (s : State) (x : Nat) : s.unbuffer.lane x = s.lane x := rfl
@[simp] theorem State.unbuffer_record (s : State) (x b : Nat) : s.unbuffer.record x b = s.record x b := rfl
@[simp] theorem State.unbuffer_slot (s : State) (i : Nat) : s.unbuffer.slot i = s.slot i := rfl
@[simp] theorem State.unbuffer_tag (s : State) (t : Nat) : s.unbuffer.tag t = s.tag t := rfl
@[simp] theorem State.unbuffer_wp (s : State) : s.unbuffer.wpAsserted = s.wpAsserted := rfl
@[simp] theorem State.unbuffer_inReset (s : State) : s.unbuffer.inReset = s.inReset := rfl
@[simp] theorem State.unbuffer_pending (s : State) : s.unbuffer.pending = s.pending := rfl
@[simp] theorem State.unbuffer_queue (s : State) : s.unbuffer.link.queue = s.link.queue := rfl
@[simp] theorem State.unbuffer_freeCount (s : State) : s.unbuffer.freeCount = s.freeCount := rfl

@[simp] theorem State.conclude_unbuffer (s : State) (xs : List Nat) (m : State) : s.unbuffer.conclude xs m = s.conclude xs m := rfl

/-! ### Taking frames -/

theorem unlessReset_running {s : State} (r : Result) (h : s.inReset = false) : unlessReset s r = r := by
  simp [unlessReset, h]

/-- A command that answers a next state under RST# released came about. -/
theorem unlessReset_next {s t : State} {r : Result} (h : unlessReset s r = .next t) : s.inReset = false ∧ r = .next t := by
  unfold unlessReset at h
  split at h
  · cases h
  · rename_i hr
    exact ⟨by simpa using hr, h⟩

/-- The taking of an offered frame of the row. -/
theorem takeOldest_offers {s : State} {f : InFrame} {p : InFrame → Bool} (k : State → InFrame → Result) (h : s.Offers f)
    (hp : p f = true) : takeOldest s p k = k s.unbuffer f := by
  obtain ⟨hr, hf, hm⟩ := h
  rw [takeOldest, unlessReset_running _ hr]
  rcases hi : s.link.intake with _ | ⟨g, rest⟩
  · simp [hi] at hf
  · obtain rfl : g = f := by simpa [hi] using hf
    simp [hp, hm]

/-- When a taking answers a next state: the frame waits and nothing changes, or the frame is taken. -/
theorem takeOldest_next {s t : State} {p : InFrame → Bool} {k : State → InFrame → Result} (h : takeOldest s p k = .next t) :
    s.inReset = false ∧ ∃ f rest, s.link.intake = f :: rest ∧ p f = true
      ∧ ((s.mayTake f = false ∧ t = s) ∨ (s.mayTake f = true ∧ k s.unbuffer f = .next t)) := by
  obtain ⟨hr, h⟩ := unlessReset_next h
  refine ⟨hr, ?_⟩
  split at h
  · cases h
  · rename_i f rest hi
    refine ⟨f, rest, hi, ?_⟩
    split at h
    · rename_i hp
      refine ⟨hp, ?_⟩
      split at h
      · exact .inr ⟨‹_›, h⟩
      · rename_i hm
        cases h; exact .inl ⟨by simpa using hm, rfl⟩
    · cases h

/-- A request that passes checks 1 to 3 goes on to its own meaning. -/
theorem takeRequest_admits {s : State} {f : InFrame} {k : ReqKind} {r : Request} (g : State → InFrame → Request → Result)
    (h : s.Admits f k r) : takeRequest s k g = g s.unbuffer f r := by
  obtain ⟨ho, hk, hp, ht, hn, hc⟩ := h
  rw [takeRequest, takeOldest_offers _ ho hk]
  simp [hp, Nat.not_le.mpr ht, hn, hc]

/-- When the taking of a request answers a next state: it waits, it is refused by checks 1 to 3, or it is dispatched. -/
theorem takeRequest_next {s t : State} {k : ReqKind} {g : State → InFrame → Request → Result}
    (h : takeRequest s k g = .next t) :
    s.inReset = false ∧ ∃ f rest, s.link.intake = f :: rest
      ∧ ((t = s)
        ∨ (s.mayTake f = true ∧ ∃ st fields, refused s.unbuffer f st fields = .next t)
        ∨ (∃ r, s.Admits f k r ∧ g s.unbuffer f r = .next t)) := by
  obtain ⟨hr, f, rest, hi, hk, h⟩ := takeOldest_next h
  refine ⟨hr, f, rest, hi, ?_⟩
  rcases h with ⟨-, rfl⟩ | ⟨hm, h⟩
  · exact .inl rfl
  · right
    have ho : s.Offers f := ⟨hr, by simp [hi], hm⟩
    rcases hp : parseRequest f.payload with _ | r
    · exact .inl ⟨hm, _, _, by simpa [hp] using h⟩
    · simp only [hp] at h
      split at h
      · exact .inl ⟨hm, _, _, h⟩
      · split at h
        · exact .inl ⟨hm, _, _, h⟩
        · rename_i ht hn
          split at h
          · exact .inl ⟨hm, _, _, h⟩
          · exact .inr ⟨r, ⟨ho, hk, hp, by omega, by simpa using hn, ‹_›⟩, h⟩

/-- A refused frame leaves its buffer and gains a refusal, and nothing else changes (R145). -/
theorem refused_eq (s : State) (f : InFrame) (st : Status) (fields : ReplyFields) :
    refused s.unbuffer f st fields = .next (s.conclude [] (s.refusedWith f st fields)) := rfl

/-- The reserved place of an offered frame's tag is empty when the tag is not live (R143). -/
theorem State.Offers.placeFree {s : State} {f : InFrame} (h : s.Offers f) (hk : f.kind = kindReq) (ht : f.tag < Config.tags)
    (hn : s.tag f.tag = none) : s.link.queue.any (QueueEntry.reservedFor f.tag) = false := by
  have := h.2.2
  simp only [State.mayTake, hk, hn, Bool.and_eq_true, Bool.or_eq_true, decide_eq_true_eq] at this
  simpa [Nat.not_le.mpr ht] using this.2

/-! ### The checks of lane and block -/

theorem addressCheck_bad (s : State) {x b : Nat} (h : 4 ≤ x ∨ 1024 ≤ b) : addressCheck s x b = some .badAddress := by
  by_cases hx : 4 ≤ x
  · exact if_pos hx
  · exact (if_neg hx).trans (if_pos (h.resolve_left hx))

theorem addressCheck_lane (s : State) {x b : Nat} (hx : x < 4) (hb : b < 1024) : addressCheck s x b = laneCheck (s.lane x) :=
  (if_neg (Nat.not_le.mpr hx)).trans (if_neg (Nat.not_le.mpr hb))

theorem State.Reaches.addressCheck {s : State} {x b : Nat} (h : s.Reaches x b) : addressCheck s x b = none := by
  rw [addressCheck_lane s h.1 h.2.1]
  simp [laneCheck, h.2.2]

/-! ### Answers -/

/-- A request answered at its dispatch, with the reserved place of its tag empty: the entry is set and the reply joins the tail. -/
theorem State.answer_tail (s : State) {t : Nat} (e : TagEntry) (st : Status) (fields : ReplyFields) (src : Option Source)
    (he : e.state = .replying) (h : s.link.queue.any (QueueEntry.reservedFor t) = false) :
    s.answer t e st fields src
      = { s with
          link := { s.link with queue := s.link.queue ++ [QueueEntry.finalOf t e.kind st fields src] }
          rqu := s.rqu.withTag t e } := by
  have hl := Link.placeFinal_tail s.link (QueueEntry.finalOf t e.kind st fields src) h
  rcases e with ⟨k, es, _, _, _, _, _, _⟩
  obtain rfl : es = .replying := he
  simpa [State.answer, State.setTag, Rqu.withTag, QueueEntry.finalOf, Reply.finalOf] using hl

/-- The answer of an admitted request (R144, R151). -/
theorem State.Admits.answer {s : State} {f : InFrame} {k : ReqKind} {r : Request} (h : s.Admits f k r) (e : TagEntry) (st : Status)
    (fields : ReplyFields) (src : Option Source) (he : e.state = .replying) :
    s.unbuffer.answer f.tag e st fields src
      = { s with link := s.linkWith (QueueEntry.finalOf f.tag e.kind st fields src), rqu := s.rqu.withTag f.tag e } := by
  have hk : f.kind = kindReq := by
    have := h.2.1
    simp only [InFrame.isRequest, Bool.and_eq_true, decide_eq_true_eq] at this
    exact this.1.1
  exact State.answer_tail s.unbuffer e st fields src he (h.1.placeFree hk h.2.2.2.1 h.2.2.2.2.1)

end Sys2Proof.Machine
end

