-- ==== Sys2Proof/Laws/Slots.lean ====
section
/-! SUPPORT. What the operations over several slots do: each slot, the tag table, and the frame. -/

namespace Sys2Proof.Machine

/-! ### The lists of slots -/

theorem slotNumbers_nodup : slotNumbers.Nodup := List.nodup_range

theorem mem_slotNumbers {i : Nat} : i ∈ slotNumbers ↔ i < 96 := List.mem_range

theorem State.mem_slotsIn (s : State) (st : SlotState) (i : Nat) : i ∈ s.slotsIn st ↔ i < 96 ∧ (s.slot i).state = st := by
  simp [State.slotsIn, mem_slotNumbers]

theorem State.slotsIn_nodup (s : State) (st : SlotState) : (s.slotsIn st).Nodup := slotNumbers_nodup.filter _

theorem State.mem_ownedSlots (s : State) (x b i : Nat) : i ∈ s.ownedSlots x b ↔ (s.slot i).ownedBy x b = true := by
  simp only [State.ownedSlots, List.mem_filter, mem_slotNumbers, and_iff_right_iff_imp]
  exact s.owned_lt

theorem State.ownedSlots_nodup (s : State) (x b : Nat) : (s.ownedSlots x b).Nodup := slotNumbers_nodup.filter _

theorem Slot.ofLane_of_ownedBy {sl : Slot} {x b : Nat} (h : sl.ownedBy x b = true) : sl.ofLane x = true := by
  unfold Slot.ownedBy at h
  unfold Slot.ofLane
  split at h <;> simp_all

theorem Slot.ownedBy_iff (sl : Slot) (x b : Nat) :
    sl.ownedBy x b = true ↔ sl.owner = some { lane := x, block := b, page := sl.pageNumber } := by
  unfold Slot.ownedBy Slot.pageNumber
  rcases sl.owner with _ | ⟨_, _, _⟩ <;> simp

/-- A slot that slotOf finds has the page's owner. -/
theorem State.slotOf_owner {s : State} {x b p i : Nat} (h : s.slotOf x b p = some i) :
    i < 96 ∧ (s.slot i).owner = some { lane := x, block := b, page := p } := by
  have h1 := List.mem_of_find?_eq_some h
  have h2 := List.find?_some h
  exact ⟨mem_slotNumbers.mp h1, by simpa using h2⟩

theorem State.slotOf_owned {s : State} {x b p i : Nat} (h : s.slotOf x b p = some i) :
    (s.slot i).ownedBy x b = true ∧ (s.slot i).pageNumber = p := by
  have := (State.slotOf_owner h).2
  simp [Slot.ownedBy, Slot.pageNumber, this]

/-- slotOf reads the slots' owners alone. -/
theorem State.slotOf_congr {s m : State} (x b p : Nat) (h : ∀ i, (m.slot i).owner = (s.slot i).owner) :
    m.slotOf x b p = s.slotOf x b p := by
  simp [State.slotOf, h]

/-! ### modSlots -/

theorem State.modSlots_frame (s : State) (is : List Nat) (f : Slot → Slot) :
    (s.modSlots is f).link = s.link ∧ (s.modSlots is f).rqu = s.rqu ∧ (s.modSlots is f).lanes = s.lanes
      ∧ (s.modSlots is f).pool.armed = s.pool.armed ∧ s.sameInputs (s.modSlots is f) := by
  unfold State.modSlots
  induction is generalizing s with
  | nil => simp [State.sameInputs]
  | cons i is ih => simpa [State.sameInputs] using ih (s.modSlot i f)

/-- A slot off the list is unchanged. -/
theorem State.slot_modSlots_ne (s : State) (is : List Nat) (f : Slot → Slot) {j : Nat} (h : j ∉ is) :
    (s.modSlots is f).slot j = s.slot j := by
  unfold State.modSlots
  induction is generalizing s with
  | nil => rfl
  | cons i is ih =>
    rw [List.foldl_cons, ih _ (by simp_all), State.slot_modSlot_ne _ _ (by simp_all)]

/-- A slot on the list, without repeats, is changed once. -/
theorem State.slot_modSlots_mem (s : State) {is : List Nat} (f : Slot → Slot) {j : Nat} (hn : is.Nodup) (h : j ∈ is)
    (hj : j < 96) : (s.modSlots is f).slot j = f (s.slot j) := by
  unfold State.modSlots
  induction is generalizing s with
  | nil => simp at h
  | cons i is ih =>
    rw [List.foldl_cons]
    obtain ⟨hi, hn⟩ := List.nodup_cons.mp hn
    rcases List.mem_cons.mp h with rfl | hm
    · have := State.slot_modSlots_ne (s.modSlot j f) is f hi
      unfold State.modSlots at this
      rw [this, State.slot_modSlot_same _ _ hj]
    · rw [ih _ hn hm, State.slot_modSlot_ne]
      rintro rfl
      exact hi hm

/-! ### Release of one slot -/

theorem State.dropSlotOfTag_frame (s : State) (t : Option Nat) :
    (s.dropSlotOfTag t).link = s.link ∧ (s.dropSlotOfTag t).pool = s.pool ∧ (s.dropSlotOfTag t).lanes = s.lanes
      ∧ s.rqu.sameButTags (s.dropSlotOfTag t).rqu ∧ s.sameInputs (s.dropSlotOfTag t) := by
  rcases t with _ | t
  · exact ⟨rfl, rfl, rfl, rfl, rfl, rfl, rfl⟩
  · exact s.modTag_frame t _

/-- The tag a slot holds no longer names a slot; no other entry changes. -/
theorem State.tag_dropSlotOfTag (s : State) (t : Option Nat) (u : Nat) :
    (s.dropSlotOfTag t).tag u = if t = some u then (s.tag u).map TagEntry.dropSlot else s.tag u := by
  rcases t with _ | t
  · simp [State.dropSlotOfTag]
  · simp [State.dropSlotOfTag, State.tag_modTag, eq_comm]

/-- A change `g` of slot `i` together with the entry of the tag it holds: the shape of a release and of a return to RESERVED. -/
def State.leaveSlot (s : State) (i : Nat) (g : Slot → Slot) : State := (s.dropSlotOfTag (s.slot i).tag).modSlot i g

theorem State.releaseSlot_eq (s : State) (i : Nat) : s.releaseSlot i = s.leaveSlot i Slot.release := rfl

theorem State.unfillSlot_eq (s : State) (i : Nat) : s.unfillSlot i = s.leaveSlot i Slot.unfill := rfl

theorem State.leaveSlot_frame (s : State) (i : Nat) (g : Slot → Slot) :
    (s.leaveSlot i g).link = s.link ∧ (s.leaveSlot i g).lanes = s.lanes ∧ s.rqu.sameButTags (s.leaveSlot i g).rqu
      ∧ (s.leaveSlot i g).pool.armed = s.pool.armed ∧ s.sameInputs (s.leaveSlot i g) := by
  obtain ⟨h1, h2, h3, h4, h5⟩ := s.dropSlotOfTag_frame (s.slot i).tag
  refine ⟨h1, h3, h4, ?_, h5⟩
  simp [State.leaveSlot, h2]

theorem State.slot_leaveSlot_ne (s : State) {i j : Nat} (g : Slot → Slot) (h : j ≠ i) : (s.leaveSlot i g).slot j = s.slot j := by
  rw [State.leaveSlot, State.slot_modSlot_ne _ _ h]
  simp [State.slot, (s.dropSlotOfTag_frame _).2.1]

theorem State.slot_leaveSlot_same (s : State) {i : Nat} (g : Slot → Slot) (h : i < 96) :
    (s.leaveSlot i g).slot i = g (s.slot i) := by
  rw [State.leaveSlot, State.slot_modSlot_same _ _ h]
  simp [State.slot, (s.dropSlotOfTag_frame _).2.1]

theorem State.tag_leaveSlot (s : State) (i u : Nat) (g : Slot → Slot) :
    (s.leaveSlot i g).tag u = if (s.slot i).tag = some u then (s.tag u).map TagEntry.dropSlot else s.tag u := by
  simp [State.leaveSlot, State.tag_dropSlotOfTag]

/-! ### Leaving several slots -/

/-- Several slots left one after another, each by its own change. -/
def State.leaveSlots (s : State) (is : List Nat) (g : Nat → Slot → Slot) : State := is.foldl (fun s i => s.leaveSlot i (g i)) s

theorem State.releaseSlots_eq (s : State) (is : List Nat) : s.releaseSlots is = s.leaveSlots is (fun _ => Slot.release) := rfl

theorem State.leaveSlots_frame (s : State) (is : List Nat) (g : Nat → Slot → Slot) :
    (s.leaveSlots is g).link = s.link ∧ (s.leaveSlots is g).lanes = s.lanes ∧ s.rqu.sameButTags (s.leaveSlots is g).rqu
      ∧ (s.leaveSlots is g).pool.armed = s.pool.armed ∧ s.sameInputs (s.leaveSlots is g) := by
  unfold State.leaveSlots
  induction is generalizing s with
  | nil => exact ⟨rfl, rfl, rfl, rfl, rfl, rfl, rfl⟩
  | cons i is ih =>
    obtain ⟨h1, h2, h3, h4, h5⟩ := s.leaveSlot_frame i (g i)
    obtain ⟨k1, k2, k3, k4, k5⟩ := ih (s.leaveSlot i (g i))
    refine ⟨k1.trans h1, k2.trans h2, ?_, k4.trans h4, ?_⟩
    · rw [Rqu.sameButTags, List.foldl_cons, k3, h3]
    · exact ⟨k5.1.trans h5.1, k5.2.1.trans h5.2.1, k5.2.2.trans h5.2.2⟩

theorem State.slot_leaveSlots_ne (s : State) (is : List Nat) (g : Nat → Slot → Slot) {j : Nat} (h : j ∉ is) :
    (s.leaveSlots is g).slot j = s.slot j := by
  unfold State.leaveSlots
  induction is generalizing s with
  | nil => rfl
  | cons i is ih => rw [List.foldl_cons, ih _ (by simp_all), State.slot_leaveSlot_ne _ _ (by simp_all)]

theorem State.slot_leaveSlots_mem (s : State) {is : List Nat} (g : Nat → Slot → Slot) {j : Nat} (hn : is.Nodup) (h : j ∈ is)
    (hj : j < 96) : (s.leaveSlots is g).slot j = g j (s.slot j) := by
  unfold State.leaveSlots
  induction is generalizing s with
  | nil => simp at h
  | cons i is ih =>
    rw [List.foldl_cons]
    obtain ⟨hi, hn⟩ := List.nodup_cons.mp hn
    rcases List.mem_cons.mp h with rfl | hm
    · have := State.slot_leaveSlots_ne (s.leaveSlot j (g j)) is g hi
      unfold State.leaveSlots at this
      rw [this, State.slot_leaveSlot_same _ _ hj]
    · rw [ih _ hn hm, State.slot_leaveSlot_ne]
      rintro rfl
      exact hi hm

/-- The tag table after several slots are left: the tags they hold no longer name a slot. -/
theorem State.tag_leaveSlots (s : State) {is : List Nat} (g : Nat → Slot → Slot) (hn : is.Nodup) (u : Nat) :
    (s.leaveSlots is g).tag u
      = if ∃ i ∈ is, (s.slot i).tag = some u then (s.tag u).map TagEntry.dropSlot else s.tag u := by
  unfold State.leaveSlots
  induction is generalizing s with
  | nil => simp
  | cons i is ih =>
    obtain ⟨hi, hn⟩ := List.nodup_cons.mp hn
    rw [List.foldl_cons, ih _ hn, State.tag_leaveSlot]
    have hs : ∀ j ∈ is, (s.leaveSlot i (g i)).slot j = s.slot j := fun j hj =>
      State.slot_leaveSlot_ne _ _ (by rintro rfl; exact hi hj)
    have hiff : (∃ j ∈ is, ((s.leaveSlot i (g i)).slot j).tag = some u) ↔ ∃ j ∈ is, (s.slot j).tag = some u :=
      ⟨fun ⟨j, hj, h⟩ => ⟨j, hj, by rwa [hs j hj] at h⟩, fun ⟨j, hj, h⟩ => ⟨j, hj, by rwa [hs j hj]⟩⟩
    simp only [hiff, List.exists_mem_cons_iff]
    by_cases h1 : (s.slot i).tag = some u <;> by_cases h2 : ∃ j ∈ is, (s.slot j).tag = some u <;>
      rcases s.tag u with _ | e <;> simp [h1, h2, TagEntry.dropSlot]

/-- A tag that none of the slots left holds keeps its entry. -/
theorem State.leaveSlots_tag_none (s : State) {is : List Nat} (g : Nat → Slot → Slot) (hn : is.Nodup) {u : Nat}
    (h : ∀ i ∈ is, (s.slot i).tag ≠ some u) : (s.leaveSlots is g).tag u = s.tag u := by
  rw [State.tag_leaveSlots s g hn, if_neg]
  rintro ⟨i, hi, ht⟩
  exact h i hi ht

/-! ### Slots whose writes end -/

/-- The tags of slots that hold one tag each and no two the same do not repeat. -/
theorem State.WritesOpen.tags_nodup {s : State} {hit : Nat → Prop} (h : s.WritesOpen hit) {is : List Nat} (hn : is.Nodup)
    (hi : ∀ i ∈ is, hit i) : (is.filterMap (fun i => (s.slot i).tag)).Nodup := by
  refine List.pairwise_filterMap.mpr (hn.imp_of_mem fun ha hb hne t ht u hu => ?_)
  rintro rfl
  exact hne (h.1 _ _ t (hi _ ha) (hi _ hb) ht hu)

/-- The replies of slots left, told by the tags after they are left: a reply that does not read the slot of its entry is the same. -/
theorem State.slotReplies_leaveSlots (s : State) {is js : List Nat} (g : Nat → Slot → Slot) (hn : is.Nodup)
    (reply : Nat → Nat → TagEntry → QueueEntry) (hr : ∀ i t e, reply i t e.dropSlot = reply i t e) :
    js.filterMap (fun i => (s.slot i).tag.bind (fun t => ((s.leaveSlots is g).tag t).map (reply i t)))
      = s.slotReplies js reply := by
  refine List.filterMap_congr fun i _ => Option.bind_congr fun t _ => ?_
  rw [State.tag_leaveSlots s g hn]
  split
  · rw [Option.map_map]
    exact congrArg (fun f => (s.tag t).map f) (funext (hr i t))
  · rfl

/-! ### Ordering -/

theorem insertByKey_perm {α : Type} (key : α → Nat) (a : α) (l : List α) : (insertByKey key a l).Perm (a :: l) := by
  induction l with
  | nil => exact .refl _
  | cons b l ih =>
    unfold insertByKey
    split
    · exact .refl _
    · exact (ih.cons b).trans (.swap a b l)

theorem sortByKey_perm {α : Type} (key : α → Nat) (l : List α) : (sortByKey key l).Perm l := by
  induction l with
  | nil => exact .refl _
  | cons a l ih => exact (insertByKey_perm key a _).trans (ih.cons a)

theorem mem_sortByKey {α : Type} (key : α → Nat) (l : List α) (a : α) : a ∈ sortByKey key l ↔ a ∈ l := (sortByKey_perm key l).mem_iff

theorem sortByKey_nodup {α : Type} (key : α → Nat) {l : List α} (h : l.Nodup) : (sortByKey key l).Nodup :=
  (sortByKey_perm key l).nodup_iff.mpr h

theorem insertByKey_pairwise {α : Type} (key : α → Nat) (a : α) {l : List α} (h : l.Pairwise (fun a b => key a ≤ key b)) :
    (insertByKey key a l).Pairwise (fun a b => key a ≤ key b) := by
  induction l with
  | nil => simp [insertByKey]
  | cons b l ih =>
    obtain ⟨hb, hl⟩ := List.pairwise_cons.mp h
    unfold insertByKey
    split
    · rename_i hc
      refine List.pairwise_cons.mpr ⟨fun c hm => ?_, h⟩
      rcases List.mem_cons.mp hm with rfl | hm
      · exact hc.le
      · exact hc.le.trans (hb c hm)
    · rename_i hc
      refine List.pairwise_cons.mpr ⟨fun c hm => ?_, ih hl⟩
      rcases List.mem_cons.mp ((insertByKey_perm key a l).mem_iff.mp hm) with rfl | hm
      · exact Nat.le_of_not_lt hc
      · exact hb c hm

/-- A sorted list rises by its key. -/
theorem sortByKey_pairwise {α : Type} (key : α → Nat) (l : List α) : (sortByKey key l).Pairwise (fun a b => key a ≤ key b) := by
  induction l with
  | nil => exact .nil
  | cons a l ih => exact insertByKey_pairwise key a ih

end Sys2Proof.Machine
end

