-- ==== Sys2Proof/Laws/Lanes.lean ====
section
/-! SUPPORT. What the operations on one lane do: the test of R28 and the start and end of operations. -/

namespace Sys2Proof.Machine

/-- A lane with an operation in flight is one of the four. -/
theorem State.lane_lt_of_engine (s : State) {x : Nat} {op : Operation} (h : (s.lane x).engine = some op) : x < 4 := by
  by_contra hx
  simp [State.lane_out s hx, Lane.powerOn] at h

/-- A lane with a job in flight is one of the four. -/
theorem State.lane_lt_of_job (s : State) {x : Nat} {j : Job} (h : (s.lane x).job = some j) : x < 4 := by
  by_contra hx
  simp [State.lane_out s hx, Lane.powerOn] at h

/-- A lane that is not SCANNING is one of the four. -/
theorem State.lane_lt_of_state (s : State) {x : Nat} (h : (s.lane x).state ≠ .scanning) : x < 4 := by
  by_contra hx
  simp [State.lane_out s hx, Lane.powerOn] at h

/-- A record that is not ERASED is one of the lane's 1,024. -/
theorem State.record_lt (s : State) {x b : Nat} (h : (s.record x b).state ≠ .erased) : b < 1024 := by
  by_contra hb
  simp [State.record, Lane.record_out _ hb, BlockRec.unbuilt] at h

theorem State.modLane_eq_setLane (s : State) (x : Nat) (f : Lane → Lane) : s.modLane x f = s.setLane x (f (s.lane x)) := rfl

/-! ### The test of R28 -/

/-- The record changes in ready_pass alone. -/
theorem BlockRec.sameButReady.refl (r : BlockRec) : r.sameButReady r := rfl

theorem Lane.unready_frame (l : Lane) (b : Nat) :
    l.unready b = { l with records := (l.unready b).records, readyList := (l.unready b).readyList, readRun := (l.unready b).readRun } :=
  rfl

theorem Lane.makeReady_frame (l : Lane) (b : Nat) (p : Pass) :
    l.makeReady b p
      = { l with records := (l.makeReady b p).records, readyList := (l.makeReady b p).readyList,
                 readRun := (l.makeReady b p).readRun } := rfl

theorem Lane.record_makeReady_same (l : Lane) {b : Nat} (p : Pass) (h : b < 1024) :
    (l.makeReady b p).record b = { l.record b with readyPass := some p } := Lane.record_modRecord_same _ _ h

theorem Lane.record_makeReady_ne (l : Lane) {b c : Nat} (p : Pass) (h : c ≠ b) : (l.makeReady b p).record c = l.record c :=
  Lane.record_modRecord_ne _ _ h

theorem Lane.record_unready_same (l : Lane) {b : Nat} (h : b < 1024) :
    (l.unready b).record b = { l.record b with readyPass := none } := Lane.record_modRecord_same _ _ h

theorem Lane.record_unready_ne (l : Lane) {b c : Nat} (h : c ≠ b) : (l.unready b).record c = l.record c :=
  Lane.record_modRecord_ne _ _ h

/-- The test of R28 does nothing, or makes a pass ready, or takes the block off the ready list. -/
theorem State.testBlock_cases (s : State) (x b : Nat) :
    (s.testBlock x b = s ∧ ((s.record x b).running = false → (s.record x b).readyPass = none))
      ∨ ((s.record x b).running = true ∧ (s.record x b).readyPass = none ∧ (s.lane x).passInFlight b = false
          ∧ ∃ p, s.eligible x b = some p ∧ s.testBlock x b = s.modLane x (fun l => l.makeReady b p))
      ∨ ((s.record x b).running = false ∧ s.testBlock x b = s.modLane x (fun l => l.unready b)) := by
  unfold State.testBlock
  rcases hr : (s.record x b).running with _ | _
  · rcases hp : (s.record x b).readyPass with _ | p
    · exact .inl ⟨by simp [hr, hp], fun _ => rfl⟩
    · exact .inr (.inr ⟨rfl, by simp [hr, hp]⟩)
  · rcases hp : (s.record x b).readyPass with _ | p
    · rcases hf : (s.lane x).passInFlight b with _ | _
      · rcases he : s.eligible x b with _ | p
        · exact .inl ⟨by simp [hr, hp], by simp⟩
        · exact .inr (.inl ⟨rfl, rfl, rfl, p, rfl, by simp [hr, hp]⟩)
      · exact .inl ⟨by simp [hr, hp], by simp⟩
    · exact .inl ⟨by simp [hr, hp], by simp⟩

/-- The test of R28 reaches the lane's records, ready list and read_run alone. -/
theorem State.testBlock_frame (s : State) (x b : Nat) :
    (s.testBlock x b).link = s.link ∧ (s.testBlock x b).rqu = s.rqu ∧ (s.testBlock x b).pool = s.pool
      ∧ s.sameInputs (s.testBlock x b) ∧ s.sameLanesBut (s.testBlock x b) x
      ∧ (s.testBlock x b).lane x
        = { s.lane x with
            records := ((s.testBlock x b).lane x).records
            readyList := ((s.testBlock x b).lane x).readyList
            readRun := ((s.testBlock x b).lane x).readRun }
      ∧ (s.lane x).sameRecordsBut ((s.testBlock x b).lane x) b := by
  have key : ∀ f : Lane → Lane,
      (∀ l : Lane, f l = { l with records := (f l).records, readyList := (f l).readyList, readRun := (f l).readRun }) → (∀ l c, c ≠ b → (f l).record c = l.record c) →
      (s.modLane x f).link = s.link ∧ (s.modLane x f).rqu = s.rqu ∧ (s.modLane x f).pool = s.pool
        ∧ s.sameInputs (s.modLane x f) ∧ s.sameLanesBut (s.modLane x f) x
        ∧ (s.modLane x f).lane x
          = { s.lane x with
              records := ((s.modLane x f).lane x).records
              readyList := ((s.modLane x f).lane x).readyList
              readRun := ((s.modLane x f).lane x).readRun }
        ∧ (s.lane x).sameRecordsBut ((s.modLane x f).lane x) b := by
    intro f h1 h2
    refine ⟨rfl, rfl, rfl, ⟨rfl, rfl, rfl⟩, fun y hy => State.lane_modLane_ne s f hy, ?_, ?_⟩
    · by_cases hx : x < 4
      · rw [State.lane_modLane_same s f hx]; exact h1 _
      · rw [State.lane_modLane_out s f hx]
    · intro c hc
      by_cases hx : x < 4
      · rw [State.lane_modLane_same s f hx]; exact h2 _ c hc
      · rw [State.lane_modLane_out s f hx]
  rcases s.testBlock_cases x b with ⟨h, -⟩ | ⟨-, -, -, p, -, h⟩ | ⟨-, h⟩
  · rw [h]; exact ⟨rfl, rfl, rfl, ⟨rfl, rfl, rfl⟩, fun _ _ => rfl, rfl, fun _ _ => rfl⟩
  · rw [h]
    exact key _ (fun l => l.makeReady_frame b p) (fun l c hc => l.record_makeReady_ne p hc)
  · rw [h]
    exact key _ (fun l => l.unready_frame b) (fun l c hc => l.record_unready_ne hc)

/-- The test of R28 changes the block's record in ready_pass alone. -/
theorem State.testBlock_record (s : State) (x b : Nat) : (s.record x b).sameButReady ((s.testBlock x b).record x b) := by
  by_cases hx : x < 4
  · by_cases hb : b < 1024
    · rcases s.testBlock_cases x b with ⟨h, -⟩ | ⟨-, -, -, p, -, h⟩ | ⟨-, h⟩ <;> rw [h]
      · exact rfl
      · rw [State.record_modLane s b _ hx, Lane.record_makeReady_same _ _ hb]; rfl
      · rw [State.record_modLane s b _ hx, Lane.record_unready_same _ hb]; rfl
    · simp [State.record, Lane.record_out _ hb, BlockRec.sameButReady]
  · have : (s.testBlock x b).lane x = s.lane x := by rw [State.lane_out _ hx, State.lane_out _ hx]
    simp [State.record, this, BlockRec.sameButReady]

/-- A block that is neither OPEN nor CLOSING has no ready pass after the test of R28. -/
theorem State.testBlock_record_rest (s : State) {x b : Nat} (hx : x < 4) (hb : b < 1024) (h : (s.record x b).running = false) :
    (s.testBlock x b).record x b = { s.record x b with readyPass := none } := by
  rcases s.testBlock_cases x b with ⟨h1, h2⟩ | ⟨h1, -⟩ | ⟨-, h1⟩
  · rw [h1]
    rw [← h2 h]
  · simp [h] at h1
  · rw [h1]
    rw [State.record_modLane s b _ hx, Lane.record_unready_same _ hb]; rfl

theorem State.testBlock_slot (s : State) (x b i : Nat) : (s.testBlock x b).slot i = s.slot i := by
  simp [State.slot, (s.testBlock_frame x b).2.2.1]

theorem State.testBlock_tag (s : State) (x b t : Nat) : (s.testBlock x b).tag t = s.tag t := by
  simp [State.tag, (s.testBlock_frame x b).2.1]

/-- What is eligible follows the block's record, but for ready_pass, and the slots. -/
theorem State.eligible_congr {s m : State} {x b : Nat} (hr : (s.record x b).sameButReady (m.record x b))
    (hs : ∀ i, m.slot i = s.slot i) : m.eligible x b = s.eligible x b := by
  have hs' : m.slot = s.slot := funext hs
  rw [BlockRec.sameButReady] at hr
  have h1 : m.stagedPage x b = s.stagedPage x b := by
    funext p
    simp only [State.stagedPage, State.slotOf, hs']
  have h2 : m.stripSettled x b = s.stripSettled x b := by
    funext n
    simp only [State.stripSettled, State.ownedSlots, hs']
  unfold State.eligible State.roughEligible State.terminatorEligible
  rw [h1, h2, hr]
  rfl

theorem Lane.passInFlight_iff (l : Lane) (b : Nat) : l.passInFlight b = true ↔ ∃ q, l.job = some (.pass b q) := by
  unfold Lane.passInFlight
  split
  · rename_i b' q h
    simp [h]
  · rename_i h
    exact ⟨fun e => (nomatch e), fun ⟨q, hq⟩ => absurd hq (h b q)⟩

theorem BlockRec.running_iff (r : BlockRec) : r.running = true ↔ r.state = .opened ∨ r.state = .closing := by
  simp [BlockRec.running]

/-- The test of R28 as the statements give it, for a block of a lane whose ready list stands as it did. -/
theorem State.testBlock_tested {s k : State} {x b : Nat} (hx : x < 4) (hb : b < 1024)
    (hlist : (k.lane x).readyList = (s.lane x).readyList) (hrun : (k.lane x).readRun = (s.lane x).readRun) :
    s.BlockTested (k.testBlock x b) x b (k.record x b).readyPass := by
  have hframe := k.testBlock_frame x b
  have hjob : ((k.testBlock x b).lane x).job = (k.lane x).job := by rw [hframe.2.2.2.2.2.1]
  have hel := eligible_congr (k.testBlock_record x b) (k.testBlock_slot x b)
  have hst : ((k.testBlock x b).record x b).state = (k.record x b).state := by
    have h := k.testBlock_record x b
    rw [BlockRec.sameButReady] at h
    rw [h]
  unfold State.BlockTested
  dsimp only
  rw [hst, hjob, hel, ← BlockRec.running_iff, ← Lane.passInFlight_iff, ← hlist, ← hrun]
  rcases hr : (k.record x b).running with _ | _
  · refine ⟨fun h => (nomatch h), fun h => (nomatch h), fun _ h => ?_, fun _ h => ?_⟩
    · have hp : k.testBlock x b = k.modLane x (fun l => l.unready b) := by
        unfold State.testBlock
        simp [hr, Option.isSome_iff_ne_none.mpr h]
      rw [hp, State.record_modLane k b _ hx, State.lane_modLane_same k _ hx, Lane.record_unready_same _ hb]
      refine ⟨rfl, rfl, ?_⟩
      simp [Lane.unready, Lane.setReady, Lane.modRecord]
    · have hp : k.testBlock x b = k := by
        unfold State.testBlock
        simp [hr, h]
      rw [hp]
      exact ⟨h, rfl, rfl⟩
  · refine ⟨fun _ h1 h2 q hq => ?_, fun _ h => ?_, fun h => absurd rfl h, fun h => absurd rfl h⟩
    · have hp : k.testBlock x b = k.modLane x (fun l => l.makeReady b q) := by
        unfold State.testBlock
        simp [hr, h1, Bool.eq_false_iff.mpr h2, hq]
      rw [hp, State.record_modLane k b _ hx, State.lane_modLane_same k _ hx, Lane.record_makeReady_same _ _ hb]
      refine ⟨rfl, rfl, ?_⟩
      simp [Lane.makeReady, Lane.setReady, Lane.modRecord]
    · have hp : k.testBlock x b = k := by
        unfold State.testBlock
        rcases h with h | h | h
        · simp [hr, Option.isNone_eq_false_iff.mpr (Option.isSome_iff_ne_none.mpr h)]
        · simp [hr, h]
        · simp [hr, h]
      rw [hp]
      exact ⟨rfl, rfl, rfl⟩

/-- The test as it stands in a state that differs in the link and the request unit alone. -/
theorem State.BlockTested.congr {s m m' : State} {x b : Nat} {before : Option Pass} (h : s.BlockTested m x b before)
    (hl : m'.lanes = m.lanes) (hp : m'.pool = m.pool) : s.BlockTested m' x b before := by
  have lane : ∀ y, m'.lane y = m.lane y := fun y => by rw [State.lane, State.lane, hl]
  have hrec : m'.record x b = m.record x b := by rw [State.record, State.record, lane]
  have hel : m'.eligible x b = m.eligible x b :=
    eligible_congr (by rw [hrec]; rfl) (fun i => by rw [State.slot, State.slot, hp])
  unfold State.BlockTested
  rw [hrec, lane, hel]
  exact h

/-! ### The end of a CLOSE -/

theorem State.endClose_frame (s : State) (x b : Nat) (st : Status) : s.OnlyReplies (s.endClose x b st) := by
  unfold State.endClose
  split
  · exact s.finish_frame _ _ _ _
  · exact .refl s

theorem State.mem_tagsWhere (s : State) (p : TagEntry → Bool) (t : Nat) : t ∈ s.tagsWhere p ↔ ∃ e, s.tag t = some e ∧ p e = true := by
  simp only [State.tagsWhere, List.mem_filter, tagNumbers, List.mem_range]
  constructor
  · rintro ⟨-, h⟩
    split at h
    · exact ⟨_, ‹_›, h⟩
    · cases h
  · rintro ⟨e, h, hp⟩
    exact ⟨s.tag_lt h, by simp [h, hp]⟩

/-- The live CLOSE of the block, when there is one alone, is the tag that ends. -/
theorem State.endClose_eq (s : State) {x b t : Nat} {e : TagEntry} (st : Status) (h : s.tag t = some e) (hk : e.kind = .close)
    (hs : e.state = .waiting) (hl : e.lane = some x) (hb : e.block = some b)
    (hu : ∀ u g, s.tag u = some g → g.kind = .close → g.state = .waiting → g.lane = some x → g.block = some b → u = t) :
    s.endClose x b st = s.finish t st (.block x b) none := by
  unfold State.endClose
  have hm : ∀ u, u ∈ s.tagsWhere (fun e => decide (e.kind = .close) && decide (e.state = .waiting) && decide (e.lane = some x)
      && decide (e.block = some b)) → u = t := by
    intro u hu'
    obtain ⟨g, hg, hp⟩ := (s.mem_tagsWhere _ u).mp hu'
    simp only [Bool.and_eq_true, decide_eq_true_eq] at hp
    exact hu u g hg hp.1.1.1 hp.1.1.2 hp.1.2 hp.2
  have ht : t ∈ s.tagsWhere (fun e => decide (e.kind = .close) && decide (e.state = .waiting) && decide (e.lane = some x)
      && decide (e.block = some b)) := (s.mem_tagsWhere _ t).mpr ⟨e, h, by simp [hk, hs, hl, hb]⟩
  rcases hl' : s.tagsWhere (fun e => decide (e.kind = .close) && decide (e.state = .waiting) && decide (e.lane = some x)
      && decide (e.block = some b)) with _ | ⟨u, us⟩
  · simp [hl'] at ht
  · obtain rfl := hm u (by simp [hl'])
    rfl

/-- Only a CLOSE of the block in WAITING can end. -/
theorem State.endClose_tag_other (s : State) (x b t : Nat) (st : Status)
    (h : ∀ e, s.tag t = some e → ¬(e.kind = .close ∧ e.state = .waiting ∧ e.lane = some x ∧ e.block = some b)) :
    (s.endClose x b st).tag t = s.tag t := by
  unfold State.endClose
  split
  · rename_i u hu
    obtain ⟨e, he, hp⟩ := (s.mem_tagsWhere _ u).mp (List.mem_of_head? hu)
    rw [State.finish_tag, if_neg]
    rintro rfl
    simp only [Bool.and_eq_true, decide_eq_true_eq] at hp
    exact h e he ⟨hp.1.1.1, hp.1.1.2, hp.1.2, hp.2⟩
  · rfl

end Sys2Proof.Machine
end

