-- ==== Sys2Proof/Laws/Passes.lean ====
section
/-! SUPPORT. What the end of a pass does: the strip's slots, its tags, and the state each outcome leaves. -/

namespace Sys2Proof.Machine

/-- The lane's pass has ended with outcome `e`: engine and job gone, the array changed. -/
def State.passEnded (s : State) (x : Nat) (op : Operation) (e : Ending) : State :=
  s.modLane x (fun l => { l.endOperation op e with job := none })

theorem State.passEnded_lane (s : State) {x : Nat} (op : Operation) (e : Ending) (h : x < 4) :
    (s.passEnded x op e).lane x = { (s.lane x).endOperation op e with job := none } := State.lane_modLane_same s _ h

/-- The end of a pass in flight whose outcome is PASS. -/
theorem endPass_pass {kind : PassKind} (passed : State → Nat → Nat → Nat → State) {x : Nat} {e : Ending} {s : State} {op : Operation}
    {b n : Nat} (h : s.inReset = false) (ho : (s.lane x).engine = some op)
    (hj : (s.lane x).job = some (.pass b { kind := kind, strip := n })) (hk : op.passKind = some kind)
    (hout : op.outcome (s.lane x).array e = .pass) :
    endPass kind passed x e s
      = .next (s.conclude [x] ((passed (s.passEnded x op .pass) x b n).testBlock x b)) := by
  simp only [endPass, unlessReset, h, ho, hj, hk, happen, hout]
  rfl

/-- The end of a pass in flight whose outcome is FAIL. -/
theorem endPass_fail {kind : PassKind} (passed : State → Nat → Nat → Nat → State) {x : Nat} {e : Ending} {s : State} {op : Operation}
    {b n : Nat} (h : s.inReset = false) (ho : (s.lane x).engine = some op)
    (hj : (s.lane x).job = some (.pass b { kind := kind, strip := n })) (hk : op.passKind = some kind)
    (hout : op.outcome (s.lane x).array e = .fail) :
    endPass kind passed x e s
      = .next (s.conclude [x] (((s.passEnded x op .fail).passFailed x b).testBlock x b)) := by
  simp only [endPass, unlessReset, h, ho, hj, hk, happen, hout]
  rfl

/-! ### The slots of a strip -/

theorem mem_stripPages {n p : Nat} : p ∈ stripPages n ↔ ∃ k, k < 4 ∧ p = 4 * n + k := by
  constructor
  · intro h
    refine ⟨p - 4 * n, ?_⟩
    simp [stripPages] at h
    omega
  · rintro ⟨k, hk, rfl⟩
    simp [stripPages]
    omega

theorem State.mem_stripSlots (s : State) (x b n i : Nat) :
    i ∈ s.stripSlots x b n ↔ ∃ k, k < 4 ∧ s.slotOf x b (4 * n + k) = some i := by
  simp only [State.stripSlots, List.mem_filterMap, mem_stripPages]
  constructor
  · rintro ⟨p, ⟨k, hk, rfl⟩, h⟩; exact ⟨k, hk, h⟩
  · rintro ⟨k, hk, h⟩; exact ⟨_, ⟨k, hk, rfl⟩, h⟩

theorem State.stripSlots_nodup (s : State) (x b n : Nat) : (s.stripSlots x b n).Nodup := by
  unfold State.stripSlots
  refine List.Nodup.filterMap ?_ (by simp [stripPages])
  intro p q i hp hq
  have h1 := State.slotOf_owner (by simpa using hp)
  have h2 := State.slotOf_owner (by simpa using hq)
  simpa using h1.2.symm.trans h2.2

/-! ### Finalizing the pages of a strip -/

/-- The frame of finalizing: slots, the tag table and replies change, and nothing else. -/
theorem State.finalize_frame (s : State) (is : List Nat) :
    (s.finalize is).lanes = s.lanes ∧ s.rqu.sameButTags (s.finalize is).rqu ∧ s.link.sameButReplies (s.finalize is).link
      ∧ (s.finalize is).pool.armed = s.pool.armed ∧ s.sameInputs (s.finalize is) := by
  obtain ⟨h1, h2, h3, h4, h5⟩ := s.leaveSlots_frame is (fun _ => Slot.release)
  have h := State.endDurables_frame (s.releaseSlots is) (is.filterMap (fun i => (s.slot i).tag))
  rw [State.releaseSlots_eq] at h
  unfold State.finalize
  rw [State.releaseSlots_eq]
  refine ⟨h.lanes.trans h2, ?_, ?_, ?_, ?_⟩
  · rw [Rqu.sameButTags, h.rqu, h3]
  · rw [Link.sameButReplies, h.link, h1]
  · rw [h.pool, h4]
  · exact ⟨h.inputs.1.trans h5.1, h.inputs.2.1.trans h5.2.1, h.inputs.2.2.trans h5.2.2⟩

/-- Each slot finalized is released, and no other slot changes. -/
theorem State.finalize_slot (s : State) {is : List Nat} (hn : is.Nodup) {i : Nat} (hi : i < 96) :
    (s.finalize is).slot i = if i ∈ is then (s.slot i).release else s.slot i := by
  have h := State.endDurables_frame (s.releaseSlots is) (is.filterMap (fun i => (s.slot i).tag))
  unfold State.finalize
  rw [h.slot, State.releaseSlots_eq]
  split
  · rw [State.slot_leaveSlots_mem s _ hn ‹_› hi]
  · rw [State.slot_leaveSlots_ne s _ _ ‹_›]

/-- The tags of the slots finalized are REPLYING and name no slot; no other entry changes. -/
theorem State.finalize_tag (s : State) {is : List Nat} (hn : is.Nodup) (t : Nat) :
    (s.finalize is).tag t
      = if ∃ i ∈ is, (s.slot i).tag = some t then (s.tag t).map (fun e => { e with state := .replying, slot := none })
        else s.tag t := by
  unfold State.finalize
  rw [State.endDurables_tag, State.releaseSlots_eq, State.tag_leaveSlots s _ hn]
  simp only [List.mem_filterMap]
  split
  · rcases s.tag t <;> simp [TagEntry.dropSlot]
  · rfl

/-- The DURABLE reply of each tag finalized is kept, with the physical block that serves its block. -/
theorem State.finalize_keeps (s : State) {is : List Nat} (hn : is.Nodup) {i t : Nat} {e : TagEntry} (hi : i ∈ is)
    (ht : (s.slot i).tag = some t) (h : s.tag t = some e) (he : e.state ≠ .replying) :
    (s.finalize is).link.keeps (s.durableReply t e) := by
  obtain ⟨-, h2, -⟩ := s.leaveSlots_frame is (fun _ => Slot.release)
  have hd : (s.releaseSlots is).tag t = some e.dropSlot := by
    rw [State.releaseSlots_eq, State.tag_leaveSlots s _ hn, if_pos ⟨i, hi, ht⟩, h]; rfl
  have hr := State.durableReply_congr (s := s) (m := s.releaseSlots is) t (e := e) (g := e.dropSlot)
    (fun x b => by simp [State.record, State.lane, State.releaseSlots_eq, h2]) rfl rfl rfl rfl
  rw [← hr]
  exact State.endDurables_keeps _ _ hd he (List.mem_filterMap.mpr ⟨i, hi, ht⟩)

/-- The DURABLE replies take their places in the order of the slots (R79). -/
theorem State.finalize_link (s : State) {is : List Nat} (hn : is.Nodup) (h : s.WritesOpen (fun i => i ∈ is)) :
    (s.finalize is).link = (s.slotReplies is (fun _ => s.durableReply)).foldl Link.placeFinal s.link := by
  obtain ⟨h1, h2, -⟩ := s.leaveSlots_frame is (fun _ => Slot.release)
  have hr : ∀ t, (s.leaveSlots is (fun _ => Slot.release)).durableReply t = s.durableReply t := fun t =>
    funext fun e => State.durableReply_congr t (fun x b => by simp [State.record, State.lane, h2]) rfl rfl rfl rfl
  unfold State.finalize
  rw [State.releaseSlots_eq, State.endDurables_link _ _ (h.tags_nodup hn fun _ hi => hi)]
  · rw [h1, List.filterMap_filterMap]
    refine congrArg (fun l => List.foldl Link.placeFinal s.link l) ?_
    refine Eq.trans ?_ (State.slotReplies_leaveSlots s (fun _ => Slot.release) hn _ (fun _ _ _ => rfl))
    simp only [hr]
  · intro t ht e he
    obtain ⟨i, hi, hit⟩ := List.mem_filterMap.mp ht
    rw [State.tag_leaveSlots s _ hn] at he
    rcases hs : s.tag t with _ | g
    · simp [hs] at he
    · have hg := h.2 i t g hi hit hs
      simp only [hs] at he
      split at he <;> cases he <;> exact hg

end Sys2Proof.Machine
end

