-- ==== Sys2Proof/Laws/PerInstr.lean ====
section
/-! SUPPORT. Statements made per command: the lane a well-formed command names is one of the four. -/

namespace Sys2Proof.Laws

/-- The lane a command names as an operand. -/
def LaneNamed.lane : Instr → Option Nat
  | .badFrame _ _ => none
  | .sequencedFrame _ => none
  | .sync _ => none
  | .ackTimerExpiry => none
  | .malformedFrameTaken => none
  | .identify => none
  | .configure => none
  | .readSettings => none
  | .blockStatus => none
  | .poolStatus => none
  | .tagStatus => none
  | .abort => none
  | .relocate => none
  | .discard => none
  | .read => none
  | .erase => none
  | .write => none
  | .close => none
  | .laneReset => none
  | .partReset => none
  | .data => none
  | .transferTimeout _ => none
  | .dataRoughEnd x _ => some x
  | .terminatorRoughEnd x _ => some x
  | .finalEnd x _ => some x
  | .singleEnd x _ => some x
  | .senseEnd x _ => some x
  | .decodeEnd x _ => some x
  | .inPlaceEraseEnd x _ => some x
  | .reserveEraseEnd x _ => some x
  | .directoryWriteEnd x _ => some x
  | .directoryReadEnd r => some r.lane
  | .surveyEnd x => some x
  | .rspDeparture => none
  | .dataFrameDeparture => none
  | .noteDeparture => none
  | .linkControlDeparture => none
  | .wpChanged => none
  | .rstAsserted => none
  | .rstReleased => none

/-- A well-formed command that names a lane names one of lanes 0 to 3. -/
def LaneNamed.Statement (i : Instr) : Prop := i.wellFormed = true → ∀ x, LaneNamed.lane i = some x → x < 4

theorem LaneNamed.badFrame (ending : FrameEnding) (bytes : List Byte) : LaneNamed.Statement (.badFrame ending bytes) := by
  intro _ x hx
  cases hx

theorem LaneNamed.sequencedFrame (bytes : List Byte) : LaneNamed.Statement (.sequencedFrame bytes) := by
  intro _ x hx
  cases hx

theorem LaneNamed.sync (bytes : List Byte) : LaneNamed.Statement (.sync bytes) := by
  intro _ x hx
  cases hx

theorem LaneNamed.ackTimerExpiry : LaneNamed.Statement .ackTimerExpiry := by
  intro _ x hx
  cases hx

theorem LaneNamed.malformedFrameTaken : LaneNamed.Statement .malformedFrameTaken := by
  intro _ x hx
  cases hx

theorem LaneNamed.identify : LaneNamed.Statement .identify := by
  intro _ x hx
  cases hx

theorem LaneNamed.configure : LaneNamed.Statement .configure := by
  intro _ x hx
  cases hx

theorem LaneNamed.readSettings : LaneNamed.Statement .readSettings := by
  intro _ x hx
  cases hx

theorem LaneNamed.blockStatus : LaneNamed.Statement .blockStatus := by
  intro _ x hx
  cases hx

theorem LaneNamed.poolStatus : LaneNamed.Statement .poolStatus := by
  intro _ x hx
  cases hx

theorem LaneNamed.tagStatus : LaneNamed.Statement .tagStatus := by
  intro _ x hx
  cases hx

theorem LaneNamed.abort : LaneNamed.Statement .abort := by
  intro _ x hx
  cases hx

theorem LaneNamed.relocate : LaneNamed.Statement .relocate := by
  intro _ x hx
  cases hx

theorem LaneNamed.discard : LaneNamed.Statement .discard := by
  intro _ x hx
  cases hx

theorem LaneNamed.read : LaneNamed.Statement .read := by
  intro _ x hx
  cases hx

theorem LaneNamed.erase : LaneNamed.Statement .erase := by
  intro _ x hx
  cases hx

theorem LaneNamed.write : LaneNamed.Statement .write := by
  intro _ x hx
  cases hx

theorem LaneNamed.close : LaneNamed.Statement .close := by
  intro _ x hx
  cases hx

theorem LaneNamed.laneReset : LaneNamed.Statement .laneReset := by
  intro _ x hx
  cases hx

theorem LaneNamed.partReset : LaneNamed.Statement .partReset := by
  intro _ x hx
  cases hx

theorem LaneNamed.data : LaneNamed.Statement .data := by
  intro _ x hx
  cases hx

theorem LaneNamed.transferTimeout (slot : Nat) : LaneNamed.Statement (.transferTimeout slot) := by
  intro _ x hx
  cases hx

theorem LaneNamed.dataRoughEnd (lane : Nat) (ending : Ending) : LaneNamed.Statement (.dataRoughEnd lane ending) := by
  intro h x hx
  cases hx
  exact of_decide_eq_true h

theorem LaneNamed.terminatorRoughEnd (lane : Nat) (ending : Ending) : LaneNamed.Statement (.terminatorRoughEnd lane ending) := by
  intro h x hx
  cases hx
  exact of_decide_eq_true h

theorem LaneNamed.finalEnd (lane : Nat) (ending : Ending) : LaneNamed.Statement (.finalEnd lane ending) := by
  intro h x hx
  cases hx
  exact of_decide_eq_true h

theorem LaneNamed.singleEnd (lane : Nat) (ending : Ending) : LaneNamed.Statement (.singleEnd lane ending) := by
  intro h x hx
  cases hx
  exact of_decide_eq_true h

theorem LaneNamed.senseEnd (lane : Nat) (noise : List BitError) : LaneNamed.Statement (.senseEnd lane noise) := by
  intro h x hx
  cases hx
  exact of_decide_eq_true (Bool.and_eq_true_iff.mp h).1

theorem LaneNamed.decodeEnd (lane : Nat) (found : List Codeword) : LaneNamed.Statement (.decodeEnd lane found) := by
  intro h x hx
  cases hx
  exact of_decide_eq_true (Bool.and_eq_true_iff.mp h).1

theorem LaneNamed.inPlaceEraseEnd (lane : Nat) (ending : Ending) : LaneNamed.Statement (.inPlaceEraseEnd lane ending) := by
  intro h x hx
  cases hx
  exact of_decide_eq_true h

theorem LaneNamed.reserveEraseEnd (lane : Nat) (ending : Ending) : LaneNamed.Statement (.reserveEraseEnd lane ending) := by
  intro h x hx
  cases hx
  exact of_decide_eq_true h

theorem LaneNamed.directoryWriteEnd (lane : Nat) (ending : Ending) : LaneNamed.Statement (.directoryWriteEnd lane ending) := by
  intro h x hx
  cases hx
  exact of_decide_eq_true h

theorem LaneNamed.directoryReadEnd (scan : DirectoryRead) : LaneNamed.Statement (.directoryReadEnd scan) := by
  intro h x hx
  cases hx
  exact of_decide_eq_true h

theorem LaneNamed.surveyEnd (lane : Nat) : LaneNamed.Statement (.surveyEnd lane) := by
  intro h x hx
  cases hx
  exact of_decide_eq_true h

theorem LaneNamed.rspDeparture : LaneNamed.Statement .rspDeparture := by
  intro _ x hx
  cases hx

theorem LaneNamed.dataFrameDeparture : LaneNamed.Statement .dataFrameDeparture := by
  intro _ x hx
  cases hx

theorem LaneNamed.noteDeparture : LaneNamed.Statement .noteDeparture := by
  intro _ x hx
  cases hx

theorem LaneNamed.linkControlDeparture : LaneNamed.Statement .linkControlDeparture := by
  intro _ x hx
  cases hx

theorem LaneNamed.wpChanged : LaneNamed.Statement .wpChanged := by
  intro _ x hx
  cases hx

theorem LaneNamed.rstAsserted : LaneNamed.Statement .rstAsserted := by
  intro _ x hx
  cases hx

theorem LaneNamed.rstReleased : LaneNamed.Statement .rstReleased := by
  intro _ x hx
  cases hx

end Sys2Proof.Laws
end

