-- ==== Sys2Proof/Laws/Reads.lean ====
section
/-! SUPPORT. What sensing and decoding a page can do (R2, R7, R105), and what the end of a DIRECTORY read can do (R14, R182). -/

namespace Sys2Proof.Machine

/-! ### Distances (R105) -/

theorem bitCount_xor_self {w : Nat} (v : BitVec w) : bitCount (v ^^^ v) = 0 := by simp [bitCount]

theorem bitDistance_self : ∀ l : List Byte, bitDistance l l = 0
  | [] => rfl
  | b :: bs => by rw [bitDistance, bitCount_xor_self, bitDistance_self bs]

/-- A page sensed with no bit wrong is each sector's codeword as programmed. -/
theorem StoredPage.distance_encode (p : Page) {k : Nat} (hk : k < 8 := by decide) : p.encode.distance (p.codeword k) = 0 := by
  have hp : p.encode.parity[k]? = some (p.codeword k).parity := by simp [Page.encode, tabulate, hk]
  have hs : (p.codeword k).sector = k := rfl
  have hq : p.encode.page = p := rfl
  rw [StoredPage.distance, hs, hp, hq]
  rw [bitDistance_self, Option.getD_some, bitCount_xor_self]

/-! ### The search for a codeword (R105) -/

theorem mem_bytes (b v : Byte) : v ∈ b :: (List.range 256).map (BitVec.ofNat 8) :=
  List.mem_cons_of_mem _ (List.mem_map.mpr ⟨v.toNat, List.mem_range.mpr v.isLt, by simp⟩)

/-- A search that answers has found a list that satisfies the test and differs in few enough bits. -/
theorem searchNear_some {l m : List Byte} {n : Nat} {p : List Byte → Bool} (h : searchNear n l p = some m) :
    p m = true ∧ m.length = l.length ∧ bitDistance l m ≤ n := by
  induction l generalizing n p m with
  | nil =>
    unfold searchNear at h
    split at h <;> cases h
    exact ⟨‹_›, rfl, Nat.zero_le _⟩
  | cons b bs ih =>
    obtain ⟨v, -, hv⟩ := List.exists_of_findSome?_eq_some h
    simp only at hv
    split at hv
    · obtain ⟨r, hr, rfl⟩ := Option.map_eq_some_iff.mp hv
      obtain ⟨h1, h2, h3⟩ := ih hr
      exact ⟨h1, by simp [h2], by rw [bitDistance]; omega⟩
    · cases hv

/-- A search that answers nothing has left out no list that differs in few enough bits. -/
theorem searchNear_none {l m : List Byte} {n : Nat} {p : List Byte → Bool} (h : searchNear n l p = none) (hl : m.length = l.length)
    (hd : bitDistance l m ≤ n) : p m = false := by
  induction l generalizing n p m with
  | nil =>
    cases List.length_eq_zero_iff.mp hl
    unfold searchNear at h
    split at h
    · cases h
    · exact Bool.not_eq_true _ ▸ ‹_›
  | cons b bs ih =>
    match m, hl with
    | v :: r, hl =>
      have hv := List.findSome?_eq_none_iff.mp h v (mem_bytes b v)
      rw [bitDistance] at hd
      simp only [show bitCount (b ^^^ v) ≤ n by omega, if_true, Option.map_eq_none_iff] at hv
      exact ih (m := r) hv (Nat.succ.inj hl) (by omega)

/-- The bytes a codeword over `covered` covers are `covered`, when its length is the sector's. -/
theorem codewordOver_covered {k : Nat} {area l : List Byte} (h : l.length = if k = 7 then 1056 else 1024) :
    (codewordOver k area l).covered = l := by
  by_cases hk : k = 7
  · simp [codewordOver, Codeword.covered, hk, Config.chunkBytes]
  · simp only [hk, if_false] at h
    simp [codewordOver, Codeword.covered, hk, Config.chunkBytes, List.take_of_length_le (Nat.le_of_eq h)]

/-! ### Decoding (R105) -/

/-- The codeword is one of sector `k` in length: 1,024 data bytes, and a tag area of 32 bytes (R2). -/
def sectorCodeword (k : Nat) (c : Codeword) : Prop := c.sector = k ∧ c.bytes.length = 1024 ∧ c.tagArea.length = 32

/-- A page of 8,192 data bytes and a tag area of 32 holds codewords of its sectors. -/
theorem Page.codeword_sector {p : Page} {k : Nat} (hk : k < 8) (hd : p.data.length = 8192) (ht : p.tagArea.length = 32) :
    sectorCodeword k (p.codeword k) := by
  refine ⟨rfl, ?_, ht⟩
  simp [Page.codeword, Page.sector, Config.chunkBytes, hd]
  omega

theorem sectorCodeword.covered_length {k : Nat} {c : Codeword} (h : sectorCodeword k c) :
    c.covered.length = if k = 7 then 1056 else 1024 := by
  obtain ⟨h1, h2, h3⟩ := h
  subst h1
  unfold Codeword.covered
  split <;> simp [h2, h3]

/-- The distance is that of the bytes covered and that of their parity. -/
theorem StoredPage.distance_congr {raw : StoredPage} {c d : Codeword} (hs : c.sector = d.sector) (hc : c.covered = d.covered) :
    raw.distance c = raw.distance d := by
  unfold StoredPage.distance Codeword.parity
  rw [hs, hc]

/-- The search finds a codeword of the sector in reach, and finds none only if there is none. -/
theorem StoredPage.nearCodeword_cases (raw : StoredPage) {k : Nat} (hk : k < 8) (hd : raw.page.data.length = 8192)
    (ht : raw.page.tagArea.length = 32) :
    (∃ c, raw.nearCodeword k = some c ∧ sectorCodeword k c ∧ raw.distance c ≤ 24)
      ∨ (raw.nearCodeword k = none ∧ ∀ c, sectorCodeword k c → 24 < raw.distance c) := by
  have hraw := (raw.page.codeword_sector hk hd ht).covered_length
  unfold StoredPage.nearCodeword
  generalize hr : searchNear _ _ _ = r
  cases r with
  | some l =>
    left
    obtain ⟨h1, h2, -⟩ := searchNear_some hr
    refine ⟨_, rfl, ⟨rfl, ?_, ?_⟩, of_decide_eq_true h1⟩
    · have : 1024 ≤ l.length := by rw [h2, hraw]; split <;> omega
      simpa [codewordOver, Config.chunkBytes] using this
    · by_cases h7 : k = 7
      · rw [h7] at h2 hraw
        simp [codewordOver, h7, h2, hraw, Config.chunkBytes]
      · simp [codewordOver, h7, ht]
  | none =>
    right
    refine ⟨rfl, fun c hc => Nat.lt_of_not_le fun hle => ?_⟩
    have hlen := hc.covered_length
    have hover := codewordOver_covered (area := raw.page.tagArea) hlen
    have hdist : raw.distance (codewordOver k raw.page.tagArea c.covered) = raw.distance c :=
      distance_congr (d := c) hc.1.symm hover
    have hnear : bitDistance (raw.page.codeword k).covered c.covered ≤ 24 := by
      have : bitDistance (raw.page.codeword c.sector).covered c.covered ≤ raw.distance c := Nat.le_add_right _ _
      rw [hc.1] at this
      omega
    have := searchNear_none hr (by rw [hlen, hraw]) hnear
    rw [hdist] at this
    simp [Config.correctable, hle] at this

/-- The codewords of sector `k` that a decode takes before it searches: the one the cells hold and those the command names. -/
def knownCodeword (held : Option Page) (found : List Codeword) (k : Nat) (c : Codeword) : Prop :=
  c.sector = k ∧ (c ∈ found ∨ ∃ p, held = some p ∧ c = p.codeword k)

theorem mem_candidates (held : Option Page) (found : List Codeword) (k : Nat) (c : Codeword) :
    c ∈ (held.map (fun p => p.codeword k)).toList ++ found.filter (fun c => decide (c.sector = k)) ↔ knownCodeword held found k c := by
  simp only [List.mem_append, Option.mem_toList, List.mem_filter, decide_eq_true_eq, Option.map_eq_some_iff]
  constructor
  · rintro (⟨p, hp, rfl⟩ | ⟨hc, hk⟩)
    · exact ⟨rfl, .inr ⟨p, hp, rfl⟩⟩
    · exact ⟨hk, .inl hc⟩
  · rintro ⟨hk, hc | ⟨p, hp, rfl⟩⟩
    · exact .inr ⟨hc, hk⟩
    · exact .inl ⟨p, hp, rfl⟩

/-- A decode brings the sector to a codeword in reach and counts the bits it changes, and answers nothing only when there is none. -/
theorem StoredPage.decode_cases {raw : StoredPage} {held : Option Page} {found : List Codeword} {k : Nat} (hk : k < 8)
    (hd : raw.page.data.length = 8192) (ht : raw.page.tagArea.length = 32)
    (hknown : ∀ c, knownCodeword held found k c → sectorCodeword k c) :
    (∃ c, raw.decode held found k = some (raw.distance c, c) ∧ sectorCodeword k c ∧ raw.distance c ≤ 24)
      ∨ (raw.decode held found k = none ∧ ∀ c, sectorCodeword k c → 24 < raw.distance c) := by
  unfold StoredPage.decode
  generalize hf : List.find? _ _ = f
  cases f with
  | some c =>
    exact .inl ⟨c, rfl, hknown c ((mem_candidates held found k c).mp (List.mem_of_find?_eq_some hf)),
      of_decide_eq_true (List.find?_some hf :)⟩
  | none =>
    rw [Option.none_or]
    rcases raw.nearCodeword_cases hk hd ht with ⟨c, h1, h2, h3⟩ | ⟨h1, h2⟩
    · exact .inl ⟨c, by rw [h1, Option.map_some], h2, h3⟩
    · exact .inr ⟨by rw [h1, Option.map_none], h2⟩

/-- The codeword the cells hold is taken whenever it lies in reach. -/
theorem StoredPage.decode_held {raw : StoredPage} {p : Page} (found : List Codeword) {k : Nat} (h : raw.distance (p.codeword k) ≤ 24) :
    raw.decode (some p) found k = some (raw.distance (p.codeword k), p.codeword k) := by
  rw [StoredPage.decode]
  simp [Config.correctable, h]

/-- Else the first that the command names and that lies in reach is taken. -/
theorem StoredPage.decode_named {raw : StoredPage} {held : Option Page} {before after : List Codeword} {c : Codeword} {k : Nat}
    (hheld : ∀ p, held = some p → 24 < raw.distance (p.codeword k)) (hbefore : ∀ d ∈ before, d.sector = k → 24 < raw.distance d)
    (hc : c.sector = k) (h : raw.distance c ≤ 24) :
    raw.decode held (before ++ c :: after) k = some (raw.distance c, c) := by
  have h1 : (held.map (fun p => p.codeword k)).toList.find? (fun c => decide (raw.distance c ≤ Config.correctable)) = none := by
    rw [List.find?_eq_none]
    intro d hd
    obtain ⟨p, hp, rfl⟩ := Option.map_eq_some_iff.mp (Option.mem_toList.mp hd)
    exact fun h => absurd (of_decide_eq_true h) (Nat.not_le.mpr (hheld p hp))
  have h2 : (before.filter (fun c => decide (c.sector = k))).find? (fun c => decide (raw.distance c ≤ Config.correctable)) = none := by
    rw [List.find?_eq_none]
    intro d hd
    obtain ⟨hm, hs⟩ := List.mem_filter.mp hd
    exact fun h => absurd (of_decide_eq_true h) (Nat.not_le.mpr (hbefore d hm (of_decide_eq_true hs)))
  rw [StoredPage.decode, List.filter_append, List.find?_append, List.find?_append, h1, h2]
  simp [Config.correctable, hc, h]

/-- The decode of one sector leaves every other sector and the retry step. -/
theorem Egress.decodeSector_other (raw : StoredPage) (held : Option Page) (found : List Codeword) (e : Egress) {k j : Nat} (h : j ≠ k) :
    (e.decodeSector raw held found k).sectors[j]? = e.sectors[j]? ∧ (e.decodeSector raw held found k).bytes[j]? = e.bytes[j]?
      ∧ (e.decodeSector raw held found k).lastStep = e.lastStep := by
  unfold Egress.decodeSector
  split
  · split
    · simp [Ne.symm h]
    · simp
  · simp

/-- The decode of sectors that do not include `j` leaves sector `j` and the retry step. -/
theorem Egress.decodeSectors_other (raw : StoredPage) (held : Option Page) (found : List Codeword) {j : Nat} (ks : List Nat)
    (h : j ∉ ks) (e : Egress) :
    (ks.foldl (Egress.decodeSector raw held found) e).sectors[j]? = e.sectors[j]?
      ∧ (ks.foldl (Egress.decodeSector raw held found) e).bytes[j]? = e.bytes[j]?
      ∧ (ks.foldl (Egress.decodeSector raw held found) e).lastStep = e.lastStep := by
  induction ks generalizing e with
  | nil => exact ⟨rfl, rfl, rfl⟩
  | cons k ks ih =>
    rw [List.mem_cons, not_or] at h
    obtain ⟨a, b, c⟩ := ih h.2 (e.decodeSector raw held found k)
    obtain ⟨x, y, z⟩ := e.decodeSector_other raw held found h.1
    exact ⟨a.trans x, b.trans y, c.trans z⟩

/-- The step decodes each sector by itself. -/
theorem Egress.decodeStep_sector (raw : StoredPage) (held : Option Page) (found : List Codeword) (e : Egress) {k : Nat} (hk : k < 8) :
    (e.decodeStep raw held found).sectors[k]? = (e.decodeSector raw held found k).sectors[k]?
      ∧ (e.decodeStep raw held found).bytes[k]? = (e.decodeSector raw held found k).bytes[k]?
      ∧ (e.decodeStep raw held found).lastStep = e.lastStep := by
  obtain ⟨before, after, h⟩ := List.append_of_mem (List.mem_range.mpr hk : k ∈ List.range Config.sectors)
  have hn : (before ++ k :: after).Nodup := h ▸ List.nodup_range
  obtain ⟨-, hn, hd⟩ := List.nodup_append.mp hn
  have hb : k ∉ before := fun hm => hd k hm k (by simp) rfl
  obtain ⟨h1, h2, h3⟩ := Egress.decodeSectors_other raw held found before hb e
  rw [Egress.decodeStep, h, List.foldl_append, List.foldl_cons]
  generalize before.foldl (Egress.decodeSector raw held found) e = g at h1 h2 h3 ⊢
  obtain ⟨h4, h5, h6⟩ := Egress.decodeSectors_other raw held found after (List.nodup_cons.mp hn).1 (g.decodeSector raw held found k)
  rw [h4, h5, h6]
  unfold Egress.decodeSector
  rw [h1, h3]
  split
  · split
    · simp [hk]
    · exact ⟨h1, h2, h3⟩
  · exact ⟨h1, h2, h3⟩

/-- A sector stays PENDING when no valid codeword lies in reach of it. -/
theorem Egress.decodeStep_pending {raw : StoredPage} {held : Option Page} {found : List Codeword} {e : Egress} {k : Nat} (hk : k < 8)
    (hd : raw.page.data.length = 8192) (ht : raw.page.tagArea.length = 32)
    (hknown : ∀ c, knownCodeword held found k c → sectorCodeword k c) (hp : e.sectors[k]? = some .pending)
    (hfar : ∀ c, sectorCodeword k c → 24 < raw.distance c) : (e.decodeStep raw held found).sectors[k]? = some .pending := by
  rw [(Egress.decodeStep_sector raw held found e hk).1, Egress.decodeSector, if_pos hp]
  rcases raw.decode_cases hk hd ht hknown with ⟨c, -, hc, hle⟩ | ⟨h, -⟩
  · exact absurd hle (Nat.not_le.mpr (hfar c hc))
  · rw [h]; exact hp

/-! ### The DIRECTORY read (R14, R182) -/

/-- The end of a DIRECTORY read loads the newest copy and begins the survey, or leaves the lane OFFLINE. -/
theorem Lane.directoryRead_cases (l : Lane) (e : Ending) :
    (∃ a c, e = .pass ∧ l.array.newest = some (a, c)
        ∧ l.directoryRead e
          = { l with engine := some (.survey 0), substMap := c.contents.map, retiredReserves := c.contents.retired })
      ∨ ((e = .fail ∨ l.array.newest = none) ∧ l.directoryRead e = { l with engine := none, state := .offline }) := by
  unfold Lane.directoryRead
  cases e with
  | fail => exact .inr ⟨.inl rfl, rfl⟩
  | pass =>
    rcases h : l.array.newest with _ | ⟨a, c⟩
    · exact .inr ⟨.inr rfl, rfl⟩
    · exact .inl ⟨a, c, rfl, rfl, rfl⟩

end Sys2Proof.Machine
end

