-- ==== Sys2Proof/Laws/Writes.lean ====
section
/-! SUPPORT. What a WRITE does: the slot the pool grants, and the state an admission leaves. -/

namespace Sys2Proof.Machine

/-! ### The grant -/

theorem State.modSlot_unbuffer (s : State) (i : Nat) (f : Slot → Slot) : s.unbuffer.modSlot i f = (s.modSlot i f).unbuffer := rfl

theorem State.reserveStrip_unbuffer (s : State) (x b n : Nat) (is : List Nat) :
    s.unbuffer.reserveStrip x b n is = (s.reserveStrip x b n is).unbuffer := by
  unfold State.reserveStrip
  generalize is.zip (stripPages n) = l
  induction l generalizing s with
  | nil => rfl
  | cons e l ih => exact ih (s.modSlot e.1 _)

theorem State.dropSlotOfTag_unbuffer (s : State) (t : Option Nat) : s.unbuffer.dropSlotOfTag t = (s.dropSlotOfTag t).unbuffer := by
  rcases t with _ | t
  · rfl
  · rcases h : s.tag t with _ | e
    · exact (State.modTag_of_none s.unbuffer _ h).trans (congrArg State.unbuffer (State.modTag_of_none s _ h)).symm
    · exact (State.modTag_of_some s.unbuffer _ h).trans (congrArg State.unbuffer (State.modTag_of_some s _ h)).symm

theorem State.releaseSlot_unbuffer (s : State) (i : Nat) : s.unbuffer.releaseSlot i = (s.releaseSlot i).unbuffer := by
  unfold State.releaseSlot
  rw [State.unbuffer_slot, State.dropSlotOfTag_unbuffer]
  rfl

/-- The grant reads the pool and the tag table alone. -/
theorem State.grant_unbuffer (s : State) (x b p : Nat) (d : Density) :
    s.unbuffer.grant x b p d = (s.grant x b p d).map (fun r => (r.1.unbuffer, r.2)) := by
  rcases d with _ | _
  · show s.unbuffer.grantDense x b p = (s.grantDense x b p).map _
    unfold State.grantDense
    rw [show s.unbuffer.ownsStrip x b (p / 4) = s.ownsStrip x b (p / 4) from rfl,
      show s.unbuffer.slotOf x b p = s.slotOf x b p from rfl, show s.unbuffer.slotsIn .free = s.slotsIn .free from rfl]
    split
    · rcases s.slotOf x b p with _ | i
      · rfl
      · dsimp only
        rw [State.unbuffer_slot]
        split
        · rfl
        · rcases s.slotsIn .free with _ | ⟨j, _⟩
          · rfl
          · simp [State.releaseSlot_unbuffer]
    · dsimp only
      split
      · rcases ((s.slotsIn .free).take 4)[p % 4]? with _ | i
        · rfl
        · simp [State.reserveStrip_unbuffer]
      · rfl
  · show s.unbuffer.grantSwift = s.grantSwift.map _
    unfold State.grantSwift
    rw [show s.unbuffer.slotsIn .free = s.slotsIn .free from rfl]
    rcases s.slotsIn .free with _ | ⟨i, _⟩ <;> rfl

theorem State.writeCheck_unbuffer (s : State) (x b p : Nat) (d : Density) : s.unbuffer.writeCheck x b p d = s.writeCheck x b p d := by
  unfold State.writeCheck
  rw [State.grant_unbuffer]
  simp

/-- An admitted WRITE: its checks, then the admission into the slot granted. -/
theorem execWrite_admits {s : State} {f : InFrame} {x b p : Nat} {d : Density} {check : Word32} {area : List Byte}
    (h : s.Admits f .write (.write x b p d check area)) :
    exec .write s
      = match s.writeCheck x b p d with
        | some st => .next (s.conclude [] (s.refusedWith f st .plain))
        | none =>
          match s.grant x b p d with
          | some (s1, i) => .next (s.conclude [x] (s1.unbuffer.takeIn f.tag x b p i d check area))
          | none => .next (s.conclude [] (s.refusedWith f .poolFull .plain)) := by
  show execWrite s = _
  rw [execWrite, takeRequest_admits _ h]
  dsimp only
  rw [State.writeCheck_unbuffer, State.grant_unbuffer]
  rcases s.writeCheck x b p d with _ | st
  · rcases s.grant x b p d with _ | ⟨s1, i⟩ <;> rfl
  · rfl

/-- The checks of a WRITE at a lane that is READY, in range (R23, R65, R145). -/
theorem State.writeCheck_reaches {s : State} {x b p : Nat} {d : Density} (h : s.Reaches x b) (hp : p < d.pages) :
    s.writeCheck x b p d
      = (failsWith s.wpAsserted .writeProtected).or
          (((s.record x b).admissionCheck d p).or (failsWith (s.grant x b p d).isNone .poolFull)) := by
  unfold State.writeCheck
  rw [if_neg (by simp only [Config.lanes, Config.hostBlocks]; have h1 := h.1; have h2 := h.2.1; simp only [Config.lanes, Config.hostBlocks] at h1 h2; omega)]
  simp [laneCheck, h.2.2]

/-- A WRITE that fits passes its checks but for the pool's. -/
theorem State.writeCheck_fits {s : State} {x b p : Nat} {d : Density} (h : s.Reaches x b) (hp : p < d.pages)
    (hf : s.WriteFits x b p d) : s.writeCheck x b p d = failsWith (s.grant x b p d).isNone .poolFull := by
  rw [State.writeCheck_reaches h hp]
  obtain ⟨h1, h2, h3, rfl, h5⟩ := hf
  have : (s.record x b).admissionCheck d (s.record x b).intakeNext = none := by
    unfold BlockRec.admissionCheck
    rcases h2 with h2 | ⟨h2, h2'⟩
    · simp [h2, h3, h5]
    · simp [h2, h2', h3, h5]
  simp [failsWith, h1, this]

/-- The record after the admission of a page, before the test of R28. -/
theorem BlockRec.takeIn_sameButReady (r : BlockRec) (d : Density) : (r.admitted d).sameButReady (r.takeIn d) := by
  unfold BlockRec.admitted BlockRec.takeIn BlockRec.openFor BlockRec.sameButReady
  split <;> rfl

theorem BlockRec.takeIn_readyPass (r : BlockRec) (d : Density) :
    (r.takeIn d).readyPass = if r.state = .erased then none else r.readyPass := by
  unfold BlockRec.takeIn BlockRec.openFor
  split <;> rfl

/-- An admission into slot `i` of a pool at hand that differs from `s` in its slots alone (R24, R25, R63). -/
theorem State.takeIn_admits {s s1 : State} {f : InFrame} {x b p i : Nat} {d : Density} {check : Word32} {area : List Byte}
    (hx : x < 4) (hb : b < 1024) (ht : f.tag < 64) (h1 : s1.link = s.link) (h2 : s1.rqu = s.rqu) (h3 : s1.lanes = s.lanes)
    (h4 : s1.pool.armed = s.pool.armed) (h5 : s.sameInputs s1) :
    s.AdmitsPage (s1.unbuffer.takeIn f.tag x b p i d check area) f x b p i d check := by
  have lane1 : ∀ y, s1.unbuffer.lane y = s.lane y := fun y => by simp [State.lane, h3]
  obtain ⟨m, hm⟩ : ∃ m, m = s1.unbuffer.takeIn f.tag x b p i d check area := ⟨_, rfl⟩
  rw [← hm]
  obtain ⟨s3, hs3⟩ : ∃ s3, s3 = ((s1.unbuffer.modRecord x b (fun r => r.takeIn d)).modSlot i
      (Slot.fill { lane := x, block := b, page := p } f.tag s1.rqu.settings.transferTimeout area)).setTag f.tag
        (some (.forWrite x b p i check)) := ⟨_, rfl⟩
  have hm' : m = s3.testBlock x b := by rw [hm, hs3]; rfl
  obtain ⟨g1, g2, g3, g4, g5, g6, g7⟩ := s3.testBlock_frame x b
  have lane3 : s3.lane x = (s.lane x).modRecord b (fun r => r.takeIn d) := by
    rw [hs3, State.setTag_lane, State.modSlot_lane, State.lane_modRecord_same _ _ _ hx, lane1]
  have rec3 : s3.record x b = (s.record x b).takeIn d := by
    rw [State.record, lane3, Lane.record_modRecord_same _ _ hb]; rfl
  refine ⟨?_, ?_, ?_, ?_, ?_, ?_, ?_, ?_, ?_, ?_, ?_, ?_⟩
  · have h := s3.testBlock_record x b
    rw [← hm', rec3] at h
    have h' := (s.record x b).takeIn_sameButReady d
    rw [BlockRec.sameButReady] at h h' ⊢
    rw [h, h']
  · rw [hm', State.testBlock_tag, hs3, State.tag_setTag_same _ _ ht]; rfl
  · intro u hu
    rw [hm', State.testBlock_tag, hs3, State.tag_setTag_ne _ _ hu, State.modSlot_tag, State.modRecord_tag]
    simp [State.tag, h2]
  · rw [Rqu.sameButTags, hm', g2, hs3]
    simp [State.setTag, h2]
  · rw [hm', g1, hs3]
    simp [State.unbuffer, h1]
  · rw [hm', g3, hs3]
    exact h4
  · rw [Lane.sameButWork, hm', g6, lane3]
    rfl
  · intro c hc
    rw [hm', g7 c hc, lane3, Lane.record_modRecord_ne _ _ hc]
  · rw [hm', g6, lane3]
    rfl
  · have h := State.testBlock_tested (s := s) (k := s3) hx hb (by rw [lane3]; rfl) (by rw [lane3]; rfl)
    rw [rec3, ← hm'] at h
    rw [← BlockRec.takeIn_readyPass]
    exact h
  · intro y hy
    rw [hm', g5 y hy, hs3, State.setTag_lane, State.modSlot_lane, State.lane_modRecord_ne _ _ _ hy, lane1]
  · rw [hm', hs3] at *
    exact ⟨g4.1.trans h5.1, g4.2.1.trans h5.2.1, g4.2.2.trans h5.2.2⟩

/-- The slots after an admission: the one filled, and the rest as the grant left them. -/
theorem State.takeIn_slot (s1 : State) (t x b p i j : Nat) (d : Density) (check : Word32) (area : List Byte) :
    (s1.unbuffer.takeIn t x b p i d check area).slot j
      = (s1.modSlot i (Slot.fill { lane := x, block := b, page := p } t s1.rqu.settings.transferTimeout area)).slot j := by
  unfold State.takeIn
  dsimp only
  rw [State.testBlock_slot]
  rfl

end Sys2Proof.Machine
end

