-- ==== Sys2Proof/Laws/Transfers.lean ====
section
/-! SUPPORT. What the abandonment chain does (R55, R72, R73): each slot, each tag, each reply, and the frame. -/

namespace Sys2Proof.Machine

/-- The chain's change of one slot, chosen by the slot's page. -/
def State.chainChange (s : State) (back : Bool) (p i : Nat) (sl : Slot) : Slot :=
  if back = true ∧ (s.slot i).pageNumber / 4 = p / 4 then sl.unfill else sl.release

/-- Folding the chain over slots without repeats is leaving each slot by its own change. -/
theorem State.chainSlots_fold (s m : State) (back : Bool) (p : Nat) {is : List Nat} (hn : is.Nodup)
    (h : ∀ i ∈ is, m.slot i = s.slot i) :
    is.foldl (fun s i => s.chainSlot back p i) m = m.leaveSlots is (s.chainChange back p) := by
  unfold State.leaveSlots
  induction is generalizing m with
  | nil => rfl
  | cons i is ih =>
    obtain ⟨hi, hn⟩ := List.nodup_cons.mp hn
    have hs : m.chainSlot back p i = m.leaveSlot i (s.chainChange back p i) := by
      unfold State.chainSlot
      rw [h i (by simp), State.unfillSlot_eq, State.releaseSlot_eq]
      split
      · rename_i hc
        rw [show s.chainChange back p i = Slot.unfill from funext (fun _ => if_pos hc)]
      · rename_i hc
        rw [show s.chainChange back p i = Slot.release from funext (fun _ => if_neg hc)]
    rw [List.foldl_cons, List.foldl_cons, hs]
    refine ih _ hn (fun j hj => ?_)
    rw [State.slot_leaveSlot_ne _ _ (by rintro rfl; exact hi hj)]
    exact h j (by simp [hj])

theorem State.chainTargets_nodup (s : State) (x b p : Nat) : (s.chainTargets x b p).Nodup := by
  unfold State.chainTargets
  dsimp only
  split
  · exact s.ownedSlots_nodup x b
  · exact (s.ownedSlots_nodup x b).filter _

theorem State.mem_chainTargets (s : State) (x b p i : Nat) :
    i ∈ s.chainTargets x b p
      ↔ (s.slot i).ownedBy x b = true
        ∧ (((s.record x b).density = some .dense ∧ p = (s.record x b).firstHeld) ∨ p ≤ (s.slot i).pageNumber) := by
  unfold State.chainTargets
  dsimp only
  split
  · rename_i h
    simp [State.mem_ownedSlots, h]
  · rename_i h
    simp [State.mem_ownedSlots, h]

theorem State.mem_chainTags (s : State) (x b p : Nat) (st st' : Status) (t : Nat) :
    (t, st') ∈ s.chainTags x b p st
      ↔ ∃ i, (s.slot i).ownedBy x b = true ∧ p ≤ (s.slot i).pageNumber ∧ (s.slot i).tag = some t
        ∧ st' = if (s.slot i).pageNumber = p then st else .abandoned := by
  unfold State.chainTags State.chainSlots
  simp only [List.mem_filterMap, mem_sortByKey, List.mem_filter, State.mem_ownedSlots, Bool.and_eq_true, decide_eq_true_eq,
    Option.map_eq_some_iff, Prod.mk.injEq]
  constructor
  · rintro ⟨i, ⟨h1, h2, -⟩, u, h3, rfl, h4⟩
    exact ⟨i, h1, h2, h3, h4.symm⟩
  · rintro ⟨i, h1, h2, h3, h4⟩
    exact ⟨i, ⟨h1, h2, by simp [h3]⟩, t, h3, rfl, h4.symm⟩

/-- The chain's effect on slots, before its tags are ended. -/
def State.chained (s : State) (x b p : Nat) : State :=
  (s.modRecord x b (fun r => { r with intakeNext := p })).leaveSlots (s.chainTargets x b p)
    (s.chainChange ((s.record x b).chainReturns p) p)

theorem State.abandon_eq (s : State) (x b p : Nat) (st : Status) :
    s.abandon x b p st = (s.chainTags x b p st).foldl (fun s e => s.endWrite e.1 e.2) (s.chained x b p) := by
  exact congrArg (fun m => (s.chainTags x b p st).foldl (fun s e => State.endWrite s e.1 e.2) m)
    (State.chainSlots_fold s (s.modRecord x b (fun r => { r with intakeNext := p })) _ p (s.chainTargets_nodup x b p)
      (fun _ _ => rfl))

/-- The frame of the chain: slots, one record's intake_next, tags and replies. -/
theorem State.abandon_frame (s : State) (x b p : Nat) (st : Status) :
    (s.abandon x b p st).lanes = (s.modRecord x b (fun r => { r with intakeNext := p })).lanes
      ∧ s.rqu.sameButTags (s.abandon x b p st).rqu ∧ s.link.sameButReplies (s.abandon x b p st).link
      ∧ (s.abandon x b p st).pool.armed = s.pool.armed ∧ s.sameInputs (s.abandon x b p st) := by
  have h := State.endWrites_frame (s.chained x b p) (s.chainTags x b p st)
  obtain ⟨h1, h2, h3, h4, h5⟩ := (s.modRecord x b (fun r => { r with intakeNext := p })).leaveSlots_frame (s.chainTargets x b p)
    (s.chainChange ((s.record x b).chainReturns p) p)
  rw [State.abandon_eq]
  refine ⟨h.lanes.trans h2, ?_, ?_, ?_, ?_⟩
  · rw [Rqu.sameButTags, h.rqu]
    change ({ (s.chained x b p).rqu with tags := _ } : Rqu) = _
    rw [State.chained, h3]; rfl
  · rw [Link.sameButReplies, h.link]
    change ({ (s.chained x b p).link with queue := _, deferred := _ } : Link) = _
    rw [State.chained, h1]; rfl
  · rw [h.pool]; exact h4
  · exact ⟨h.inputs.1.trans h5.1, h.inputs.2.1.trans h5.2.1, h.inputs.2.2.trans h5.2.2⟩

/-- Each slot after the chain. -/
theorem State.abandon_slot (s : State) (x b p i : Nat) (st : Status) :
    (s.abandon x b p st).slot i
      = if i ∈ s.chainTargets x b p then s.chainChange ((s.record x b).chainReturns p) p i (s.slot i) else s.slot i := by
  have h := State.endWrites_frame (s.chained x b p) (s.chainTags x b p st)
  rw [State.abandon_eq, h.slot, State.chained]
  split
  · rename_i hi
    rw [State.slot_leaveSlots_mem _ _ (s.chainTargets_nodup x b p) hi (s.owned_lt ((s.mem_chainTargets x b p i).mp hi).1)]
    rfl
  · rw [State.slot_leaveSlots_ne _ _ _ ‹_›]; rfl

theorem State.mem_chainTags_fst (s : State) (x b p t : Nat) (st : Status) :
    t ∈ (s.chainTags x b p st).map Prod.fst
      ↔ ∃ i, (s.slot i).ownedBy x b = true ∧ p ≤ (s.slot i).pageNumber ∧ (s.slot i).tag = some t := by
  constructor
  · intro h
    obtain ⟨⟨u, st'⟩, hu, rfl⟩ := List.mem_map.mp h
    obtain ⟨i, h1, h2, h3, -⟩ := (s.mem_chainTags x b p st st' u).mp hu
    exact ⟨i, h1, h2, h3⟩
  · rintro ⟨i, h1, h2, h3⟩
    exact List.mem_map.mpr ⟨(t, _), (s.mem_chainTags x b p st _ t).mpr ⟨i, h1, h2, h3, rfl⟩, rfl⟩

/-- The tag table after the chain. -/
theorem State.abandon_tag (s : State) (x b p t : Nat) (st : Status) :
    (s.abandon x b p st).tag t
      = if t ∈ (s.chainTags x b p st).map Prod.fst then
          (s.tag t).map (fun e => { e with state := .replying, slot := none })
        else if ∃ i ∈ s.chainTargets x b p, (s.slot i).tag = some t then (s.tag t).map TagEntry.dropSlot
        else s.tag t := by
  rw [State.abandon_eq, State.endWrites_tag, State.chained, State.tag_leaveSlots _ _ (s.chainTargets_nodup x b p)]
  simp only [State.modRecord_slot, State.modRecord_tag]
  split
  · by_cases h : ∃ i ∈ s.chainTargets x b p, (s.slot i).tag = some t
    · simp only [h, if_true]
      rcases s.tag t <;> rfl
    · simp only [h, if_false]
  · rfl

/-- The reply of a write that the chain ends, when one slot alone holds its tag. -/
theorem State.abandon_keeps (s : State) (x b p : Nat) (st : Status) {i t : Nat} {e : TagEntry}
    (ho : (s.slot i).ownedBy x b = true) (hp : p ≤ (s.slot i).pageNumber) (ht : (s.slot i).tag = some t) (he : s.tag t = some e)
    (hr : e.state ≠ .replying) (hu : ∀ j, (s.slot j).tag = some t → j = i) :
    (s.abandon x b p st).link.keeps
      (QueueEntry.finalOf t e.kind (if (s.slot i).pageNumber = p then st else .abandoned)
        (.page (e.lane.getD 0) (e.block.getD 0) (e.page.getD 0)) none) := by
  rw [State.abandon_eq]
  have hi : i ∈ s.chainTargets x b p := (s.mem_chainTargets x b p i).mpr ⟨ho, .inr hp⟩
  have hd : (s.chained x b p).tag t = some e.dropSlot := by
    rw [State.chained, State.tag_leaveSlots _ _ (s.chainTargets_nodup x b p), if_pos ⟨i, hi, ht⟩]
    exact congrArg (Option.map TagEntry.dropSlot) he
  refine State.endWrites_keeps (e := e.dropSlot) _ _ hd hr ((s.mem_chainTags x b p st _ t).mpr ⟨i, ho, hp, ht, rfl⟩) ?_
  rintro ⟨u, st'⟩ ha rfl
  obtain ⟨j, -, -, h3, h4⟩ := (s.mem_chainTags x b p st st' u).mp ha
  rw [hu j h3] at h4
  exact h4

/-- The replies of the chain take their places in page order (R73). -/
theorem State.abandon_link (s : State) (x b p : Nat) (st : Status)
    (h : s.WritesOpen (fun i => (s.slot i).ownedBy x b = true ∧ p ≤ (s.slot i).pageNumber)) :
    (s.abandon x b p st).link
      = (s.slotReplies (s.chainSlots x b p) (fun i t e =>
          QueueEntry.writeEnd t e (if (s.slot i).pageNumber = p then st else .abandoned))).foldl Link.placeFinal s.link := by
  have hmem : ∀ i ∈ s.chainSlots x b p, (s.slot i).ownedBy x b = true ∧ p ≤ (s.slot i).pageNumber := fun i hi => by
    simp only [State.chainSlots, mem_sortByKey, List.mem_filter, State.mem_ownedSlots, Bool.and_eq_true, decide_eq_true_eq] at hi
    exact ⟨hi.1, hi.2.1⟩
  have hfst : (s.chainTags x b p st).map Prod.fst = (s.chainSlots x b p).filterMap (fun i => (s.slot i).tag) := by
    simp only [State.chainTags, List.map_filterMap, Option.map_map, Function.comp_def, Option.map_id']
  have hn := h.tags_nodup (sortByKey_nodup (fun i => (s.slot i).pageNumber) ((s.ownedSlots_nodup x b).filter _)) hmem
  rw [State.abandon_eq, State.endWrites_link _ _ (hfst ▸ hn)]
  · congr 1
    · exact (State.leaveSlots_frame _ _ _).1
    · rw [State.chainTags, List.filterMap_filterMap]
      refine Eq.trans ?_
        (State.slotReplies_leaveSlots (s.modRecord x b (fun r => { r with intakeNext := p }))
          (s.chainChange ((s.record x b).chainReturns p) p) (s.chainTargets_nodup x b p) _ (fun _ _ _ => rfl))
      refine List.filterMap_congr fun i _ => ?_
      rw [State.modRecord_slot]
      rcases (s.slot i).tag with _ | t <;> rfl
  · rintro ⟨t, st'⟩ hm e he
    obtain ⟨i, h1, h2, h3, -⟩ := (s.mem_chainTags x b p st st' t).mp hm
    rw [State.chained, State.tag_leaveSlots _ _ (s.chainTargets_nodup x b p)] at he
    rcases hs : s.tag t with _ | g
    · simp [hs] at he
    · have hg := h.2 i t g ⟨h1, h2⟩ h3 hs
      simp only [State.modRecord_tag, hs] at he
      split at he <;> cases he <;> exact hg

/-! ### Where a chunk goes -/

/-- DATA of an offered frame (R67). -/
theorem execData_offers {s : State} {f : InFrame} (h : s.Offers f) (hd : f.isData = true) :
    exec .data s
      = match s.transferOf f.tag with
        | some (i, o, check) =>
          .next (s.conclude [o.lane] (s.unbuffer.takeChunk f.tag i o check (byteAt f.payload 0) (f.payload.drop 1)))
        | none => .next (s.conclude [] (s.refusedWith f .strayData (.chunk f.chunkIndex))) := by
  show execData s = _
  rw [execData, takeOldest_offers _ h hd, show s.unbuffer.transferOf f.tag = s.transferOf f.tag from rfl]
  rcases s.transferOf f.tag with _ | ⟨i, o, check⟩ <;> rfl

theorem State.transferOf_some {s : State} {t i : Nat} {e : TagEntry} {o : Owner} (h : s.tag t = some e) (hk : e.kind = .write)
    (hs : e.state = .transfer) (hi : e.slot = some i) (hf : (s.slot i).state = .filling) (ho : (s.slot i).owner = some o) :
    s.transferOf t = some (i, o, e.check) := by
  simp [State.transferOf, h, hk, hs, hi, hf, ho]

theorem State.transferOf_none {s : State} {t : Nat} (h : ∀ e, s.tag t = some e → e.kind ≠ .write ∨ e.state ≠ .transfer) :
    s.transferOf t = none := by
  unfold State.transferOf
  rcases ht : s.tag t with _ | e
  · rfl
  · exact if_neg (fun hc => by rcases h e ht with h | h <;> simp [hc] at h)

end Sys2Proof.Machine
end

