-- ==== Sys2Proof/Tests/Slice0.lean ====
section
/-! SUPPORT. The model's own tests: the checks of WellFormed, one or two happenings for each command with expected values worked out by
hand from the rules, and for each obligation with hypotheses a witness that meets them. -/

namespace Sys2Proof.Tests

open Sys2Proof.Machine

set_option Elab.async false

/-! ### States and frames for the tests -/

/-- A part past start-up: RUNNING, every lane READY with an idle engine. -/
def running : State :=
  { State.reset with
    rqu := { Rqu.powerOn with part := .running }
    lanes := Vector.replicate 4 { Lane.powerOn FlashArray.delivered none with state := .ready, built := true } }

/-- Bytes from numbers. -/
def bytes (l : List Nat) : List Byte := l.map (BitVec.ofNat 8)

/-- A REQ frame in an intake buffer. -/
def reqFrame (t : Nat) (p : List Byte) : InFrame := { kind := 1, tag := t, payload := p, malformed := false }

/-- A host DATA frame with chunk index `c` whose bytes are all `v`. -/
def dataFrame (t c v : Nat) : InFrame :=
  { kind := 2, tag := t, payload := BitVec.ofNat 8 c :: List.replicate 1024 (BitVec.ofNat 8 v), malformed := false }

/-- The state with one frame in the intake buffers. -/
def offered (s : State) (f : InFrame) : State := { s with link := { s.link with intake := [f] } }

/-- The running part with a request in its intake buffers. -/
def asked (t : Nat) (p : List Nat) : State := offered running (reqFrame t (bytes p))

/-- The next state of an outcome passes a test. -/
def after (r : Result) (p : State → Bool) : Bool := match r with | .next t => p t | _ => false

/-- The outcome is a refusal for the reason. -/
def refusedFor (r : Result) (why : Refusal) : Bool := match r with | .refused w => decide (w = why) | _ => false

/-- The payload of the frame being sent. -/
def sentBytes (s : State) : List Nat := (s.link.tx.map (fun f => f.payload.map BitVec.toNat)).getD []

/-- The frame being sent. -/
def sentWhat (s : State) : Option Sending := s.link.tx.map OutFrame.what

/-- Sets the record of host block `b` of lane 0. -/
def withRec (s : State) (b : Nat) (r : BlockRec) : State := s.modRecord 0 b (fun _ => r)

/-- Sets slot `i`. -/
def withSlot (s : State) (i : Nat) (sl : Slot) : State := s.modSlot i (fun _ => sl)

/-- A record in the given state with density and frontiers, on physical block 3. -/
def recOf (st : BlockState) (d : Density) (inx rd fd : Nat) (de : Option Nat) : BlockRec :=
  { BlockRec.unbuilt with
    physical := 3, state := st, density := some d, intakeNext := inx, roughDone := rd, finalDone := fd, dataEnd := de }

/-- A slot that serves page `p` of block 3 of lane 0. -/
def slotOn (st : SlotState) (p : Nat) (t : Option Nat) (chunks pins : Nat) : Slot :=
  { Slot.powerOn with
    state := st, owner := some { lane := 0, block := 3, page := p }, tag := t, chunks := chunks, pins := pins
    timer := if st = .filling then some 20 else none }

/-- A WRITE's tag entry for page `p` of block 3 of lane 0 in slot `i`. -/
def writeTag (st : TagState) (p i : Nat) : TagEntry :=
  { kind := .write, state := st, lane := some 0, block := some 3, page := some p, slot := some i, interimSent := false,
    check := some 0 }

/-- Sets the engine and the job of lane 0. -/
def withJob (s : State) (op : Option Operation) (j : Option Job) : State :=
  s.modLane 0 (fun l => { l with engine := op, job := j })

/-- Sets tag `t`. -/
def withTag (s : State) (t : Nat) (e : TagEntry) : State := s.setTag t (some e)

/-- The payload of a WRITE of page `p` of block 3 of lane 0 with a tag area of zeros. -/
def writePayload (p d : Nat) : List Nat := [12, 0, 3, 0, p, 0, d, 0, 0, 0, 0] ++ List.replicate 32 0

/-! ### WellFormed: each check refuses an ill-formed command -/

theorem test_wf_slot : Instr.wellFormed (.transferTimeout 96) = false ∧ Instr.wellFormed (.transferTimeout 95) = true := by decide

theorem test_wf_lane_of_passes :
    Instr.wellFormed (.dataRoughEnd 4 .pass) = false ∧ Instr.wellFormed (.terminatorRoughEnd 4 .pass) = false
      ∧ Instr.wellFormed (.finalEnd 4 .pass) = false ∧ Instr.wellFormed (.singleEnd 4 .fail) = false := by decide

theorem test_wf_lane_of_reads :
    Instr.wellFormed (.senseEnd 4 []) = false ∧ Instr.wellFormed (.decodeEnd 4 []) = false
      ∧ Instr.wellFormed (.directoryReadEnd ⟨4, .pass⟩) = false ∧ Instr.wellFormed (.surveyEnd 4) = false := by decide

theorem test_wf_lane_of_erases :
    Instr.wellFormed (.inPlaceEraseEnd 4 .pass) = false ∧ Instr.wellFormed (.reserveEraseEnd 4 .pass) = false
      ∧ Instr.wellFormed (.directoryWriteEnd 4 .pass) = false := by decide

theorem test_wf_sector_of_wrong_bit : Instr.wellFormed (.senseEnd 0 [{ sector := 8, place := .data 0 }]) = false := by decide

theorem test_wf_data_bit :
    Instr.wellFormed (.senseEnd 0 [{ sector := 6, place := .data 8192 }]) = false
      ∧ Instr.wellFormed (.senseEnd 0 [{ sector := 6, place := .data 8191 }]) = true := by decide

theorem test_wf_tag_area_bit :
    Instr.wellFormed (.senseEnd 0 [{ sector := 6, place := .tagArea 0 }]) = false
      ∧ Instr.wellFormed (.senseEnd 0 [{ sector := 7, place := .tagArea 256 }]) = false
      ∧ Instr.wellFormed (.senseEnd 0 [{ sector := 7, place := .tagArea 255 }]) = true := by decide

theorem test_wf_parity_bit : Instr.wellFormed (.senseEnd 0 [{ sector := 6, place := .parity Config.parityBits }]) = false := by
  simp [Instr.wellFormed, BitError.wf, BitPlace.inSector]

/-- A codeword over bytes of value 1 and a tag area of zeros. -/
def codewordOf (k len area : Nat) : Codeword := { sector := k, bytes := List.replicate len 1#8, tagArea := List.replicate area 0#8 }

theorem test_wf_codeword_good : Instr.wellFormed (.decodeEnd 3 [codewordOf 7 1024 32]) = true := by decide +kernel

theorem test_wf_codeword_sector : Instr.wellFormed (.decodeEnd 0 [codewordOf 8 1024 32]) = false := by decide +kernel

theorem test_wf_codeword_bytes : Instr.wellFormed (.decodeEnd 0 [codewordOf 0 1023 32]) = false := by decide +kernel

theorem test_wf_codeword_area : Instr.wellFormed (.decodeEnd 0 [codewordOf 0 1024 31]) = false := by decide +kernel

theorem test_ill_formed_refused :
    refusedFor (exec (.senseEnd 0 [{ sector := 8, place := .data 0 }]) running) .illFormed = true := by decide +kernel

/-! ### Decode: the table gives no row any bits -/

theorem test_no_word_spells_a_command : decodeTableWord 8 0 = none ∧ State.reset.withFetchWord 8 0 = State.reset := ⟨rfl, rfl⟩

/-! ### CRC and frames (R167, R168). The CRC bytes come from an independent CRC-32. -/

theorem test_crc_check_value : crc32 (bytes [0x31, 0x32, 0x33, 0x34, 0x35, 0x36, 0x37, 0x38, 0x39]) = 0xCBF43926#32 := by
  decide +kernel

/-! ### The link -/

theorem test_bad_frame_naks :
    after (exec (.badFrame .byEnd []) running) (fun t =>
      t.link.nakFlag && decide (sentWhat t = some .nak) && decide (sentBytes t = [1])) = true := by decide +kernel

theorem test_good_frame_is_not_bad :
    refusedFor (exec (.badFrame .byEnd (bytes [1, 0, 0, 0, 5, 1, 0, 3, 72, 20, 157, 6])) running) .otherLineFrame = true := by
  decide +kernel

theorem test_sequenced_frame_accepted :
    after (exec (.sequencedFrame (bytes [1, 0, 0, 0, 5, 1, 0, 3, 72, 20, 157, 6])) running) (fun t =>
      decide (t.link.expected = 1) && decide (t.link.intake = [reqFrame 5 (bytes [3])]) && t.link.owed && t.link.ackTimer) = true := by
  decide +kernel

theorem test_sequenced_frame_ahead_naks_gap :
    after (exec (.sequencedFrame (bytes [1, 0, 0, 0, 5, 1, 0, 3, 72, 20, 157, 6]))
        { running with link := { running.link with expected := 200 } }) (fun t =>
      decide (t.link.expected = 200) && decide (t.link.intake = []) && decide (sentBytes t = [2])) = true := by decide +kernel

theorem test_sync_answered :
    after (exec (.sync (bytes [3, 0, 0, 0, 255, 1, 0, 7, 239, 33, 14, 170])) (asked 5 [3])) (fun t =>
      decide (t.link.expected = 7) && decide (t.link.intake = []) && decide (sentWhat t = some .sync) && decide (sentBytes t = [7]))
      = true := by decide +kernel

theorem test_ack_timer_sends_ack :
    after (exec .ackTimerExpiry { running with link := { running.link with owed := true, ackTimer := true } }) (fun t =>
      decide (sentWhat t = some .ack) && !t.link.owed) = true := by decide +kernel

theorem test_malformed_frame_refused :
    after (exec .malformedFrameTaken (offered running { kind := 9, tag := 200, payload := [], malformed := true })) (fun t =>
      decide (sentBytes t = [0, 6, 2]) && decide (t.link.tx.map OutFrame.tag = some 200)) = true := by decide +kernel

/-! ### Requests that the request unit answers itself -/

theorem test_identify_reply :
    after (exec .identify (asked 7 [1])) (fun t =>
      decide (sentBytes t = [1, 1, 1, 23, 154, 1, 1, 2, 4, 0, 4, 32, 4, 32, 64, 4, 1, 0, 32, 32, 0, 4, 8, 24, 4, 96, 64, 80, 16, 32,
        16, 24, 64, 16, 4]) && decide (t.link.tx.map OutFrame.tag = some 7)) = true := by decide +kernel

theorem test_configure_sets_read_burst :
    after (exec .configure (asked 1 [2, 255, 8, 255, 255])) (fun t =>
      decide (t.rqu.settings.readBurst = 8) && decide (sentBytes t = [2, 1, 1, 20, 8, 18, 12])) = true := by decide +kernel

theorem test_configure_out_of_range :
    after (exec .configure (asked 1 [2, 255, 17, 25, 255])) (fun t =>
      decide (t.rqu.settings = Settings.defaults) && decide (sentBytes t = [2, 21, 2, 2])) = true := by decide +kernel

theorem test_read_settings_reply :
    after (exec .readSettings (asked 63 [3])) (fun t => decide (sentBytes t = [3, 1, 1, 20, 4, 18, 12])) = true := by decide +kernel

theorem test_block_status_reply :
    after (exec .blockStatus (offered (withRec running 3 (recOf .closed .swift 10 0 10 (some 10))) (reqFrame 2 (bytes [4, 0, 3, 0]))))
      (fun t => decide ((sentBytes t).take 16 = [4, 1, 1, 0, 3, 0, 3, 0, 4, 2, 10, 0, 0, 10, 10, 0])) = true := by decide +kernel

theorem test_pool_status_counts :
    after (exec .poolStatus (offered (withSlot (withSlot running 0 (slotOn .staged 0 (some 9) 8 1)) 5 (slotOn .filling 1 (some 8) 0 0))
        (reqFrame 2 (bytes [5])))) (fun t =>
      decide (t.link.queue.map (fun q => q.reply.fields) = [.poolStatus [94, 0, 1, 1, 0, 0] 1 [0, 0, 0, 0]])) = true := by
  decide +kernel

theorem test_tag_status_unknown :
    after (exec .tagStatus (asked 2 [6, 9])) (fun t => decide (sentBytes t = [6, 24, 2]) && decide (t.tag 2 = none)) = true := by
  decide +kernel

/-- A queued READ of tag 9 on lane 0, whose scheduler waits for the egress buffer. -/
def queuedRead : State :=
  (withTag (withRec running 3 (recOf .full .swift 64 0 64 (some 64))) 9
    { TagEntry.mk' .read .queued (some 0) (some 3) (some 0) with interimSent := false }).modLane 0 (fun l =>
      { l with workQueue := [{ tag := 9, block := 3, kind := .read 0 }], egress := { l.egress with state := .loaded } })

theorem test_abort_of_queued_read :
    after (exec .abort (offered queuedRead (reqFrame 2 (bytes [7, 9])))) (fun t =>
      decide ((t.lane 0).workQueue = []) && decide (t.link.queue.map (fun q => (q.reply.tag, q.reply.status)) = [(9, .aborted), (2, .done)]))
      = true := by decide +kernel

/-! ### Writing and reading -/

theorem test_write_takes_four_slots :
    after (exec .write (asked 5 (writePayload 0 1))) (fun t =>
      decide ((t.slot 0).state = .filling) && decide ((t.slot 3).state = .reserved) && decide ((t.slot 4).state = .free)
        && decide (t.freeCount = 92) && decide ((t.record 0 3).state = .opened) && decide ((t.record 0 3).intakeNext = 1)) = true := by
  decide +kernel

theorem test_write_out_of_order :
    after (exec .write (asked 5 (writePayload 1 2))) (fun t =>
      decide (sentBytes t = [12, 17, 2]) && decide (t.freeCount = 96) && decide ((t.record 0 3).state = .erased)) = true := by
  decide +kernel

/-- Page 0 of block 3 being taken in by tag 5 in slot 0, with `n` chunks there. -/
def filling (n : Nat) : State :=
  withTag (withSlot (withRec running 3 (recOf .opened .swift 1 0 0 none)) 0
    { slotOn .filling 0 (some 5) n 0 with data := List.replicate 8192 0#8 }) 5 (writeTag .transfer 0 0)

theorem test_data_chunk_counted :
    after (exec .data (offered (filling 0) (dataFrame 5 0 9))) (fun t =>
      decide ((t.slot 0).chunks = 1) && decide ((t.slot 0).data[0]? = some 9#8) && decide ((t.slot 0).data[1024]? = some 0#8)) = true := by
  decide +kernel

theorem test_data_out_of_order_abandons :
    after (exec .data (offered (filling 0) (dataFrame 5 1 9))) (fun t =>
      decide ((t.slot 0).state = .free) && decide (sentBytes t = [12, 26, 1, 0, 3, 0, 0, 0]) && decide ((t.record 0 3).intakeNext = 0))
      = true := by decide +kernel

theorem test_transfer_timeout_abandons :
    after (exec (.transferTimeout 0) (filling 3)) (fun t =>
      decide (t.freeCount = 96) && decide (sentBytes t = [12, 28, 1, 0, 3, 0, 0, 0])) = true := by decide +kernel

theorem test_transfer_timer_stopped : refusedFor (exec (.transferTimeout 1) (filling 3)) .timerStopped = true := by decide +kernel

theorem test_read_of_erased_block :
    after (exec .read (asked 4 [10, 0, 3, 0, 255, 0])) (fun t => decide (sentBytes t = [10, 4, 1, 0, 3, 0, 255, 0])) = true := by
  decide +kernel

theorem test_read_page_256_refused :
    after (exec .read (asked 4 [10, 0, 3, 0, 0, 1])) (fun t => decide (sentBytes t = [10, 10, 2])) = true := by decide +kernel

/-- What a SENSE of a page of a BLANK block with no wrong bits yields (R7): all ones. -/
def rawResult : StoredPage := (FlashArray.delivered.block 3).sense 0 []

/-- A property of the parity code, which is free (log 15): no codeword of sector 0 lies in reach of that raw result. -/
def Far : Prop := ∀ c, sectorCodeword 0 c → 24 < rawResult.distance c

/-- A READ job of tag 9 for page 0 of block 3 at retry step `n`, its raw result in the sense buffer. -/
def decoding (n : Nat) : State :=
  (withTag (withJob running none (some (.read 9 3 0 3))) 9 (TagEntry.mk' .read .active (some 0) (some 3) (some 0))).modLane 0 (fun l =>
    { l with
      egress := { l.egress with state := .claimed, lastStep := n }
      sense := some rawResult })

theorem test_sense_end_fills_the_buffer :
    after (exec (.senseEnd 0 [{ sector := 7, place := .data 3 }]) (withJob running (some (.sense 3 0 0)) (some (.read 9 3 0 3)))) (fun t =>
      decide ((t.lane 0).engine = none)
        && decide ((t.lane 0).sense.map (fun r => (r.page.data[0]?, r.page.data[7168]?)) = some (some 0xFF#8, some 0xF7#8))) = true := by
  decide +kernel

/-- The egress buffer after the decode of the job at step `n`. -/
def decoded (n : Nat) : Egress := ((decoding n).lane 0).egress.decodeStep rawResult (((decoding n).lane 0).heldPage 3 0) []

theorem decoded_pending (n : Nat) (h : Far) : (decoded n).sectors[0]? = some .pending ∧ (decoded n).lastStep = n := by
  have hp : ((decoding n).lane 0).heldPage 3 0 = none := rfl
  refine ⟨?_, (Egress.decodeStep_sector _ _ _ _ (k := 0) (by decide)).2.2⟩
  rw [decoded, hp]
  refine Egress.decodeStep_pending (by decide) ?_ ?_ ?_ rfl h
  · exact List.length_replicate
  · exact List.length_replicate
  · rintro c ⟨-, hc | ⟨p, hc, -⟩⟩ <;> cases hc

theorem anyPending_of {e : Egress} (h : e.sectors[0]? = some .pending) : e.anyPending = true :=
  List.any_eq_true.mpr ⟨_, Vector.mem_toList_iff.mpr (Vector.mem_of_getElem? h), rfl⟩

theorem exec_decoding (n : Nat) :
    exec (.decodeEnd 0 []) (decoding n)
      = .next ((decoding n).conclude [0]
          (if (decoded n).climbs then (decoding n).climb 0 0 3 (decoded n) else (decoding n).endRead 0 9 3 0 3 (decoded n))) := by
  show execDecodeEnd 0 [] (decoding n) = _
  rw [execDecodeEnd, unlessReset_running _ rfl, if_pos (show [].all Codeword.wf = true from rfl), show ((decoding n).lane 0).sense = some rawResult from rfl,
    show ((decoding n).lane 0).job = some (.read 9 3 0 3) from rfl]
  dsimp only
  rw [← decoded]
  split <;> rfl

theorem test_decode_climbs (h : Far) :
    ∃ m, exec (.decodeEnd 0 []) (decoding 0) = .next ((decoding 0).conclude [0] m)
      ∧ (m.lane 0).engine = some (.sense 3 0 1) ∧ (m.lane 0).sense = none := by
  obtain ⟨hp, hl⟩ := decoded_pending 0 h
  rw [exec_decoding, if_pos (by rw [Egress.climbs, anyPending_of hp, hl]; rfl)]
  exact ⟨_, rfl, by rw [State.climb, State.lane_modLane_same _ _ (by decide), hl]; rfl, by
    rw [State.climb, State.lane_modLane_same _ _ (by decide)]⟩

theorem test_decode_last_step_uncorrectable (h : Far) :
    ∃ m, exec (.decodeEnd 0 []) (decoding 3) = .next ((decoding 3).conclude [0] m)
      ∧ (m.lane 0).egress.state = .loaded ∧ m.link.queue.map (fun q => q.reply.status) = [.uncorrectable] := by
  obtain ⟨hp, hl⟩ := decoded_pending 3 h
  rw [exec_decoding, if_neg (by rw [Egress.climbs, hl]; simp [Config.lastRetryStep])]
  refine ⟨_, rfl, ?_, ?_⟩
  · rw [State.endRead, (State.finish_frame _ _ _ _ _).lane, State.lane_modLane_same _ _ (by decide)]; rfl
  · have hs : (decoded 3).load.status = .uncorrectable := by
      rw [Egress.status, if_neg]
      intro hn
      have : (0 : Nat) ∈ (decoded 3).load.lost :=
        List.mem_filter.mpr ⟨by decide, by rw [Egress.load, Vector.getElem?_map, hp]; rfl⟩
      rw [hn] at this
      cases this
    rw [State.endRead, hs, State.finish_of_some _ _ _ _ (e := TagEntry.mk' .read .active (some 0) (some 3) (some 0)) rfl (by decide)]
    rfl

theorem test_decode_clean (p : Page) {k : Nat} (hk : k < 8) : p.encode.decode (some p) [] k = some (0, p.codeword k) := by
  rw [StoredPage.decode_held _ (by rw [StoredPage.distance_encode p hk]; omega), StoredPage.distance_encode p hk]

/-! ### Passes -/

/-- Strip 0 of block 3 held in slots 0 to 3 in state `st`, written by tags 10 to 13. -/
def heldStrip (st : SlotState) (r : BlockRec) : State :=
  (List.range 4).foldl (fun s k => withTag (withSlot s k (slotOn st k (some (10 + k)) 8 0)) (10 + k) (writeTag .staged k k))
    (withRec running 3 r)

/-- A pass of strip `n` of block 3 in flight. -/
def passing (s : State) (op : Operation) (k : PassKind) (n : Nat) : State :=
  withJob s (some op) (some (.pass 3 { kind := k, strip := n }))

theorem test_data_rough_passes :
    after (exec (.dataRoughEnd 0 .pass)
        (passing (heldStrip .staged (recOf .opened .dense 4 0 0 none)) (.rough 3 0 [] false) .rough 0)) (fun t =>
      decide ((t.record 0 3).roughDone = 1) && decide ((t.slot 0).state = .roughed) && decide ((t.slot 3).state = .roughed)
        && decide (t.link.queue = [])) = true := by decide +kernel

theorem test_terminator_rough_passes :
    after (exec (.terminatorRoughEnd 0 .pass)
        (passing (withRec running 3 (recOf .closing .dense 4 1 0 (some 3))) (.terminatorRough 3 1 3 false) .terminator 1)) (fun t =>
      decide ((t.record 0 3).roughDone = 2)
        && decide ((t.lane 0).job = some (.pass 3 { kind := .final, strip := 0 }))) = true := by decide +kernel

theorem test_final_passes_durable :
    after (exec (.finalEnd 0 .pass)
        (passing (heldStrip .roughed (recOf .opened .dense 8 2 0 none)) (.final 3 0 [] false) .final 0)) (fun t =>
      decide ((t.record 0 3).finalDone = 1) && decide (t.freeCount = 96)
        && decide (t.link.queue.map (fun q => (q.reply.tag, q.reply.status)) = [(10, .durable), (11, .durable), (12, .durable), (13, .durable)])
        && decide (sentBytes t = [12, 3, 1, 0, 3, 0, 0, 0, 3, 0])) = true := by decide +kernel

theorem test_final_fails :
    after (exec (.finalEnd 0 .fail)
        (passing (heldStrip .roughed (recOf .opened .dense 8 2 0 none)) (.final 3 0 [] false) .final 0)) (fun t =>
      decide ((t.record 0 3).state = .failed) && (t.record 0 3).suspect && decide ((t.slot 0).state = .roughed)
        && decide ((t.tag 10).map TagEntry.state = some .heldFailed)
        && decide (sentWhat t = some (.note (.blockFailed 0 3)))) = true := by decide +kernel

theorem test_single_passes :
    after (exec (.singleEnd 0 .pass)
        (passing (withTag (withSlot (withRec running 3 (recOf .opened .swift 64 0 63 none)) 0 (slotOn .staged 63 (some 10) 8 1)) 10
            (writeTag .staged 63 0)) (.single 3 63 { data := [], tagArea := [] } false) .single 63)) (fun t =>
      decide ((t.record 0 3).state = .full) && decide ((t.record 0 3).dataEnd = some 64) && decide ((t.slot 0).state = .detached))
      = true := by decide +kernel

theorem test_close_with_nothing_left :
    after (exec .close (offered (withRec running 3 (recOf .opened .swift 2 0 2 none)) (reqFrame 6 (bytes [13, 0, 3, 0])))) (fun t =>
      decide ((t.record 0 3).state = .closed) && decide ((t.record 0 3).dataEnd = some 2) && decide (sentBytes t = [13, 1, 1, 0, 3, 0]))
      = true := by decide +kernel

/-! ### Erasing -/

theorem test_erase_starts_in_place :
    after (exec .erase (offered (withRec running 3 (recOf .closed .swift 2 0 2 (some 2))) (reqFrame 6 (bytes [11, 0, 3, 0])))) (fun t =>
      decide ((t.lane 0).engine = some (.erase 3)) && decide ((t.tag 6).map TagEntry.state = some .active)
        && (t.record 0 3).erasePending) = true := by decide +kernel

/-- An ERASE job of block 3 by tag 6. -/
def erasing (s : State) (op : Operation) (c : EraseCourse) (e : Option Ending) : State :=
  withTag (withJob (withRec s 3 (recOf .closed .swift 2 0 2 (some 2))) (some op) (some (.erase 6 3 c e))) 6
    (TagEntry.mk' .erase .active (some 0) (some 3) none)

theorem test_in_place_erase_passes :
    after (exec (.inPlaceEraseEnd 0 .pass) (erasing running (.erase 3) .inPlace none)) (fun t =>
      decide ((t.record 0 3).state = .erased) && decide ((t.lane 0).job = none)
        && decide (t.link.queue.map (fun q => (q.reply.tag, q.reply.status)) = [(6, .done)])) = true := by decide +kernel

theorem test_in_place_erase_fails_writes_directory :
    after (exec (.inPlaceEraseEnd 0 .fail) (erasing running (.erase 3) .inPlace none)) (fun t =>
      decide ((t.lane 0).engine = some (.directoryWrite { map := [(3, none)], retired := [] } 2 false))
        && decide ((t.lane 0).array.copyB = none) && decide (((t.lane 0).array.block 3).cells = .unsettled)) = true := by decide +kernel

theorem test_reserve_erase_passes_writes_directory :
    after (exec (.reserveEraseEnd 0 .pass) (erasing running (.erase 1024) (.substitution 1024) none)) (fun t =>
      decide ((t.lane 0).engine = some (.directoryWrite { map := [(3, some 1024)], retired := [] } 2 false))) = true := by decide +kernel

theorem test_directory_write_substitutes :
    after (exec (.directoryWriteEnd 0 .pass)
        (erasing running (.directoryWrite { map := [(3, some 1024)], retired := [] } 2 false) (.substitution 1024) (some .pass)))
      (fun t =>
        decide ((t.record 0 3).state = .erased) && decide ((t.record 0 3).physical = 1024)
          && decide ((t.lane 0).substMap = [(3, some 1024)]) && decide ((t.lane 0).array.copyB.map DirCopy.generation = some 2)) = true := by
  decide +kernel

/-! ### Recovery and resets -/

/-- A FAILED block 3 with page 0 held in slot 0 by tag 10. -/
def failedBlock : State :=
  withTag (withSlot (withRec running 3 { recOf .failed .dense 1 0 0 none with suspect := true }) 0 (slotOn .staged 0 (some 10) 8 0)) 10
    (writeTag .heldFailed 0 0)

theorem test_relocate_moves_the_page :
    after (exec .relocate (offered failedBlock (reqFrame 6 (bytes [8, 0, 3, 0, 4, 0])))) (fun t =>
      decide ((t.slot 0).owner = some { lane := 0, block := 4, page := 0 }) && decide ((t.record 0 4).state = .opened)
        && decide ((t.record 0 3).state = .closed) && decide (t.freeCount = 92)
        && decide ((t.slot 3).owner = some { lane := 0, block := 4, page := 3 })
        && decide ((t.tag 10).map (fun e => (e.state, e.block)) = some (.staged, some 4))) = true := by decide +kernel

theorem test_discard_gives_up_the_page :
    after (exec .discard (offered failedBlock (reqFrame 6 (bytes [9, 0, 3, 0])))) (fun t =>
      decide (t.freeCount = 96) && decide ((t.record 0 3).state = .closed)
        && decide (t.link.queue.map (fun q => (q.reply.tag, q.reply.status)) = [(10, .discarded), (6, .done)])) = true := by
  decide +kernel

theorem test_lane_reset_ends_writes :
    after (exec .laneReset (offered (heldStrip .staged (recOf .opened .dense 4 0 0 none)) (reqFrame 6 (bytes [14, 0])))) (fun t =>
      decide ((t.record 0 3).state = .erased) && decide ((t.lane 0).state = .ready) && decide (t.freeCount = 96)
        && decide ((t.link.queue.map (fun q => (q.reply.tag, q.reply.status))).getLast? = some (6, .done))) = true := by decide +kernel

theorem test_part_reset_clears_tags :
    after (exec .partReset (offered (heldStrip .staged (recOf .opened .dense 4 0 0 none)) (reqFrame 6 (bytes [15])))) (fun t =>
      decide (t.rqu.part = .running) && decide (t.tag 10 = none) && decide (t.freeCount = 96)
        && decide (t.link.queue.map (fun q => (q.reply.tag, q.reply.status)) = [(6, .done)])) = true := by decide +kernel

/-! ### Start-up, departures and input lines -/

theorem test_directory_read_begins_survey :
    after (exec (.directoryReadEnd ⟨0, .pass⟩) State.reset) (fun t => decide ((t.lane 0).engine = some (.survey 0))) = true := by
  decide +kernel

theorem test_directory_read_fails :
    after (exec (.directoryReadEnd ⟨0, .fail⟩) State.reset) (fun t =>
      decide ((t.lane 0).state = .offline) && decide ((t.lane 0).array.copyA = (State.reset.lane 0).array.copyA)) = true := by
  decide +kernel

theorem test_survey_goes_on :
    after (exec (.surveyEnd 1) (State.reset.modLane 1 (fun l => { l with engine := some (.survey 1023) }))) (fun t =>
      decide ((t.lane 1).engine = some (.survey 1024)) && decide ((t.lane 1).surveys = [.blank])) = true := by decide +kernel

/-- A frame on its way. -/
def sending (s : State) (w : Sending) : State :=
  { s with link := { s.link with tx := some { what := w, seq := 0, ack := 0, window := 16, tag := 9, payload := [] } } }

/-- A reply of tag 9 at the head of the reply queue. -/
def replied (st : Status) (cls : ReplyClass) (src : Option Source) : State :=
  withTag { running with
    link := { running.link with
      queue := [{ reply := { tag := 9, answers := .request .read, status := st, cls := cls, fields := .plain, recallable := true }
                  source := src }] } } 9 (TagEntry.mk' .read .replying (some 0) (some 3) (some 0))

theorem test_final_reply_leaves :
    after (exec .rspDeparture (sending (replied .erasedPage .final none) (.rsp false))) (fun t =>
      decide (t.tag 9 = none) && decide (t.link.queue = []) && decide (t.rqu.ring.map Reply.tag = [9]) && decide (t.link.tx = none))
      = true := by decide +kernel

theorem test_read_reply_begins_data :
    after (exec .rspDeparture (sending (withSlot (replied .done .final (some (.slot 0))) 0 (slotOn .staged 0 (some 10) 8 1)) (.rsp false)))
      (fun t => decide (sentWhat t = some (.data 0 false)) && decide (t.tag 9 = none)) = true := by decide +kernel

theorem test_last_chunk_unpins :
    after (exec .dataFrameDeparture
        (sending (withSlot (replied .done .final (some (.slot 0))) 0 { slotOn .detached 0 none 8 1 with owner := none }) (.data 7 false)))
      (fun t => decide ((t.slot 0).state = .free) && decide (t.link.queue = [])) = true := by decide +kernel

theorem test_notice_leaves :
    after (exec .noteDeparture
        (sending { running with rqu := { running.rqu with poolLow := { pending := true, again := false } } } (.note .poolLow)))
      (fun t => !t.rqu.poolLow.pending && decide (t.link.tx = none)) = true := by decide +kernel

theorem test_ack_leaves :
    after (exec .linkControlDeparture (sending running .ack)) (fun t => decide (t.link.tx = none)) = true := by decide +kernel

theorem test_wp_change_notices :
    after (exec .wpChanged running) (fun t => t.wpAsserted && decide (sentBytes t = [3, 1])) = true := by decide +kernel

theorem test_rst_cuts_an_erase_short :
    after (exec .rstAsserted (erasing running (.erase 3) .inPlace none)) (fun t =>
      t.inReset && decide (((t.lane 0).array.block 3).cells = .unsettled) && decide ((t.lane 0).engine = none)
        && decide (t.tag 6 = none)) = true := by decide +kernel

theorem test_cut_erase_of_a_factory_bad_block :
    let pb : PhysBlock := { factoryBad := true, cells := .blank }
    pb.cutErase.cells = .unsettled ∧ pb.cutErase.factoryBad = true := by decide +kernel

theorem test_rst_release_starts_up :
    after (exec .rstReleased { State.reset with inReset := true }) (fun t =>
      !t.inReset && decide (t.rqu.part = .starting) && decide ((t.lane 3).engine = some .directoryRead)) = true := by decide +kernel

/-! ### Witnesses: concrete states that meet the hypotheses of the obligations -/

/-- A property of every slot, from the 96 of the pool and the one read past its end. -/
theorem all_slots {s : State} (p : Slot → Prop) [∀ sl, Decidable (p sl)]
    (h : (List.range 96).all (fun i => decide (p (s.slot i))) = true) (h0 : p Slot.powerOn) : ∀ i, p (s.slot i) := by
  intro i
  by_cases hi : i < 96
  · exact of_decide_eq_true (List.all_eq_true.mp h i (List.mem_range.mpr hi))
  · rw [State.slot, Vector.getElem?_eq_none (by omega)]; exact h0

/-- A property of every live tag, from the 64 of the table. -/
theorem all_tags {s : State} (p : Nat → TagEntry → Prop) [∀ t e, Decidable (p t e)]
    (h : (List.range 64).all (fun t => (s.tag t).all (fun e => decide (p t e))) = true) : ∀ t e, s.tag t = some e → p t e := by
  intro t e he
  have ht : t < 64 := by
    by_contra hn
    rw [State.tag, Vector.getElem?_eq_none (by omega)] at he
    cases he
  have := List.all_eq_true.mp h t (List.mem_range.mpr ht)
  rw [he] at this
  exact of_decide_eq_true this

/-- The premise of the statements about the order of replies, told slot by slot. -/
theorem writesOpen_of {s : State} {hit : Nat → Prop} [DecidablePred hit] (hlt : ∀ i, hit i → i < 96)
    (h : (List.range 96).all (fun i => !decide (hit i)
      || ((List.range 96).all (fun j => !decide (hit j) || decide (i = j) || decide ((s.slot i).tag = none ∨ (s.slot i).tag ≠ (s.slot j).tag))
        && ((s.slot i).tag.bind s.tag).all (fun e => decide (e.state ≠ .replying)))) = true) : s.WritesOpen hit := by
  have hi : ∀ i, hit i → _ := fun i hi => List.all_eq_true.mp h i (List.mem_range.mpr (hlt i hi))
  refine ⟨fun i j t hi' hj hti htj => ?_, fun i t e hi' hti he => ?_⟩
  · have := hi i hi'
    simp only [hi', decide_true, Bool.not_true, Bool.false_or, Bool.and_eq_true] at this
    have := List.all_eq_true.mp this.1 j (List.mem_range.mpr (hlt j hj))
    simpa [hj, hti, htj] using this
  · have := hi i hi'
    simp only [hi', decide_true, Bool.not_true, Bool.false_or, Bool.and_eq_true] at this
    simpa [hti, he] using this.2

theorem owned_below {s : State} {x b p : Nat} : ∀ i, (s.slot i).ownedBy x b = true ∧ p ≤ (s.slot i).pageNumber → i < 96 := by
  intro i h
  by_contra hi
  rw [State.slot, Vector.getElem?_eq_none (by omega)] at h
  cases h.1

/-- An outcome that passes a test is a next state. -/
theorem next_of_after {r : Result} {p : State → Bool} (h : after r p = true) : ∃ t, r = .next t ∧ p t = true := by
  cases r with
  | next t => exact ⟨t, rfl, h⟩
  | fault f => cases f
  | refused w => cases h

/-- The running part with its link changed. -/
def linked (f : Link → Link) : State := { running with link := f running.link }

/-- A queued refusal. -/
def anEntry : QueueEntry :=
  { reply := { tag := 9, answers := .request .read, status := .badAddress, cls := .refusal, fields := .plain, recallable := true }
    source := none }

/-- Tag 9's interim reply, as queued. -/
def interim9 : QueueEntry := { anEntry with reply := { anEntry.reply with status := .staged, cls := .interim } }

/-- Strip 0 of a DENSE block STAGED, and a POOL_STATUS to be taken. -/
def busy : State :=
  { offered (heldStrip .staged (recOf .opened .dense 4 0 0 none)) (reqFrame 6 (bytes [5])) with pending := [.poolStatus] }

theorem busy_steps : ∃ t, step busy = .next t :=
  (next_of_after (p := fun t => decide (t.tag 6 ≠ none)) (by decide +kernel)).imp fun _ h => h.1

theorem witness_StepRunsFrontCommand : busy.pending = .poolStatus :: [] ∧ State.reset.pending = [] := ⟨rfl, rfl⟩

theorem witness_SlotsStayFormed : busy.SlotsFormed ∧ ∃ t, step busy = .next t :=
  ⟨all_slots (fun sl => sl.wf = true) (by decide +kernel) (by decide), busy_steps⟩

theorem witness_TagsStayLegal : busy.TagsLegal ∧ ∃ t, step busy = .next t :=
  ⟨all_tags (fun _ e => TagState.legalFor e.kind e.state = true) (by decide +kernel), busy_steps⟩

theorem witness_CapacitiesKept :
    busy.WithinCapacity ∧ busy.rqu.settings.inRange = true ∧ busy.link.syncedWhenDue ∧ ∃ t, step busy = .next t := by
  refine ⟨⟨by decide, by decide, ?_, by decide, ?_⟩, by decide, ?_, busy_steps⟩
  · intro q h; cases h
  · intro x
    by_cases hx : x < 4
    · have : ∀ y, y < 4 → (busy.lane y).workQueue.length ≤ 24 := by decide +kernel
      exact this x hx
    · rw [State.lane, Vector.getElem?_eq_none (by omega)]; exact Nat.zero_le _
  · intro h; cases h

/-! A STAGED write's tag 9 with its interim reply queued, and the same ended with its final reply held back behind the interim frame. -/
theorem witness_CapacitiesKept_placed :
    let s := withTag (linked (fun l => { l with queue := [interim9] })) 9 (writeTag .staged 0 0)
    let t := withTag (sending (linked (fun l => { l with queue := [interim9]
                                                         deferred := some (QueueEntry.finalOf 9 .write .durable .plain none) }))
      (.rsp false)) 9 (writeTag .replying 0 0)
    s.RepliesPlaced ∧ t.RepliesPlaced := by
  intro s t
  have hs : s.link.queue = [interim9] := rfl
  have hd : s.link.deferred = none := rfl
  have ht : t.link.queue = [interim9] := rfl
  refine ⟨⟨fun u => hs ▸ List.countP_le_length, ?_, fun q h => ?_⟩, ⟨fun u => ht ▸ List.countP_le_length, ?_, ?_⟩⟩
  · intro u e h _ q hq hr
    rw [hs] at hq
    obtain rfl : q = interim9 := List.mem_singleton.mp hq
    obtain rfl : 9 = u := of_decide_eq_true ((Bool.and_eq_true_iff.mp hr).2)
    exact ⟨rfl, .inl (all_tags (s := s) (fun _ e => e.state = .staged) (by decide +kernel) _ e h)⟩
  · rw [hd] at h; cases h
  · exact fun u e h hn q hq hr => absurd (all_tags (s := t) (fun _ e => e.state = .replying) (by decide +kernel) u e h) hn
  · intro q hq
    obtain rfl : QueueEntry.finalOf 9 .write .durable .plain none = q := Option.some.inj hq
    exact ⟨rfl, by decide +kernel, all_tags (s := t) (fun _ e => e.state = .replying) (by decide +kernel) 9⟩

theorem witness_OfflineLanesRest :
    ((running.modLane 1 (fun l => { l with state := .offline })).lane 1).atRestOffline
      ∧ ∃ t, exec .wpChanged (running.modLane 1 (fun l => { l with state := .offline })) = .next t :=
  ⟨⟨rfl, rfl, rfl⟩, _, rfl⟩

theorem witness_ExecLeavesQueueAndPins :
    ∃ t, exec .identify (asked 7 [1]) = .next t ∧ Instr.identify ≠ .wpChanged ∧ Instr.identify ≠ .rstAsserted
      ∧ Instr.identify ≠ .rstReleased :=
  (next_of_after (p := fun _ => true) (by decide +kernel)).imp fun _ h => ⟨h.1, by decide, by decide, by decide⟩

theorem witness_SettingsOnlyByConfigure :
    ∃ t, exec .identify (asked 7 [1]) = .next t ∧ Instr.identify ≠ .configure ∧ Instr.identify ≠ .rstAsserted :=
  (next_of_after (p := fun _ => true) (by decide +kernel)).imp fun _ h => ⟨h.1, by decide, by decide⟩

theorem witness_ExpectedNumberMoves :
    ∃ t, exec (.sequencedFrame (bytes [1, 0, 0, 0, 5, 1, 0, 3, 72, 20, 157, 6])) running = .next t
      ∧ t.link.expected ≠ running.link.expected :=
  (next_of_after (p := fun t => decide (t.link.expected ≠ running.link.expected)) (by decide +kernel)).imp
    fun _ h => ⟨h.1, of_decide_eq_true h.2⟩

theorem witness_LanesIndependent :
    running.rqu.partReset = none ∧ running.rqu.part ≠ .resetting ∧ (3 : Nat) ≠ 0
      ∧ ∃ t, exec (.senseEnd 0 []) (withJob running (some (.sense 3 0 0)) (some (.read 9 3 0 3))) = .next t :=
  ⟨rfl, by decide, by decide, (next_of_after (p := fun _ => true) (by decide +kernel)).imp fun _ h => h.1⟩

theorem witness_HappeningEnd :
    (running.lane 3).state = .ready ∧ running.rqu.partReset = none ∧ (sending running .ack).link.tx.isSome = true := by decide +kernel

theorem witness_HappeningEnd_composes :
    (linked (fun l => { l with queue := [anEntry] })).link.tx = none
      ∧ ((running.conclude [] (linked (fun l => { l with queue := [anEntry] }))).link.tx.map OutFrame.what) = some (.rsp false) := by
  decide +kernel

/-- A pool with no FREE slot: 96 slots of a closed transmission. -/
def fullPool (s : State) : State :=
  { s with pool := { s.pool with slots := Vector.replicate 96 { Slot.powerOn with state := .detached, pins := 1 } } }

/-- Lane 0 with the given work queue and ready list over a FULL block 3. -/
def scheduling (wq : List WorkItem) (rl : List ReadyEntry) (run : Nat) (eg : EgressState) : State :=
  (withRec running 3 (recOf .full .swift 64 0 64 (some 64))).modLane 0 (fun l =>
    { l with workQueue := wq, readyList := rl, readRun := run, egress := { l.egress with state := eg } })

/-- A READ of page 63 of block 3. -/
def readItem : WorkItem := { tag := 9, block := 3, kind := .read 63 }

/-- An entry of the ready list. -/
def passItem (b : Nat) (k : PassKind) : ReadyEntry := { block := b, pass := { kind := k, strip := 0 } }

theorem witness_HappeningEnd_started :
    let m := scheduling [{ tag := 9, block := 3, kind := .erase }] [] 0 .free
    (m.lane 0).state = .ready ∧ (m.lane 0).job = none ∧ m.rqu.partReset = none
      ∧ ((running.conclude [0] m).lane 0).job = some (.erase 9 3 .inPlace none)
      ∧ (∀ w ∈ (m.lane 0).workQueue, ∀ q ∈ m.link.queue, q.interimOf w.tag = false) := by decide +kernel

theorem witness_HappeningEnd_waits :
    let m := scheduling [readItem] [] 0 .loaded
    (m.lane 0).job = none ∧ ((running.conclude [0] m).lane 0).job = none
      ∧ ((withJob m none (some (.read 9 3 0 3))).lane 0).job ≠ none := by decide +kernel

theorem witness_HappeningEnd_pool :
    (let t := running.conclude [] (fullPool running)
     t.freeCount < running.freeCount ∧ 0 < running.rqu.settings.poolWatermark ∧ (fullPool running).pool.armed = true
      ∧ t.freeCount < running.rqu.settings.poolWatermark)
    ∧ (let t := (fullPool running).conclude [] running
       (fullPool running).freeCount < t.freeCount ∧ min 96 (running.rqu.settings.poolWatermark + 8) ≤ t.freeCount) := by decide +kernel

theorem witness_SchedulerOrder_read :
    let s := scheduling [readItem] [passItem 5 .final] 3 .free
    (s.lane 0).workQueue = { tag := 9, block := 3, kind := .read 63 } :: [] ∧ (s.lane 0).egress.state = .free
      ∧ (s.lane 0).readRun < s.rqu.settings.readBurst := by decide +kernel

/-- The head of lane 0's work queue is readItem alone. -/
theorem read_alone {rl : List ReadyEntry} {run : Nat} {eg : EgressState} {p : Nat → Nat → Nat → Prop} (h : p 9 3 63) :
    ∀ t b q rest, ((scheduling [readItem] rl run eg).lane 0).workQueue = { tag := t, block := b, kind := .read q } :: rest → p t b q := by
  intro t b q rest hq
  have hq : [({ tag := 9, block := 3, kind := .read 63 } : WorkItem)] = { tag := t, block := b, kind := .read q } :: rest := hq
  cases hq
  exact h

theorem witness_SchedulerOrder_final :
    let s := scheduling [readItem] [passItem 5 .rough, passItem 6 .final] 4 .free
    (∀ t b p rest, (s.lane 0).workQueue = { tag := t, block := b, kind := .read p } :: rest →
        (s.classify 0 b p = .finalized ∧ (s.lane 0).egress.state ≠ .free)
          ∨ ((s.lane 0).readyList ≠ [] ∧ s.rqu.settings.readBurst ≤ (s.lane 0).readRun))
      ∧ (s.lane 0).readyList = [passItem 5 .rough] ++ passItem 6 .final :: []
      ∧ (∀ f ∈ [passItem 5 .rough], f.pass.kind ≠ .final) :=
  ⟨read_alone (p := fun _ b p => (_ ∧ _) ∨ _) (.inr (by decide +kernel)), by decide +kernel, by decide +kernel⟩

theorem witness_SchedulerOrder_pass :
    let s := scheduling [readItem] [passItem 5 .rough, passItem 6 .single] 0 .loaded
    (∀ t b p rest, (s.lane 0).workQueue = { tag := t, block := b, kind := .read p } :: rest →
        (s.classify 0 b p = .finalized ∧ (s.lane 0).egress.state ≠ .free)
          ∨ ((s.lane 0).readyList ≠ [] ∧ s.rqu.settings.readBurst ≤ (s.lane 0).readRun))
      ∧ (s.lane 0).readyList = passItem 5 .rough :: [passItem 6 .single] ∧ ∀ f ∈ (s.lane 0).readyList, f.pass.kind ≠ .final :=
  ⟨read_alone (p := fun _ b p => (_ ∧ _) ∨ _) (.inl (by decide +kernel)), by decide +kernel, by decide +kernel⟩

theorem witness_SchedulerOrder_noRead :
    let s := scheduling [{ tag := 9, block := 3, kind := .erase }] [passItem 5 .rough] 0 .free
    (∀ t b p rest, (s.lane 0).workQueue ≠ { tag := t, block := b, kind := .read p } :: rest)
      ∧ (s.lane 0).readyList = passItem 5 .rough :: [] :=
  ⟨fun t b p rest (h : [({ tag := 9, block := 3, kind := .erase } : WorkItem)] = { tag := t, block := b, kind := .read p } :: rest) =>
    (nomatch h), by decide +kernel⟩

theorem witness_SchedulerOrder_erase :
    let s := scheduling [{ tag := 9, block := 3, kind := .erase }] [] 0 .free
    (s.lane 0).readyList = [] ∧ (s.lane 0).workQueue = { tag := 9, block := 3, kind := .erase } :: [] := by decide +kernel

theorem witness_SchedulerOrder_wait :
    let s := scheduling [readItem] [] 0 .loaded
    (s.lane 0).readyList = [] ∧ (s.lane 0).workQueue = { tag := 9, block := 3, kind := .read 63 } :: []
      ∧ s.classify 0 3 63 = .finalized ∧ (s.lane 0).egress.state ≠ .free := by decide +kernel

theorem witness_SchedulerOrder_choices :
    let s := scheduling [readItem] [] 0 .free
    ((s.lane 0).job = none ∧ (s.lane 0).state = .ready ∧ ((s.lane 0).readyList ≠ [] ∨ (s.lane 0).workQueue ≠ []))
      ∧ ((running.lane 0).readyList = [] ∧ (running.lane 0).workQueue = [])
      ∧ (scheduling [readItem] [] 0 .loaded).choice 0 = .wait := by decide +kernel

theorem witness_ArbiterOrder_control :
    (linked (fun l => { l with syncDue := true })).link.tx = none
      ∧ (linked (fun l => { l with nakDue := some .gap })).link.syncDue = false
      ∧ (linked (fun l => { l with nakDue := some .gap })).link.nakDue = some .gap := ⟨rfl, rfl, rfl⟩

theorem witness_ArbiterOrder_data :
    let s := linked (fun l => { l with transmission := some 7, queue := [anEntry] })
    s.link.tx = none ∧ s.link.syncDue = false ∧ s.link.nakDue = none ∧ s.link.transmission = some 7
      ∧ s.link.queue = anEntry :: [] := ⟨rfl, rfl, rfl, rfl, rfl⟩

theorem witness_ArbiterOrder_reply :
    let s := linked (fun l => { l with queue := [anEntry] })
    s.link.tx = none ∧ s.link.syncDue = false ∧ s.link.nakDue = none ∧ s.link.transmission = none
      ∧ s.link.queue = anEntry :: [] ∧ s.nextNotice = none := by decide +kernel

theorem witness_ArbiterOrder_notice :
    let s : State := { linked (fun l => { l with queue := [anEntry], lastTurn := some .reply }) with
      rqu := { running.rqu with poolLow := { pending := true, again := false } } }
    s.link.tx = none ∧ s.link.syncDue = false ∧ s.link.nakDue = none ∧ s.link.transmission = none
      ∧ s.nextNotice = some .poolLow ∧ s.link.lastTurn ≠ some .notice := by decide +kernel

theorem witness_ArbiterOrder_idle :
    running.link.tx = none ∧ running.link.syncDue = false ∧ running.link.nakDue = none ∧ running.link.transmission = none
      ∧ running.link.queue = [] ∧ running.nextNotice = none := by decide +kernel

theorem witness_ArbiterOrder_block :
    let s := running.modRecord 3 1023 (fun r => { r with failNotice := true })
    s.rqu.startupDone.pending = false ∧ s.rqu.wpNotice.pending = false ∧ s.rqu.poolLow.pending = false
      ∧ s.nextNotice = some (.blockFailed 3 1023) := by decide +kernel

/-- No block of the running part has a notice pending. -/
theorem running_quiet (x b : Nat) : (running.record x b).failNotice = false := by
  by_cases hx : x < 4
  · have h : running.lane x = { Lane.powerOn FlashArray.delivered none with state := .ready, built := true } := by
      simp [running, State.lane, hx]
    rw [State.record, h]
    by_cases hb : b < 1024 <;> simp [Lane.record, Lane.powerOn, hb, BlockRec.unbuilt]
  · rw [State.record, State.lane, Vector.getElem?_eq_none (by omega)]
    by_cases hb : b < 1024 <;> simp [Lane.record, Lane.powerOn, hb, BlockRec.unbuilt]

theorem witness_ArbiterOrder_lowest :
    let s := running.modRecord 1 0 (fun r => { r with failNotice := true })
    1 < 4 ∧ (s.record 1 0).failNotice = true ∧ (∀ c, c < 0 → (s.record 1 c).failNotice = false)
      ∧ (∀ y c, y < 1 → c < 1024 → (s.record y c).failNotice = false)
      ∧ ∀ x b, x < 4 → b < 1024 → (running.record x b).failNotice = false := by
  refine ⟨by decide, by decide +kernel, nofun, fun y c hy _ => ?_, fun x b _ _ => running_quiet x b⟩
  rw [State.record, State.lane_modRecord_ne _ _ _ (by omega)]
  exact running_quiet y c

theorem witness_ArbiterOrder_notices :
    let on : Condition := { pending := true, again := false }
    ({ running.rqu with startupDone := on }).startupDone.pending = true
      ∧ ({ running.rqu with wpNotice := on }).startupDone.pending = false
      ∧ ({ running.rqu with wpNotice := on }).wpNotice.pending = true
      ∧ ({ running.rqu with poolLow := on }).wpNotice.pending = false
      ∧ ({ running.rqu with poolLow := on }).poolLow.pending = true := ⟨rfl, rfl, rfl, rfl, rfl⟩

/-- The kind of the frame that the arbiter composes. -/
def composes (s : State) (w : Sending) : Prop := s.link.tx = none ∧ s.arbitrate.link.tx.map OutFrame.what = some w

theorem witness_ComposedHeader_control :
    composes (linked (fun l => { l with syncDue := true, nakDue := some .gap })) .sync
      ∧ composes (linked (fun l => { l with nakDue := some .noBuffer, owed := true })) .nak
      ∧ composes (linked (fun l => { l with owed := true, ackDue := true })) .ack := by unfold composes; decide +kernel

theorem witness_ComposedHeader_data :
    let slot := linked (fun l => { l with transmission := some 7, queue := [{ anEntry with source := some (.slot 95) }] })
    let egress := linked (fun l => { l with transmission := some 7, queue := [{ anEntry with source := some (.egress 3) }] })
    composes slot (.data 7 false) ∧ composes egress (.data 7 false) ∧ (egress.lane 3).egress.bytes[7]? = some [] := by
  unfold composes; decide +kernel

theorem witness_ComposedHeader_reply : composes (linked (fun l => { l with queue := [anEntry] })) (.rsp false) := by
  unfold composes; decide +kernel

theorem witness_ComposedHeader_notices :
    let on : Condition := { pending := true, again := false }
    composes (running.modRecord 3 1023 (fun r => { r with failNotice := true })) (.note (.blockFailed 3 1023))
      ∧ composes { running with rqu := { running.rqu with poolLow := on } } (.note .poolLow)
      ∧ composes { running with rqu := { running.rqu with wpNotice := on }, wpAsserted := true } (.note .wpChanged)
      ∧ composes { running with rqu := { running.rqu with startupDone := on } } (.note .startupDone) := by
  unfold composes; decide +kernel

theorem witness_LineFrames :
    255 < 256 ∧ 255 ≠ 3 ∧ (List.replicate 1040 0#8).length ≤ 1040 ∧ ([] : List Byte).length ≠ 1
      ∧ (List.replicate 1040 0#8).length ≠ 1 ∧ (List.replicate 10 0#8).length < 11 := by decide +kernel

theorem witness_LineFrames_bad :
    (let long := bytes [1, 0, 0, 0, 5, 0x11, 4]
     long[5]? = some 0x11#8 ∧ long[6]? = some 4#8 ∧ 1040 < (0x11#8).toNat + 256 * (4#8).toNat)
      ∧ (let odd := bytes [1, 0, 0, 0, 5, 1, 0, 3, 72, 20, 157, 6, 0]
         odd[5]? = some 1#8 ∧ odd[6]? = some 0#8 ∧ odd.length ≠ (1#8).toNat + 256 * (0#8).toNat + 11)
      ∧ crc32 (bytes [1, 0, 0, 0, 5, 1, 0, 3]) ≠ 7#8 ++ 157#8 ++ 20#8 ++ 72#8 := by decide +kernel

/-! #### Frames -/

/-- The REQ frame with seq 0 of the tests above. -/
def goodBytes : List Byte := bytes [1, 0, 0, 0, 5, 1, 0, 3, 72, 20, 157, 6]

/-- The running part with `n` frames in its intake buffers and E at `e`. -/
def receiving (n : Nat) (e : Seq) : State :=
  linked (fun l => { l with intake := List.replicate n (reqFrame 1 (bytes [1])), expected := e })

theorem good_received : receive goodBytes = .sequenced { kind := 1, seq := 0, tag := 5, payload := bytes [3] } := by decide +kernel

theorem witness_SequencedFrameAccepted :
    (receiving 15 0).inReset = false ∧ (0 : Seq) = (receiving 15 0).link.expected ∧ (receiving 15 0).link.intake.length < 16 := by
  decide +kernel

theorem witness_FramesDiscarded :
    receive [] = .bad ∧ (linked (fun l => { l with nakDue := some .gap })).link.nakFlag = false ∧ (0 : Seq) = (receiving 16 0).link.expected ∧ 16 ≤ (receiving 16 0).link.intake.length
      ∧ ((0 : Seq) - (receiving 0 255).link.expected).toNat = 1 ∧ ((0 : Seq) - (receiving 0 129).link.expected).toNat = 127
      ∧ ((0 : Seq) - (receiving 0 128).link.expected).toNat = 128 ∧ ((0 : Seq) - (receiving 0 1).link.expected).toNat = 255 := by
  decide +kernel

theorem witness_SyncAndAckTimer :
    receive (bytes [3, 0, 0, 0, 255, 1, 0, 7, 239, 33, 14, 170]) = .sync 7 ∧ running.inReset = false
      ∧ (linked (fun l => { l with ackTimer := true })).link.ackTimer = true ∧ running.link.ackTimer = false := by decide +kernel

/-! #### Replies and first checks -/

theorem witness_FinalReplyPlace :
    let e := QueueEntry.finalOf 9 .write .durable .plain none
    let sent := (sending (linked (fun l => { l with queue := [interim9] })) (.rsp false)).link
    let queued := (linked (fun l => { l with queue := [anEntry] ++ interim9 :: [anEntry] })).link
    sent.sendingInterim e.reply.tag = true ∧ queued.sendingInterim e.reply.tag = false ∧ interim9.interimOf e.reply.tag = true
      ∧ (∀ r ∈ [anEntry] ++ [anEntry], r.interimOf e.reply.tag = false)
      ∧ ∀ q ∈ (linked (fun l => { l with queue := [anEntry] })).link.queue, q.interimOf e.reply.tag = false := by decide +kernel

/-- A state with a request offered, and whether R143 lets RQU take it as a request of the kind. -/
def offersKind (s : State) (f : InFrame) (k : ReqKind) : Bool :=
  !s.inReset && decide (s.link.intake.head? = some f) && s.mayTake f && f.isRequest k

theorem offers_of {s : State} {f : InFrame} {k : ReqKind} (h : offersKind s f k = true) : s.Offers f ∧ f.isRequest k = true := by
  simp only [offersKind, Bool.and_eq_true, Bool.not_eq_true', decide_eq_true_eq] at h
  exact ⟨⟨h.1.1.1, h.1.1.2, h.1.2⟩, h.2⟩

/-- The premises of Admits as one test. -/
def admitsB (s : State) (f : InFrame) (k : ReqKind) (r : Request) : Bool :=
  offersKind s f k && decide (parseRequest f.payload = some r) && decide (f.tag < 64) && decide (s.tag f.tag = none)
    && decide (partCheck k s.rqu.part = none)

theorem admits_of {s : State} {f : InFrame} {k : ReqKind} {r : Request} (h : admitsB s f k r = true) : s.Admits f k r := by
  simp only [admitsB, Bool.and_eq_true, decide_eq_true_eq] at h
  obtain ⟨⟨⟨⟨h1, h2⟩, h3⟩, h4⟩, h5⟩ := h
  exact ⟨(offers_of h1).1, (offers_of h1).2, h2, h3, h4, h5⟩

theorem reaches_of {s : State} {x b : Nat} (h : (x < 4 ∧ b < 1024) ∧ (s.lane x).state = .ready) : s.Reaches x b := ⟨h.1.1, h.1.2, h.2⟩

/-- The state with the sixteen shared refusal places taken. -/
def refusalsFull (s : State) : State := { s with link := { s.link with queue := List.replicate 16 anEntry } }

theorem witness_FirstChecksRefuse_heldBack :
    let f := reqFrame 9 (bytes [3])
    let full := refusalsFull (offered running f)
    let own := { offered running f with link := { (offered running f).link with queue := [QueueEntry.finalOf 9 .read .done .plain none] } }
    full.inReset = false ∧ full.link.intake.head? = some f ∧ f.isRequest .readSettings = true ∧ full.mayTake f = false
      ∧ own.link.intake.head? = some f ∧ own.mayTake f = false := by decide +kernel

theorem witness_FirstChecksRefuse_malformed :
    let f := reqFrame 5 (bytes [10, 0])
    let g := reqFrame 64 (bytes [10, 0, 3, 0, 0, 0])
    ((offered running f).Offers f ∧ f.isRequest .read = true) ∧ parseRequest f.payload = none
      ∧ ((offered running g).Offers g ∧ g.isRequest .read = true) ∧ 64 ≤ g.tag :=
  ⟨offers_of (by decide +kernel), by decide +kernel, offers_of (by decide +kernel), by decide⟩

theorem witness_FirstChecksRefuse_order :
    let f := reqFrame 63 (bytes [10, 0, 3, 0, 0, 0])
    let live := offered (withTag running 63 (writeTag .transfer 0 0)) f
    let early := offered State.reset f
    let late := offered { running with rqu := { running.rqu with part := .resetting } } f
    (live.Offers f ∧ f.isRequest .read = true) ∧ (early.Offers f ∧ f.isRequest .read = true)
      ∧ (late.Offers f ∧ f.isRequest .read = true) ∧ parseRequest f.payload ≠ none ∧ f.tag < 64 ∧ live.tag 63 ≠ none
      ∧ early.tag 63 = none ∧ early.rqu.part = .starting ∧ late.tag 63 = none ∧ late.rqu.part = .resetting :=
  ⟨offers_of (by decide +kernel), offers_of (by decide +kernel), offers_of (by decide +kernel), by decide +kernel, by decide,
    by decide +kernel, by decide +kernel, rfl, by decide +kernel, rfl⟩

/-- A READ request of a page of a lane and block, by tag 5. -/
def readReq (x b p : Nat) : InFrame := reqFrame 5 ([BitVec.ofNat 8 10] ++ num1 x ++ num2 b ++ num2 p)

theorem witness_AddressAndLaneRefusals_address :
    (offered running (readReq 4 0 0)).Admits (readReq 4 0 0) .read (.read 4 0 0) ∧ Request.inRange (.read 4 0 0) = false
      ∧ (offered running (readReq 3 1024 0)).Admits (readReq 3 1024 0) .read (.read 3 1024 0)
      ∧ Request.inRange (.read 3 1024 0) = false
      ∧ (offered running (readReq 3 1023 256)).Admits (readReq 3 1023 256) .read (.read 3 1023 256)
      ∧ Request.inRange (.read 3 1023 256) = false ∧ Request.lane (.read 4 0 0) = some 4 :=
  ⟨admits_of (by decide +kernel), by decide, admits_of (by decide +kernel), by decide, admits_of (by decide +kernel), by decide, rfl⟩

theorem witness_AddressAndLaneRefusals_lane :
    let f := readReq 3 1023 255
    let s := fun st => offered (running.modLane 3 (fun l => { l with state := st })) f
    (s .scanning).Admits f .read (.read 3 1023 255) ∧ ((s .scanning).lane 3).state = .scanning
      ∧ (s .resetting).Admits f .read (.read 3 1023 255) ∧ ((s .resetting).lane 3).state = .resetting
      ∧ (s .offline).Admits f .read (.read 3 1023 255) ∧ ((s .offline).lane 3).state = .offline
      ∧ Request.inRange (.read 3 1023 255) = true :=
  ⟨admits_of (by decide +kernel), by decide +kernel, admits_of (by decide +kernel), by decide +kernel, admits_of (by decide +kernel),
    by decide +kernel, by decide⟩

theorem witness_MalformedFrameRefused :
    let f : InFrame := { kind := 9, tag := 200, payload := [], malformed := true }
    (offered running f).Offers f ∧ f.isMalformed = true := ⟨⟨rfl, rfl, by decide +kernel⟩, by decide⟩

theorem witness_MalformedFrameRefused_heldBack :
    let f : InFrame := { kind := 9, tag := 200, payload := [], malformed := true }
    let s := refusalsFull (offered running f)
    s.inReset = false ∧ s.link.intake.head? = some f ∧ f.isMalformed = true ∧ s.mayTake f = false := by decide +kernel

/-! #### Requests that the request unit answers itself -/

/-- The state with a request offered passes checks 1 to 3. -/
def askedOk (s : State) (t : Nat) (p : List Nat) (k : ReqKind) (r : Request) : Prop :=
  (offered s (reqFrame t (bytes p))).Admits (reqFrame t (bytes p)) k r

theorem witness_StatusRequestsAnswered :
    askedOk State.reset 63 [1] .identify .identify ∧ askedOk running 0 [3] .readSettings .readSettings
      ∧ askedOk running 0 [5] .poolStatus .poolStatus ∧ askedOk running 0 [4, 3, 255, 3] .blockStatus (.blockStatus 3 1023)
      ∧ running.Reaches 3 1023 :=
  ⟨admits_of (by decide +kernel), admits_of (by decide +kernel), admits_of (by decide +kernel), admits_of (by decide +kernel),
    reaches_of (by decide +kernel)⟩

theorem witness_ConfigureTaken :
    askedOk running 0 [2, 251, 0, 25, 65] .configure (.configure (some 251) (some 0) (some 25) (some 65))
      ∧ askedOk running 0 [2, 250, 17, 25, 65] .configure (.configure (some 250) (some 17) (some 25) (some 65))
      ∧ askedOk running 0 [2, 1, 16, 0, 65] .configure (.configure (some 1) (some 16) (some 0) (some 65))
      ∧ askedOk running 0 [2, 1, 1, 24, 65] .configure (.configure (some 1) (some 1) (some 24) (some 65))
      ∧ askedOk running 0 [2, 255, 255, 1, 12] .configure (.configure none none (some 1) (some 12))
      ∧ askedOk running 0 [2, 255, 255, 255, 64] .configure (.configure none none none (some 64))
      ∧ ¬(0 < 64 ∧ running.freeCount < 64) :=
  ⟨admits_of (by decide +kernel), admits_of (by decide +kernel), admits_of (by decide +kernel), admits_of (by decide +kernel),
    admits_of (by decide +kernel), admits_of (by decide +kernel), by decide +kernel⟩

theorem witness_ConfigureTaken_low :
    (offered (fullPool running) (reqFrame 0 (bytes [2, 255, 255, 255, 64]))).Admits (reqFrame 0 (bytes [2, 255, 255, 255, 64])) .configure
        (.configure none none none (some 64))
      ∧ (64 ≠ running.rqu.settings.poolWatermark) ∧ 0 < 64 ∧ (fullPool running).freeCount < 64 :=
  ⟨admits_of (by decide +kernel), by decide, by decide, by decide +kernel⟩

/-- A recalled copy of tag 9. -/
def copy9 : Reply := anEntry.reply

theorem witness_TagStatusAnswered :
    let f := reqFrame 2 (bytes [6, 9])
    let live := offered (withTag running 9 (writeTag .staged 0 0)) f
    let ring := offered { running with rqu := { running.rqu with ring := [] ++ copy9 :: [] } } f
    live.Admits f .tagStatus (.tagStatus 9) ∧ live.tag 9 = some (writeTag .staged 0 0) ∧ ring.Admits f .tagStatus (.tagStatus 9)
      ∧ ring.tag 9 = none ∧ ring.rqu.ring = [] ++ copy9 :: [] ∧ copy9.tag = 9
      ∧ (offered running f).Admits f .tagStatus (.tagStatus 9) ∧ (∀ q ∈ (offered running f).rqu.ring, q.tag ≠ 9) :=
  ⟨admits_of (by decide +kernel), by decide +kernel, admits_of (by decide +kernel), by decide +kernel, rfl, rfl,
    admits_of (by decide +kernel), by decide⟩

theorem witness_AbortAnswered :
    let f := reqFrame 2 (bytes [7, 9])
    let g := reqFrame 2 (bytes [7, 5])
    (offered running f).Admits f .abort (.abort 9) ∧ (offered running f).tag 9 = none
      ∧ (offered (filling 3) g).Admits g .abort (.abort 5) ∧ (offered (filling 3) g).tag 5 = some (writeTag .transfer 0 0)
      ∧ (offered queuedRead f).Admits f .abort (.abort 9)
      ∧ (offered queuedRead f).tag 9 = some (TagEntry.mk' .read .queued (some 0) (some 3) (some 0)) :=
  ⟨admits_of (by decide +kernel), by decide +kernel, admits_of (by decide +kernel), by decide +kernel, admits_of (by decide +kernel),
    by decide +kernel⟩

theorem witness_AbortAnswered_tooLate :
    let f := reqFrame 2 (bytes [7, 9])
    let s := offered (withTag running 9 (writeTag .staged 0 0)) f
    s.Admits f .abort (.abort 9) ∧ s.tag 9 = some (writeTag .staged 0 0) ∧ (writeTag .staged 0 0).state ≠ .transfer
      ∧ (writeTag .staged 0 0).state ≠ .queued := ⟨admits_of (by decide +kernel), by decide +kernel, by decide, by decide⟩

/-! #### Writing -/

/-- A WRITE request of page `p` of block 3 of lane 0 with density code `d`, by tag 5. -/
def writeReq (p d : Nat) : InFrame := reqFrame 5 (bytes (writePayload p d))

/-- The state with a WRITE of page `p` offered. -/
def writing (s : State) (p d : Nat) : State := offered s (writeReq p d)

/-- The WRITE passes checks 1 to 3 and reaches its block. -/
def writeOk (s : State) (p : Nat) (d : Density) : Prop :=
  (writing s p d.code).Admits (writeReq p d.code) .write (.write 0 3 p d 0 (List.replicate 32 0)) ∧ (writing s p d.code).Reaches 0 3

theorem write_ok {s : State} {p : Nat} {d : Density}
    (h : admitsB (writing s p d.code) (writeReq p d.code) .write (.write 0 3 p d 0 (List.replicate 32 0)) = true)
    (h2 : ((0 < 4 ∧ 3 < 1024) ∧ ((writing s p d.code).lane 0).state = .ready)) : writeOk s p d := ⟨admits_of h, reaches_of h2⟩

/-- Running with block 3 of lane 0 in the given record. -/
def blockIn (r : BlockRec) : State := withRec running 3 r

theorem witness_WriteRefusals_first :
    writeOk { running with wpAsserted := true } 0 .dense ∧ ({ running with wpAsserted := true }).wpAsserted = true
      ∧ writeOk (blockIn (recOf .closed .dense 4 1 1 (some 4))) 0 .dense ∧ running.wpAsserted = false
      ∧ ((blockIn (recOf .closed .dense 4 1 1 (some 4))).record 0 3).state ≠ .opened
      ∧ writeOk (blockIn { BlockRec.unbuilt with erasePending := true }) 0 .dense
      ∧ ((blockIn { BlockRec.unbuilt with erasePending := true }).record 0 3).state = .erased :=
  ⟨write_ok (by decide +kernel) (by decide +kernel), rfl, write_ok (by decide +kernel) (by decide +kernel), rfl, by decide +kernel,
    write_ok (by decide +kernel) (by decide +kernel), by decide +kernel⟩

theorem witness_WriteRefusals_density :
    writeOk (blockIn (recOf .opened .dense 4 1 0 none)) 4 .swift
      ∧ ((blockIn (recOf .opened .dense 4 1 0 none)).record 0 3).density ≠ some .swift
      ∧ writeOk (blockIn (recOf .opened .dense 4 1 0 none)) 5 .dense
      ∧ 5 ≠ ((blockIn (recOf .opened .dense 4 1 0 none)).record 0 3).intakeNext :=
  ⟨write_ok (by decide +kernel) (by decide +kernel), by decide +kernel, write_ok (by decide +kernel) (by decide +kernel),
    by decide +kernel⟩

theorem witness_WriteRefusals_ahead :
    writeOk (blockIn (recOf .opened .dense 12 2 0 none)) 12 .dense ∧ 12 % 4 = 0 ∧ 0 + 2 < 12 / 4
      ∧ writeOk (blockIn (recOf .opened .swift 4 0 0 none)) 4 .swift ∧ 0 + 3 < 4 :=
  ⟨write_ok (by decide +kernel) (by decide +kernel), rfl, by decide, write_ok (by decide +kernel) (by decide +kernel), by decide⟩

theorem witness_WriteAdmitsSwift :
    writeOk (blockIn (recOf .opened .swift 3 0 0 none)) 3 .swift
      ∧ (writing (blockIn (recOf .opened .swift 3 0 0 none)) 3 2).WriteFits 0 3 3 .swift
      ∧ ((writing (blockIn (recOf .opened .swift 3 0 0 none)) 3 2).slot 0).state = .free
      ∧ writeOk (fullPool running) 0 .swift ∧ (writing (fullPool running) 0 2).WriteFits 0 3 0 .swift
      ∧ ∀ i, i < 96 → ((writing (fullPool running) 0 2).slot i).state ≠ .free := by
  refine ⟨write_ok (by decide +kernel) (by decide +kernel), ?_, by decide +kernel, write_ok (by decide +kernel) (by decide +kernel), ?_,
    by decide +kernel⟩ <;> unfold State.WriteFits <;> decide +kernel

theorem witness_WriteAdmitsDense_strip :
    writeOk (blockIn (recOf .opened .dense 4 0 0 none)) 4 .dense
      ∧ (writing (blockIn (recOf .opened .dense 4 0 0 none)) 4 1).WriteFits 0 3 4 .dense
      ∧ (∀ i, ((writing (blockIn (recOf .opened .dense 4 0 0 none)) 4 1).slot i).ownedBy 0 3 = true →
          ((writing (blockIn (recOf .opened .dense 4 0 0 none)) 4 1).slot i).pageNumber / 4 ≠ 1)
      ∧ (∃ rest, (writing (blockIn (recOf .opened .dense 4 0 0 none)) 4 1).slotsIn .free = 0 :: 1 :: 2 :: 3 :: rest)
      ∧ writeOk (fullPool running) 0 .dense ∧ (writing (fullPool running) 0 1).WriteFits 0 3 0 .dense
      ∧ (writing (fullPool running) 0 1).freeCount < 4 := by
  refine ⟨write_ok (by decide +kernel) (by decide +kernel), ?_, ?_, ⟨(List.range 92).map (· + 4), by decide +kernel⟩,
    write_ok (by decide +kernel) (by decide +kernel), ?_, by decide +kernel⟩
  · unfold State.WriteFits; decide +kernel
  · exact all_slots (fun sl => sl.ownedBy 0 3 = true → sl.pageNumber / 4 ≠ 1) (by decide +kernel) (by decide)
  · unfold State.WriteFits; decide +kernel

/-- Page 1's slot RESERVED in slot 1 with `n` pins, page 0 STAGED. -/
def reservedNext (s : State) (n : Nat) : State :=
  withSlot (withSlot (withRec s 3 (recOf .opened .dense 1 0 0 none)) 0 (slotOn .staged 0 (some 10) 8 0)) 1 (slotOn .reserved 1 none 0 n)

theorem witness_WriteAdmitsDense_reserved :
    writeOk (reservedNext running 0) 1 .dense ∧ (writing (reservedNext running 0) 1 1).WriteFits 0 3 1 .dense
      ∧ (writing (reservedNext running 0) 1 1).slotOf 0 3 1 = some 1
      ∧ ((writing (reservedNext running 0) 1 1).slot 1).state = .reserved ∧ ((writing (reservedNext running 0) 1 1).slot 1).tag = none
      ∧ ((writing (reservedNext running 0) 1 1).slot 1).pins = 0 := by
  refine ⟨write_ok (by decide +kernel) (by decide +kernel), ?_, by decide +kernel⟩
  unfold State.WriteFits; decide +kernel

theorem witness_WriteAdmitsDense_pinned :
    writeOk (reservedNext running 1) 1 .dense ∧ 0 < ((writing (reservedNext running 1) 1 1).slot 1).pins
      ∧ (writing (reservedNext running 1) 1 1).slotOf 0 3 1 = some 1
      ∧ (∃ rest, (writing (reservedNext running 1) 1 1).slotsIn .free = 2 :: rest)
      ∧ writeOk (reservedNext (fullPool running) 1) 1 .dense
      ∧ (writing (reservedNext (fullPool running) 1) 1 1).slotsIn .free = [] :=
  ⟨write_ok (by decide +kernel) (by decide +kernel), by decide +kernel, by decide +kernel,
    ⟨(List.range 93).map (· + 3), by decide +kernel⟩, write_ok (by decide +kernel) (by decide +kernel), by decide +kernel⟩

/-- The offered frame is a DATA frame that RQU may take. -/
theorem data_offered {s : State} {f : InFrame}
    (h : ((s.inReset = false ∧ s.link.intake.head? = some f) ∧ s.mayTake f = true) ∧ f.isData = true) : s.Offers f ∧ f.isData = true :=
  ⟨⟨h.1.1.1, h.1.1.2, h.1.2⟩, h.2⟩

theorem witness_ChunkTaken :
    let f := dataFrame 5 6 9
    let s := offered (filling 6) f
    (s.Offers f ∧ f.isData = true) ∧ s.tag 5 = some (writeTag .transfer 0 0) ∧ (s.slot 0).state = .filling
      ∧ (s.slot 0).owner = some { lane := 0, block := 3, page := 0 } ∧ (s.slot 0).chunks < 7 ∧ byteAt f.payload 0 = (s.slot 0).chunks :=
  ⟨data_offered (by decide +kernel), by decide +kernel⟩

theorem witness_ChunkTaken_stray :
    let f := dataFrame 9 0 9
    (offered (filling 6) f).Offers f ∧ f.isData = true ∧ (offered (filling 6) f).tag 9 = none :=
  ⟨(data_offered (s := offered (filling 6) (dataFrame 9 0 9)) (by decide +kernel)).1, by decide +kernel, by decide +kernel⟩

theorem witness_ChunkTaken_heldBack :
    let f := dataFrame 5 6 9
    let s := refusalsFull (offered (filling 6) f)
    s.inReset = false ∧ s.link.intake.head? = some f ∧ f.isData = true ∧ s.mayTake f = false := by decide +kernel

theorem witness_LastChunkTaken_order :
    let f := dataFrame 5 2 9
    let s := offered (filling 1) f
    (s.Offers f ∧ f.isData = true) ∧ s.tag 5 = some (writeTag .transfer 0 0) ∧ (s.slot 0).state = .filling
      ∧ byteAt f.payload 0 ≠ (s.slot 0).chunks := ⟨data_offered (by decide +kernel), by decide +kernel⟩

/-- Seven chunks of a page of zeros with the tag area `area`, whose WRITE carried the check `w`. -/
def lastDue (w : Word32) : State :=
  withTag (withSlot (withRec running 3 (recOf .opened .swift 1 0 0 none)) 0
    { slotOn .filling 0 (some 5) 7 0 with data := List.replicate 8192 0#8, tagArea := List.replicate 32 7#8 }) 5
    { writeTag .transfer 0 0 with check := some w }

/-- The page of zeros of the last-chunk witness. -/
def zeros : List Byte := List.replicate 8192 0#8 ++ List.replicate 32 7#8

theorem zeros_complete :
    (List.replicate 8192 0#8).take 7168 ++ (dataFrame 5 7 0).payload.drop 1 ++ (List.replicate 8192 0#8).drop 8192
      = List.replicate 8192 0#8 := by
  show (List.replicate 8192 0#8).take 7168 ++ List.replicate 1024 0#8 ++ (List.replicate 8192 0#8).drop 8192 = _
  rw [List.take_replicate, List.drop_replicate, List.replicate_append_replicate, List.replicate_append_replicate]
  exact congrArg (List.replicate · 0#8) (by decide)

theorem witness_LastChunkTaken_staged :
    let f := dataFrame 5 7 0
    let s := offered (lastDue (crc32 zeros)) f
    let full := s.unbuffer.modSlot 0 (fun sl =>
      { sl with chunks := 8, data := sl.data.take 7168 ++ f.payload.drop 1 ++ sl.data.drop 8192 })
    (s.Offers f ∧ f.isData = true) ∧ (s.slot 0).state = .filling ∧ (s.slot 0).chunks = 7 ∧ byteAt f.payload 0 = 7
      ∧ ∃ e, s.tag 5 = some e ∧ e.kind = .write ∧ e.state = .transfer ∧ e.slot = some 0
        ∧ some (crc32 ((full.slot 0).data ++ (full.slot 0).tagArea)) = e.check := by
  refine ⟨⟨⟨rfl, rfl, by decide +kernel⟩, by decide +kernel⟩, rfl, rfl, by decide +kernel,
    { writeTag .transfer 0 0 with check := some (crc32 zeros) }, rfl, rfl, rfl, rfl, ?_⟩
  show some (crc32 (((List.replicate 8192 0#8).take 7168 ++ (dataFrame 5 7 0).payload.drop 1 ++ (List.replicate 8192 0#8).drop 8192)
    ++ List.replicate 32 7#8)) = some (crc32 zeros)
  rw [zeros_complete]; rfl

theorem witness_LastChunkTaken_mismatch :
    let s := offered (withTag (lastDue 0) 5 { writeTag .transfer 0 0 with check := none }) (dataFrame 5 7 0)
    (s.slot 0).chunks = 7 ∧ s.tag 5 = some { writeTag .transfer 0 0 with check := none }
      ∧ some (crc32 zeros) ≠ ({ writeTag .transfer 0 0 with check := none } : TagEntry).check := ⟨rfl, rfl, nofun⟩

/-- Pages 4 to 6 of a DENSE block with strip 0 finalized: 4 STAGED by tag 10, 5 FILLING by tag 5, 6 RESERVED. -/
def chained : State :=
  withTag (withTag (withSlot (withSlot (withSlot (withRec running 3 (recOf .opened .dense 6 1 1 none)) 0
    (slotOn .staged 4 (some 10) 8 1)) 1 (slotOn .filling 5 (some 5) 3 0)) 2 (slotOn .reserved 6 none 0 0)) 10 (writeTag .staged 4 0)) 5
    (writeTag .transfer 5 1)

theorem witness_AbandonmentChain_dense :
    (chained.record 0 3).density = some .dense ∧ 5 ≠ (chained.record 0 3).finalDone * 4 ∧ 4 = (chained.record 0 3).finalDone * 4
      ∧ (chained.slot 0).ownedBy 0 3 = true ∧ ((chained.slot 1).ownedBy 0 3 = true ∧ 5 ≤ (chained.slot 1).pageNumber)
      ∧ (chained.slot 1).pageNumber / 4 = 5 / 4 ∧ (chained.slot 1).tag = some 5 ∧ chained.tag 5 = some (writeTag .transfer 5 1)
      ∧ (chained.slot 0).pageNumber < 5 ∧ (chained.slot 3).ownedBy 0 3 = false ∧ (chained.slot 1).state = .filling
      ∧ (chained.slot 1).timer.isSome = true ∧ (chained.slot 1).owner = some { lane := 0, block := 3, page := 5 }
      ∧ (chained.slot 0).state ≠ .filling := by decide +kernel

theorem witness_AbandonmentChain_tags :
    (∀ j, (chained.slot j).tag = some 5 → j = 1) ∧ (writeTag .transfer 5 1).state ≠ .replying ∧ ((filling 3).record 0 3).density = some .swift
      ∧ ((filling 3).slot 0).ownedBy 0 3 = true := by
  refine ⟨?_, by decide, by decide +kernel⟩
  intro j
  by_cases hj : j < 96
  · exact (by decide +kernel : ∀ j, j < 96 → (chained.slot j).tag = some 5 → j = 1) j hj
  · rw [State.slot, Vector.getElem?_eq_none (by omega)]; intro h; cases h

theorem witness_AbandonmentChain_above :
    let s := withSlot chained 3 (slotOn .staged 8 (some 11) 8 0)
    ((s.slot 3).ownedBy 0 3 = true ∧ 5 ≤ (s.slot 3).pageNumber) ∧ (s.slot 3).pageNumber / 4 ≠ 5 / 4 := by decide +kernel

/-- `chained` with pages 12 and 8 STAGED above it, the higher page in the lower slot. -/
def chainedAbove : State :=
  withTag (withTag (withSlot (withSlot chained 3 (slotOn .staged 12 (some 11) 8 0)) 4 (slotOn .staged 8 (some 12) 8 0)) 11
    (writeTag .staged 12 3)) 12 (writeTag .staged 8 4)

theorem witness_AbandonmentChain_order :
    chainedAbove.WritesOpen (fun i => (chainedAbove.slot i).ownedBy 0 3 = true ∧ 5 ≤ (chainedAbove.slot i).pageNumber)
      ∧ (chainedAbove.slot 3).tag = some 11 ∧ chainedAbove.tag 11 = some (writeTag .staged 12 3) :=
  ⟨writesOpen_of owned_below (by decide +kernel), by decide +kernel, by decide +kernel⟩

theorem test_chain_replies_in_page_order :
    (chainedAbove.abandon 0 3 5 .aborted).link.queue.map (fun q => (q.reply.tag, q.reply.status))
      = [(5, .aborted), (12, .abandoned), (11, .abandoned)] := by decide +kernel

/-! #### Reading -/

theorem witness_PageClasses_states :
    (running.record 0 3).state = .erased ∧ ((blockIn (recOf .retired .swift 0 0 0 none)).record 0 3).state = .retired
      ∧ (let r := (blockIn (recOf .opened .swift 2 0 0 none)).record 0 3
         r.state ≠ .erased ∧ r.state ≠ .retired ∧ r.density = some .swift ∧ 64 ≤ 64) := by decide +kernel

theorem witness_PageClasses_pages :
    (let r := (blockIn (recOf .closed .dense 8 2 2 (some 5))).record 0 3
     r.density = some .dense ∧ r.dataEnd = some 5 ∧ 5 ≤ 7 ∧ 7 < (5 + 3) / 4 * 4 ∧ (5 + 3) / 4 * 4 ≤ 8 ∧ 4 < 5 ∧ 4 / 4 < r.finalDone)
      ∧ (let s := chained
         (s.record 0 3).finalDone ≤ 4 / 4 ∧ 4 < (s.record 0 3).intakeNext ∧ s.slotOf 0 3 4 = some 0 ∧ (s.slot 0).state = .staged
          ∧ s.slotOf 0 3 5 = some 1 ∧ (s.slot 1).state = .filling) := by decide +kernel

/-- A READ request of page `p` of block 3 of lane 0. -/
def read3 (p : Nat) : InFrame := readReq 0 3 p

theorem witness_ReadDispatched :
    (offered chained (reqFrame 6 (read3 4).payload)).Admits (reqFrame 6 (read3 4).payload) .read (.read 0 3 4)
      ∧ (offered chained (reqFrame 6 (read3 4).payload)).Reaches 0 3
      ∧ (offered chained (reqFrame 6 (read3 4).payload)).classify 0 3 4 = .held 0
      ∧ (offered running (read3 255)).Admits (read3 255) .read (.read 0 3 255)
      ∧ (∀ i, (offered running (read3 255)).classify 0 3 255 ≠ .held i)
      ∧ ((offered running (read3 255)).lane 0).workQueue.length < 24 := by
  refine ⟨admits_of (by decide +kernel), reaches_of (by decide +kernel), by decide +kernel, admits_of (by decide +kernel), ?_,
    by decide +kernel⟩
  intro i h
  rw [show (offered running (read3 255)).classify 0 3 255 = .erased by decide +kernel] at h
  cases h

theorem witness_ReadDispatched_taken :
    queuedRead.tag 9 = some (TagEntry.mk' .read .queued (some 0) (some 3) (some 0)) := by decide +kernel

/-- A lane 0 whose work queue holds 24 READs. -/
def queueFull (s : State) : State := s.modLane 0 (fun l => { l with workQueue := List.replicate 24 readItem })

theorem witness_QueueFullRefusals :
    let e := reqFrame 6 (bytes [11, 0, 3, 0])
    (offered (queueFull running) (read3 255)).Admits (read3 255) .read (.read 0 3 255)
      ∧ 24 ≤ ((offered (queueFull running) (read3 255)).lane 0).workQueue.length
      ∧ (offered (queueFull running) (read3 255)).classify 0 3 255 = .erased
      ∧ (offered (queueFull chained) (reqFrame 6 (read3 4).payload)).classify 0 3 4 = .held 0
      ∧ (offered (queueFull running) e).Admits e .erase (.erase 0 3) ∧ (offered (queueFull running) e).Reaches 0 3
      ∧ ((offered (queueFull running) e).record 0 3).erasePending = false
      ∧ ((offered (queueFull running) e).record 0 3).heldCount = 0 :=
  ⟨admits_of (by decide +kernel), by decide +kernel, by decide +kernel, by decide +kernel, admits_of (by decide +kernel),
    reaches_of (by decide +kernel), by decide +kernel, by decide +kernel⟩

theorem witness_SenseAndDecode_sense :
    ((withJob running (some (.sense 3 0 0)) none).lane 0).engine = some (.sense 3 0 0)
      ∧ [({ sector := 7, place := .tagArea 255 } : BitError)].all BitError.wf = true := by decide +kernel

/-- A READ job whose sectors have all been settled. -/
def settledJob : State :=
  (decoding 0).modLane 0 (fun l => { l with egress := { l.egress with sectors := Vector.replicate 8 (.good 0 0) } })

theorem witness_SenseAndDecode_decode :
    ((decoding 2).lane 0).job = some (.read 9 3 0 3) ∧ ((decoding 2).lane 0).sense = some rawResult
      ∧ 3 ≤ (((decoding 3).lane 0).egress.decodeStep rawResult (((decoding 3).lane 0).heldPage 3 0) []).lastStep
      ∧ (decoding 3).tag 9 = some (TagEntry.mk' .read .active (some 0) (some 3) (some 0))
      ∧ (TagEntry.mk' .read .active (some 0) (some 3) (some 0)).state ≠ .replying :=
  ⟨rfl, rfl, by rw [(Egress.decodeStep_sector _ _ _ _ (k := 0) (by decide)).2.2]; decide +kernel, by decide +kernel, by decide⟩

theorem witness_SenseAndDecode_settled :
    (settledJob.lane 0).job = some (.read 9 3 0 3) ∧ (settledJob.lane 0).sense = some rawResult
      ∧ ∀ k, k < 8 → ((settledJob.lane 0).egress.decodeStep rawResult ((settledJob.lane 0).heldPage 3 0) []).sectors[k]? ≠ some .pending := by
  refine ⟨rfl, rfl, fun k hk => ?_⟩
  have h : (settledJob.lane 0).egress.sectors[k]? = some (.good 0 0) := by
    rw [settledJob, State.lane_modLane_same _ _ (by decide)]
    simp [hk]
  rw [(Egress.decodeStep_sector _ _ _ _ hk).1, Egress.decodeSector, if_neg (by rw [h]; nofun), h]
  nofun

/-! That a sector stays PENDING depends on the parity code, which is free (log 15). -/
theorem witness_SenseAndDecode_climbs (h : Far) : (decoded 2).sectors[0]? = some .pending ∧ (decoded 2).lastStep < 3 := by
  obtain ⟨h1, h2⟩ := decoded_pending 2 h
  exact ⟨h1, by omega⟩

/-- A page of one byte. -/
def onePage : Page := { data := [1#8], tagArea := [2#8] }

/-- A SWIFT block with its strip 0 FINAL, its strip 1 TORN and the others BLANK. -/
def writtenBlock : Written :=
  { marker := .swift
    strips := ((Vector.replicate 64 Strip.blank).setIfInBounds 0 { state := .final, pages := [onePage.encode] }).setIfInBounds 1
      { state := .torn, pages := [] }
    terminator := none }

theorem witness_DecodeRule_sense :
    ((FlashArray.delivered.modBlock 3 (fun pb => { pb with cells := .written writtenBlock })).block 3).cells = .written writtenBlock
      ∧ (writtenBlock.strip (0 / writtenBlock.marker.perStrip)).state = .final
      ∧ (writtenBlock.strip (0 / writtenBlock.marker.perStrip)).pages[0 % writtenBlock.marker.perStrip]? = some onePage.encode
      ∧ (writtenBlock.strip (1 / writtenBlock.marker.perStrip)).state ≠ .final
      ∧ (writtenBlock.strip (63 / writtenBlock.marker.perStrip)).state = .blank :=
  ⟨by simp [FlashArray.modBlock, FlashArray.block], by decide +kernel, rfl, by decide +kernel, by decide +kernel⟩

theorem witness_DecodeRule_wrongBits :
    padPage.data.length = 8192 ∧ padPage.tagArea.length = 32
      ∧ [({ sector := 0, place := .data 8191 } : BitError), { sector := 7, place := .tagArea 255 }].all BitError.wf = true := by
  decide +kernel

/-- A codeword of sector `k` whose bytes are all ones. -/
def onesCodeword (k : Nat) : Codeword := { sector := k, bytes := List.replicate 1024 0xFF#8, tagArea := List.replicate 32 0xFF#8 }

theorem witness_DecodeRule_sectors :
    Egress.powerOn.sectors[7]? = some .pending ∧ (Egress.powerOn.load).sectors[7]? ≠ some .pending
      ∧ padPage.encode.page.data.length = 8192 ∧ padPage.encode.page.tagArea.length = 32
      ∧ sectorCodeword 7 (padPage.codeword 7) ∧ padPage.encode.distance (padPage.codeword 7) ≤ 24
      ∧ (let found := [onesCodeword 0] ++ padPage.codeword 0 :: []
         found.all Codeword.wf = true ∧ (padPage.codeword 0).sector = 0 ∧ padPage.encode.distance (padPage.codeword 0) ≤ 24
          ∧ ∀ d ∈ [onesCodeword 0], d.sector = 0 → 24 < padPage.encode.distance d) := by
  refine ⟨rfl, by decide +kernel, List.length_replicate, List.length_replicate,
    Page.codeword_sector (by decide) List.length_replicate List.length_replicate, ?_, by decide +kernel, rfl, ?_, ?_⟩
  · rw [StoredPage.distance_encode]; decide
  · rw [StoredPage.distance_encode]; decide
  · intro d hd _
    obtain rfl := List.mem_singleton.mp hd
    have h : 24 < bitDistance (padPage.encode.page.codeword 0).covered (onesCodeword 0).covered := by decide +kernel
    rw [StoredPage.distance, show (onesCodeword 0).sector = 0 from rfl]
    exact Nat.lt_add_right _ h

/-! That no codeword lies in reach depends on the parity code, which is free (log 15). -/
theorem witness_DecodeRule_far (h : Far) :
    (∀ c : Codeword, c.sector = 0 ∧ c.bytes.length = 1024 ∧ c.tagArea.length = 32 → 24 < rawResult.distance c)
      ∧ rawResult.page.data.length = 8192 ∧ rawResult.page.tagArea.length = 32 := ⟨h, List.length_replicate, List.length_replicate⟩

/-! #### Passes and closing -/

theorem witness_PassOrder_final :
    ((blockIn (recOf .failed .dense 4 1 0 none)).record 0 3).state ≠ .opened
      ∧ ((blockIn (recOf .failed .dense 4 1 0 none)).record 0 3).state ≠ .closing
      ∧ ((blockIn (recOf .opened .dense 256 64 63 none)).record 0 3).state = .opened
      ∧ (blockIn (recOf .opened .dense 256 64 63 none)).eligible 0 3 = some { kind := .final, strip := 63 }
      ∧ ((blockIn (recOf .opened .dense 256 64 63 none)).record 0 3).readyPass = none
      ∧ ((blockIn (recOf .opened .dense 256 64 63 none)).lane 0).passInFlight 3 = false := by decide +kernel

theorem witness_PassOrder_rough :
    let s := heldStrip .staged (recOf .opened .dense 4 0 0 none)
    (s.record 0 3).state = .opened ∧ (s.record 0 3).density = some .dense ∧ (s.record 0 3).roughDone ≤ (s.record 0 3).finalDone + 1
      ∧ (s.record 0 3).roughDone < 2
      ∧ (∀ k, k < 4 → ∃ i, s.slotOf 0 3 (4 * (s.record 0 3).roughDone + k) = some i ∧ (s.slot i).state = .staged) := by
  refine ⟨by decide +kernel, by decide +kernel, by decide +kernel, by decide +kernel, ?_⟩
  intro k hk
  have : ∀ k, k < 4 → (heldStrip .staged (recOf .opened .dense 4 0 0 none)).slotOf 0 3
      (4 * ((heldStrip .staged (recOf .opened .dense 4 0 0 none)).record 0 3).roughDone + k) = some k
        ∧ ((heldStrip .staged (recOf .opened .dense 4 0 0 none)).slot k).state = .staged := by decide +kernel
  exact ⟨k, this k hk⟩

theorem witness_PassOrder_single :
    let s := withSlot (blockIn (recOf .closing .swift 64 0 63 (some 64))) 0 (slotOn .staged 63 (some 10) 8 0)
    (s.record 0 3).state = .closing ∧ (s.record 0 3).density = some .swift ∧ s.slotOf 0 3 63 = some 0
      ∧ (s.slot 0).state = .staged := by decide +kernel

theorem witness_PassOrder_closing :
    let fin := blockIn (recOf .closing .dense 8 2 0 (some 5))
    let term := heldStrip .roughed (recOf .closing .dense 4 1 0 (some 4))
    (fin.record 0 3).state = .closing ∧ fin.eligible 0 3 = some { kind := .final, strip := 0 }
      ∧ (term.record 0 3).density = some .dense ∧ term.eligible 0 3 = some { kind := .terminator, strip := 1 }
      ∧ (term.record 0 3).dataEnd = some 4 := by decide +kernel

theorem witness_PassOrder_padded :
    let s := withSlot (heldStrip .staged (recOf .closing .dense 4 0 0 (some 3))) 3 { slotOn .staged 3 none 0 0 with pad := true }
    (s.record 0 3).state = .closing ∧ s.eligible 0 3 = some { kind := .rough, strip := 0 } := by decide +kernel

/-- A CLOSE of block 3 of lane 0 by tag 6. -/
def closeReq : InFrame := reqFrame 6 (bytes [13, 0, 3, 0])

theorem no_tags {s : State} (h : (List.range 64).all (fun t => decide (s.tag t = none)) = true) : ∀ t e, s.tag t = some e → False := by
  apply all_tags (s := s) (fun _ _ => False)
  refine List.all_eq_true.mpr (fun t ht => ?_)
  have := of_decide_eq_true (List.all_eq_true.mp h t ht)
  rw [this]; rfl

theorem witness_CloseWithNothingLeft :
    let s := offered (blockIn (recOf .opened .swift 2 0 2 none)) closeReq
    s.Admits closeReq .close (.close 0 3) ∧ s.Reaches 0 3 ∧ s.wpAsserted = false ∧ (s.record 0 3).state = .opened
      ∧ (s.record 0 3).erasePending = false ∧ (∀ i, (s.slot i).ownedBy 0 3 = true → (s.slot i).state ≠ .filling)
      ∧ (s.record 0 3).density = some .swift ∧ (s.record 0 3).finalDone = (s.record 0 3).intakeNext
      ∧ (∀ t e, s.tag t = some e → e.kind = .close → e.state = .waiting → e.lane = some 0 → e.block ≠ some 3) :=
  ⟨admits_of (by decide +kernel), reaches_of (by decide +kernel), rfl, by decide +kernel, by decide +kernel,
    all_slots (fun sl => sl.ownedBy 0 3 = true → sl.state ≠ .filling) (by decide +kernel) (by decide), by decide +kernel,
    by decide +kernel, fun t e h => (no_tags (by decide +kernel) t e h).elim⟩

/-- Page 4 of a DENSE block STAGED, the rest of its strip RESERVED and one slot of the strip above. -/
def closable : State :=
  withSlot (withSlot (withSlot (withSlot (withSlot (blockIn (recOf .opened .dense 5 1 1 none)) 0 (slotOn .staged 4 (some 10) 8 0)) 1
    (slotOn .reserved 5 none 0 1)) 2 (slotOn .reserved 6 none 0 0)) 3 (slotOn .reserved 7 none 0 0)) 4 (slotOn .reserved 8 none 0 0)

theorem witness_CloseBegins_dense :
    let s := offered closable closeReq
    s.Admits closeReq .close (.close 0 3) ∧ s.Reaches 0 3 ∧ s.SlotsFormed ∧ s.wpAsserted = false ∧ (s.record 0 3).state = .opened
      ∧ (s.record 0 3).erasePending = false ∧ (∀ i, (s.slot i).ownedBy 0 3 = true → (s.slot i).state ≠ .filling)
      ∧ 0 < (s.record 0 3).intakeNext ∧ (s.record 0 3).density = some .dense ∧ (s.slot 1).state = .reserved
      ∧ (s.slot 1).pageNumber / 4 = (5 - 1) / 4 ∧ (s.slot 4).pageNumber / 4 = (5 - 1) / 4 + 1 :=
  ⟨admits_of (by decide +kernel), reaches_of (by decide +kernel), all_slots (fun sl => sl.wf = true) (by decide +kernel) (by decide), rfl,
    by decide +kernel, by decide +kernel,
    all_slots (fun sl => sl.ownedBy 0 3 = true → sl.state ≠ .filling) (by decide +kernel) (by decide), by decide +kernel,
    by decide +kernel, by decide +kernel, by decide +kernel, by decide +kernel⟩

theorem witness_CloseBegins_swift :
    let s := offered (withSlot (blockIn (recOf .opened .swift 1 0 0 none)) 0 (slotOn .staged 0 (some 10) 8 0)) closeReq
    s.Admits closeReq .close (.close 0 3) ∧ s.Reaches 0 3 ∧ s.SlotsFormed ∧ (s.record 0 3).state = .opened
      ∧ (∀ i, (s.slot i).ownedBy 0 3 = true → (s.slot i).state ≠ .filling) ∧ (s.record 0 3).density = some .swift
      ∧ (s.record 0 3).finalDone ≠ (s.record 0 3).intakeNext :=
  ⟨admits_of (by decide +kernel), reaches_of (by decide +kernel), all_slots (fun sl => sl.wf = true) (by decide +kernel) (by decide),
    by decide +kernel, all_slots (fun sl => sl.ownedBy 0 3 = true → sl.state ≠ .filling) (by decide +kernel) (by decide),
    by decide +kernel, by decide +kernel⟩

theorem witness_CloseBegins_refused :
    let wp := offered { blockIn (recOf .opened .dense 5 1 1 none) with wpAsserted := true } closeReq
    let closed := offered (blockIn (recOf .closed .dense 5 1 1 (some 5))) closeReq
    let erase := offered (blockIn { recOf .opened .swift 2 0 0 none with erasePending := true }) closeReq
    let fill := offered (filling 7) closeReq
    wp.Admits closeReq .close (.close 0 3) ∧ wp.Reaches 0 3 ∧ wp.wpAsserted = true
      ∧ closed.Admits closeReq .close (.close 0 3) ∧ closed.wpAsserted = false ∧ (closed.record 0 3).state ≠ .opened
      ∧ erase.Admits closeReq .close (.close 0 3) ∧ (erase.record 0 3).state = .opened ∧ (erase.record 0 3).erasePending = true
      ∧ fill.Admits closeReq .close (.close 0 3) ∧ (fill.slot 0).ownedBy 0 3 = true ∧ (fill.slot 0).state = .filling :=
  ⟨admits_of (by decide +kernel), reaches_of (by decide +kernel), rfl, admits_of (by decide +kernel), rfl, by decide +kernel,
    admits_of (by decide +kernel), by decide +kernel, by decide +kernel, admits_of (by decide +kernel), by decide +kernel,
    by decide +kernel⟩

/-- A pass of strip 0 of block 3 in flight on lane 0, with its operation and its job. -/
def inFlight (s : State) (op : Operation) (k : PassKind) (n : Nat) : Prop :=
  s.inReset = false ∧ (s.lane 0).engine = some op ∧ (s.lane 0).job = some (.pass 3 { kind := k, strip := n })

theorem witness_RoughPasses :
    inFlight (passing (heldStrip .staged (recOf .opened .dense 4 0 0 none)) (.rough 3 0 [] false) .rough 0) (.rough 3 0 [] false) .rough 0
      ∧ (heldStrip .staged (recOf .opened .dense 4 0 0 none)).slotOf 0 3 (4 * 0 + 3) = some 3
      ∧ inFlight (passing (blockIn (recOf .closing .dense 4 1 0 (some 3))) (.terminatorRough 3 1 3 false) .terminator 1)
        (.terminatorRough 3 1 3 false) .terminator 1 := by
  unfold inFlight; decide +kernel

theorem witness_FinalizingPasses :
    let f := passing (heldStrip .roughed (recOf .opened .dense 8 2 0 none)) (.final 3 0 [] false) .final 0
    let g := passing (withSlot (blockIn (recOf .opened .swift 64 0 63 none)) 0 (slotOn .staged 63 (some 10) 8 1))
      (.single 3 63 { data := [], tagArea := [] } false) .single 63
    inFlight f (.final 3 0 [] false) .final 0 ∧ (f.record 0 3).state ≠ .closing ∧ f.slotOf 0 3 (4 * 0 + 3) = some 3
      ∧ (f.slot 3).tag = some 13 ∧ f.tag 13 = some (writeTag .staged 3 3) ∧ (writeTag .staged 3 3).state ≠ .replying
      ∧ inFlight g (.single 3 63 { data := [], tagArea := [] } false) .single 63 ∧ (g.record 0 3).state = .opened
      ∧ g.slotOf 0 3 (1 * 63 + 0) = some 0 := by
  unfold inFlight; decide +kernel

/-- The writes of strip 0 of block 3 are open. -/
theorem strip_open {s : State} (h : (List.range 4).filterMap (fun k => s.slotOf 0 3 (4 * 0 + k)) = [0, 1, 2, 3])
    (ho : ∀ i ∈ [0, 1, 2, 3], (s.slot i).tag = some (10 + i) ∧ s.tag (10 + i) = some (writeTag .staged i i)) :
    s.WritesOpen (fun i => i ∈ (List.range 4).filterMap (fun k => s.slotOf 0 3 (4 * 0 + k))) := by
  rw [h]
  refine ⟨fun i j t hi hj hti htj => ?_, fun i t e hi hti he => ?_⟩
  · rw [(ho i hi).1] at hti
    rw [(ho j hj).1] at htj
    have := hti.trans htj.symm
    simp only [Option.some.injEq] at this
    omega
  · rw [(ho i hi).1] at hti
    cases hti
    rw [(ho i hi).2] at he
    cases he
    exact (by decide : TagState.staged ≠ .replying)

theorem witness_FinalizingPasses_order :
    let f := passing (heldStrip .roughed (recOf .opened .dense 8 2 0 none)) (.final 3 0 [] false) .final 0
    f.WritesOpen (fun i => i ∈ (List.range 4).filterMap (fun k => f.slotOf 0 3 (4 * 0 + k))) :=
  strip_open (by decide +kernel) (by decide +kernel)

theorem witness_FinalizingPasses_closing :
    let f := passing (heldStrip .roughed (recOf .closing .dense 8 2 0 (some 8))) (.final 3 0 [] false) .final 0
    let g := passing (blockIn (recOf .closing .swift 64 0 62 (some 64))) (.single 3 62 { data := [], tagArea := [] } false) .single 62
    inFlight f (.final 3 0 [] false) .final 0 ∧ (f.record 0 3).state = .closing ∧ (f.record 0 3).dataEnd = some 8 ∧ (8 - 1) / 4 ≠ 0
      ∧ inFlight g (.single 3 62 { data := [], tagArea := [] } false) .single 62 ∧ (g.record 0 3).dataEnd = some 64 ∧ 64 ≠ 62 + 1 := by
  unfold inFlight; decide +kernel

/-- The live CLOSE of block 3 by tag 6. -/
def closeTag : TagEntry := TagEntry.mk' .close .waiting (some 0) (some 3) none

theorem witness_CloseArrives_final :
    let s := withTag (passing (blockIn (recOf .closing .dense 4 2 0 (some 3))) (.final 3 0 [] false) .final 0) 6 closeTag
    inFlight s (.final 3 0 [] false) .final 0 ∧ (s.record 0 3).state = .closing ∧ (s.record 0 3).dataEnd = some 3 ∧ (3 - 1) / 4 = 0
      ∧ s.tag 6 = some closeTag
      ∧ (∀ u g, s.tag u = some g → g.kind = .close → g.state = .waiting → g.lane = some 0 → g.block = some 3 → u = 6)
      ∧ ∀ i, (s.slot i).tag ≠ some 6 := by
  refine ⟨by unfold inFlight; decide +kernel, by decide +kernel, by decide +kernel, by decide, by decide +kernel, ?_,
    all_slots (fun sl => sl.tag ≠ some 6) (by decide +kernel) (by decide)⟩
  exact all_tags (fun u g => g.kind = .close → g.state = .waiting → g.lane = some 0 → g.block = some 3 → u = 6) (by decide +kernel)

theorem witness_CloseArrives_single :
    let s := withTag (passing (blockIn (recOf .closing .swift 64 0 63 (some 64))) (.single 3 63 { data := [], tagArea := [] } false) .single
      63) 6 closeTag
    inFlight s (.single 3 63 { data := [], tagArea := [] } false) .single 63 ∧ (s.record 0 3).state = .closing
      ∧ (s.record 0 3).dataEnd = some (63 + 1) ∧ s.tag 6 = some closeTag := by
  unfold inFlight; decide +kernel

theorem witness_CloseArrives_tags :
    let s := withTag (passing (heldStrip .roughed (recOf .closing .dense 4 2 0 (some 4))) (.final 3 0 [] false) .final 0) 6 closeTag
    inFlight s (.final 3 0 [] false) .final 0 ∧ (s.record 0 3).dataEnd = some 4 ∧ (4 - 1) / 4 = 0 ∧ s.tag 6 = some closeTag
      ∧ s.slotOf 0 3 (4 * 0 + 3) = some 3 ∧ (s.slot 3).tag = some 13 ∧ s.tag 13 = some (writeTag .staged 3 3)
      ∧ ∀ i, (s.slot i).tag ≠ some 6 :=
  ⟨by unfold inFlight; decide +kernel, by decide +kernel, by decide, by decide +kernel, by decide +kernel, by decide +kernel,
    by decide +kernel, all_slots (fun sl => sl.tag ≠ some 6) (by decide +kernel) (by decide)⟩

theorem witness_CloseArrives_order :
    let s := withTag (passing (heldStrip .roughed (recOf .closing .dense 4 2 0 (some 4))) (.final 3 0 [] false) .final 0) 6 closeTag
    s.WritesOpen (fun i => i ∈ (List.range 4).filterMap (fun k => s.slotOf 0 3 (4 * 0 + k))) :=
  strip_open (by decide +kernel) (by decide +kernel)

theorem witness_PassFails_refused :
    let s := passing (heldStrip .roughed (recOf .opened .dense 8 2 0 none)) (.final 3 0 [] true) .final 0
    inFlight s (.final 3 0 [] true) .final 0 ∧ ((s.lane 0).array.block 3).canStart .final 0 = false
      ∧ ((s.lane 0).array.block 3).canStart .rough 63 = true := by
  unfold inFlight; decide +kernel

theorem witness_PassFails :
    let rough := passing (heldStrip .staged (recOf .opened .dense 4 0 0 none)) (.rough 3 0 [] false) .rough 0
    let term := withTag (passing (blockIn (recOf .closing .dense 4 1 0 (some 3))) (.terminatorRough 3 1 3 false) .terminator 1) 6 closeTag
    inFlight rough (.rough 3 0 [] false) .rough 0 ∧ (rough.record 0 3).state ≠ .closing ∧ rough.tag 10 = some (writeTag .staged 0 0)
      ∧ inFlight term (.terminatorRough 3 1 3 false) .terminator 1 ∧ (term.record 0 3).state = .closing ∧ term.tag 6 = some closeTag
      ∧ (∀ u g, term.tag u = some g → g.kind = .close → g.state = .waiting → g.lane = some 0 → g.block = some 3 → u = 6) := by
  refine ⟨by unfold inFlight; decide +kernel, by decide +kernel, by decide +kernel, by unfold inFlight; decide +kernel, by decide +kernel,
    by decide +kernel, ?_⟩
  exact all_tags (fun u g => g.kind = .close → g.state = .waiting → g.lane = some 0 → g.block = some 3 → u = 6) (by decide +kernel)

/-! #### Erasing -/

/-- An ERASE of block 3 of lane 0 by tag 6. -/
def eraseReq : InFrame := reqFrame 6 (bytes [11, 0, 3, 0])

theorem witness_EraseQueued :
    (offered { running with wpAsserted := true } eraseReq).Admits eraseReq .erase (.erase 0 3)
      ∧ (offered (blockIn (recOf .opened .dense 4 0 0 none)) eraseReq).Admits eraseReq .erase (.erase 0 3)
      ∧ 0 < ((offered (blockIn (recOf .opened .dense 4 0 0 none)) eraseReq).record 0 3).heldCount
      ∧ (offered running eraseReq).Admits eraseReq .erase (.erase 0 3) ∧ (offered running eraseReq).Reaches 0 3
      ∧ running.wpAsserted = false ∧ (running.record 0 3).erasePending = false ∧ (running.record 0 3).heldCount = 0
      ∧ (running.lane 0).workQueue.length < 24 :=
  ⟨admits_of (by decide +kernel), admits_of (by decide +kernel), by decide +kernel, admits_of (by decide +kernel),
    reaches_of (by decide +kernel), rfl, by decide +kernel, by decide +kernel, by decide +kernel⟩

/-- Block 3 of lane 0 in the given record, with an ERASE of tag 6 waiting and the given free reserves. -/
def eraseWaiting (r : BlockRec) (free : List Nat) : State :=
  (withTag (blockIn r) 6 (TagEntry.mk' .erase .queued (some 0) (some 3) none)).modLane 0 (fun l => { l with freeReserves := free })

theorem witness_EraseQueued_taken :
    let shut := recOf .closed .swift 2 0 2 (some 2)
    let suspect := { shut with suspect := true }
    (eraseWaiting shut []).tag 6 = some (TagEntry.mk' .erase .queued (some 0) (some 3) none)
      ∧ ({ eraseWaiting shut [] with wpAsserted := true }).wpAsserted = true ∧ (eraseWaiting shut []).wpAsserted = false
      ∧ ((eraseWaiting shut []).record 0 3).suspect = false ∧ ((eraseWaiting shut []).record 0 3).state ≠ .retired
      ∧ ((eraseWaiting suspect [1055]).record 0 3).suspect = true ∧ ((eraseWaiting suspect [1055]).lane 0).freeReserves = 1055 :: []
      ∧ ((eraseWaiting suspect [1055]).lane 0).substMap.length < 64 ∧ ((eraseWaiting suspect []).lane 0).freeReserves = []
      ∧ ((eraseWaiting { shut with state := .retired } []).record 0 3).state = .retired := by decide +kernel

theorem witness_EraseOfBlock :
    (FlashArray.delivered.block 1055).factoryBad = false
      ∧ ((FlashArray.delivered.modBlock 1055 (fun pb => { pb with factoryBad := true })).block 1055).factoryBad = true
      ∧ (1055 : Nat) ≠ 0 := by decide +kernel

theorem witness_InPlaceErase :
    let s := erasing running (.erase 3) .inPlace none
    let full := s.modLane 0 (fun l => { l with substMap := (List.range 64).map (fun i => (i + 100, none)) })
    s.inReset = false ∧ (s.lane 0).engine = some (.erase 3) ∧ (s.lane 0).job = some (.erase 6 3 .inPlace none)
      ∧ s.tag 6 = some (TagEntry.mk' .erase .active (some 0) (some 3) none)
      ∧ (TagEntry.mk' .erase .active (some 0) (some 3) none).state ≠ .replying ∧ mapHasRoom (s.lane 0).substMap 3 = true
      ∧ mapHasRoom (full.lane 0).substMap 3 = false ∧ (full.lane 0).engine = some (.erase 3)
      ∧ ((s.lane 0).array.block 3).factoryBad = false := by decide +kernel

theorem witness_ReserveErase :
    let s := erasing running (.erase 1024) (.substitution 1024) none
    s.inReset = false ∧ (s.lane 0).engine = some (.erase 1024)
      ∧ (s.lane 0).job = some (.erase 6 3 (.substitution 1024) none) := by decide +kernel

theorem witness_ReserveErase_copies :
    let c : DirCopy := { generation := 1, contents := { map := [], retired := [] } }
    let d : DirCopy := { c with generation := 2 }
    let both : FlashArray := { FlashArray.delivered with copyA := some c, copyB := some d }
    FlashArray.delivered.copyA = some c ∧ (∀ o, FlashArray.delivered.copyB = some o → o.generation < c.generation)
      ∧ both.copyB = some d ∧ ∀ o, both.copyA = some o → o.generation < d.generation :=
  ⟨rfl, nofun, rfl, fun o h => by obtain rfl := Option.some.inj h; decide⟩

/-- The end of a directory write of block 3's ERASE. -/
def settling (c : EraseCourse) (e : Ending) : State :=
  erasing running (.directoryWrite { map := [(3, some 1024)], retired := [] } 2 false) c (some e)

theorem witness_DirectoryWriteSettles :
    ((settling (.substitution 1024) .pass).lane 0).engine = some (.directoryWrite { map := [(3, some 1024)], retired := [] } 2 false)
      ∧ ((settling (.substitution 1024) .pass).lane 0).job = some (.erase 6 3 (.substitution 1024) (some .pass))
      ∧ ((settling (.substitution 1024) .fail).lane 0).job = some (.erase 6 3 (.substitution 1024) (some .fail))
      ∧ ((settling .inPlace .fail).lane 0).job = some (.erase 6 3 .inPlace (some .fail))
      ∧ (settling .inPlace .fail).tag 6 = some (TagEntry.mk' .erase .active (some 0) (some 3) none)
      ∧ (settling .inPlace .fail).inReset = false := by decide +kernel

/-! #### Recovery and resets -/

/-- A RELOCATE of block 3 of lane 0 to block 4 by tag 6. -/
def relocateReq : InFrame := reqFrame 6 (bytes [8, 0, 3, 0, 4, 0])

theorem witness_RelocateMoves :
    let s := offered (withSlot (withSlot failedBlock 1 (slotOn .reserved 1 none 0 1)) 2 (slotOn .reserved 2 none 0 0)) relocateReq
    s.Admits relocateReq .relocate (.relocate 0 3 4) ∧ s.Reaches 0 3 ∧ s.SlotsFormed ∧ s.wpAsserted = false
      ∧ (s.record 0 3).state = .failed ∧ (s.record 0 4).state = .erased ∧ (s.record 0 4).erasePending = false
      ∧ (∀ i, (s.slot i).ownedBy 0 3 = true → (s.slot i).state ≠ .filling) ∧ (s.record 0 3).intakeNext - (s.record 0 3).firstHeld = 1
      ∧ (List.range 96).filter (fun i =>
          decide ((s.slot i).state = .free)
            || ((s.slot i).ownedBy 0 3 && decide ((s.slot i).state = .reserved) && decide ((s.slot i).pins = 0)))
        = (List.range 94).map (· + 2)
      ∧ (s.slot 0).tag = some 10 ∧ s.tag 10 = some (writeTag .heldFailed 0 0) :=
  ⟨admits_of (by decide +kernel), reaches_of (by decide +kernel), all_slots (fun sl => sl.wf = true) (by decide +kernel) (by decide), rfl,
    by decide +kernel, by decide +kernel, by decide +kernel,
    all_slots (fun sl => sl.ownedBy 0 3 = true → sl.state ≠ .filling) (by decide +kernel) (by decide), by decide +kernel,
    by decide +kernel, by decide +kernel, by decide +kernel⟩

theorem witness_RelocateMoves_full :
    let s := offered (withSlot (fullPool failedBlock) 0 (slotOn .staged 0 (some 10) 8 0)) relocateReq
    s.Admits relocateReq .relocate (.relocate 0 3 4) ∧ s.SlotsFormed ∧ s.freeCount < 3 :=
  ⟨admits_of (by decide +kernel), all_slots (fun sl => sl.wf = true) (by decide +kernel) (by decide), by decide +kernel⟩

theorem witness_DiscardGivesUp :
    let f := reqFrame 6 (bytes [9, 0, 3, 0])
    let s := offered failedBlock f
    s.Admits f .discard (.discard 0 3) ∧ s.Reaches 0 3 ∧ (s.record 0 3).state = .failed
      ∧ (∀ i, (s.slot i).ownedBy 0 3 = true → (s.slot i).state ≠ .filling) ∧ (s.slot 0).ownedBy 0 3 = true
      ∧ (s.slot 0).tag = some 10 ∧ s.tag 10 = some (writeTag .heldFailed 0 0) :=
  ⟨admits_of (by decide +kernel), reaches_of (by decide +kernel), by decide +kernel,
    all_slots (fun sl => sl.ownedBy 0 3 = true → sl.state ≠ .filling) (by decide +kernel) (by decide), by decide +kernel,
    by decide +kernel, by decide +kernel⟩

theorem witness_DiscardGivesUp_order :
    let s := offered failedBlock (reqFrame 6 (bytes [9, 0, 3, 0]))
    s.WritesOpen (fun i => (s.slot i).ownedBy 0 3 = true) :=
  writesOpen_of (fun i h => owned_below i ⟨h, Nat.zero_le _⟩) (by decide +kernel)

theorem witness_RelocateMoves_refused :
    let wp := offered { failedBlock with wpAsserted := true } relocateReq
    let whole := offered (blockIn (recOf .opened .dense 1 0 0 none)) relocateReq
    let erase := offered (failedBlock.modRecord 0 4 (fun r => { r with erasePending := true })) relocateReq
    let fill := offered (withSlot failedBlock 1 (slotOn .filling 1 (some 11) 0 0)) relocateReq
    wp.Admits relocateReq .relocate (.relocate 0 3 4) ∧ wp.Reaches 0 3 ∧ wp.wpAsserted = true
      ∧ whole.Admits relocateReq .relocate (.relocate 0 3 4) ∧ whole.wpAsserted = false ∧ (whole.record 0 3).state ≠ .failed
      ∧ erase.Admits relocateReq .relocate (.relocate 0 3 4) ∧ (erase.record 0 3).state = .failed ∧ (erase.record 0 4).state = .erased
      ∧ (erase.record 0 4).erasePending = true ∧ fill.Admits relocateReq .relocate (.relocate 0 3 4)
      ∧ (fill.slot 1).ownedBy 0 3 = true ∧ (fill.slot 1).state = .filling :=
  ⟨admits_of (by decide +kernel), reaches_of (by decide +kernel), rfl, admits_of (by decide +kernel), rfl, by decide +kernel,
    admits_of (by decide +kernel), by decide +kernel, by decide +kernel, by decide +kernel, admits_of (by decide +kernel),
    by decide +kernel, by decide +kernel⟩

theorem witness_DiscardGivesUp_refused :
    let f := reqFrame 6 (bytes [9, 0, 3, 0])
    let whole := offered (blockIn (recOf .closed .dense 4 1 1 (some 4))) f
    let fill := offered (withSlot failedBlock 1 (slotOn .filling 1 (some 11) 0 0)) f
    whole.Admits f .discard (.discard 0 3) ∧ whole.Reaches 0 3 ∧ (whole.record 0 3).state ≠ .failed
      ∧ fill.Admits f .discard (.discard 0 3) ∧ (fill.record 0 3).state = .failed ∧ (fill.slot 1).ownedBy 0 3 = true
      ∧ (fill.slot 1).state = .filling :=
  ⟨admits_of (by decide +kernel), reaches_of (by decide +kernel), by decide +kernel, admits_of (by decide +kernel), by decide +kernel,
    by decide +kernel, by decide +kernel⟩

/-- Lane 0 RESETTING with the LANE_RESET of tag 6 waiting, its block 3 as given. -/
def resettingLane (s : State) : State :=
  (withTag s 6 (TagEntry.mk' .laneReset .waiting (some 0) none none)).modLane 0 (fun l => { l with state := .resetting })

theorem witness_LaneResetRuns_taken :
    let f := reqFrame 6 (bytes [14, 3])
    (offered running f).Admits f .laneReset (.laneReset 3) ∧ ((offered running f).lane 3).state = .ready
      ∧ ((decoding 0).lane 0).job ≠ none ∧ (running.lane 0).state ≠ .resetting :=
  ⟨admits_of (by decide +kernel), by decide +kernel, by decide +kernel, by decide +kernel⟩

theorem witness_LaneResetRuns_applied :
    let s := resettingLane busy
    let t := resettingLane failedBlock
    (s.lane 0).state = .resetting ∧ (s.lane 0).job = none ∧ s.rqu.part ≠ .resetting
      ∧ (s.record 0 3).state = .opened ∧ 0 < (s.record 0 3).heldCount ∧ (s.record 0 3).roughDone = 0 ∧ (s.record 0 3).suspect = false
      ∧ (t.record 0 3).state = .failed ∧ 0 < (t.record 0 3).heldCount ∧ (t.record 0 3).suspect = true
      ∧ (s.slot 0).ofLane 0 = true ∧ (s.slot 4).ofLane 0 = false
      ∧ s.tag 10 = some (writeTag .staged 0 0) ∧ s.tag 6 = some (TagEntry.mk' .laneReset .waiting (some 0) none none) := by
  decide +kernel

/-- The end of a happening on a RESETTING lane applies its reset. -/
theorem witness_HappeningEnd_resets :
    ((resettingLane busy).lane 0).state = .resetting ∧ ((busy.conclude [0] (resettingLane busy)).lane 0).state = .ready
      ∧ (((busy.conclude [0] (resettingLane busy)).tag 6).map TagEntry.state) = some .replying := by decide +kernel

theorem witness_LaneResetRuns_own :
    ∀ u g, (resettingLane busy).tag u = some g → g.kind = .laneReset → g.state = .waiting → g.lane = some 0 → u = 6 :=
  all_tags (fun u g => g.kind = .laneReset → g.state = .waiting → g.lane = some 0 → u = 6) (by decide +kernel)

theorem witness_LaneResetRuns_queued :
    let s := (withTag (withTag (resettingLane busy) 9 (TagEntry.mk' .read .queued (some 0) (some 3) (some 63))) 7 closeTag).modLane 0
      (fun l => { l with workQueue := [readItem] })
    (s.lane 0).state = .resetting ∧ (s.lane 0).job = none ∧ (∃ w ∈ (s.lane 0).workQueue, w.tag = 9)
      ∧ ((s.lane 0).workQueue.map WorkItem.tag).Nodup
      ∧ (∀ w ∈ (s.lane 0).workQueue, (s.tag w.tag).all (fun g => decide (g.state = .queued)) = true) ∧ s.tag 7 = some closeTag ∧ closeTag.kind = .close ∧ closeTag.state = .waiting
      ∧ closeTag.lane = some 0 := by decide +kernel

/-- The progress of a PART_RESET of tag 6 that every reached lane has applied. -/
def progress : PartReset := { tag := 6, lanes := Vector.replicate 4 (.applied 1 0), removed := 3 }

theorem witness_PartResetRuns :
    let f := reqFrame 6 (bytes [15])
    let s : State := { withTag running 6 (TagEntry.mk' .partReset .waiting none none none) with
      rqu := { (withTag running 6 (TagEntry.mk' .partReset .waiting none none none)).rqu with
        part := .resetting, partReset := some progress } }
    (offered running f).Admits f .partReset .partReset ∧ s.rqu.partReset = some progress
      ∧ (∀ r ∈ progress.lanes.toList, r ≠ .waiting) ∧ s.tag 6 = some (TagEntry.mk' .partReset .waiting none none none)
      ∧ (TagEntry.mk' .partReset .waiting none none none).state ≠ .replying ∧ (s.link.queue = [] → s.link.transmission = none) :=
  ⟨admits_of (by decide +kernel), rfl, by decide +kernel, by decide +kernel, by decide, fun _ => rfl⟩

theorem witness_PartResetRuns_applied :
    let p : PartReset := { tag := 6, lanes := Vector.replicate 4 .waiting, removed := 0 }
    let b := heldStrip .staged (recOf .opened .dense 4 0 0 none)
    let s : State := { b.modLane 0 (fun l => { l with state := .resetting }) with
      rqu := { b.rqu with part := .resetting, partReset := some p } }
    0 < 4 ∧ (s.lane 0).state = .resetting ∧ (s.lane 0).job = none ∧ s.rqu.part = .resetting ∧ s.rqu.partReset = some p
      ∧ LaneReset.waiting ∈ p.lanes.toList ∧ s.tag 10 = some (writeTag .staged 0 0) ∧ (s.slot 0).ofLane 0 = true
      ∧ running.rqu.partReset = none := by decide +kernel

/-! #### Start-up -/

/-- Lane 3 at its DIRECTORY read over the given copies. -/
def booting (a b : Option DirCopy) : State := State.reset.modLane 3 (fun l => { l with array := { l.array with copyA := a, copyB := b } })

/-- A directory copy of the given generation. -/
def copyOf (g : Nat) : DirCopy := { generation := g, contents := { map := [(3, some 1024)], retired := [1025] } }

theorem witness_ScanSteps_directory :
    let s := booting (some (copyOf 1)) (some (copyOf 2))
    let t := booting none none
    s.inReset = false ∧ (s.lane 3).engine = some .directoryRead ∧ (s.lane 3).state = .scanning ∧ (s.lane 3).built = false
      ∧ (copyOf 1).generation < (copyOf 2).generation ∧ (s.lane 3).array.copyA = some (copyOf 1)
      ∧ (s.lane 3).array.copyB = some (copyOf 2) ∧ (t.lane 3).array.copyA = none ∧ (t.lane 3).array.copyB = none
      ∧ ((t.lane 0).built = false ∧ (t.lane 0).state ≠ .offline) := by decide +kernel

/-- Lane 3 at the SURVEY of block `p`. -/
def surveying (s : State) (p : Nat) : State := s.modLane 3 (fun l => { l with engine := some (.survey p) })

theorem witness_ScanSteps_survey :
    ((surveying State.reset 1054).lane 3).engine = some (.survey 1054) ∧ 1054 < 1055
      ∧ ((surveying State.reset 1054).lane 3).state = .scanning ∧ ((surveying State.reset 1054).lane 3).built = false := by
  decide +kernel

/-- Every lane but lane 3 has ended its scan: lane 0 OFFLINE, the others with their records built. -/
def nearlyScanned : State :=
  { surveying State.reset 1055 with
    lanes := (((surveying State.reset 1055).lanes.setIfInBounds 0 { State.reset.lane 0 with state := .offline }).setIfInBounds 1
      { State.reset.lane 1 with built := true }).setIfInBounds 2 { State.reset.lane 2 with built := true } }

theorem witness_ScanSteps_last :
    let s := nearlyScanned.modLane 3 (fun l => { l with engine := some .directoryRead })
    s.inReset = false ∧ (s.lane 3).engine = some .directoryRead ∧ (s.lane 3).state = .scanning ∧ (s.lane 3).built = false
      ∧ s.rqu.part = .starting ∧ (∀ y, y < 4 → y ≠ 3 → (s.lane y).built = true ∨ (s.lane y).state = .offline) := by decide +kernel

theorem witness_ScanEnds :
    let s := surveying State.reset 1055
    s.inReset = false ∧ s.rqu.part = .starting ∧ (s.lane 3).engine = some (.survey 1055) ∧ (s.lane 3).state = .scanning
      ∧ ((s.lane 0).built = false ∧ (s.lane 0).state ≠ .offline)
      ∧ (nearlyScanned.lane 3).engine = some (.survey 1055) ∧ (nearlyScanned.lane 3).state = .scanning
      ∧ (∀ y, y < 4 → y ≠ 3 → (nearlyScanned.lane y).built = true ∨ (nearlyScanned.lane y).state = .offline)
      ∧ (nearlyScanned.lane 0).state = .offline ∧ (nearlyScanned.lane 1).state ≠ .offline := by decide +kernel

/-- A lane whose survey shows physical block 0 factory-bad, and which maps host block 5 to reserve 1024 and host block 6 to NONE. -/
def surveyed : Lane :=
  { State.reset.lane 0 with
    surveys := .factoryBad :: List.replicate 1055 .blank, substMap := [(5, some 1024), (6, none), (7, some 1030), (8, some 1030)]
    retiredReserves := [1031] }

theorem witness_FreeReserveList :
    surveyed.surveyOf 1055 = .blank ∧ (∀ e ∈ surveyed.substMap, e.2 ≠ some 1055) ∧ 1055 ∉ surveyed.retiredReserves := by decide +kernel

theorem witness_RebuiltRecords_standing :
    mapTarget surveyed.substMap 6 = some none ∧ mapTarget surveyed.substMap 5 = some (some 1024)
      ∧ surveyed.surveyOf 1024 ≠ .factoryBad ∧ 1024 ∉ surveyed.retiredReserves
      ∧ (∀ e ∈ surveyed.substMap, e.1 ≠ 5 → e.2 ≠ some 1024) ∧ (∃ e ∈ surveyed.substMap, e.1 ≠ 7 ∧ e.2 = some 1030)
      ∧ mapTarget surveyed.substMap 0 = none ∧ surveyed.surveyOf 0 = .factoryBad ∧ mapTarget surveyed.substMap 1023 = none
      ∧ surveyed.surveyOf 1023 ≠ .factoryBad := by decide +kernel

/-- Strip states with `f` FINAL, then `r` ROUGHED, then BLANK. -/
def stripRun (f r : Nat) : List StripState := List.replicate f .final ++ List.replicate r .roughed ++ List.replicate (64 - f - r) .blank

theorem witness_RebuiltRecords_frontiers :
    (stripRun 1 1).length = 64 ∧ 1 ≤ 2 ∧ (∀ i, i < 1 → (stripRun 1 1)[i]? = some .final) ∧ (stripRun 1 1)[1]? ≠ some .final
      ∧ (∀ i, i < 2 → (stripRun 1 1)[i]? = some .final ∨ (stripRun 1 1)[i]? = some .roughed)
      ∧ ((stripRun 1 1)[2]? ≠ some .final ∧ (stripRun 1 1)[2]? ≠ some .roughed)
      ∧ (4 * (1 - 1) < 1 ∧ 1 ≤ 4 * 1) ∧ (4 * (1 - 1) < 4 ∧ 4 ≤ 4 * 1) ∧ 4 * 1 < 5
      ∧ (stripRun 64 0).length = 64 ∧ (∀ i, i < 64 → (stripRun 64 0)[i]? = some .final) ∧ (stripRun 64 0)[64]? = none := by
  decide +kernel

/-! #### Departures and input lines -/

theorem witness_Departures_refusal :
    let s := sending (linked (fun l => { l with queue := [anEntry] })) (.rsp false)
    s.inReset = false ∧ s.link.tx.map OutFrame.what = some (.rsp false) ∧ s.link.queue = anEntry :: [] ∧ anEntry.reply.cls = .refusal
      ∧ anEntry.source = none := ⟨rfl, rfl, rfl, rfl, rfl⟩

theorem witness_Departures_interim :
    let s := sending (linked (fun l => { l with queue := [interim9] })) (.rsp false)
    s.link.tx.map OutFrame.what = some (.rsp false) ∧ s.link.queue = interim9 :: [] ∧ interim9.reply.cls = .interim
      ∧ interim9.source = none := ⟨rfl, rfl, rfl, rfl⟩

theorem witness_Departures_final :
    let q := fun st src => ((replied st .final src).link.queue.head?).map (fun q => (q.reply.cls, q.reply.recallable, q.reply.status, q.source))
    q .done (some (.slot 0)) = some (.final, true, .done, some (.slot 0)) ∧ q .erasedPage none = some (.final, true, .erasedPage, none)
      ∧ q .uncorrectable (some (.egress 3)) = some (.final, true, .uncorrectable, some (.egress 3)) ∧ 3 < 4 :=
  ⟨rfl, rfl, rfl, by decide⟩

theorem witness_Departures_data :
    let s := sending (replied .done .final (some (.egress 3))) (.data 6 false)
    s.link.tx.map OutFrame.what = some (.data 6 false) ∧ s.link.queue ≠ [] ∧ 6 < 7
      ∧ (sending (replied .done .final (some (.egress 3))) (.data 7 false)).link.tx.map OutFrame.what = some (.data 7 false)
      ∧ s.link.queue.map QueueEntry.source = [some (.egress 3)]
      ∧ (sending (replied .done .final (some (.slot 95))) (.data 7 false)).link.queue.map QueueEntry.source = [some (.slot 95)] := by
  decide

theorem witness_Departures_others :
    (sending running (.rsp true)).link.tx.map OutFrame.what = some (.rsp true)
      ∧ (sending running (.note (.blockFailed 3 1023))).link.tx.map OutFrame.what = some (.note (.blockFailed 3 1023))
      ∧ (sending running (.note .poolLow)).link.tx.map OutFrame.what = some (.note .poolLow)
      ∧ (sending running (.data 3 true)).link.tx.map OutFrame.what = some (.data 3 true)
      ∧ (sending running .nak).link.tx.map OutFrame.what = some .nak ∧ running.inReset = false := ⟨rfl, rfl, rfl, rfl, rfl, rfl⟩

theorem witness_InputLines :
    running.inReset = false ∧ ({ State.reset with inReset := true }).inReset = true ∧ (1055 : Nat) < 1056
      ∧ (FlashArray.delivered.block 1055).cells = .blank ∧ (FlashArray.delivered.block 1055).factoryBad = false
      ∧ (Operation.single 1055 63 onePage false).passKind = some .single
      ∧ ((FlashArray.delivered.modBlock 1055 (fun pb => { pb with cells := .written writtenBlock })).block 1055).cells
        = .written writtenBlock :=
  ⟨rfl, rfl, by decide, by decide +kernel, by decide +kernel, rfl, by simp [FlashArray.modBlock, FlashArray.block]⟩

end Sys2Proof.Tests
end

