-- ==== Sys2Proof/Proofs/EraseOfBlock.lean ====
section
/-! PROOFS. ERASE of one physical block (R12): the read-after-write rules of the array's blocks, what the end of an ERASE does to a block,
and the statement assembled from them. -/

namespace Sys2Proof.Machine

/-! ### A change of one physical block -/

@[simp] theorem FlashArray.block_modBlock_same (a : FlashArray) {p : Nat} (f : PhysBlock → PhysBlock) (h : p < 1056) :
    (a.modBlock p f).block p = f (a.block p) := by
  simp [FlashArray.modBlock, FlashArray.block, h]

@[simp] theorem FlashArray.block_modBlock_ne (a : FlashArray) {p q : Nat} (f : PhysBlock → PhysBlock) (h : q ≠ p) :
    (a.modBlock p f).block q = a.block q := by
  simp [FlashArray.modBlock, FlashArray.block, Vector.getElem?_setIfInBounds_ne h.symm]

@[simp] theorem FlashArray.modBlock_copyA (a : FlashArray) (p : Nat) (f : PhysBlock → PhysBlock) :
    (a.modBlock p f).copyA = a.copyA := rfl

@[simp] theorem FlashArray.modBlock_copyB (a : FlashArray) (p : Nat) (f : PhysBlock → PhysBlock) :
    (a.modBlock p f).copyB = a.copyB := rfl

/-! ### The end of an ERASE on its block -/

theorem PhysBlock.endErase_of_factoryBad {pb : PhysBlock} (h : pb.factoryBad = true) (e : Ending) : pb.endErase e = pb := by
  simp [PhysBlock.endErase, h]

theorem PhysBlock.endErase_pass {pb : PhysBlock} (h : pb.factoryBad = false) :
    pb.endErase .pass = { pb with cells := .blank } := by
  simp [PhysBlock.endErase, h]

theorem PhysBlock.endErase_fail {pb : PhysBlock} (h : pb.factoryBad = false) :
    pb.endErase .fail = { pb with cells := .unsettled } := by
  simp [PhysBlock.endErase, h]

@[simp] theorem PhysBlock.endErase_factoryBad (pb : PhysBlock) (e : Ending) : (pb.endErase e).factoryBad = pb.factoryBad := by
  cases h : pb.factoryBad with
  | true => rw [endErase_of_factoryBad h, h]
  | false =>
    cases e with
    | pass => rw [endErase_pass h, h]
    | fail => rw [endErase_fail h, h]

/-! ### The operation ERASE -/

/-- The start of an ERASE changes nothing; its end acts on the named block alone. -/
theorem Operation.finish_begin_erase (a : FlashArray) (p : Nat) (e : Ending) :
    (Operation.erase p).finish e ((Operation.erase p).begin a) = a.modBlock p (·.endErase e) := rfl

theorem Operation.outcome_erase_of_factoryBad {a : FlashArray} {p : Nat} (h : (a.block p).factoryBad = true) (e : Ending) :
    (Operation.erase p).outcome a e = .fail := by
  simp [Operation.outcome, h]

theorem Operation.outcome_erase_of_not_factoryBad {a : FlashArray} {p : Nat} (h : (a.block p).factoryBad = false) (e : Ending) :
    (Operation.erase p).outcome a e = e := by
  simp [Operation.outcome, h]

/-- Settles O47: the block named takes `endErase` of the outcome, by its factory-bad mark; nothing else of the array changes. -/
theorem eraseOfBlock : Obligations.EraseOfBlock := by
  intro a p e hp out a'
  have harray : a' = a.modBlock p (·.endErase out) := Operation.finish_begin_erase a p out
  have hblock : a'.block p = (a.block p).endErase out := by rw [harray, FlashArray.block_modBlock_same a _ hp]
  refine ⟨fun hbad => ?bad, fun hgood => ?good, ?mark, ?copyA, ?copyB, fun q hq => ?other⟩
  case bad =>
    exact ⟨Operation.outcome_erase_of_factoryBad hbad e, hblock.trans (PhysBlock.endErase_of_factoryBad hbad out)⟩
  case good =>
    have hout : out = e := Operation.outcome_erase_of_not_factoryBad hgood e
    rw [hblock, hout]
    refine ⟨rfl, ?_, ?_⟩
    · rintro rfl
      rw [PhysBlock.endErase_pass hgood]
    · rintro rfl
      rw [PhysBlock.endErase_fail hgood]
  case mark => rw [hblock, PhysBlock.endErase_factoryBad]
  case copyA => rw [harray, FlashArray.modBlock_copyA]
  case copyB => rw [harray, FlashArray.modBlock_copyB]
  case other => rw [harray, FlashArray.block_modBlock_ne a _ hq]

end Sys2Proof.Machine
end

