-- ==== Sys2Proof/Proofs/SlotRows.lean ====
section
/-! PROOFS. The rows of R45, one slot at a time: what each row asks, that every change of a slot keeps its row, and that the six states
divide the pool. -/

namespace Sys2Proof.Machine

/-! ### The rows of R45 -/

theorem Slot.wf_of_free {sl : Slot} (h : sl.state = .free) :
    sl.wf = true ↔ sl.owner = none ∧ sl.tag = none ∧ sl.pad = false ∧ sl.chunks = 0 ∧ sl.pins = 0 ∧ sl.timer = none := by
  simp [Slot.wf, h, and_assoc]

theorem Slot.wf_of_reserved {sl : Slot} (h : sl.state = .reserved) :
    sl.wf = true ↔ sl.owner.isSome = true ∧ sl.tag = none ∧ sl.pad = false ∧ sl.chunks = 0 ∧ sl.timer = none := by
  simp [Slot.wf, h, and_assoc]

theorem Slot.wf_of_filling {sl : Slot} (h : sl.state = .filling) :
    sl.wf = true ↔ sl.owner.isSome = true ∧ sl.tag.isSome = true ∧ sl.pad = false ∧ sl.chunks ≤ 8 ∧ sl.pins = 0
      ∧ sl.timer.isSome = true := by
  simp [Slot.wf, h, and_assoc]

/-- STAGED and ROUGHED have one row. -/
theorem Slot.wf_of_held {sl : Slot} (h : sl.state = .staged ∨ sl.state = .roughed) :
    sl.wf = true ↔ sl.owner.isSome = true ∧ sl.complete = true ∧ sl.timer = none := by
  rcases h with h | h <;> simp [Slot.wf, h, and_assoc]

theorem Slot.wf_of_detached {sl : Slot} (h : sl.state = .detached) :
    sl.wf = true ↔ sl.owner = none ∧ sl.tag = none ∧ sl.pad = false ∧ sl.chunks ≤ 8 ∧ 1 ≤ sl.pins ∧ sl.timer = none := by
  simp [Slot.wf, h, and_assoc]

theorem Slot.complete_chunks_le {sl : Slot} (h : sl.complete = true) : sl.chunks ≤ 8 := by
  cases hp : sl.pad <;> simp [Slot.complete, hp] at h <;> omega

/-- No row lets a slot hold more than eight chunks. -/
theorem Slot.chunks_le_of_wf {sl : Slot} (h : sl.wf = true) : sl.chunks ≤ 8 := by
  cases hs : sl.state with
  | free => obtain ⟨-, -, -, hc, -⟩ := (Slot.wf_of_free hs).mp h; omega
  | reserved => obtain ⟨-, -, -, hc, -⟩ := (Slot.wf_of_reserved hs).mp h; omega
  | filling => obtain ⟨-, -, -, hc, -⟩ := (Slot.wf_of_filling hs).mp h; exact hc
  | staged => obtain ⟨-, hc, -⟩ := (Slot.wf_of_held (.inl hs)).mp h; exact Slot.complete_chunks_le hc
  | roughed => obtain ⟨-, hc, -⟩ := (Slot.wf_of_held (.inr hs)).mp h; exact Slot.complete_chunks_le hc
  | detached => obtain ⟨-, -, -, hc, -⟩ := (Slot.wf_of_detached hs).mp h; exact hc

/-! ### The changes of a slot keep its row -/

theorem Slot.wf_powerOn : Slot.powerOn.wf = true := rfl

theorem Slot.wf_freed (sl : Slot) : sl.freed.wf = true :=
  (Slot.wf_of_free rfl).mpr ⟨rfl, rfl, rfl, rfl, rfl, rfl⟩

theorem Slot.wf_detach {sl : Slot} (h : sl.wf = true) (hp : sl.pins ≠ 0) : sl.detach.wf = true :=
  (Slot.wf_of_detached (sl := sl.detach) rfl).mpr ⟨rfl, rfl, rfl, Slot.chunks_le_of_wf (sl := sl) h, Nat.one_le_iff_ne_zero.mpr hp, rfl⟩

theorem Slot.wf_release {sl : Slot} (h : sl.wf = true) : sl.release.wf = true := by
  unfold Slot.release
  split
  · exact sl.wf_freed
  · exact Slot.wf_detach h ‹_›

theorem Slot.wf_unfill {sl : Slot} (ho : sl.owner.isSome = true) : sl.unfill.wf = true :=
  (Slot.wf_of_reserved rfl).mpr ⟨ho, rfl, rfl, rfl, rfl⟩

theorem Slot.wf_reserveFor (o : Owner) (sl : Slot) : (sl.reserveFor o).wf = true :=
  (Slot.wf_of_reserved rfl).mpr ⟨rfl, rfl, rfl, rfl, rfl⟩

theorem Slot.wf_fill (o : Owner) (t timeout : Nat) (area : List Byte) (sl : Slot) : (sl.fill o t timeout area).wf = true :=
  (Slot.wf_of_filling rfl).mpr ⟨rfl, rfl, rfl, Nat.zero_le 8, rfl, rfl⟩

theorem Slot.wf_padFill {sl : Slot} (ho : sl.owner.isSome = true) : sl.padFill.wf = true :=
  (Slot.wf_of_held (.inl rfl)).mpr ⟨ho, rfl, rfl⟩

theorem Slot.wf_takeChunk {sl : Slot} (h : sl.wf = true) (hs : sl.state = .filling) (hc : sl.chunks ≤ 7) (bytes : List Byte) :
    (sl.takeChunk bytes).wf = true := by
  obtain ⟨ho, ht, hp, -, hpins, htimer⟩ := (Slot.wf_of_filling hs).mp h
  exact (Slot.wf_of_filling (sl := sl.takeChunk bytes) hs).mpr ⟨ho, ht, hp, Nat.succ_le_succ hc, hpins, htimer⟩

theorem Slot.wf_stage {sl : Slot} (h : sl.wf = true) (hs : sl.state = .filling) (hc : sl.chunks = 8) : sl.stage.wf = true := by
  obtain ⟨ho, ht, hp, -, -, -⟩ := (Slot.wf_of_filling hs).mp h
  exact (Slot.wf_of_held (.inl rfl)).mpr ⟨ho, by simp [Slot.complete, Slot.stage, hp, ht, hc], rfl⟩

theorem Slot.wf_rough {sl : Slot} (h : sl.wf = true) : sl.rough.wf = true := by
  unfold Slot.rough
  split
  · rename_i hs
    exact (Slot.wf_of_held (.inr rfl)).mpr ((Slot.wf_of_held (.inl hs)).mp h)
  · exact h

/-- A held slot stays held when it is relabelled (R58, R136). -/
theorem Slot.wf_relocate {sl : Slot} (h : sl.wf = true) (hs : sl.state = .staged ∨ sl.state = .roughed) (x b first : Nat) :
    (sl.relocate x b first).wf = true := by
  obtain ⟨-, hc, ht⟩ := (Slot.wf_of_held hs).mp h
  have hs' : (sl.relocate x b first).state = .staged := by rcases hs with hs | hs <;> simp [Slot.relocate, hs]
  exact (Slot.wf_of_held (.inl hs')).mpr ⟨rfl, hc, ht⟩

theorem Slot.wf_pin {sl : Slot} (h : sl.wf = true) (hs : sl.state = .staged ∨ sl.state = .roughed) : sl.pin.wf = true :=
  (Slot.wf_of_held (sl := sl.pin) hs).mpr ((Slot.wf_of_held hs).mp h)

/-- The removal of a pin frees a DETACHED slot that would have none left; no other row asks for a pin (R57). -/
theorem Slot.wf_unpin {sl : Slot} (h : sl.wf = true) : sl.unpin.wf = true := by
  unfold Slot.unpin
  split
  · exact sl.wf_freed
  · rename_i hlast
    cases hs : sl.state with
    | free =>
      obtain ⟨ho, ht, hp, hc, hpins, htimer⟩ := (Slot.wf_of_free hs).mp h
      exact (Slot.wf_of_free rfl).mpr ⟨ho, ht, hp, hc, by simp [hpins], htimer⟩
    | reserved => exact (Slot.wf_of_reserved rfl).mpr ((Slot.wf_of_reserved hs).mp h)
    | filling =>
      obtain ⟨ho, ht, hp, hc, hpins, htimer⟩ := (Slot.wf_of_filling hs).mp h
      exact (Slot.wf_of_filling rfl).mpr ⟨ho, ht, hp, hc, by simp [hpins], htimer⟩
    | staged => exact (Slot.wf_of_held (.inl rfl)).mpr ((Slot.wf_of_held (.inl hs)).mp h)
    | roughed => exact (Slot.wf_of_held (.inr rfl)).mpr ((Slot.wf_of_held (.inr hs)).mp h)
    | detached =>
      obtain ⟨ho, ht, hp, hc, -, htimer⟩ := (Slot.wf_of_detached hs).mp h
      have hpins : 1 ≤ sl.pins - 1 := by have := not_and.mp hlast hs; omega
      exact (Slot.wf_of_detached rfl).mpr ⟨ho, ht, hp, hc, hpins, htimer⟩

/-! ### The six counts -/

/-- The six states divide any list of slots. -/
theorem length_filter_slotStates (g : Nat → SlotState) (is : List Nat) :
    (is.filter (fun i => decide (g i = .free))).length + (is.filter (fun i => decide (g i = .reserved))).length
        + (is.filter (fun i => decide (g i = .filling))).length + (is.filter (fun i => decide (g i = .staged))).length
        + (is.filter (fun i => decide (g i = .roughed))).length + (is.filter (fun i => decide (g i = .detached))).length
      = is.length := by
  induction is with
  | nil => rfl
  | cons i is ih => cases h : g i <;> simp [h] <;> omega

theorem State.slot_counts_add (s : State) :
    (s.slotsIn .free).length + (s.slotsIn .reserved).length + (s.slotsIn .filling).length + (s.slotsIn .staged).length
      + (s.slotsIn .roughed).length + (s.slotsIn .detached).length = 96 :=
  (length_filter_slotStates (fun i => (s.slot i).state) slotNumbers).trans List.length_range

end Sys2Proof.Machine
end

