-- ==== Sys2Proof/Proofs/SlotsFormed.lean ====
section
/-! PROOFS. The form of every slot (R45) under the operations that the commands share: replies and tags, the changes of slots, the lane
scheduler, the resets, and the end of a happening. -/

namespace Sys2Proof.Machine

/-! ### Operations that leave the slots as they are -/

theorem State.SlotsFormed.congr {s m : State} (h : s.SlotsFormed) (hm : ∀ i, m.slot i = s.slot i) : m.SlotsFormed := fun i => by
  rw [hm i]; exact h i

theorem State.SlotsFormed.of_slots_eq {s m : State} (h : s.SlotsFormed) (hm : m.pool.slots = s.pool.slots) : m.SlotsFormed :=
  h.congr fun i => by rw [State.slot, State.slot, hm]

theorem State.SlotsFormed.onlyReplies {s m : State} (h : s.SlotsFormed) (hm : s.OnlyReplies m) : m.SlotsFormed := h.congr hm.slot

theorem State.SlotsFormed.foldl {α : Type} {f : State → α → State} {s : State} (h : s.SlotsFormed) (as : List α)
    (hf : ∀ (m : State) (a : α), m.SlotsFormed → (f m a).SlotsFormed) : (as.foldl f s).SlotsFormed :=
  List.foldlRecOn as f h fun m hm a _ => hf m a hm

theorem State.slotsFormed_powerOn (arrays : Vector FlashArray 4) (engine : Option Operation) (wp inReset : Bool)
    (pending : List Instr) : (State.powerOn arrays engine wp inReset pending).SlotsFormed := fun i => by
  have : (State.powerOn arrays engine wp inReset pending).slot i = Slot.powerOn := by
    by_cases hi : i < 96 <;> simp [State.slot, State.powerOn, Pool.powerOn, hi]
  rw [this, Slot.wf_powerOn]

theorem State.SlotsFormed.modLane {s : State} (h : s.SlotsFormed) (x : Nat) (f : Lane → Lane) : (s.modLane x f).SlotsFormed := h

theorem State.SlotsFormed.modRecord {s : State} (h : s.SlotsFormed) (x b : Nat) (f : BlockRec → BlockRec) :
    (s.modRecord x b f).SlotsFormed := h

theorem State.SlotsFormed.setTag {s : State} (h : s.SlotsFormed) (t : Nat) (e : Option TagEntry) : (s.setTag t e).SlotsFormed := h

theorem State.SlotsFormed.testBlock {s : State} (h : s.SlotsFormed) (x b : Nat) : (s.testBlock x b).SlotsFormed :=
  h.congr (s.testBlock_slot x b)

theorem State.SlotsFormed.modTag {s : State} (h : s.SlotsFormed) (t : Nat) (f : TagEntry → TagEntry) : (s.modTag t f).SlotsFormed :=
  h.congr fun i => s.modTag_slot t i f

theorem State.SlotsFormed.finish {s : State} (h : s.SlotsFormed) (t : Nat) (st : Status) (fields : ReplyFields)
    (src : Option Source) : (s.finish t st fields src).SlotsFormed := h.onlyReplies (s.finish_frame t st fields src)

theorem State.SlotsFormed.endWrite {s : State} (h : s.SlotsFormed) (t : Nat) (st : Status) : (s.endWrite t st).SlotsFormed :=
  h.onlyReplies (s.endWrite_frame t st)

theorem State.SlotsFormed.endClose {s : State} (h : s.SlotsFormed) (x b : Nat) (st : Status) : (s.endClose x b st).SlotsFormed :=
  h.onlyReplies (s.endClose_frame x b st)

theorem State.SlotsFormed.queueStaged {s : State} (h : s.SlotsFormed) (t : Nat) : (s.queueStaged t).SlotsFormed := by
  unfold State.queueStaged
  split <;> exact h

/-! ### Operations on slots -/

theorem State.SlotsFormed.modSlot {s : State} (h : s.SlotsFormed) {i : Nat} {f : Slot → Slot} (hf : (f (s.slot i)).wf = true) :
    (s.modSlot i f).SlotsFormed := fun j => by
  by_cases hi : i < 96
  · by_cases hj : j = i
    · subst hj; rwa [State.slot_modSlot_same s f hi]
    · rw [State.slot_modSlot_ne s f hj]; exact h j
  · rw [State.slot_modSlot_out s f hi]; exact h j

theorem State.SlotsFormed.modSlots {s : State} (h : s.SlotsFormed) {is : List Nat} {f : Slot → Slot} (hn : is.Nodup)
    (hf : ∀ i ∈ is, (f (s.slot i)).wf = true) : (s.modSlots is f).SlotsFormed := fun j => by
  by_cases hj : j ∈ is
  · by_cases hlt : j < 96
    · rw [State.slot_modSlots_mem s f hn hj hlt]; exact hf j hj
    · rw [State.slot_out _ hlt, Slot.wf_powerOn]
  · rw [State.slot_modSlots_ne s is f hj]; exact h j

theorem State.SlotsFormed.releaseSlot {s : State} (h : s.SlotsFormed) (i : Nat) : (s.releaseSlot i).SlotsFormed := by
  have hdrop : (s.dropSlotOfTag (s.slot i).tag).SlotsFormed := h.of_slots_eq (by rw [(s.dropSlotOfTag_frame _).2.1])
  exact hdrop.modSlot (Slot.wf_release (hdrop i))

theorem State.SlotsFormed.releaseSlots {s : State} (h : s.SlotsFormed) (is : List Nat) : (s.releaseSlots is).SlotsFormed :=
  h.foldl is fun _ i hm => hm.releaseSlot i

/-- Slots given to pages one after another (R48, R136). -/
theorem State.SlotsFormed.reserveFor {α : Type} {s : State} (h : s.SlotsFormed) (as : List α) (i : α → Nat) (o : α → Owner) :
    (as.foldl (fun s a => s.modSlot (i a) (Slot.reserveFor (o a))) s).SlotsFormed :=
  h.foldl as fun _ a hm => hm.modSlot (Slot.wf_reserveFor (o a) _)

theorem State.SlotsFormed.releaseSource {s : State} (h : s.SlotsFormed) (src : Option Source) : (s.releaseSource src).SlotsFormed := by
  rcases src with _ | i | x
  · exact h
  · exact h.modSlot (Slot.wf_unpin (h i))
  · exact h

theorem State.SlotsFormed.removeReplies {s : State} (h : s.SlotsFormed) (p : QueueEntry → Bool) : (s.removeReplies p).SlotsFormed :=
  State.SlotsFormed.of_slots_eq (h.foldl (s.link.queue.filter p) fun _ q hm => hm.releaseSource q.source) rfl

/-- A slot owned by a block names a page. -/
theorem Slot.owner_isSome_of_ownedBy {sl : Slot} {x b : Nat} (h : sl.ownedBy x b = true) : sl.owner.isSome = true := by
  rw [(sl.ownedBy_iff x b).mp h]; rfl

/-- The abandonment chain returns owned slots to RESERVED and releases the rest (R55). -/
theorem State.SlotsFormed.abandon {s : State} (h : s.SlotsFormed) (x b p : Nat) (st : Status) : (s.abandon x b p st).SlotsFormed :=
  fun i => by
    rw [State.abandon_slot]
    split
    · rename_i hi
      unfold State.chainChange
      split
      · obtain ⟨howned, -⟩ := (s.mem_chainTargets x b p i).mp hi
        exact Slot.wf_unfill (Slot.owner_isSome_of_ownedBy howned)
      · exact Slot.wf_release (h i)
    · exact h i

/-! ### Served READs -/

/-- A HELD page lies in a STAGED or ROUGHED slot (R38). -/
theorem State.classify_held {s : State} {x b p i : Nat} (h : s.classify x b p = .held i) :
    (s.slot i).state = .staged ∨ (s.slot i).state = .roughed := by
  unfold State.classify at h
  dsimp only at h
  split_ifs at h
  split at h
  · split_ifs at h with hs
    cases h
    exact hs
  · cases h

theorem State.SlotsFormed.pin {s : State} (h : s.SlotsFormed) {x b p i : Nat} (hc : s.classify x b p = .held i) :
    (s.modSlot i Slot.pin).SlotsFormed := h.modSlot (Slot.wf_pin (h i) (State.classify_held hc))

/-! ### The lane scheduler -/

/-- The READ the scheduler chooses carries the class of its page. -/
theorem State.choice_read {s : State} {x t b p : Nat} {c : PageClass} (h : s.choice x = .read t b p c) : c = s.classify x b p := by
  unfold State.choice at h
  split at h
  · rename_i c' hfirst
    subst h
    unfold State.readFirst at hfirst
    dsimp only at hfirst
    split at hfirst
    · split_ifs at hfirst
      cases hfirst
      rfl
    · cases hfirst
  · split at h
    · cases h
    · split at h <;> cases h

theorem State.SlotsFormed.takeRead {s : State} (h : s.SlotsFormed) {x t b p : Nat} {c : PageClass} (hc : c = s.classify x b p) :
    (s.takeRead x t b p c).SlotsFormed := by
  have hpop := h.modLane x Lane.popRead
  unfold State.takeRead State.startRead State.serveHeld State.serveEmpty
  cases c with
  | finalized => exact (hpop.modTag t _).modLane x _
  | held i =>
    have hheld := State.classify_held hc.symm
    exact (hpop.modSlot (Slot.wf_pin (hpop i) hheld)).finish _ _ _ _
  | erased => exact hpop.finish _ _ _ _
  | notWritten => exact hpop.finish _ _ _ _
  | pad => exact hpop.finish _ _ _ _

theorem State.SlotsFormed.takeErase {s : State} (h : s.SlotsFormed) (x t b : Nat) : (s.takeErase x t b).SlotsFormed := by
  have hpop := h.modLane x (fun l => { l with workQueue := l.workQueue.tail })
  unfold State.takeErase
  dsimp only
  split
  · exact (hpop.modRecord x b _).finish _ _ _ _
  · split
    · exact (hpop.modTag t _).modLane x _
    · exact (hpop.modRecord x b _).finish _ _ _ _

theorem State.SlotsFormed.takeChoice {s : State} (h : s.SlotsFormed) (x : Nat) : (s.take x (s.choice x)).SlotsFormed := by
  cases hc : s.choice x with
  | read t b p c => exact h.takeRead (State.choice_read hc)
  | pass e => exact h
  | erase t b => exact h.takeErase x t b
  | wait => exact h

theorem State.SlotsFormed.scheduleFuel {s : State} (h : s.SlotsFormed) (n x : Nat) : (scheduleFuel n x s).SlotsFormed := by
  induction n generalizing s with
  | zero => exact h
  | succ n ih =>
    unfold Machine.scheduleFuel
    split
    · exact ih (h.takeChoice x)
    · exact h

/-! ### Resets of lanes -/

theorem State.SlotsFormed.abortItem {s : State} (h : s.SlotsFormed) (x : Nat) (w : WorkItem) : (s.abortItem x w).SlotsFormed := by
  unfold State.abortItem
  split <;> exact h.finish _ _ _ _

theorem State.SlotsFormed.abortClose {s : State} (h : s.SlotsFormed) (t : Nat) : (s.abortClose t).SlotsFormed := by
  unfold State.abortClose
  split
  · exact h.finish _ _ _ _
  · exact h

theorem State.SlotsFormed.endLaneReset {s : State} (h : s.SlotsFormed) (x aborted erased closed : Nat) :
    (s.endLaneReset x aborted erased closed).SlotsFormed := by
  unfold State.endLaneReset
  split
  · exact h.finish _ _ _ _
  · exact h

theorem State.SlotsFormed.applyLaneReset {s : State} (h : s.SlotsFormed) (x : Nat) : (s.applyLaneReset x).SlotsFormed := by
  have h1 := h.foldl (s.lane x).workQueue (f := State.abortItem x) fun _ w hm => hm.abortItem x w
  have h2 := h1.modLane x Lane.applyReset
  unfold State.applyLaneReset
  refine State.SlotsFormed.modLane (State.SlotsFormed.endLaneReset ?_ _ _ _ _) x _
  refine State.SlotsFormed.foldl ?_ _ fun _ t hm => hm.abortClose t
  refine State.SlotsFormed.foldl ?_ _ fun _ t hm => hm.endWrite t _
  exact h2.releaseSlots _

theorem State.SlotsFormed.removeTags {s : State} (h : s.SlotsFormed) (gone : List Nat) : (s.removeTags gone).SlotsFormed :=
  State.SlotsFormed.removeReplies (s := gone.foldl (fun s t => s.setTag t none) s) (h.foldl gone fun _ _ hm => hm) _

theorem State.SlotsFormed.noteReset {s : State} (h : s.SlotsFormed) (x erased closed removed : Nat) :
    (s.noteReset x erased closed removed).SlotsFormed := h

theorem State.SlotsFormed.applyPartReset {s : State} (h : s.SlotsFormed) (x : Nat) : (s.applyPartReset x).SlotsFormed := by
  have hreset := h.modLane x Lane.applyReset
  unfold State.applyPartReset State.makeLaneReady
  exact (((hreset.releaseSlots _).modLane x _).removeTags _).noteReset x _ _ _

theorem State.SlotsFormed.applyDueReset {s : State} (h : s.SlotsFormed) (x : Nat) : (s.applyDueReset x).SlotsFormed := by
  unfold State.applyDueReset
  split_ifs
  · exact h.applyPartReset x
  · exact h.applyLaneReset x
  · exact h

theorem State.SlotsFormed.finishPartReset {s : State} (h : s.SlotsFormed) (p : PartReset) : (s.finishPartReset p).SlotsFormed := by
  unfold State.finishPartReset
  -- The replies are removed last; the ring, the part state and the progress are no part of the slots.
  refine State.SlotsFormed.finish (fun i => ?_) _ _ _ _
  exact (h.removeTags _).removeReplies (fun _ => true) i

theorem State.SlotsFormed.completeReset {s : State} (h : s.SlotsFormed) : s.completeReset.SlotsFormed := by
  unfold State.completeReset
  split
  · split
    · exact h.finishPartReset _
    · exact h
  · exact h

/-! ### The end of a happening -/

theorem State.SlotsFormed.settleLane {s : State} (h : s.SlotsFormed) (x : Nat) : (s.settleLane x).SlotsFormed :=
  (h.applyDueReset x).completeReset.scheduleFuel _ x

theorem State.SlotsFormed.poolCheck {s : State} (h : s.SlotsFormed) (n : Nat) : (s.poolCheck n).SlotsFormed := by
  obtain ⟨-, -, hslots, -, -⟩ := s.poolCheck_frame n
  exact h.of_slots_eq hslots

theorem State.SlotsFormed.arbitrate {s : State} (h : s.SlotsFormed) : s.arbitrate.SlotsFormed := by
  obtain ⟨-, hpool, -⟩ := s.arbitrate_frame
  exact h.of_slots_eq (by rw [hpool])

theorem State.SlotsFormed.conclude {m : State} (h : m.SlotsFormed) (s : State) (xs : List Nat) : (s.conclude xs m).SlotsFormed :=
  ((h.foldl xs fun _ x hm => hm.settleLane x).poolCheck _).arbitrate

end Sys2Proof.Machine
end

