-- ==== Sys2Proof/Proofs/SlotsStayFormed.lean ====
section
/-! PROOFS. Every command keeps the form of every slot (R45): one lemma for each command over the operations' lemmas, and the statement
assembled from them. -/

namespace Sys2Proof.Machine

/-! ### Answers of commands -/

/-- Every next state the command answers has its slots formed. -/
def AnswersFormed (r : Result) : Prop := ∀ t, r = .next t → t.SlotsFormed

theorem AnswersFormed.next {s : State} (h : s.SlotsFormed) : AnswersFormed (.next s) := fun t ht => by
  cases ht; exact h

theorem AnswersFormed.refusal (why : Refusal) : AnswersFormed (.refused why) := fun _ ht => by cases ht

theorem AnswersFormed.happen {m : State} (h : m.SlotsFormed) (s : State) (xs : List Nat) : AnswersFormed (happen s xs m) :=
  .next (h.conclude s xs)

theorem AnswersFormed.unlessReset {s : State} {r : Result} (h : AnswersFormed r) : AnswersFormed (unlessReset s r) := fun t ht =>
  h t (unlessReset_next ht).2

theorem AnswersFormed.refused {s : State} (h : s.SlotsFormed) (f : InFrame) (st : Status) (fields : ReplyFields) :
    AnswersFormed (refused s f st fields) := .happen (m := s.refuse f st fields) h s []

theorem AnswersFormed.dispatch {s : State} (h : s.SlotsFormed) (f : InFrame) (check : Option Status) {r : Result}
    (hr : AnswersFormed r) : AnswersFormed (dispatch s f check r) := by
  cases check with
  | some st => exact .refused h f st _
  | none => exact hr

theorem AnswersFormed.takeOldest {s : State} (h : s.SlotsFormed) {p : InFrame → Bool} {k : State → InFrame → Result}
    (hk : ∀ m f, m.SlotsFormed → AnswersFormed (k m f)) : AnswersFormed (takeOldest s p k) := fun t ht => by
  obtain ⟨-, f, -, -, -, ⟨-, rfl⟩ | ⟨-, hnext⟩⟩ := takeOldest_next ht
  · exact h
  · exact hk s.unbuffer f h t hnext

theorem AnswersFormed.takeRequest {s : State} (h : s.SlotsFormed) {kind : ReqKind} {k : State → InFrame → Request → Result}
    (hk : ∀ m f r, m.SlotsFormed → AnswersFormed (k m f r)) : AnswersFormed (takeRequest s kind k) := fun t ht => by
  obtain ⟨-, f, -, -, rfl | ⟨-, st, fields, hnext⟩ | ⟨r, -, hnext⟩⟩ := takeRequest_next ht
  · exact h
  · exact AnswersFormed.refused (s := s.unbuffer) h f st fields t hnext
  · exact hk s.unbuffer f r h t hnext

theorem State.SlotsFormed.answer {s : State} (h : s.SlotsFormed) (t : Nat) (e : TagEntry) (st : Status) (fields : ReplyFields)
    (src : Option Source) : (s.answer t e st fields src).SlotsFormed := h

/-! ### Line events, departures, pins -/

theorem State.SlotsFormed.modLink {s : State} (h : s.SlotsFormed) (f : Link → Link) : (s.modLink f).SlotsFormed := h

theorem execBadFrame_formed {s : State} (h : s.SlotsFormed) (ending : FrameEnding) (bytes : List Byte) :
    AnswersFormed (execBadFrame ending bytes s) := by
  unfold execBadFrame
  split
  · exact .next h
  · split
    · exact .happen (h.modLink _) s _
    · exact .happen (h.modLink _) s _
    · exact .refusal _

theorem execSequencedFrame_formed {s : State} (h : s.SlotsFormed) (bytes : List Byte) :
    AnswersFormed (execSequencedFrame bytes s) := by
  unfold execSequencedFrame
  split
  · exact .next h
  · split
    · exact .happen (h.modLink _) s _
    · exact .refusal _

theorem execSync_formed {s : State} (h : s.SlotsFormed) (bytes : List Byte) : AnswersFormed (execSync bytes s) := by
  unfold execSync
  split
  · exact .next h
  · split
    · exact .happen (h.modLink _) s _
    · exact .refusal _

theorem execAckTimerExpiry_formed {s : State} (h : s.SlotsFormed) : AnswersFormed (execAckTimerExpiry s) := by
  refine .unlessReset ?_
  split
  · exact .happen (h.modLink _) s _
  · exact .refusal _

theorem State.SlotsFormed.keepCopy {s : State} (h : s.SlotsFormed) (r : Reply) : (s.keepCopy r).SlotsFormed := by
  unfold State.keepCopy
  split <;> exact h

theorem State.SlotsFormed.replyLeft {s : State} (h : s.SlotsFormed) (q : QueueEntry) : (s.replyLeft q).SlotsFormed := by
  unfold State.replyLeft
  split
  · exact h.modTag q.reply.tag _
  · exact State.SlotsFormed.keepCopy (s := s.popReply) h _
  · have hcopy := (h.setTag q.reply.tag none).keepCopy q.reply
    unfold State.finalLeft
    dsimp only
    split
    · exact hcopy
    · exact State.SlotsFormed.releaseSource (s := State.popReply _) hcopy _

theorem execRspDeparture_formed {s : State} (h : s.SlotsFormed) : AnswersFormed (execRspDeparture s) := by
  have hidle : s.idle.SlotsFormed := h
  refine .unlessReset ?_
  split
  · exact .happen hidle s _
  · exact .happen (hidle.replyLeft _) s _
  · exact .refusal _

theorem execDataFrameDeparture_formed {s : State} (h : s.SlotsFormed) : AnswersFormed (execDataFrameDeparture s) := by
  have hidle : s.idle.SlotsFormed := h
  refine .unlessReset ?_
  split
  · exact .happen hidle s _
  · split
    · exact .happen hidle s _
    · refine .happen (State.SlotsFormed.releaseSource ?_ _) s _
      exact hidle
  · exact .refusal _

theorem State.SlotsFormed.noteLeft {s : State} (h : s.SlotsFormed) (n : Notice) : (s.noteLeft n).SlotsFormed := by
  unfold State.noteLeft
  split <;> exact h

theorem execNoteDeparture_formed {s : State} (h : s.SlotsFormed) : AnswersFormed (execNoteDeparture s) := by
  have hidle : s.idle.SlotsFormed := h
  refine .unlessReset ?_
  split
  · exact .happen (hidle.noteLeft _) s _
  · exact .refusal _

theorem execLinkControlDeparture_formed {s : State} (h : s.SlotsFormed) : AnswersFormed (execLinkControlDeparture s) := by
  have hidle : s.idle.SlotsFormed := h
  refine .unlessReset ?_
  split
  · split
    · exact .happen hidle s _
    · exact .refusal _
  · exact .refusal _

theorem execWpChanged_formed {s : State} (h : s.SlotsFormed) : AnswersFormed (execWpChanged s) := by
  unfold execWpChanged
  split
  · exact .next h
  · exact .happen (m := s.toggleWp.raiseWpChanged) h s _

theorem execRstAsserted_formed (s : State) : AnswersFormed (execRstAsserted s) := .next (State.slotsFormed_powerOn _ _ _ _ _)

theorem execRstReleased_formed (s : State) : AnswersFormed (execRstReleased s) := by
  unfold execRstReleased
  split
  · exact .next (State.slotsFormed_powerOn _ _ _ _ _)
  · exact .refusal _

/-! ### Requests the request unit answers -/

theorem execMalformedFrameTaken_formed {s : State} (h : s.SlotsFormed) : AnswersFormed (execMalformedFrameTaken s) :=
  .takeOldest h fun _ f hm => .refused hm f _ _

theorem execIdentify_formed {s : State} (h : s.SlotsFormed) : AnswersFormed (execIdentify s) :=
  .takeRequest h fun m _ _ hm => .happen (hm.answer _ _ _ _ _) m _

theorem State.SlotsFormed.configure {s : State} (h : s.SlotsFormed) (new : Settings) : (s.configure new).SlotsFormed := by
  unfold State.configure
  dsimp only
  split
  · exact h
  · unfold State.testPoolLow
    split <;> exact h

theorem execConfigure_formed {s : State} (h : s.SlotsFormed) : AnswersFormed (execConfigure s) := by
  refine .takeRequest h fun m f r hm => ?_
  split
  · split
    · exact .refused hm f _ _
    · exact .happen ((hm.configure _).answer _ _ _ _ _) m _
  · exact .refusal _

theorem execReadSettings_formed {s : State} (h : s.SlotsFormed) : AnswersFormed (execReadSettings s) :=
  .takeRequest h fun m _ _ hm => .happen (hm.answer _ _ _ _ _) m _

theorem execBlockStatus_formed {s : State} (h : s.SlotsFormed) : AnswersFormed (execBlockStatus s) := by
  refine .takeRequest h fun m f r hm => ?_
  split
  · exact .dispatch hm f _ (.happen (hm.answer _ _ _ _ _) m _)
  · exact .refusal _

theorem execPoolStatus_formed {s : State} (h : s.SlotsFormed) : AnswersFormed (execPoolStatus s) :=
  .takeRequest h fun m _ _ hm => .happen (hm.answer _ _ _ _ _) m _

theorem execTagStatus_formed {s : State} (h : s.SlotsFormed) : AnswersFormed (execTagStatus s) := by
  refine .takeRequest h fun m f r hm => ?_
  split
  · split
    · exact .happen (hm.answer _ _ _ _ _) m _
    · split
      · exact .happen (hm.answer _ _ _ _ _) m _
      · exact .refused hm f _ _
  · exact .refusal _

theorem State.SlotsFormed.withdrawQueued {s : State} (h : s.SlotsFormed) (t : Nat) (e : TagEntry) :
    (s.withdrawQueued t e).SlotsFormed := by
  have hgone := h.modLane (e.lane.getD 0) (fun l => { l with workQueue := l.workQueue.filter (fun w => decide (w.tag ≠ t)) })
  unfold State.withdrawQueued
  dsimp only
  split
  · exact (hgone.modRecord _ _ _).finish _ _ _ _
  · exact hgone.finish _ _ _ _

theorem State.SlotsFormed.withdraw {s : State} (h : s.SlotsFormed) (t : Nat) (e : TagEntry) : (s.withdraw t e).SlotsFormed := by
  unfold State.withdraw
  split
  · exact h.abandon _ _ _ _
  · exact h.withdrawQueued t e

theorem execAbort_formed {s : State} (h : s.SlotsFormed) : AnswersFormed (execAbort s) := by
  refine .takeRequest h fun m f r hm => ?_
  split
  · split
    · exact .refused hm f _ _
    · split
      · exact .happen ((hm.withdraw _ _).answer _ _ _ _ _) m _
      · exact .refused hm f _ _
  · exact .refusal _

/-! ### WRITE and its page -/

theorem State.SlotsFormed.grantDense {s s1 : State} {x b p i : Nat} (h : s.SlotsFormed) (hg : s.grantDense x b p = some (s1, i)) :
    s1.SlotsFormed := by
  unfold State.grantDense at hg
  split at hg
  · split at hg
    · split at hg
      · cases hg; exact h
      · split at hg
        · cases hg; exact h.releaseSlot _
        · cases hg
    · cases hg
  · dsimp only at hg
    split at hg
    · obtain ⟨j, -, hj⟩ := Option.map_eq_some_iff.mp hg
      cases hj
      exact h.reserveFor _ _ _
    · cases hg

theorem State.SlotsFormed.grant {s s1 : State} {x b p i : Nat} {d : Density} (h : s.SlotsFormed)
    (hg : s.grant x b p d = some (s1, i)) : s1.SlotsFormed := by
  cases d with
  | dense => exact h.grantDense hg
  | swift =>
    unfold State.grant State.grantSwift at hg
    dsimp only at hg
    split at hg <;> cases hg
    exact h

theorem State.SlotsFormed.takeIn {s : State} (h : s.SlotsFormed) (t x b p i : Nat) (d : Density) (check : Word32)
    (area : List Byte) : (s.takeIn t x b p i d check area).SlotsFormed := by
  have hfill := (h.modRecord x b (fun r => r.takeIn d)).modSlot (i := i)
    (Slot.wf_fill { lane := x, block := b, page := p } t s.rqu.settings.transferTimeout area _)
  exact (hfill.setTag t _).testBlock x b

theorem execWrite_formed {s : State} (h : s.SlotsFormed) : AnswersFormed (execWrite s) := by
  refine .takeRequest h fun m f r hm => ?_
  split
  · split
    · exact .refused hm f _ _
    · split
      · rename_i hg
        exact .happen ((hm.grant hg).takeIn _ _ _ _ _ _ _ _) m _
      · exact .refused hm f _ _
  · exact .refusal _

/-- A transfer names a FILLING slot. -/
theorem State.transferOf_filling {s : State} {t i : Nat} {o : Owner} {check : Option Word32}
    (h : s.transferOf t = some (i, o, check)) : (s.slot i).state = .filling := by
  unfold State.transferOf at h
  split at h
  · split_ifs at h
    split at h
    · split_ifs at h with hf
      obtain ⟨o', -, ho⟩ := Option.map_eq_some_iff.mp h
      cases ho
      exact hf
    · cases h
  · cases h

/-- The eighth chunk makes a FILLING slot complete (R68, R69). -/
theorem State.SlotsFormed.stagePage {s : State} (h : s.SlotsFormed) {i : Nat} (hs : (s.slot i).state = .filling)
    (hc : (s.slot i).chunks = 8) (t : Nat) (o : Owner) : (s.stagePage t i o).SlotsFormed :=
  (((h.modSlot (Slot.wf_stage (h i) hs hc)).modTag t _).queueStaged t).testBlock _ _

theorem State.SlotsFormed.takeChunk {s : State} (h : s.SlotsFormed) {i : Nat} (hs : (s.slot i).state = .filling) (t : Nat)
    (o : Owner) (check : Option Word32) (c : Nat) (bytes : List Byte) : (s.takeChunk t i o check c bytes).SlotsFormed := by
  unfold State.takeChunk
  split
  · exact h.abandon _ _ _ _
  · rename_i hc
    obtain ⟨rfl, hc⟩ : c = (s.slot i).chunks ∧ c ≤ 7 := by omega
    have hslot : (s.modSlot i (Slot.takeChunk bytes)).slot i = (s.slot i).takeChunk bytes :=
      State.slot_modSlot_same s _ (s.slot_lt (by simp [hs]))
    have htaken := h.modSlot (Slot.wf_takeChunk (h i) hs hc bytes)
    dsimp only
    split
    · exact htaken
    · split
      · exact htaken.stagePage (by rw [hslot]; exact hs) (by rw [hslot, Slot.takeChunk]; dsimp only; omega) t o
      · exact htaken.abandon _ _ _ _

theorem execData_formed {s : State} (h : s.SlotsFormed) : AnswersFormed (execData s) := by
  refine .takeOldest h fun m f hm => ?_
  split
  · rename_i ht
    exact .happen (hm.takeChunk (State.transferOf_filling ht) _ _ _ _ _) m _
  · exact .refused hm f _ _

theorem execTransferTimeout_formed {s : State} (h : s.SlotsFormed) (i : Nat) : AnswersFormed (execTransferTimeout i s) := by
  refine .unlessReset ?_
  split
  · split
    · exact .happen (h.abandon _ _ _ _) s _
    · exact .refusal _
  · exact .refusal _

/-! ### READ, ERASE, CLOSE -/

theorem State.SlotsFormed.enqueue {s : State} (h : s.SlotsFormed) (t x b : Nat) (e : TagEntry) (k : WorkKind) :
    (s.enqueue t x b e k).SlotsFormed := h

theorem execRead_formed {s : State} (h : s.SlotsFormed) : AnswersFormed (execRead s) := by
  refine .takeRequest h fun m f r hm => ?_
  split
  · refine .dispatch hm f _ ?_
    split
    · rename_i hheld
      exact .happen ((hm.pin hheld).answer _ _ _ _ _) m _
    · exact .dispatch hm f _ (.happen (hm.enqueue _ _ _ _ _) m _)
  · exact .refusal _

theorem execErase_formed {s : State} (h : s.SlotsFormed) : AnswersFormed (execErase s) := by
  refine .takeRequest h fun m f r hm => ?_
  split
  · exact .dispatch hm f _ (.happen ((hm.enqueue _ _ _ _ _).modRecord _ _ _) m _)
  · exact .refusal _

theorem State.owner_isSome_of_mem_ownedSlots {s : State} {x b i : Nat} (h : i ∈ s.ownedSlots x b) :
    (s.slot i).owner.isSome = true := Slot.owner_isSome_of_ownedBy ((s.mem_ownedSlots x b i).mp h)

theorem State.SlotsFormed.closeDense {s : State} (h : s.SlotsFormed) (x b : Nat) : (s.closeDense x b).SlotsFormed := by
  have hpad : (s.modSlots (s.reservedIn x b (lastStrip (s.record x b).intakeNext)) Slot.padFill).SlotsFormed :=
    h.modSlots ((s.ownedSlots_nodup x b).filter _) fun i hi =>
      Slot.wf_padFill (State.owner_isSome_of_mem_ownedSlots (List.mem_of_mem_filter hi))
  exact ((hpad.releaseSlots _).modRecord x b _).testBlock x b

theorem State.SlotsFormed.closeBlock {s : State} (h : s.SlotsFormed) (x b : Nat) : (s.closeBlock x b).SlotsFormed := by
  unfold State.closeBlock
  dsimp only
  split_ifs
  · exact ((h.modRecord x b _).endClose x b _).testBlock x b
  · exact (h.modRecord x b _).testBlock x b
  · exact h.closeDense x b

theorem execClose_formed {s : State} (h : s.SlotsFormed) : AnswersFormed (execClose s) := by
  refine .takeRequest h fun m f r hm => ?_
  split
  · exact .dispatch hm f _ (.happen ((hm.setTag _ _).closeBlock _ _) m _)
  · exact .refusal _

/-! ### RELOCATE and DISCARD -/

theorem State.SlotsFormed.relocate {s : State} (h : s.SlotsFormed) (x a b : Nat) : (s.relocate x a b).SlotsFormed := by
  have hmoved : (s.modSlots (s.heldSlots x a) (Slot.relocate x b (s.record x a).firstHeld)).SlotsFormed :=
    h.modSlots ((s.ownedSlots_nodup x a).filter _) fun i hi =>
      Slot.wf_relocate (h i) (by simpa using (List.mem_filter.mp hi).2) _ _ _
  unfold State.relocate
  refine State.SlotsFormed.testBlock (State.SlotsFormed.foldl ?_ _ fun _ t hm => hm.modTag t _) x b
  exact (((hmoved.releaseSlots _).reserveFor _ _ _).modRecord x a _).modRecord x b _

theorem execRelocate_formed {s : State} (h : s.SlotsFormed) : AnswersFormed (execRelocate s) := by
  refine .takeRequest h fun m f r hm => ?_
  split
  · exact .dispatch hm f _ (.happen ((hm.relocate _ _ _).answer _ _ _ _ _) m _)
  · exact .refusal _

theorem State.SlotsFormed.discard {s : State} (h : s.SlotsFormed) (x b : Nat) : (s.discard x b).SlotsFormed :=
  ((h.releaseSlots _).modRecord x b _).foldl _ fun _ t hm => hm.endWrite t _

theorem execDiscard_formed {s : State} (h : s.SlotsFormed) : AnswersFormed (execDiscard s) := by
  refine .takeRequest h fun m f r hm => ?_
  split
  · exact .dispatch hm f _ (.happen ((hm.discard _ _).answer _ _ _ _ _) m _)
  · exact .refusal _

/-! ### Resets -/

theorem execLaneReset_formed {s : State} (h : s.SlotsFormed) : AnswersFormed (execLaneReset s) := by
  refine .takeRequest h fun m f r hm => ?_
  split
  · exact .dispatch hm f _ (.happen ((hm.setTag _ _).modLane _ _) m _)
  · exact .refusal _

theorem execPartReset_formed {s : State} (h : s.SlotsFormed) : AnswersFormed (execPartReset s) :=
  .takeRequest h fun m f _ hm => .happen (m := m.beginPartReset f.tag) hm m _

/-! ### Ends of passes -/

theorem State.SlotsFormed.roughPassed {s : State} (h : s.SlotsFormed) (x b n : Nat) : (s.roughPassed x b n).SlotsFormed :=
  (h.modRecord x b _).modSlots (s.stripSlots_nodup x b n) fun i _ => Slot.wf_rough (h i)

theorem State.SlotsFormed.finalize {s : State} (h : s.SlotsFormed) (is : List Nat) : (s.finalize is).SlotsFormed :=
  (h.releaseSlots is).onlyReplies (State.endDurables_frame _ _)

theorem State.SlotsFormed.finalPassed {s : State} (h : s.SlotsFormed) (x b n : Nat) : (s.finalPassed x b n).SlotsFormed := by
  have hfinal := (h.modRecord x b (fun r => { r with finalDone := n + 1 })).finalize (s.stripSlots x b n)
  unfold State.finalPassed
  dsimp only
  split_ifs
  · exact hfinal.modRecord x b _
  · exact (hfinal.modRecord x b _).endClose x b _
  · exact hfinal

theorem State.SlotsFormed.singlePassed {s : State} (h : s.SlotsFormed) (x b n : Nat) : (s.singlePassed x b n).SlotsFormed := by
  have hfinal := (h.modRecord x b (fun r => { r with finalDone := n + 1 })).finalize (s.slotOf x b n).toList
  unfold State.singlePassed
  dsimp only
  split_ifs
  · exact hfinal.modRecord x b _
  · exact (hfinal.modRecord x b _).endClose x b _
  · exact hfinal

theorem State.SlotsFormed.holdTags {s : State} (h : s.SlotsFormed) (x b : Nat) : (s.holdTags x b).SlotsFormed := h

theorem State.SlotsFormed.passFailed {s : State} (h : s.SlotsFormed) (x b : Nat) : (s.passFailed x b).SlotsFormed := by
  unfold State.passFailed
  simp only [decide_eq_true_eq]
  split
  · exact (((h.releaseSlots _).modRecord x b _).holdTags x b).endClose x b _
  · exact (h.modRecord x b _).holdTags x b

theorem endPass_formed {s : State} (h : s.SlotsFormed) (kind : PassKind) {passed : State → Nat → Nat → Nat → State} (x : Nat)
    (ending : Ending) (hpassed : ∀ (m : State) (b n : Nat), m.SlotsFormed → (passed m x b n).SlotsFormed) :
    AnswersFormed (endPass kind passed x ending s) := by
  refine .unlessReset ?_
  split
  · split
    · have hended (op : Operation) (e : Ending) : (s.passEnded x op e).SlotsFormed := h.modLane x _
      refine .happen (State.SlotsFormed.testBlock ?_ _ _) s _
      split
      · exact hpassed _ _ _ (hended _ _)
      · exact (hended _ _).passFailed x _
    · exact .refusal _
  · exact .refusal _

/-! ### Ends of the other operations -/

theorem execSenseEnd_formed {s : State} (h : s.SlotsFormed) (x : Nat) (noise : List BitError) :
    AnswersFormed (execSenseEnd x noise s) := by
  refine .unlessReset ?_
  split
  · split
    · exact .happen (h.modLane x _) s _
    · exact .refusal _
  · exact .refusal _

theorem execDecodeEnd_formed {s : State} (h : s.SlotsFormed) (x : Nat) (found : List Codeword) :
    AnswersFormed (execDecodeEnd x found s) := by
  refine .unlessReset ?_
  split
  · split
    · dsimp only
      split
      · exact .happen (h.modLane x _) s _
      · exact .happen ((h.modLane x _).finish _ _ _ _) s _
    · exact .refusal _
  · exact .refusal _

theorem execInPlaceEraseEnd_formed {s : State} (h : s.SlotsFormed) (x : Nat) (ending : Ending) :
    AnswersFormed (execInPlaceEraseEnd x ending s) := by
  refine .unlessReset ?_
  split
  · dsimp only
    split
    · exact .happen ((((h.modLane x _).modLane x _).finish _ _ _ _).testBlock x _) s _
    · split
      · exact .happen ((h.modLane x _).modLane x _) s _
      · exact .happen ((((h.modLane x _).modLane x _).finish _ _ _ _).testBlock x _) s _
  · exact .refusal _

theorem execReserveEraseEnd_formed {s : State} (h : s.SlotsFormed) (x : Nat) (ending : Ending) :
    AnswersFormed (execReserveEraseEnd x ending s) := by
  refine .unlessReset ?_
  split
  · exact .happen ((h.modLane x _).modLane x _) s _
  · exact .refusal _

theorem State.SlotsFormed.directoryWritten {s : State} (h : s.SlotsFormed) (x t b : Nat) (c : EraseCourse) (erased : Ending)
    (d : Directory) (w : Ending) : (s.directoryWritten x t b c erased d w).SlotsFormed := by
  unfold State.directoryWritten
  split <;> exact (h.modLane x _).finish _ _ _ _

theorem execDirectoryWriteEnd_formed {s : State} (h : s.SlotsFormed) (x : Nat) (ending : Ending) :
    AnswersFormed (execDirectoryWriteEnd x ending s) := by
  refine .unlessReset ?_
  split
  · exact .happen (((h.modLane x _).directoryWritten _ _ _ _ _ _ _).testBlock _ _) s _
  · exact .refusal _

theorem State.SlotsFormed.endScan {s : State} (h : s.SlotsFormed) : s.endScan.SlotsFormed := by
  unfold State.endScan
  split <;> exact h

theorem execDirectoryReadEnd_formed {s : State} (h : s.SlotsFormed) (r : DirectoryRead) :
    AnswersFormed (execDirectoryReadEnd r s) := by
  refine .unlessReset ?_
  split
  · exact .happen (h.modLane r.lane _).endScan s _
  · exact .refusal _

theorem execSurveyEnd_formed {s : State} (h : s.SlotsFormed) (x : Nat) : AnswersFormed (execSurveyEnd x s) := by
  refine .unlessReset ?_
  split
  · exact .happen (h.modLane x _).endScan s _
  · exact .refusal _

/-! ### The statement -/

theorem exec_formed {s : State} (h : s.SlotsFormed) (c : Instr) : AnswersFormed (exec c s) := by
  cases c with
  | badFrame ending bytes => exact execBadFrame_formed h ending bytes
  | sequencedFrame bytes => exact execSequencedFrame_formed h bytes
  | sync bytes => exact execSync_formed h bytes
  | ackTimerExpiry => exact execAckTimerExpiry_formed h
  | malformedFrameTaken => exact execMalformedFrameTaken_formed h
  | identify => exact execIdentify_formed h
  | configure => exact execConfigure_formed h
  | readSettings => exact execReadSettings_formed h
  | blockStatus => exact execBlockStatus_formed h
  | poolStatus => exact execPoolStatus_formed h
  | tagStatus => exact execTagStatus_formed h
  | abort => exact execAbort_formed h
  | relocate => exact execRelocate_formed h
  | discard => exact execDiscard_formed h
  | read => exact execRead_formed h
  | erase => exact execErase_formed h
  | write => exact execWrite_formed h
  | close => exact execClose_formed h
  | laneReset => exact execLaneReset_formed h
  | partReset => exact execPartReset_formed h
  | data => exact execData_formed h
  | transferTimeout slot => exact execTransferTimeout_formed h slot
  | dataRoughEnd x ending => exact endPass_formed h .rough x ending fun _ b n hm => hm.roughPassed x b n
  | terminatorRoughEnd x ending => exact endPass_formed h .terminator x ending fun _ b _ hm => hm.modRecord x b _
  | finalEnd x ending => exact endPass_formed h .final x ending fun _ b n hm => hm.finalPassed x b n
  | singleEnd x ending => exact endPass_formed h .single x ending fun _ b n hm => hm.singlePassed x b n
  | senseEnd x noise => exact execSenseEnd_formed h x noise
  | decodeEnd x found => exact execDecodeEnd_formed h x found
  | inPlaceEraseEnd x ending => exact execInPlaceEraseEnd_formed h x ending
  | reserveEraseEnd x ending => exact execReserveEraseEnd_formed h x ending
  | directoryWriteEnd x ending => exact execDirectoryWriteEnd_formed h x ending
  | directoryReadEnd scan => exact execDirectoryReadEnd_formed h scan
  | surveyEnd x => exact execSurveyEnd_formed h x
  | rspDeparture => exact execRspDeparture_formed h
  | dataFrameDeparture => exact execDataFrameDeparture_formed h
  | noteDeparture => exact execNoteDeparture_formed h
  | linkControlDeparture => exact execLinkControlDeparture_formed h
  | wpChanged => exact execWpChanged_formed h
  | rstAsserted => exact execRstAsserted_formed s
  | rstReleased => exact execRstReleased_formed s

theorem step_formed {s : State} (h : s.SlotsFormed) : AnswersFormed (step s) := by
  unfold step
  split
  · exact .next h
  · rename_i c rest _
    exact exec_formed (s := { s with pending := rest }) h c

/-- Settles O4: each command changes slots by the operations above alone, and each of them keeps the row of R45. -/
theorem slotsStayFormed : Obligations.SlotsStayFormed :=
  ⟨fun _ t h hstep => step_formed h t hstep, State.slot_counts_add⟩

end Sys2Proof.Machine
end

