-- ==== Sys2Proof/Proofs/WriteAdmitsSwift.lean ====
section
/-! PROOFS. The admission of a SWIFT page (R25, R49): the slot granted is the head of the list of FREE slots, and it alone leaves FREE. -/

namespace Sys2Proof.Machine

/-! ### The list of FREE slots -/

/-- The lowest-numbered FREE slot leads the list of FREE slots. -/
theorem State.slotsIn_head {s : State} {st : SlotState} {i : Nat} (hi : i < 96) (hst : (s.slot i).state = st)
    (hlow : ∀ j, j < i → (s.slot j).state ≠ st) : ∃ rest, s.slotsIn st = i :: rest := by
  have hhead : (s.slotsIn st).head? = some i := by
    rw [State.slotsIn, slotNumbers, List.head?_filter, List.find?_range_eq_some]
    exact ⟨by simpa using hst, List.mem_range.mpr hi, fun j hj => by simpa using hlow j hj⟩
  exact List.head?_eq_some_iff.mp hhead

/-- A slot that leaves a state takes one from the state's count. -/
theorem State.length_slotsIn_leave {s m : State} {st : SlotState} {i : Nat} (hi : i < 96) (hst : (s.slot i).state = st)
    (hleft : (m.slot i).state ≠ st) (hother : ∀ j, j ≠ i → m.slot j = s.slot j) :
    (m.slotsIn st).length + 1 = (s.slotsIn st).length := by
  have hmem : i ∈ s.slotsIn st := (s.mem_slotsIn st i).mpr ⟨hi, hst⟩
  have herase : m.slotsIn st = (s.slotsIn st).erase i := by
    rw [(s.slotsIn_nodup st).erase_eq_filter, State.slotsIn, State.slotsIn, List.filter_filter]
    refine List.filter_congr fun j _ => ?_
    by_cases hj : j = i
    · subst hj; simp [hleft]
    · simp [hj, hother j hj]
  rw [herase, List.length_erase_of_mem hmem]
  have := List.length_pos_of_mem hmem
  omega

/-! ### The grant -/

theorem State.grantSwift_of_lowest {s : State} {i : Nat} (hi : i < 96) (hfree : (s.slot i).state = .free)
    (hlow : ∀ j, j < i → (s.slot j).state ≠ .free) : s.grantSwift = some (s, i) := by
  obtain ⟨rest, hlist⟩ := State.slotsIn_head hi hfree hlow
  simp [State.grantSwift, hlist]

theorem State.grantSwift_of_full {s : State} (h : ∀ i, i < 96 → (s.slot i).state ≠ .free) : s.grantSwift = none := by
  have hnil : s.slotsIn .free = [] := List.eq_nil_iff_forall_not_mem.mpr fun i hi => by
    obtain ⟨hlt, hfree⟩ := (s.mem_slotsIn .free i).mp hi
    exact h i hlt hfree
  simp [State.grantSwift, hnil]

/-- Settles O29: the grant is the head of the list of FREE slots, and only that slot leaves FREE. -/
theorem writeAdmitsSwift : Obligations.WriteAdmitsSwift := by
  intro s f x b p check area hadm hreach hp hfits
  have hcheck := State.writeCheck_fits (d := .swift) hreach hp hfits
  have hexec := execWrite_admits hadm
  rw [hcheck] at hexec
  obtain ⟨-, -, -, htag, -, -⟩ := hadm
  obtain ⟨hx, hb, -⟩ := hreach
  refine ⟨fun i hfree hlow hi => ?granted, fun hfull => ?refused⟩
  case granted =>
    have hgrant : s.grant x b p .swift = some (s, i) := State.grantSwift_of_lowest hi hfree hlow
    rw [hgrant] at hexec
    obtain ⟨m, hm⟩ : ∃ m, m = s.unbuffer.takeIn f.tag x b p i .swift check area := ⟨_, rfl⟩
    have hslot : m.slot i = (s.slot i).filledBy { lane := x, block := b, page := p } f.tag s.rqu.settings.transferTimeout area := by
      rw [hm, State.takeIn_slot, State.slot_modSlot_same _ _ hi]; rfl
    have hother : ∀ j, j ≠ i → m.slot j = s.slot j := fun j hj => by
      rw [hm, State.takeIn_slot, State.slot_modSlot_ne _ _ hj]
    refine ⟨m, hm ▸ hexec, ?_, hslot, hother, ?_⟩
    · rw [hm]
      exact State.takeIn_admits hx hb htag rfl rfl rfl rfl ⟨rfl, rfl, rfl⟩
    · exact State.length_slotsIn_leave hi hfree (by simp [hslot, Slot.filledBy]) hother
  case refused =>
    have hgrant : s.grant x b p .swift = none := State.grantSwift_of_full hfull
    rw [hgrant] at hexec
    exact hexec

end Sys2Proof.Machine
end

