-- ==== Sys2Proof/Proofs/QueueFullRefusals.lean ====
section
/-! PROOFS. The dispatch of READ and ERASE at a READY lane (R100, R101, R115): what an admitted request does once its address is good, and
what a full work queue (R83) makes of it. -/

namespace Sys2Proof.Machine

/-! ### The full work queue -/

theorem Lane.queueFull_iff (l : Lane) : l.queueFull = true ↔ 24 ≤ l.workQueue.length := decide_eq_true_iff

/-- A check that fails refuses the frame just taken (R145). -/
theorem dispatch_fails (s : State) (f : InFrame) (st : Status) (taken : Result) :
    dispatch s.unbuffer f (failsWith true st) taken = .next (s.conclude [] (s.refusedWith f st .plain)) := rfl

/-! ### Answers at dispatch -/

theorem State.answer_lanes (s : State) (t : Nat) (e : TagEntry) (st : Status) (fields : ReplyFields) (src : Option Source) :
    (s.answer t e st fields src).lanes = s.lanes := rfl

theorem State.answer_tag_same (s : State) {t : Nat} (e : TagEntry) (st : Status) (fields : ReplyFields) (src : Option Source)
    (ht : t < 64) : (s.answer t e st fields src).tag t = some { e with state := .replying } :=
  s.tag_setTag_same _ ht

/-! ### READ -/

theorem State.readCheck_reaches {s : State} {x b p : Nat} (h : s.Reaches x b) (hp : p ≤ 255) : s.readCheck x b p = none :=
  (if_neg (Nat.not_lt.mpr hp)).trans h.addressCheck

/-- A READ of a HELD page is answered from its slot, which gains a pin (R101): the work queue is not asked. -/
theorem execRead_held {s : State} {f : InFrame} {x b p i : Nat} (h : s.Admits f .read (.read x b p)) (hr : s.Reaches x b)
    (hp : p ≤ 255) (hc : s.classify x b p = .held i) :
    exec .read s
      = .next (s.conclude [x]
          ((s.unbuffer.modSlot i Slot.pin).answer f.tag (TagEntry.mk' .read .replying (some x) (some b) (some p)) .done
            (.read x b p (s.slotReadFields i)) (some (.slot i)))) := by
  have hcheck : s.unbuffer.readCheck x b p = none := State.readCheck_reaches (s := s.unbuffer) hr hp
  have hclass : s.unbuffer.classify x b p = .held i := hc
  show execRead s = _
  rw [execRead, takeRequest_admits _ h]
  dsimp only
  rw [hcheck, hclass]
  rfl

/-- A READ of any other class comes to the work queue, whose room is its last check (R83, R101). -/
theorem execRead_queued {s : State} {f : InFrame} {x b p : Nat} (h : s.Admits f .read (.read x b p)) (hr : s.Reaches x b)
    (hp : p ≤ 255) (hc : ∀ i, s.classify x b p ≠ .held i) :
    exec .read s
      = dispatch s.unbuffer f (failsWith (s.lane x).queueFull .queueFull)
          (happen s [x]
            (s.unbuffer.enqueue f.tag x b (TagEntry.mk' .read .queued (some x) (some b) (some p)) (.read p))) := by
  have hcheck : s.unbuffer.readCheck x b p = none := State.readCheck_reaches (s := s.unbuffer) hr hp
  have hclass : ∀ i, s.unbuffer.classify x b p ≠ .held i := hc
  show execRead s = _
  rw [execRead, takeRequest_admits _ h]
  dsimp only
  rw [hcheck]
  dsimp only [dispatch]
  split
  · exact absurd ‹_› (hclass _)
  · rfl

/-! ### ERASE -/

/-- An ERASE that its block and WP# allow is left with the check of the work queue's room (R83, R115). -/
theorem State.eraseCheck_reaches {s : State} {x b : Nat} (h : s.Reaches x b) (hw : s.wpAsserted = false)
    (he : (s.record x b).erasePending = false) (hc : (s.record x b).heldCount = 0) :
    s.eraseCheck x b = failsWith (s.lane x).queueFull .queueFull := by
  simp [State.eraseCheck, h.addressCheck, failsWith, hw, he, hc]

/-- An admitted ERASE: its checks, then its entry at the tail of the work queue with erase_pending set (R82, R115). -/
theorem execErase_admits {s : State} {f : InFrame} {x b : Nat} (h : s.Admits f .erase (.erase x b)) :
    exec .erase s
      = dispatch s.unbuffer f (s.eraseCheck x b)
          (happen s [x]
            ((s.unbuffer.enqueue f.tag x b (TagEntry.mk' .erase .queued (some x) (some b) none) .erase).modRecord x b
              (fun r => { r with erasePending := true }))) := by
  show execErase s = _
  rw [execErase, takeRequest_admits _ h]
  rfl

/-! ### The statement -/

/-- Settles O36: of a READ or ERASE that comes to the work queue, the queue's room is the one check left; a HELD page never comes to it. -/
theorem queueFullRefusals : Obligations.QueueFullRefusals := by
  refine ⟨fun s f x b p hadm hreach hp hlen => ⟨fun hclass => ?queued, fun i hheld => ?held⟩,
    fun s f x b hadm hreach hwp hpending hcount hlen => ?erase⟩
  case queued =>
    rw [execRead_queued hadm hreach hp hclass, (s.lane x).queueFull_iff.mpr hlen, dispatch_fails]
  case held =>
    have hexec := execRead_held hadm hreach hp hheld
    obtain ⟨-, -, -, htag, -, -⟩ := hadm
    exact ⟨_, hexec, State.answer_tag_same _ _ _ _ _ htag, State.answer_lanes _ _ _ _ _ _⟩
  case erase =>
    rw [execErase_admits hadm, State.eraseCheck_reaches hreach hwp hpending hcount, (s.lane x).queueFull_iff.mpr hlen, dispatch_fails]

end Sys2Proof.Machine
end

