-- ==== Sys2Proof/Proofs/FreeReserveList.lean ====
section
/-! PROOFS. The free-reserve list of the start-up scan (R184): the list the scan builds is the row of the lane's reserve blocks, which ascends,
with the blocks left out that fail a condition. Each condition is read off its test of the model. -/

namespace Sys2Proof.Machine

/-! ### The row of reserve blocks -/

/-- The reserve blocks of a lane in ascending block number (R184). -/
def reserveNumbers : List Nat := (List.range Config.reserveBlocks).map (fun i => Config.firstReserve + i)

theorem Lane.surveyedReserves_eq (l : Lane) : l.surveyedReserves = reserveNumbers.filter l.joinsReserves := rfl

theorem mem_reserveNumbers (p : Nat) : p ∈ reserveNumbers ↔ 1024 ≤ p ∧ p < 1056 := by
  simp only [reserveNumbers, Config.reserveBlocks, Config.firstReserve, List.mem_map, List.mem_range]
  constructor
  · rintro ⟨i, hi, rfl⟩
    omega
  · rintro ⟨hlow, hhigh⟩
    exact ⟨p - 1024, by omega, by omega⟩

theorem reserveNumbers_ascending : reserveNumbers.Pairwise (fun p q => p < q) :=
  List.pairwise_lt_range.map _ (fun _ _ h => Nat.add_lt_add_left h _)

/-! ### The conditions for joining the list -/

theorem SurveyRecord.usable_iff (r : SurveyRecord) :
    r.usable = true ↔ r = .blank ∨ ∃ d strips mark, r = .written d strips mark := by
  cases r <;> simp [SurveyRecord.usable]

theorem Lane.isTarget_eq_false_iff (l : Lane) (p : Nat) : l.isTarget p = false ↔ ∀ e ∈ l.substMap, e.2 ≠ some p := by
  simp only [Lane.isTarget, List.any_eq_false, decide_eq_true_eq, ne_eq]

theorem Lane.joinsReserves_iff (l : Lane) (p : Nat) :
    l.joinsReserves p = true
      ↔ (l.surveyOf p = .blank ∨ ∃ d strips mark, l.surveyOf p = .written d strips mark)
        ∧ (∀ e ∈ l.substMap, e.2 ≠ some p) ∧ p ∉ l.retiredReserves := by
  rw [Lane.joinsReserves, Bool.and_eq_true, Bool.and_eq_true, SurveyRecord.usable_iff, Bool.not_eq_true', Lane.isTarget_eq_false_iff,
    Bool.not_eq_true', ← Bool.not_eq_true, List.contains_iff_mem, and_assoc]

/-! ### The statement -/

/-- Settles O57: a filter of the row of reserve blocks holds those that meet the conditions and keeps the row's order. -/
theorem freeReserveList : Obligations.FreeReserveList := by
  refine fun l => ⟨fun p => ?member, ?ascending⟩
  case member =>
    rw [Lane.surveyedReserves_eq, List.mem_filter, mem_reserveNumbers, Lane.joinsReserves_iff, and_assoc]
  case ascending =>
    rw [Lane.surveyedReserves_eq]
    exact reserveNumbers_ascending.filter _

end Sys2Proof.Machine
end

