-- ==== Sys2Proof/Proofs/Changes.lean ====
section
/-! PROOFS. The changes that commands are made of: one relation with a constructor for each kind of change to a state, each with what it
rests on. Every operation of the model is a chain of such changes, and a form that each single change keeps is kept by every step. -/

namespace Sys2Proof.Machine

/-! ### What a change of a part of the state keeps -/

/-- A change of a lane that leaves an OFFLINE lane at rest and its work queue within its capacity. -/
def Lane.KeptBy (l m : Lane) : Prop :=
  (l.atRestOffline → m.atRestOffline) ∧ m.workQueue.length ≤ max l.workQueue.length Config.workQueueEntries

/-- A change of a live tag's entry that does not end it: its state stays one of its kind, and a held page stays held. -/
def TagEntry.KeptBy (e g : TagEntry) : Prop :=
  (TagState.legalFor e.kind e.state = true → TagState.legalFor g.kind g.state = true)
    ∧ (g.state = .replying ↔ e.state = .replying)
    ∧ (e.state = .staged ∨ e.state = .heldFailed → g.state = .staged ∨ g.state = .heldFailed)

/-- A change of the link that adds no frame and no reply, and leaves a reply held back behind its interim frame. -/
def Link.KeptBy (l m : Link) : Prop :=
  m.expected = l.expected ∧ m.intake.length ≤ l.intake.length ∧ m.queue.Sublist l.queue
    ∧ (∀ q, m.deferred = some q →
        l.deferred = some q ∧ (l.sendingInterim q.reply.tag = true → m.sendingInterim q.reply.tag = true))
    ∧ (l.syncedWhenDue → m.syncedWhenDue)

/-- Tag `t` is not live and its reserved place is empty. -/
def State.PlaceFree (s : State) (t : Nat) : Prop := s.tag t = none ∧ s.link.queue.any (QueueEntry.reservedFor t) = false

/-- One change of the state by command `c`. -/
inductive State.Change (c : Instr) (s : State) : State → Prop
  | lanes (v : Vector Lane 4) (h : ∀ x, (s.lane x).KeptBy (State.lane { s with lanes := v } x)) : s.Change c { s with lanes := v }
  | pool (p : Pool) : s.Change c { s with pool := p }
  | rqu (r : Rqu) (htags : r.tags = s.rqu.tags) (hring : r.ring = s.rqu.ring) (hset : r.settings = s.rqu.settings) :
      s.Change c { s with rqu := r }
  | ring (g : List Reply) (h : g.length ≤ Config.recallCopies) : s.Change c { s with rqu := { s.rqu with ring := g } }
  | tags (v : Vector (Option TagEntry) 64)
      (h : ∀ t g, State.tag { s with rqu := { s.rqu with tags := v } } t = some g → ∃ e, s.tag t = some e ∧ e.KeptBy g) :
      s.Change c { s with rqu := { s.rqu with tags := v } }
  | comeLive (t : Nat) (e : TagEntry) (hfree : s.PlaceFree t) (hlegal : TagState.legalFor e.kind e.state = true) :
      s.Change c (s.setTag t (some e))
  | link (l : Link) (h : s.link.KeptBy l) : s.Change c { s with link := l }
  | finish (t : Nat) (st : Status) (fields : ReplyFields) (src : Option Source) : s.Change c (s.finish t st fields src)
  | answer (t : Nat) (e : TagEntry) (st : Status) (fields : ReplyFields) (src : Option Source) (hfree : s.PlaceFree t) :
      s.Change c (s.answer t e st fields src)
  | stage (t : Nat) (e : TagEntry) (st : TagState) (ht : s.tag t = some e) (hkind : e.kind = .write) (hstate : e.state = .transfer)
      (hst : st = .staged ∨ st = .heldFailed) : s.Change c ((s.modTag t (fun e => { e with state := st })).queueStaged t)
  | refuse (f : InFrame) (st : Status) (fields : ReplyFields)
      (h : s.link.queue.countP QueueEntry.isRefusal < Config.sharedRefusals) : s.Change c (s.refuse f st fields)
  | interim (q : QueueEntry) (rest : List QueueEntry) (hq : s.link.queue = q :: rest) (hsend : s.link.sendingReply = true)
      (hcls : q.reply.cls = .interim) :
      s.Change c { s with link := { s.link with tx := none, queue := rest ++ s.link.deferred.toList, deferred := none } }
  | settings (new : Settings) (hc : c = .configure) (h : s.rqu.settings.inRange = true → new.inRange = true) :
      s.Change c { s with rqu := { s.rqu with settings := new } }
  | accept (f : LineFrame) (bytes : List Byte) (hc : c = .sequencedFrame bytes) (h : s.link.intake.length < Config.intakeBuffers) :
      s.Change c { s with link := s.link.accept f }
  | sync (e : Seq) (bytes : List Byte) (hc : c = .sync bytes) : s.Change c { s with link := s.link.takeSync e }
  | toggleWp (hc : c = .wpChanged) : s.Change c s.toggleWp
  | powerOn (arrays : Vector FlashArray 4) (engine : Option Operation) (inReset : Bool)
      (hc : c = .rstAsserted ∨ c = .rstReleased) :
      s.Change c (State.powerOn arrays engine s.wpAsserted inReset s.pending)

/-- A chain of changes by command `c`. -/
def State.Changes (c : Instr) : State → State → Prop := Relation.ReflTransGen (State.Change c)

variable {c : Instr} {s m : State}

theorem State.Changes.refl (c : Instr) (s : State) : s.Changes c s := Relation.ReflTransGen.refl

theorem State.Changes.step {n : State} (h : s.Changes c m) (hn : m.Change c n) : s.Changes c n := Relation.ReflTransGen.tail h hn

/-- A form that each change keeps is kept by a chain of changes. -/
theorem State.Changes.keep {P : State → Prop} (h : s.Changes c m) (hs : P s) (hP : ∀ s m, s.Change c m → P s → P m) : P m := by
  induction h with
  | refl => exact hs
  | tail _ hc ih => exact hP _ _ hc ih

theorem State.Changes.foldl {α : Type} {f : State → α → State} (h : s.Changes c m) (as : List α)
    (hf : ∀ n a, s.Changes c n → s.Changes c (f n a)) : s.Changes c (as.foldl f m) := by
  induction as generalizing m with
  | nil => exact h
  | cons a as ih => exact ih (hf m a h)

/-! ### Changes of a lane -/

theorem Lane.KeptBy.refl (l : Lane) : l.KeptBy l := ⟨id, le_max_left _ _⟩

/-- A change that keeps state, engine, sense buffer and work queue. -/
theorem Lane.KeptBy.of_rest {l m : Lane} (hs : m.state = l.state) (he : m.engine = l.engine) (hr : m.sense = l.sense)
    (hw : m.workQueue = l.workQueue) : l.KeptBy m :=
  ⟨fun h => by rwa [Lane.atRestOffline, hs, he, hr], by rw [hw]; exact le_max_left _ _⟩

/-- A change of a lane that is not at rest OFFLINE, and that adds nothing to its work queue. -/
theorem Lane.KeptBy.of_awake {l m : Lane} (h : ¬l.atRestOffline) (hw : m.workQueue.length ≤ l.workQueue.length) : l.KeptBy m :=
  ⟨fun hl => absurd hl h, hw.trans (le_max_left _ _)⟩

theorem State.Changes.modLane (h : s.Changes c m) (x : Nat) {f : Lane → Lane} (hf : (m.lane x).KeptBy (f (m.lane x))) :
    s.Changes c (m.modLane x f) := by
  refine h.step (.lanes _ fun y => ?_)
  change (m.lane y).KeptBy ((m.modLane x f).lane y)
  by_cases hx : x < 4
  · by_cases hy : y = x
    · subst hy; rwa [State.lane_modLane_same m f hx]
    · rw [State.lane_modLane_ne m f hy]; exact .refl _
  · rw [State.lane_modLane_out m f hx]; exact .refl _

theorem State.Changes.modRecord (h : s.Changes c m) (x b : Nat) (f : BlockRec → BlockRec) : s.Changes c (m.modRecord x b f) :=
  h.modLane x (.of_rest rfl rfl rfl rfl)

theorem State.Changes.testBlock (h : s.Changes c m) (x b : Nat) : s.Changes c (m.testBlock x b) := by
  rcases m.testBlock_cases x b with ⟨heq, -⟩ | ⟨-, -, -, p, -, heq⟩ | ⟨-, heq⟩
  · rwa [heq]
  · rw [heq]; exact h.modLane x (.of_rest rfl rfl rfl rfl)
  · rw [heq]; exact h.modLane x (.of_rest rfl rfl rfl rfl)

/-! ### Changes of slots -/

theorem State.Changes.modPool (h : s.Changes c m) (p : Pool) : s.Changes c { m with pool := p } := h.step (.pool p)

theorem State.Changes.modSlot (h : s.Changes c m) (i : Nat) (f : Slot → Slot) : s.Changes c (m.modSlot i f) := h.step (.pool _)

theorem State.Changes.modSlots (h : s.Changes c m) (is : List Nat) (f : Slot → Slot) : s.Changes c (m.modSlots is f) :=
  h.foldl is fun _ i hn => hn.modSlot i f

theorem State.Changes.arm (h : s.Changes c m) (b : Bool) : s.Changes c (m.arm b) := h.step (.pool _)

/-! ### Changes of tags -/

theorem TagEntry.KeptBy.refl (e : TagEntry) : e.KeptBy e := ⟨id, Iff.rfl, id⟩

/-- A change that keeps kind and state. -/
theorem TagEntry.KeptBy.of_state {e g : TagEntry} (hk : g.kind = e.kind) (hs : g.state = e.state) : e.KeptBy g := by
  simp [TagEntry.KeptBy, hk, hs]

theorem TagEntry.KeptBy.dropSlot (e : TagEntry) : e.KeptBy e.dropSlot := .of_state rfl rfl

theorem TagEntry.KeptBy.activate (e : TagEntry) : e.KeptBy e.activate := by
  unfold TagEntry.activate
  split
  · rename_i hq
    refine ⟨fun hl => ?_, by simp [hq], by simp [hq]⟩
    cases hk : e.kind <;> simp_all [TagState.legalFor]
  · exact .refl e

theorem TagEntry.KeptBy.holdFailed (x b : Nat) (e : TagEntry) : e.KeptBy (e.holdFailed x b) := by
  unfold TagEntry.holdFailed
  split
  · rename_i hw
    obtain ⟨hk, hs, -⟩ := hw
    exact ⟨fun _ => by simp [TagState.legalFor, hk], by simp [hs], fun _ => .inr rfl⟩
  · exact .refl e

theorem TagEntry.KeptBy.relocate (b first : Nat) (e : TagEntry) : e.KeptBy (e.relocate b first) := by
  unfold TagEntry.relocate
  by_cases hf : e.state = .heldFailed
  · refine ⟨fun hl => ?_, by simp [hf], by simp [hf]⟩
    cases hk : e.kind <;> simp_all [TagState.legalFor]
  · exact .of_state rfl (by simp [hf])

theorem State.Changes.modTag (h : s.Changes c m) (t : Nat) {f : TagEntry → TagEntry} (hf : ∀ e : TagEntry, e.KeptBy (f e)) :
    s.Changes c (m.modTag t f) := by
  rcases ht : m.tag t with _ | e
  · rwa [m.modTag_of_none f ht]
  · refine m.modTag_of_some f ht ▸ h.step (.tags _ fun u g hu => ?_)
    change (m.setTag t (some (f e))).tag u = some g at hu
    rw [← m.modTag_of_some f ht, State.tag_modTag] at hu
    split at hu
    · obtain ⟨e', he, rfl⟩ := Option.map_eq_some_iff.mp hu
      exact ⟨e', he, hf e'⟩
    · exact ⟨g, hu, .refl g⟩

theorem State.Changes.unlive (h : s.Changes c m) (t : Nat) : s.Changes c (m.setTag t none) := by
  refine h.step (.tags _ fun u g hu => ?_)
  change (m.setTag t none).tag u = some g at hu
  by_cases hut : u = t
  · subst hut
    by_cases hlt : u < 64
    · rw [m.tag_setTag_same _ hlt] at hu; cases hu
    · exact absurd (State.tag_lt _ hu) hlt
  · rw [m.tag_setTag_ne _ hut] at hu
    exact ⟨g, hu, .refl g⟩

theorem State.Changes.holdTags (h : s.Changes c m) (x b : Nat) : s.Changes c (m.holdTags x b) := by
  refine h.step (.tags _ fun t g ht => ?_)
  obtain ⟨e, he, rfl⟩ : ∃ e, m.tag t = some e ∧ e.holdFailed x b = g := by
    simpa [State.tag, Option.join_eq_some_iff] using ht
  exact ⟨e, he, .holdFailed x b e⟩

theorem State.Changes.comeLive (h : s.Changes c m) {t : Nat} {e : TagEntry} (hfree : m.PlaceFree t)
    (hlegal : TagState.legalFor e.kind e.state = true) : s.Changes c (m.setTag t (some e)) := h.step (.comeLive t e hfree hlegal)

theorem State.Changes.dropSlotOfTag (h : s.Changes c m) (t : Option Nat) : s.Changes c (m.dropSlotOfTag t) := by
  unfold State.dropSlotOfTag
  split
  · exact h.modTag _ .dropSlot
  · exact h

theorem State.Changes.releaseSlot (h : s.Changes c m) (i : Nat) : s.Changes c (m.releaseSlot i) :=
  (h.dropSlotOfTag _).modSlot i _

theorem State.Changes.releaseSlots (h : s.Changes c m) (is : List Nat) : s.Changes c (m.releaseSlots is) :=
  h.foldl is fun _ i hn => hn.releaseSlot i

theorem State.Changes.unfillSlot (h : s.Changes c m) (i : Nat) : s.Changes c (m.unfillSlot i) := (h.dropSlotOfTag _).modSlot i _

/-! ### Changes by replies -/

theorem State.Changes.finish (h : s.Changes c m) (t : Nat) (st : Status) (fields : ReplyFields) (src : Option Source) :
    s.Changes c (m.finish t st fields src) := h.step (.finish t st fields src)

theorem State.Changes.answer (h : s.Changes c m) {t : Nat} (hfree : m.PlaceFree t) (e : TagEntry) (st : Status)
    (fields : ReplyFields) (src : Option Source) : s.Changes c (m.answer t e st fields src) :=
  h.step (.answer t e st fields src hfree)

theorem State.Changes.endWrite (h : s.Changes c m) (t : Nat) (st : Status) : s.Changes c (m.endWrite t st) := by
  unfold State.endWrite
  split
  · exact h
  · exact (h.modTag t .dropSlot).finish _ _ _ _

theorem State.Changes.endDurable (h : s.Changes c m) (t : Nat) : s.Changes c (m.endDurable t) := by
  unfold State.endDurable
  split
  · exact h
  · exact (h.modTag t .dropSlot).finish _ _ _ _

theorem State.Changes.endClose (h : s.Changes c m) (x b : Nat) (st : Status) : s.Changes c (m.endClose x b st) := by
  unfold State.endClose
  split
  · exact h.finish _ _ _ _
  · exact h

theorem State.Changes.abandon (h : s.Changes c m) (x b p : Nat) (st : Status) : s.Changes c (m.abandon x b p st) := by
  unfold State.abandon
  refine State.Changes.foldl (State.Changes.foldl (h.modRecord x b _) _ fun n i hn => ?_) _ fun n e hn => hn.endWrite _ _
  unfold State.chainSlot
  split
  · exact hn.unfillSlot i
  · exact hn.releaseSlot i

/-! ### Data sources and removed replies -/

theorem State.Changes.releaseSource (h : s.Changes c m) (src : Option Source) : s.Changes c (m.releaseSource src) := by
  unfold State.releaseSource
  split
  · exact h.modSlot _ _
  · exact h.modLane _ (.of_rest rfl rfl rfl rfl)
  · exact h

theorem State.releaseSource_link (s : State) (src : Option Source) : (s.releaseSource src).link = s.link := by
  unfold State.releaseSource
  split <;> rfl

theorem State.releaseSources_link (s : State) (qs : List QueueEntry) :
    (qs.foldl (fun s q => s.releaseSource q.source) s).link = s.link := by
  induction qs generalizing s with
  | nil => rfl
  | cons q qs ih => rw [List.foldl_cons, ih, State.releaseSource_link]

theorem State.Changes.setLink (h : s.Changes c m) {l : Link} (hl : m.link.KeptBy l) : s.Changes c { m with link := l } :=
  h.step (.link l hl)

/-- Removing replies and, of a reply held back, no more than `d`: a chain of changes when what stays held back keeps its interim
reply. -/
theorem State.Changes.removeReplies (h : s.Changes c m) {p : QueueEntry → Bool} {d : Option QueueEntry}
    (hd : ∀ q, d = some q → m.link.deferred = some q ∧ ∀ r, r.interimOf q.reply.tag = true → p r = false) :
    s.Changes c { m.removeReplies p with link := { (m.removeReplies p).link with deferred := d } } := by
  have hrel : s.Changes c ((m.link.queue.filter p).foldl (fun s q => s.releaseSource q.source) m) :=
    h.foldl _ fun _ q hn => hn.releaseSource q.source
  refine hrel.setLink (l := { (m.removeReplies p).link with deferred := d }) ?_
  rw [State.releaseSources_link]
  unfold State.removeReplies
  simp only [State.releaseSources_link]
  refine ⟨rfl, le_rfl, List.filter_sublist, fun q hq => ⟨(hd q hq).1, fun hs => ?_⟩, id⟩
  unfold Link.sendingInterim at hs ⊢
  rcases hqueue : m.link.queue with _ | ⟨r, rest⟩
  · simp [hqueue] at hs
  · simp only [hqueue, Bool.and_eq_true] at hs
    have hr := (hd q hq).2 r hs.2
    simpa [hr, hs.2, Link.sendingReply] using hs.1

end Sys2Proof.Machine
end

