-- ==== Sys2Proof/Proofs/HappeningChanges.lean ====
section
/-! PROOFS. The end of every happening is a chain of changes: resets, scheduler choices, the pool's tests, the arbiter. -/

namespace Sys2Proof.Machine

variable {c : Instr} {s m : State}

/-! ### The lane scheduler -/

/-- A READY lane is not at rest OFFLINE. -/
theorem Lane.awake_of_ready {l : Lane} (h : l.state = .ready) : ¬l.atRestOffline := fun ho => by
  cases h.symm.trans ho.1

/-- A lane that a happening is running on is READY, whatever else of it changes. -/
theorem State.modLane_state (s : State) (x : Nat) {f : Lane → Lane} (hf : (f (s.lane x)).state = (s.lane x).state) :
    ((s.modLane x f).lane x).state = (s.lane x).state := by
  by_cases hx : x < 4
  · rw [State.lane_modLane_same s f hx, hf]
  · rw [State.lane_modLane_out s f hx]

theorem State.Changes.serveHeld (h : s.Changes c m) (t x b p i : Nat) : s.Changes c (m.serveHeld t x b p i) :=
  (h.modSlot i _).finish _ _ _ _

/-- A change of a lane that is not at rest OFFLINE, and that leaves its work queue. -/
theorem State.Changes.modAwake (h : s.Changes c m) {x : Nat} (hawake : ¬(m.lane x).atRestOffline) {f : Lane → Lane}
    (hf : (f (m.lane x)).workQueue = (m.lane x).workQueue) : s.Changes c (m.modLane x f) :=
  h.modLane x (.of_awake hawake (by rw [hf]))

/-- A READY lane starts a job. -/
theorem State.Changes.startJob (h : s.Changes c m) {x : Nat} (hready : (m.lane x).state = .ready) {f : Lane → Lane}
    (hf : (f (m.lane x)).workQueue = (m.lane x).workQueue) : s.Changes c (m.modLane x f) :=
  h.modAwake (Lane.awake_of_ready hready) hf

theorem State.Changes.startRead (h : s.Changes c m) {x : Nat} (hready : (m.lane x).state = .ready) (t b p : Nat) :
    s.Changes c (m.startRead x t b p) := by
  unfold State.startRead
  exact (h.modTag t .activate).startJob (by rwa [State.modTag_lane]) rfl

theorem State.Changes.popWork (h : s.Changes c m) (x : Nat) {f : Lane → Lane}
    (hf : ∀ l, (f l).state = l.state ∧ (f l).engine = l.engine ∧ (f l).sense = l.sense ∧ (f l).workQueue = l.workQueue.tail) :
    s.Changes c (m.modLane x f) := by
  obtain ⟨hstate, hengine, hsense, hwork⟩ := hf (m.lane x)
  refine h.modLane x ⟨fun ho => ?_, ?_⟩
  · rwa [Lane.atRestOffline, hstate, hengine, hsense]
  · rw [hwork, List.length_tail]; omega

theorem State.Changes.takeRead (h : s.Changes c m) {x : Nat} (hready : (m.lane x).state = .ready) (t b p : Nat) (cls : PageClass) :
    s.Changes c (m.takeRead x t b p cls) := by
  have hpop := h.popWork x (f := Lane.popRead) fun l => ⟨rfl, rfl, rfl, rfl⟩
  unfold State.takeRead State.serveEmpty
  cases cls with
  | finalized => exact hpop.startRead ((m.modLane_state x rfl).trans hready) t b p
  | held i => exact hpop.serveHeld t x b p i
  | erased => exact hpop.finish _ _ _ _
  | notWritten => exact hpop.finish _ _ _ _
  | pad => exact hpop.finish _ _ _ _

theorem State.Changes.startErase (h : s.Changes c m) {x : Nat} (hready : (m.lane x).state = .ready) (t b : Nat)
    (course : EraseCourse) : s.Changes c (m.startErase x t b course) := by
  unfold State.startErase
  exact (h.modTag t .activate).startJob (by rwa [State.modTag_lane]) rfl

theorem State.Changes.takeErase (h : s.Changes c m) {x : Nat} (hready : (m.lane x).state = .ready) (t b : Nat) :
    s.Changes c (m.takeErase x t b) := by
  have hpop := h.popWork x (f := fun l => { l with workQueue := l.workQueue.tail }) fun l => ⟨rfl, rfl, rfl, rfl⟩
  unfold State.takeErase
  dsimp only
  split
  · exact (hpop.modRecord x b _).finish _ _ _ _
  · split
    · exact hpop.startErase ((m.modLane_state x rfl).trans hready) t b _
    · exact (hpop.modRecord x b _).finish _ _ _ _

theorem State.Changes.startPass (h : s.Changes c m) {x : Nat} (hready : (m.lane x).state = .ready) (e : ReadyEntry) :
    s.Changes c (m.startPass x e) := by
  unfold State.startPass
  exact h.startJob hready rfl

theorem State.Changes.take (h : s.Changes c m) {x : Nat} (hready : (m.lane x).state = .ready) (ch : Choice) :
    s.Changes c (m.take x ch) := by
  cases ch with
  | read t b p cls => exact h.takeRead hready t b p cls
  | pass e => exact h.startPass hready e
  | erase t b => exact h.takeErase hready t b
  | wait => exact h

theorem Lane.ready_of_choiceDue {l : Lane} (h : l.choiceDue = true) : l.state = .ready := by
  simp only [Lane.choiceDue, Bool.and_eq_true, decide_eq_true_eq] at h
  exact h.1.2

theorem State.Changes.scheduleFuel (h : s.Changes c m) (n x : Nat) : s.Changes c (scheduleFuel n x m) := by
  induction n generalizing m with
  | zero => exact h
  | succ n ih =>
    unfold Machine.scheduleFuel
    split
    · exact ih (h.take (Lane.ready_of_choiceDue ‹_›) _)
    · exact h

/-! ### Resets of lanes -/

theorem State.Changes.abortItem (h : s.Changes c m) (x : Nat) (w : WorkItem) : s.Changes c (m.abortItem x w) := by
  unfold State.abortItem
  split <;> exact h.finish _ _ _ _

theorem State.Changes.abortClose (h : s.Changes c m) (t : Nat) : s.Changes c (m.abortClose t) := by
  unfold State.abortClose
  split
  · exact h.finish _ _ _ _
  · exact h

theorem State.Changes.endLaneReset (h : s.Changes c m) (x aborted erased closed : Nat) :
    s.Changes c (m.endLaneReset x aborted erased closed) := by
  unfold State.endLaneReset
  split
  · exact h.finish _ _ _ _
  · exact h

theorem State.abortItem_frame (x : Nat) (s : State) (w : WorkItem) : s.OnlyReplies (s.abortItem x w) := by
  unfold State.abortItem
  split <;> exact s.finish_frame _ _ _ _

theorem State.abortClose_frame (s : State) (t : Nat) : s.OnlyReplies (s.abortClose t) := by
  unfold State.abortClose
  split
  · exact s.finish_frame _ _ _ _
  · exact .refl s

theorem State.endLaneReset_frame (s : State) (x aborted erased closed : Nat) :
    s.OnlyReplies (s.endLaneReset x aborted erased closed) := by
  unfold State.endLaneReset
  split
  · exact s.finish_frame _ _ _ _
  · exact .refl s

theorem State.Changes.applyReset (h : s.Changes c m) (x : Nat) : s.Changes c (m.modLane x Lane.applyReset) :=
  h.modLane x ⟨id, Nat.zero_le _⟩

/-- A RESETTING lane becomes READY. -/
theorem State.Changes.makeLaneReady (h : s.Changes c m) {x : Nat} (hreset : (m.lane x).state = .resetting) :
    s.Changes c (m.makeLaneReady x) :=
  h.modLane x (.of_awake (fun ho => by cases hreset.symm.trans ho.1) le_rfl)

theorem State.releaseSlots_lane (s : State) (is : List Nat) (x : Nat) : (s.releaseSlots is).lane x = s.lane x := by
  rw [State.releaseSlots_eq, State.lane, State.lane, (s.leaveSlots_frame is _).2.1]

theorem State.Changes.applyLaneReset (h : s.Changes c m) {x : Nat} (hreset : (m.lane x).state = .resetting) :
    s.Changes c (m.applyLaneReset x) := by
  have hitems := h.foldl (m.lane x).workQueue (f := State.abortItem x) fun _ w hn => hn.abortItem x w
  unfold State.applyLaneReset
  refine State.Changes.makeLaneReady (State.Changes.endLaneReset ?_ _ _ _ _) ?_
  · refine State.Changes.foldl ?_ _ fun _ t hn => hn.abortClose t
    refine State.Changes.foldl ?_ _ fun _ t hn => hn.endWrite t _
    exact (hitems.applyReset x).releaseSlots _
  · rw [(State.endLaneReset_frame _ _ _ _ _).lane, (State.OnlyReplies.foldl State.abortClose_frame _ _).lane,
      (State.OnlyReplies.foldl (fun s t => s.endWrite_frame t .aborted) _ _).lane, State.releaseSlots_lane,
      State.modLane_state _ x rfl, (State.OnlyReplies.foldl (State.abortItem_frame x) _ _).lane]
    exact hreset

theorem State.Changes.setRqu (h : s.Changes c m) {r : Rqu} (htags : r.tags = m.rqu.tags) (hring : r.ring = m.rqu.ring)
    (hset : r.settings = m.rqu.settings) : s.Changes c { m with rqu := r } := h.step (.rqu r htags hring hset)

theorem State.unlives_link (s : State) (gone : List Nat) : (gone.foldl (fun s t => s.setTag t none) s).link = s.link := by
  induction gone generalizing s with
  | nil => rfl
  | cons t gone ih => rw [List.foldl_cons, ih, State.setTag_link]

/-- An entry that is removed with its tags holds no interim reply of another tag. -/
theorem QueueEntry.kept_of_interimOf {q : QueueEntry} {t : Nat} (h : q.interimOf t = true) {gone : List Nat}
    (ht : gone.contains t = false) : (!q.isRefusal && gone.contains q.reply.tag) = false := by
  simp only [QueueEntry.interimOf, Bool.and_eq_true, decide_eq_true_eq] at h
  rw [h.2, ht, Bool.and_false]

theorem State.Changes.removeTags (h : s.Changes c m) (gone : List Nat) : s.Changes c (m.removeTags gone) := by
  have hun := h.foldl gone (f := fun s t => s.setTag t none) fun _ t hn => hn.unlive t
  refine hun.removeReplies (d := State.link _ |>.deferred.filter _) fun q hq => ?_
  obtain ⟨hd, hk⟩ := Option.filter_eq_some_iff.mp hq
  refine ⟨?_, fun r hr => r.kept_of_interimOf hr (by simpa using hk)⟩
  simpa [State.removeReplies, State.releaseSources_link] using hd

theorem State.Changes.applyPartReset (h : s.Changes c m) {x : Nat} (hreset : (m.lane x).state = .resetting) :
    s.Changes c (m.applyPartReset x) := by
  have hfreed := (h.applyReset x).releaseSlots ((m.modLane x Lane.applyReset).laneSlots x)
  have hready := hfreed.makeLaneReady (x := x) (by rw [State.releaseSlots_lane, State.modLane_state m x rfl]; exact hreset)
  exact (hready.removeTags _).setRqu rfl rfl rfl

theorem State.Changes.applyDueReset (h : s.Changes c m) (x : Nat) : s.Changes c (m.applyDueReset x) := by
  unfold State.applyDueReset
  split_ifs with hdue
  · exact h.applyPartReset hdue.1
  · exact h.applyLaneReset hdue.1
  · exact h

theorem State.Changes.finishPartReset (h : s.Changes c m) (p : PartReset) : s.Changes c (m.finishPartReset p) := by
  have hgone := (h.removeTags ((m.tagsWhere (fun _ => true)).filter (fun t => decide (t ≠ p.tag)))).removeReplies
    (p := fun _ => true) (d := none) (by simp)
  unfold State.finishPartReset
  refine State.Changes.finish ?_ _ _ _ _
  exact (hgone.step (.ring [] (Nat.zero_le _))).setRqu rfl rfl rfl

theorem State.Changes.completeReset (h : s.Changes c m) : s.Changes c m.completeReset := by
  unfold State.completeReset
  split
  · split
    · exact h.finishPartReset _
    · exact h
  · exact h

/-! ### The end of a happening -/

theorem State.Changes.settleLane (h : s.Changes c m) (x : Nat) : s.Changes c (m.settleLane x) :=
  (h.applyDueReset x).completeReset.scheduleFuel _ x

theorem State.Changes.raisePoolLow (h : s.Changes c m) : s.Changes c m.raisePoolLow := h.setRqu rfl rfl rfl

theorem State.Changes.poolCheck (h : s.Changes c m) (n : Nat) : s.Changes c (m.poolCheck n) := by
  rcases m.poolCheck_cases n with heq | heq | heq <;> rw [heq]
  · exact h
  · exact (h.arm false).raisePoolLow
  · exact h.arm true

/-- A composition with the transmitter idle. -/
theorem Link.KeptBy.compose {l m : Link} (hidle : l.tx = none) (hexp : m.expected = l.expected) (hin : m.intake = l.intake)
    (hq : m.queue = l.queue) (hd : m.deferred = l.deferred) (hsync : l.syncedWhenDue → m.syncedWhenDue) : l.KeptBy m := by
  refine ⟨hexp, hin ▸ le_rfl, hq ▸ List.Sublist.refl _, fun q hm => ⟨hd ▸ hm, fun hs => ?_⟩, hsync⟩
  simp [Link.sendingInterim, Link.sendingReply, hidle] at hs

theorem State.outbound_synced {s : State} (h : s.outbound ≠ .sync) : s.link.syncDue = false := by
  by_contra hdue
  exact h (by simp [State.outbound, hdue])

theorem State.Changes.arbitrate (h : s.Changes c m) : s.Changes c m.arbitrate := by
  unfold State.arbitrate
  split
  · exact h
  · rename_i htx
    have hidle : m.link.tx = none := by simpa using htx
    have hlink {l : Link} (hexp : l.expected = m.link.expected) (hin : l.intake = m.link.intake) (hq : l.queue = m.link.queue)
        (hd : l.deferred = m.link.deferred) (hsync : l.syncDue = false) : s.Changes c { m with link := l } :=
      h.setLink (.compose hidle hexp hin hq hd fun _ hdue => by rw [hsync] at hdue; cases hdue)
    cases hout : m.outbound with
    | sync => exact hlink rfl rfl rfl rfl rfl
    | nak r => exact hlink rfl rfl rfl rfl (State.outbound_synced (by simp [hout]))
    | data q n => exact hlink rfl rfl rfl rfl (State.outbound_synced (by simp [hout]))
    | reply r => exact hlink rfl rfl rfl rfl (State.outbound_synced (by simp [hout]))
    | notice n => exact hlink rfl rfl rfl rfl (State.outbound_synced (by simp [hout]))
    | ack => exact hlink rfl rfl rfl rfl (State.outbound_synced (by simp [hout]))
    | nothing => exact h

theorem State.Changes.conclude (h : s.Changes c m) (before : State) (xs : List Nat) : s.Changes c (before.conclude xs m) :=
  ((h.foldl xs fun _ x hn => hn.settleLane x).poolCheck _).arbitrate

end Sys2Proof.Machine
end

