-- ==== Sys2Proof/Proofs/CommandChanges.lean ====
section
/-! PROOFS. Every command is a chain of changes: one lemma for each command over the lemmas of the operations. -/

namespace Sys2Proof.Machine

/-! ### Places that stay empty -/

theorem State.PlaceFree.congr {s m : State} {u : Nat} (h : s.PlaceFree u) (htag : m.tag u = s.tag u)
    (hq : m.link.queue = s.link.queue) : m.PlaceFree u := ⟨htag.trans h.1, hq ▸ h.2⟩

theorem State.PlaceFree.finish {s : State} {u : Nat} (h : s.PlaceFree u) (t : Nat) (st : Status) (fields : ReplyFields)
    (src : Option Source) : (s.finish t st fields src).PlaceFree u := by
  refine ⟨?_, s.finish_placeFree t u st fields src (.inr h.1) h.2⟩
  rw [State.finish_tag, h.1]
  split <;> rfl

theorem State.PlaceFree.modTag {s : State} {u : Nat} (h : s.PlaceFree u) (t : Nat) (f : TagEntry → TagEntry) :
    (s.modTag t f).PlaceFree u := by
  refine h.congr ?_ (by rw [State.modTag_link])
  rw [State.tag_modTag, h.1]
  split <;> rfl

theorem State.PlaceFree.foldl {α : Type} {f : State → α → State} {s : State} {u : Nat} (h : s.PlaceFree u) (as : List α)
    (hf : ∀ (m : State) a, m.PlaceFree u → (f m a).PlaceFree u) : (as.foldl f s).PlaceFree u := by
  induction as generalizing s with
  | nil => exact h
  | cons a as ih => exact ih (hf s a h)

theorem State.PlaceFree.endWrite {s : State} {u : Nat} (h : s.PlaceFree u) (t : Nat) (st : Status) : (s.endWrite t st).PlaceFree u := by
  unfold State.endWrite
  split
  · exact h
  · exact (h.modTag t _).finish _ _ _ _

theorem State.PlaceFree.modSlot {s : State} {u : Nat} (h : s.PlaceFree u) (i : Nat) (f : Slot → Slot) : (s.modSlot i f).PlaceFree u := h

theorem State.PlaceFree.modSlots {s : State} {u : Nat} (h : s.PlaceFree u) (is : List Nat) (f : Slot → Slot) :
    (s.modSlots is f).PlaceFree u := h.foldl is fun _ _ hn => hn.modSlot _ _

theorem State.PlaceFree.modLane {s : State} {u : Nat} (h : s.PlaceFree u) (x : Nat) (f : Lane → Lane) : (s.modLane x f).PlaceFree u := h

theorem State.PlaceFree.modRecord {s : State} {u : Nat} (h : s.PlaceFree u) (x b : Nat) (f : BlockRec → BlockRec) :
    (s.modRecord x b f).PlaceFree u := h

theorem State.PlaceFree.dropSlotOfTag {s : State} {u : Nat} (h : s.PlaceFree u) (t : Option Nat) : (s.dropSlotOfTag t).PlaceFree u := by
  unfold State.dropSlotOfTag
  split
  · exact h.modTag _ _
  · exact h

theorem State.PlaceFree.releaseSlot {s : State} {u : Nat} (h : s.PlaceFree u) (i : Nat) : (s.releaseSlot i).PlaceFree u :=
  (h.dropSlotOfTag _).modSlot i _

theorem State.PlaceFree.releaseSlots {s : State} {u : Nat} (h : s.PlaceFree u) (is : List Nat) : (s.releaseSlots is).PlaceFree u :=
  h.foldl is fun _ i hn => hn.releaseSlot i

theorem State.PlaceFree.testBlock {s : State} {u : Nat} (h : s.PlaceFree u) (x b : Nat) : (s.testBlock x b).PlaceFree u := by
  obtain ⟨hlink, hrqu, -⟩ := s.testBlock_frame x b
  exact h.congr (by simp [State.tag, hrqu]) (by rw [hlink])

theorem State.PlaceFree.abandon {s : State} {u : Nat} (h : s.PlaceFree u) (x b p : Nat) (st : Status) :
    (s.abandon x b p st).PlaceFree u := by
  unfold State.abandon
  refine State.PlaceFree.foldl (State.PlaceFree.foldl (h.modRecord x b _) _ fun n i hn => ?_) _ fun n e hn => hn.endWrite _ _
  unfold State.chainSlot
  split
  · exact (hn.dropSlotOfTag _).modSlot i _
  · exact hn.releaseSlot i

theorem State.PlaceFree.withdraw {s : State} {u : Nat} (h : s.PlaceFree u) (t : Nat) (e : TagEntry) : (s.withdraw t e).PlaceFree u := by
  unfold State.withdraw State.withdrawQueued
  dsimp only
  split
  · exact h.abandon _ _ _ _
  · split
    · exact ((h.modLane _ _).modRecord _ _ _).finish _ _ _ _
    · exact (h.modLane _ _).finish _ _ _ _

theorem State.PlaceFree.relocate {s : State} {u : Nat} (h : s.PlaceFree u) (x a b : Nat) : (s.relocate x a b).PlaceFree u := by
  unfold State.relocate
  refine State.PlaceFree.testBlock (State.PlaceFree.foldl ?_ _ fun _ t hn => hn.modTag t _) x b
  refine State.PlaceFree.modRecord (State.PlaceFree.modRecord (State.PlaceFree.foldl ?_ _ fun _ e hn => hn.modSlot _ _) x a _) x b _
  exact (h.modSlots _ _).releaseSlots _

theorem State.PlaceFree.discard {s : State} {u : Nat} (h : s.PlaceFree u) (x b : Nat) : (s.discard x b).PlaceFree u :=
  ((h.releaseSlots _).modRecord x b _).foldl _ fun _ t hn => hn.endWrite t _

/-! ### Answers of commands -/

/-- A shared refusal place is free. -/
def State.RefusalFree (s : State) : Prop := s.link.queue.countP QueueEntry.isRefusal < Config.sharedRefusals

/-- Every next state the command answers is a chain of changes away. -/
def AnswersByChanges (c : Instr) (s : State) (r : Result) : Prop := ∀ t, r = .next t → s.Changes c t

variable {c : Instr} {s m : State}

theorem AnswersByChanges.next (h : s.Changes c m) : AnswersByChanges c s (.next m) := fun t ht => by
  cases ht; exact h

theorem AnswersByChanges.refusal (why : Refusal) : AnswersByChanges c s (.refused why) := fun _ ht => by cases ht

theorem AnswersByChanges.happen (h : s.Changes c m) (before : State) (xs : List Nat) :
    AnswersByChanges c s (happen before xs m) := .next (h.conclude before xs)

theorem AnswersByChanges.unlessReset {r : Result} (h : AnswersByChanges c s r) : AnswersByChanges c s (unlessReset m r) :=
  fun t ht => h t (unlessReset_next ht).2

theorem AnswersByChanges.refused (h : s.Changes c m) (hroom : m.RefusalFree) (f : InFrame) (st : Status) (fields : ReplyFields) :
    AnswersByChanges c s (refused m f st fields) := .happen (h.step (.refuse f st fields hroom)) m []

theorem AnswersByChanges.dispatch (h : s.Changes c m) (hroom : m.RefusalFree) (f : InFrame) (check : Option Status) {r : Result}
    (hr : check = none → AnswersByChanges c s r) : AnswersByChanges c s (dispatch m f check r) := by
  cases check with
  | some st => exact .refused h hroom f st _
  | none => exact hr rfl

theorem State.Changes.unbuffer (c : Instr) (s : State) : s.Changes c s.unbuffer := by
  refine (State.Changes.refl c s).setLink ⟨rfl, ?_, List.Sublist.refl _, fun q hq => ⟨hq, id⟩, id⟩
  change s.link.intake.tail.length ≤ _
  rw [List.length_tail]; omega

/-- RQU takes a frame while a shared refusal place is free (R143). -/
theorem State.refusalFree_of_mayTake {f : InFrame} (h : s.mayTake f = true) : s.RefusalFree := by
  simp only [State.mayTake, Bool.and_eq_true, decide_eq_true_eq] at h
  exact h.1

theorem AnswersByChanges.takeOldest {p : InFrame → Bool} {k : State → InFrame → Result}
    (hk : ∀ m f, s.Changes c m → m.RefusalFree → AnswersByChanges c s (k m f)) : AnswersByChanges c s (takeOldest s p k) :=
  fun t ht => by
    obtain ⟨-, f, -, -, -, ⟨-, rfl⟩ | ⟨hm, hnext⟩⟩ := takeOldest_next ht
    · exact .refl c _
    · exact hk s.unbuffer f (.unbuffer c s) (s.refusalFree_of_mayTake hm) t hnext

/-- The tag of an admitted request is not live and its place is empty (R143, R145). -/
theorem State.Admits.placeFree {f : InFrame} {k : ReqKind} {r : Request} (h : s.Admits f k r) : s.PlaceFree f.tag := by
  obtain ⟨hoffers, hreq, -, htag, hnone, -⟩ := h
  simp only [InFrame.isRequest, Bool.and_eq_true, decide_eq_true_eq] at hreq
  exact ⟨hnone, hoffers.placeFree hreq.1.1 htag hnone⟩

theorem AnswersByChanges.takeRequest {kind : ReqKind} {k : State → InFrame → Request → Result}
    (hk : ∀ m f r, s.Changes c m → m.RefusalFree → m.PlaceFree f.tag → AnswersByChanges c s (k m f r)) :
    AnswersByChanges c s (takeRequest s kind k) := fun t ht => by
  obtain ⟨-, f, -, -, rfl | ⟨hm, st, fields, hnext⟩ | ⟨r, hadmits, hnext⟩⟩ := takeRequest_next ht
  · exact .refl c _
  · exact AnswersByChanges.refused (.unbuffer c s) (s.refusalFree_of_mayTake hm) f st fields t hnext
  · exact hk s.unbuffer f r (.unbuffer c s) (s.refusalFree_of_mayTake hadmits.1.2.2) hadmits.placeFree t hnext

/-! ### Line events, departures, pins -/

/-- A change of the link's own flags. -/
theorem State.Changes.setFlags (h : s.Changes c m) {l : Link} (hexp : l.expected = m.link.expected)
    (hin : l.intake = m.link.intake) (hq : l.queue = m.link.queue) (hd : l.deferred = m.link.deferred) (htx : l.tx = m.link.tx)
    (hsync : l.syncDue = m.link.syncDue) (hout : l.outbound = m.link.outbound) : s.Changes c { m with link := l } := by
  refine h.setLink ⟨hexp, hin ▸ le_rfl, hq ▸ List.Sublist.refl _, fun q hm => ⟨hd ▸ hm, fun hs => ?_⟩, fun hdue => ?_⟩
  · simpa only [Link.sendingInterim, Link.sendingReply, hq, htx] using hs
  · rwa [Link.syncedWhenDue, hsync, hout]

theorem State.Changes.testNak (h : s.Changes c m) (r : NakReason) : s.Changes c (m.modLink (·.testNak r)) := by
  unfold State.modLink Link.testNak
  dsimp only
  split
  · exact h
  · exact h.setFlags rfl rfl rfl rfl rfl rfl rfl

theorem execBadFrame_changes (s : State) (ending : FrameEnding) (bytes : List Byte) :
    AnswersByChanges c s (execBadFrame ending bytes s) := by
  unfold execBadFrame
  split
  · exact .next (.refl c s)
  · split
    · exact .happen ((State.Changes.refl c s).testNak _) s _
    · exact .happen ((State.Changes.refl c s).testNak _) s _
    · exact .refusal _

theorem State.Changes.takeSequenced (s : State) (bytes : List Byte) (f : LineFrame) :
    s.Changes (.sequencedFrame bytes) (s.modLink (·.takeSequenced f)) := by
  have h := State.Changes.refl (.sequencedFrame bytes) s
  unfold State.modLink Link.takeSequenced
  dsimp only
  split
  · split
    · exact h.step (.accept f bytes rfl ‹_›)
    · exact (h.testNak .noBuffer).setFlags rfl rfl rfl rfl rfl rfl rfl
  · split
    · exact h.testNak .gap
    · exact h.setFlags rfl rfl rfl rfl rfl rfl rfl

theorem execSequencedFrame_changes (s : State) (bytes : List Byte) :
    AnswersByChanges (.sequencedFrame bytes) s (execSequencedFrame bytes s) := by
  unfold execSequencedFrame
  split
  · exact .next (.refl _ s)
  · split
    · exact .happen (.takeSequenced s bytes _) s _
    · exact .refusal _

theorem execSync_changes (s : State) (bytes : List Byte) : AnswersByChanges (.sync bytes) s (execSync bytes s) := by
  unfold execSync
  split
  · exact .next (.refl _ s)
  · split
    · exact .happen ((State.Changes.refl _ s).step (.sync _ bytes rfl)) s _
    · exact .refusal _

theorem State.Changes.expireAck (h : s.Changes c m) : s.Changes c (m.modLink Link.expireAck) :=
  h.setFlags (l := m.link.expireAck) rfl rfl rfl rfl rfl rfl rfl

theorem execAckTimerExpiry_changes (s : State) : AnswersByChanges c s (execAckTimerExpiry s) := by
  refine .unlessReset ?_
  split
  · exact .happen (State.Changes.refl c s).expireAck s _
  · exact .refusal _

/-- A frame that is not the head's reply frame leaves, or the head's, which is no interim reply: the transmitter is idle, and the head
may go. -/
theorem Link.KeptBy.leave {l m : Link} (hno : ∀ t, l.sendingInterim t = false) (hexp : m.expected = l.expected)
    (hin : m.intake = l.intake) (hq : m.queue.Sublist l.queue) (hd : m.deferred = l.deferred) (hsync : m.syncDue = l.syncDue)
    (hout : m.outbound = l.outbound) : l.KeptBy m := by
  refine ⟨hexp, hin ▸ le_rfl, hq, fun q hm => ⟨hd ▸ hm, fun hs => ?_⟩, fun hdue => by rwa [Link.syncedWhenDue, hsync, hout]⟩
  rw [hno] at hs; cases hs

/-- No reply frame is being sent. -/
theorem Link.sendingInterim_of_what {l : Link} {w : Sending} (h : l.tx.map OutFrame.what = some w) (hw : w ≠ .rsp false) (t : Nat) :
    l.sendingInterim t = false := by
  obtain ⟨f, hf, rfl⟩ := Option.map_eq_some_iff.mp h
  simp [Link.sendingInterim, Link.sendingReply, hf, hw]

/-- The head of the reply queue is no interim reply. -/
theorem Link.sendingInterim_of_head {l : Link} {q : QueueEntry} {rest : List QueueEntry} (h : l.queue = q :: rest)
    (hq : q.reply.cls ≠ .interim) (t : Nat) : l.sendingInterim t = false := by
  simp [Link.sendingInterim, h, QueueEntry.interimOf, hq]

theorem State.Changes.idle (h : s.Changes c m) (hno : ∀ t, m.link.sendingInterim t = false) : s.Changes c m.idle :=
  h.setLink (.leave hno rfl rfl (List.Sublist.refl _) rfl rfl rfl)

theorem State.Changes.idlePop (h : s.Changes c m) (hno : ∀ t, m.link.sendingInterim t = false) :
    s.Changes c m.idle.popReply := h.setLink (.leave hno rfl rfl (List.tail_sublist _) rfl rfl rfl)

theorem length_pushCopy (ring : List Reply) (r : Reply) : (pushCopy ring r).length ≤ Config.recallCopies := by
  rw [pushCopy, List.length_drop, List.length_append, List.length_singleton]; omega

theorem State.Changes.keepCopy (h : s.Changes c m) (r : Reply) : s.Changes c (m.keepCopy r) := by
  unfold State.keepCopy
  split
  · exact h.step (.ring _ (length_pushCopy _ _))
  · exact h

theorem TagEntry.KeptBy.sentInterim (e : TagEntry) : e.KeptBy e.sentInterim := .of_state rfl rfl

theorem State.modTag_idle (s : State) (t : Nat) (f : TagEntry → TagEntry) : s.idle.modTag t f = (s.modTag t f).idle := by
  have htag : s.idle.tag t = s.tag t := rfl
  unfold State.modTag
  rw [htag]
  split <;> rfl

/-- The interim frame leaves: first the tag's flag, then the link. -/
theorem State.interimLeft_eq (s : State) {q : QueueEntry} {rest : List QueueEntry} (h : s.link.queue = q :: rest) :
    s.idle.interimLeft q
      = { s.modTag q.reply.tag TagEntry.sentInterim with
          link := { s.link with tx := none, queue := rest ++ s.link.deferred.toList, deferred := none } } := by
  unfold State.interimLeft
  rw [State.modTag_idle]
  simp [State.idle, h]

theorem State.Changes.replyLeft (h : s.Changes c m) {q : QueueEntry} {rest : List QueueEntry} (hq : m.link.queue = q :: rest)
    (hsend : m.link.tx.map OutFrame.what = some (.rsp false)) : s.Changes c (m.idle.replyLeft q) := by
  unfold State.replyLeft
  cases hcls : q.reply.cls with
  | interim =>
    have hreply : m.link.sendingReply = true := by
      obtain ⟨f, hf, hw⟩ := Option.map_eq_some_iff.mp hsend
      simp [Link.sendingReply, hf, hw]
    have hstep := (h.modTag q.reply.tag TagEntry.KeptBy.sentInterim).step
      (.interim q rest (by rwa [State.modTag_link]) (by rwa [State.modTag_link]) hcls)
    dsimp only
    rw [m.interimLeft_eq hq]
    simpa using hstep
  | refusal => exact (h.idlePop (Link.sendingInterim_of_head hq (by simp [hcls]))).keepCopy _
  | final =>
    have hno := Link.sendingInterim_of_head hq (by simp [hcls])
    dsimp only
    unfold State.finalLeft
    dsimp only
    split
    · refine State.Changes.setFlags ?_ rfl rfl rfl rfl rfl rfl rfl
      exact ((h.idle hno).unlive _).keepCopy _
    · refine State.Changes.releaseSource ?_ _
      unfold State.keepCopy
      split
      · exact ((h.idlePop hno).unlive q.reply.tag).step (.ring _ (length_pushCopy m.rqu.ring q.reply))
      · exact (h.idlePop hno).unlive q.reply.tag

theorem execRspDeparture_changes (s : State) : AnswersByChanges c s (execRspDeparture s) := by
  refine .unlessReset ?_
  split
  · rename_i hw
    exact .happen ((State.Changes.refl c s).idle (Link.sendingInterim_of_what hw (by simp))) s _
  · rename_i hw hq
    exact .happen ((State.Changes.refl c s).replyLeft hq hw) s _
  · exact .refusal _

theorem execDataFrameDeparture_changes (s : State) : AnswersByChanges c s (execDataFrameDeparture s) := by
  refine .unlessReset ?_
  split
  · rename_i hw
    exact .happen ((State.Changes.refl c s).idle (Link.sendingInterim_of_what hw (by simp))) s _
  · rename_i hw _
    have hno := Link.sendingInterim_of_what hw (by simp)
    split
    · exact .happen ((State.Changes.refl c s).idle hno) s _
    · refine .happen (State.Changes.releaseSource ?_ _) s _
      exact (State.Changes.refl c s).setLink (.leave hno rfl rfl (List.tail_sublist _) rfl rfl rfl)
  · exact .refusal _

theorem State.Changes.noteLeft (h : s.Changes c m) (n : Notice) : s.Changes c (m.noteLeft n) := by
  unfold State.noteLeft
  split
  · exact h.modRecord _ _ _
  · exact h.setRqu rfl rfl rfl
  · exact h.setRqu rfl rfl rfl
  · exact h.setRqu rfl rfl rfl

theorem execNoteDeparture_changes (s : State) : AnswersByChanges c s (execNoteDeparture s) := by
  refine .unlessReset ?_
  split
  · rename_i hw
    exact .happen (((State.Changes.refl c s).idle (Link.sendingInterim_of_what hw (by simp))).noteLeft _) s _
  · exact .refusal _

theorem execLinkControlDeparture_changes (s : State) : AnswersByChanges c s (execLinkControlDeparture s) := by
  refine .unlessReset ?_
  split
  · rename_i w hw
    split
    · rename_i hctl
      exact .happen ((State.Changes.refl c s).idle (Link.sendingInterim_of_what hw (by rintro rfl; cases hctl))) s _
    · exact .refusal _
  · exact .refusal _

theorem execWpChanged_changes (s : State) : AnswersByChanges .wpChanged s (execWpChanged s) := by
  have htoggle := (State.Changes.refl _ s).step (.toggleWp rfl)
  unfold execWpChanged
  split
  · exact .next htoggle
  · exact .happen (m := s.toggleWp.raiseWpChanged) (htoggle.setRqu rfl rfl rfl) s _

theorem execRstAsserted_changes (s : State) : AnswersByChanges .rstAsserted s (execRstAsserted s) :=
  .next ((State.Changes.refl _ s).step (.powerOn _ _ _ (.inl rfl)))

theorem execRstReleased_changes (s : State) : AnswersByChanges .rstReleased s (execRstReleased s) := by
  unfold execRstReleased
  split
  · exact .next ((State.Changes.refl _ s).step (.powerOn _ _ _ (.inr rfl)))
  · exact .refusal _

/-! ### Requests the request unit answers -/

theorem execMalformedFrameTaken_changes (s : State) : AnswersByChanges c s (execMalformedFrameTaken s) :=
  .takeOldest fun _ f h hroom => .refused h hroom f _ _

theorem execIdentify_changes (s : State) : AnswersByChanges c s (execIdentify s) :=
  .takeRequest fun m _ _ h _ hfree => .happen (h.answer hfree _ _ _ _) m _

/-- A CONFIGURE whose values lie in their ranges leaves settings in their ranges (R157). -/
theorem Settings.update_inRange {old : Settings} {tt rb dt pw : Option Nat} (h : firstOutOfRange tt rb dt pw = none)
    (hold : old.inRange = true) : (old.update tt rb dt pw).inRange = true := by
  have hget : ∀ (lo hi v : Nat) (n : Option Nat), outside lo hi n = false → lo ≤ v → v ≤ hi → lo ≤ n.getD v ∧ n.getD v ≤ hi := by
    intro lo hi v n hn hlo hhi
    cases n with
    | none => exact ⟨hlo, hhi⟩
    | some n => simpa [outside] using hn
  unfold firstOutOfRange at h
  split_ifs at h with h1 h2 h3 h4
  simp only [Bool.not_eq_true] at h1 h2 h3 h4
  simp only [Settings.inRange, Bool.and_eq_true, decide_eq_true_eq] at hold
  obtain ⟨⟨⟨⟨⟨⟨ht1, ht2⟩, hr1⟩, hr2⟩, hd1⟩, hd2⟩, hw⟩ := hold
  obtain ⟨ht1, ht2⟩ := hget _ _ _ _ h1 ht1 ht2
  obtain ⟨hr1, hr2⟩ := hget _ _ _ _ h2 hr1 hr2
  obtain ⟨hd1, hd2⟩ := hget _ _ _ _ h3 hd1 hd2
  obtain ⟨-, hw⟩ := hget _ _ _ _ h4 (Nat.zero_le _) hw
  simp [Settings.inRange, Settings.update, *]

theorem State.Changes.testPoolLow (h : s.Changes c m) : s.Changes c m.testPoolLow := by
  unfold State.testPoolLow
  split
  · exact (h.arm false).raisePoolLow
  · exact h

theorem State.Changes.configure (h : s.Changes .configure m) {new : Settings}
    (hnew : m.rqu.settings.inRange = true → new.inRange = true) : s.Changes .configure (m.configure new) := by
  have hset := h.step (.settings new rfl hnew)
  unfold State.configure
  dsimp only
  split
  · exact hset
  · exact (hset.arm true).testPoolLow

theorem State.PlaceFree.configure {u : Nat} (h : s.PlaceFree u) (new : Settings) : (s.configure new).PlaceFree u := by
  unfold State.configure State.testPoolLow
  dsimp only
  split
  · exact h
  · split <;> exact h

theorem execConfigure_changes (s : State) : AnswersByChanges .configure s (execConfigure s) := by
  refine .takeRequest fun m f r h hroom hfree => ?_
  split
  · split
    · exact .refused h hroom f _ _
    · rename_i hrange
      exact .happen ((h.configure (Settings.update_inRange hrange)).answer (hfree.configure _) _ _ _ _) m _
  · exact .refusal _

theorem execReadSettings_changes (s : State) : AnswersByChanges c s (execReadSettings s) :=
  .takeRequest fun m _ _ h _ hfree => .happen (h.answer hfree _ _ _ _) m _

theorem execBlockStatus_changes (s : State) : AnswersByChanges c s (execBlockStatus s) := by
  refine .takeRequest fun m f r h hroom hfree => ?_
  split
  · exact .dispatch h hroom f _ fun _ => .happen (h.answer hfree _ _ _ _) m _
  · exact .refusal _

theorem execPoolStatus_changes (s : State) : AnswersByChanges c s (execPoolStatus s) :=
  .takeRequest fun m _ _ h _ hfree => .happen (h.answer hfree _ _ _ _) m _

theorem execTagStatus_changes (s : State) : AnswersByChanges c s (execTagStatus s) := by
  refine .takeRequest fun m f r h hroom hfree => ?_
  split
  · split
    · exact .happen (h.answer hfree _ _ _ _) m _
    · split
      · exact .happen (h.answer hfree _ _ _ _) m _
      · exact .refused h hroom f _ _
  · exact .refusal _

theorem State.Changes.withdraw (h : s.Changes c m) (t : Nat) (e : TagEntry) : s.Changes c (m.withdraw t e) := by
  have hgone : s.Changes c (m.modLane (e.lane.getD 0)
      (fun l => { l with workQueue := l.workQueue.filter (fun w => decide (w.tag ≠ t)) })) :=
    h.modLane _ ⟨id, (List.length_filter_le _ _).trans (le_max_left _ _)⟩
  unfold State.withdraw State.withdrawQueued
  dsimp only
  split
  · exact h.abandon _ _ _ _
  · split
    · exact (hgone.modRecord _ _ _).finish _ _ _ _
    · exact hgone.finish _ _ _ _

theorem execAbort_changes (s : State) : AnswersByChanges c s (execAbort s) := by
  refine .takeRequest fun m f r h hroom hfree => ?_
  split
  · split
    · exact .refused h hroom f _ _
    · split
      · exact .happen ((h.withdraw _ _).answer (hfree.withdraw _ _) _ _ _ _) m _
      · exact .refused h hroom f _ _
  · exact .refusal _

/-! ### WRITE and its page -/

theorem State.Changes.reserveFor {α : Type} (h : s.Changes c m) (as : List α) (i : α → Nat) (o : α → Owner) :
    s.Changes c (as.foldl (fun s a => s.modSlot (i a) (Slot.reserveFor (o a))) m) :=
  h.foldl as fun _ _ hn => hn.modSlot _ _

/-- What a WRITE finds a slot in: slots may have been reserved or released, and nothing else has changed. -/
theorem State.Changes.grant (h : s.Changes c m) {n : State} {x b p i : Nat} {d : Density} {u : Nat} (hfree : m.PlaceFree u)
    (hg : m.grant x b p d = some (n, i)) : s.Changes c n ∧ n.PlaceFree u := by
  unfold State.grant State.grantDense State.grantSwift at hg
  cases d with
  | dense =>
    dsimp only at hg
    split at hg
    · split at hg
      · split at hg
        · cases hg; exact ⟨h, hfree⟩
        · split at hg
          · cases hg; exact ⟨h.releaseSlot _, hfree.releaseSlot _⟩
          · cases hg
      · cases hg
    · split at hg
      · obtain ⟨j, -, hj⟩ := Option.map_eq_some_iff.mp hg
        cases hj
        exact ⟨h.reserveFor _ _ _, hfree.foldl _ fun _ _ hn => hn.modSlot _ _⟩
      · cases hg
  | swift =>
    dsimp only at hg
    split at hg <;> cases hg
    exact ⟨h, hfree⟩

theorem State.Changes.takeIn (h : s.Changes c m) {t : Nat} (hfree : m.PlaceFree t) (x b p i : Nat) (d : Density) (check : Word32)
    (area : List Byte) : s.Changes c (m.takeIn t x b p i d check area) :=
  (((h.modRecord x b _).modSlot i _).comeLive ((hfree.modRecord x b _).modSlot i _) rfl).testBlock x b

theorem execWrite_changes (s : State) : AnswersByChanges c s (execWrite s) := by
  refine .takeRequest fun m f r h hroom hfree => ?_
  split
  · split
    · exact .refused h hroom f _ _
    · split
      · rename_i hg
        obtain ⟨hn, hfree⟩ := h.grant hfree hg
        exact .happen (hn.takeIn hfree _ _ _ _ _ _ _) m _
      · exact .refused h hroom f _ _
  · exact .refusal _

/-- A transfer belongs to a live WRITE in TRANSFER (R67). -/
theorem State.transferOf_tag {t i : Nat} {o : Owner} {check : Option Word32} (h : s.transferOf t = some (i, o, check)) :
    ∃ e, s.tag t = some e ∧ e.kind = .write ∧ e.state = .transfer := by
  unfold State.transferOf at h
  split at h
  · rename_i e he
    split_ifs at h with hw
    exact ⟨e, he, hw.1, hw.2⟩
  · cases h

theorem stagedState_cases (r : BlockRec) : stagedState r = .staged ∨ stagedState r = .heldFailed := by
  unfold stagedState
  split <;> simp

theorem State.Changes.takeChunk (h : s.Changes c m) {t : Nat} {e : TagEntry} (ht : m.tag t = some e) (hkind : e.kind = .write)
    (hstate : e.state = .transfer) (i : Nat) (o : Owner) (check : Option Word32) (n : Nat) (bytes : List Byte) :
    s.Changes c (m.takeChunk t i o check n bytes) := by
  have htaken := h.modSlot i (Slot.takeChunk bytes)
  unfold State.takeChunk State.stagePage
  split
  · exact h.abandon _ _ _ _
  · dsimp only
    split
    · exact htaken
    · split
      · exact ((htaken.modSlot i Slot.stage).step (.stage t e _ ht hkind hstate (stagedState_cases _))).testBlock _ _
      · exact htaken.abandon _ _ _ _

theorem execData_changes (s : State) : AnswersByChanges c s (execData s) := by
  refine .takeOldest fun m f h hroom => ?_
  split
  · rename_i ht
    obtain ⟨e, he, hkind, hstate⟩ := State.transferOf_tag ht
    exact .happen (h.takeChunk he hkind hstate _ _ _ _ _) m _
  · exact .refused h hroom f _ _

theorem execTransferTimeout_changes (s : State) (i : Nat) : AnswersByChanges c s (execTransferTimeout i s) := by
  refine .unlessReset ?_
  split
  · split
    · exact .happen ((State.Changes.refl c s).abandon _ _ _ _) s _
    · exact .refusal _
  · exact .refusal _

/-! ### READ, ERASE, CLOSE -/

theorem State.Changes.enqueue (h : s.Changes c m) {t : Nat} {e : TagEntry} (hfree : m.PlaceFree t)
    (hlegal : TagState.legalFor e.kind e.state = true) {x : Nat} (hroom : (m.lane x).queueFull = false) (b : Nat) (k : WorkKind) :
    s.Changes c (m.enqueue t x b e k) := by
  refine (h.comeLive hfree hlegal).modLane x ⟨id, ?_⟩
  simp only [Lane.queueFull, decide_eq_false_iff_not, not_le] at hroom
  rw [State.setTag_lane, List.length_append, List.length_singleton]
  exact le_max_of_le_right hroom

theorem queueFull_of_failsWith {l : Lane} (h : failsWith l.queueFull .queueFull = none) : l.queueFull = false := by
  cases hq : l.queueFull with
  | false => rfl
  | true => simp [failsWith, hq] at h

theorem execRead_changes (s : State) : AnswersByChanges c s (execRead s) := by
  refine .takeRequest fun m f r h hroom hfree => ?_
  split
  · refine .dispatch h hroom f _ fun _ => ?_
    split
    · exact .happen ((h.modSlot _ _).answer (hfree.modSlot _ _) _ _ _ _) m _
    · exact .dispatch h hroom f _ fun hq => .happen (h.enqueue hfree rfl (queueFull_of_failsWith hq) _ _) m _
  · exact .refusal _

theorem execErase_changes (s : State) : AnswersByChanges c s (execErase s) := by
  refine .takeRequest fun m f r h hroom hfree => ?_
  split
  · refine .dispatch h hroom f _ fun hcheck => ?_
    simp only [State.eraseCheck, Option.or_eq_none_iff] at hcheck
    obtain ⟨-, -, -, hq⟩ := hcheck
    exact .happen ((h.enqueue hfree rfl (queueFull_of_failsWith hq) _ _).modRecord _ _ _) m _
  · exact .refusal _

theorem State.Changes.closeBlock (h : s.Changes c m) (x b : Nat) : s.Changes c (m.closeBlock x b) := by
  unfold State.closeBlock State.closeEmpty State.closeSwift State.closeDense
  dsimp only
  split_ifs
  · exact ((h.modRecord x b _).endClose x b _).testBlock x b
  · exact (h.modRecord x b _).testBlock x b
  · exact (((h.modSlots _ _).releaseSlots _).modRecord x b _).testBlock x b

theorem execClose_changes (s : State) : AnswersByChanges c s (execClose s) := by
  refine .takeRequest fun m f r h hroom hfree => ?_
  split
  · exact .dispatch h hroom f _ fun _ => .happen ((h.comeLive hfree rfl).closeBlock _ _) m _
  · exact .refusal _

/-! ### RELOCATE, DISCARD and the resets -/

theorem State.Changes.relocate (h : s.Changes c m) (x a b : Nat) : s.Changes c (m.relocate x a b) := by
  unfold State.relocate
  refine State.Changes.testBlock (State.Changes.foldl ?_ _ fun _ t hn => hn.modTag t (.relocate b _)) x b
  exact ((((h.modSlots _ _).releaseSlots _).reserveFor _ _ _).modRecord x a _).modRecord x b _

theorem execRelocate_changes (s : State) : AnswersByChanges c s (execRelocate s) := by
  refine .takeRequest fun m f r h hroom hfree => ?_
  split
  · exact .dispatch h hroom f _ fun _ => .happen ((h.relocate _ _ _).answer (hfree.relocate _ _ _) _ _ _ _) m _
  · exact .refusal _

theorem State.Changes.discard (h : s.Changes c m) (x b : Nat) : s.Changes c (m.discard x b) :=
  ((h.releaseSlots _).modRecord x b _).foldl _ fun _ t hn => hn.endWrite t _

theorem execDiscard_changes (s : State) : AnswersByChanges c s (execDiscard s) := by
  refine .takeRequest fun m f r h hroom hfree => ?_
  split
  · exact .dispatch h hroom f _ fun _ => .happen ((h.discard _ _).answer (hfree.discard _ _) _ _ _ _) m _
  · exact .refusal _

theorem State.ready_of_laneResetCheck {x : Nat} (h : s.laneResetCheck x = none) : (s.lane x).state = .ready := by
  unfold State.laneResetCheck laneCheck at h
  split at h
  · cases h
  · split at h <;> first | assumption | cases h

theorem execLaneReset_changes (s : State) : AnswersByChanges c s (execLaneReset s) := by
  refine .takeRequest fun m f r h hroom hfree => ?_
  split
  · refine .dispatch h hroom f _ fun hcheck => .happen ((h.comeLive hfree rfl).modLane _ ?_) m _
    exact .of_awake (Lane.awake_of_ready (State.ready_of_laneResetCheck hcheck)) le_rfl
  · exact .refusal _

/-- A change of every lane. -/
theorem State.Changes.mapLanes (h : s.Changes c m) {f : Lane → Lane} (hf : ∀ l : Lane, l.KeptBy (f l)) :
    s.Changes c { m with lanes := m.lanes.map f } := by
  refine h.step (.lanes _ fun x => ?_)
  by_cases hx : x < 4
  · simpa [State.lane, hx] using hf m.lanes[x]
  · rw [State.lane_out _ hx, State.lane_out _ hx]; exact .refl _

theorem State.Changes.beginPartReset (h : s.Changes c m) {t : Nat} (hfree : m.PlaceFree t) : s.Changes c (m.beginPartReset t) := by
  refine State.Changes.setRqu (State.Changes.mapLanes (h.comeLive hfree rfl) (f := fun l =>
    if l.reached then { l with state := .resetting } else l) fun l => ?_) rfl rfl rfl
  split
  · rename_i hr
    simp only [Lane.reached, Bool.or_eq_true, decide_eq_true_eq] at hr
    refine .of_awake (fun ho => ?_) le_rfl
    rcases hr with hr | hr <;> cases hr.symm.trans ho.1
  · exact .refl l

theorem execPartReset_changes (s : State) : AnswersByChanges c s (execPartReset s) :=
  .takeRequest fun m _ _ h _ hfree => .happen (h.beginPartReset hfree) m _

/-! ### Ends of operations -/

/-- A lane with an operation in flight is not at rest OFFLINE. -/
theorem Lane.awake_of_engine {l : Lane} {op : Operation} (h : l.engine = some op) : ¬l.atRestOffline := fun ho => by
  cases h.symm.trans ho.2.1

/-- A lane with a page in its sense buffer is not at rest OFFLINE. -/
theorem Lane.awake_of_sense {l : Lane} {raw : StoredPage} (h : l.sense = some raw) : ¬l.atRestOffline := fun ho => by
  cases h.symm.trans ho.2.2

theorem State.Changes.roughPassed (h : s.Changes c m) (x b n : Nat) : s.Changes c (m.roughPassed x b n) :=
  (h.modRecord x b _).modSlots _ _

theorem State.Changes.finalize (h : s.Changes c m) (is : List Nat) : s.Changes c (m.finalize is) :=
  (h.releaseSlots is).foldl _ fun _ t hn => hn.endDurable t

theorem State.Changes.finalPassed (h : s.Changes c m) (x b n : Nat) : s.Changes c (m.finalPassed x b n) := by
  have hfinal := (h.modRecord x b (fun r => { r with finalDone := n + 1 })).finalize (m.stripSlots x b n)
  unfold State.finalPassed
  dsimp only
  split_ifs
  · exact hfinal.modRecord x b _
  · exact (hfinal.modRecord x b _).endClose x b _
  · exact hfinal

theorem State.Changes.singlePassed (h : s.Changes c m) (x b n : Nat) : s.Changes c (m.singlePassed x b n) := by
  have hfinal := (h.modRecord x b (fun r => { r with finalDone := n + 1 })).finalize (m.slotOf x b n).toList
  unfold State.singlePassed
  dsimp only
  split_ifs
  · exact hfinal.modRecord x b _
  · exact (hfinal.modRecord x b _).endClose x b _
  · exact hfinal

theorem State.Changes.passFailed (h : s.Changes c m) (x b : Nat) : s.Changes c (m.passFailed x b) := by
  unfold State.passFailed
  simp only [decide_eq_true_eq]
  split
  · exact (((h.releaseSlots _).modRecord x b _).holdTags x b).endClose x b _
  · exact (h.modRecord x b _).holdTags x b

theorem endPass_changes (s : State) (kind : PassKind) {passed : State → Nat → Nat → Nat → State} (x : Nat) (ending : Ending)
    (hpassed : ∀ (m : State) (b n : Nat), s.Changes c m → s.Changes c (passed m x b n)) :
    AnswersByChanges c s (endPass kind passed x ending s) := by
  refine .unlessReset ?_
  split
  · rename_i hengine _
    split
    · have hended (op : Operation) (e : Ending) : s.Changes c (s.passEnded x op e) :=
        (State.Changes.refl c s).modAwake (Lane.awake_of_engine hengine) rfl
      refine .happen (State.Changes.testBlock ?_ _ _) s _
      split
      · exact hpassed _ _ _ (hended _ _)
      · exact (hended _ _).passFailed x _
    · exact .refusal _
  · exact .refusal _

theorem execSenseEnd_changes (s : State) (x : Nat) (noise : List BitError) : AnswersByChanges c s (execSenseEnd x noise s) := by
  refine .unlessReset ?_
  split
  · split
    · rename_i hengine
      exact .happen ((State.Changes.refl c s).modAwake (Lane.awake_of_engine hengine) rfl) s _
    · exact .refusal _
  · exact .refusal _

theorem execDecodeEnd_changes (s : State) (x : Nat) (found : List Codeword) : AnswersByChanges c s (execDecodeEnd x found s) := by
  refine .unlessReset ?_
  split
  · split
    · rename_i hsense _
      have hawake := Lane.awake_of_sense hsense
      dsimp only
      split
      · exact .happen ((State.Changes.refl c s).modAwake hawake rfl) s _
      · exact .happen (((State.Changes.refl c s).modAwake hawake rfl).finish _ _ _ _) s _
    · exact .refusal _
  · exact .refusal _

/-- The end of an operation, with what the lane takes up next. -/
theorem State.Changes.endAndPresent (s : State) {x : Nat} {op : Operation} (hengine : (s.lane x).engine = some op) (f g : Lane → Lane)
    (hw : (g (f (s.lane x))).workQueue = (s.lane x).workQueue) : s.Changes c ((s.modLane x f).modLane x g) := by
  rw [State.modLane_modLane s f g (s.lane_lt_of_engine hengine)]
  exact (State.Changes.refl c s).modAwake (Lane.awake_of_engine hengine) hw

theorem execInPlaceEraseEnd_changes (s : State) (x : Nat) (ending : Ending) :
    AnswersByChanges c s (execInPlaceEraseEnd x ending s) := by
  refine .unlessReset ?_
  split
  · rename_i hengine _
    dsimp only
    split
    · exact .happen (((State.Changes.endAndPresent s hengine _ _ rfl).finish _ _ _ _).testBlock x _) s _
    · split
      · exact .happen (State.Changes.endAndPresent s hengine _ _ rfl) s _
      · exact .happen (((State.Changes.endAndPresent s hengine _ _ rfl).finish _ _ _ _).testBlock x _) s _
  · exact .refusal _

theorem execReserveEraseEnd_changes (s : State) (x : Nat) (ending : Ending) :
    AnswersByChanges c s (execReserveEraseEnd x ending s) := by
  refine .unlessReset ?_
  split
  · rename_i hengine _
    exact .happen (State.Changes.endAndPresent s hengine _ _ rfl) s _
  · exact .refusal _

theorem Lane.returnReserve_frame (l : Lane) (p : Nat) :
    l.returnReserve p = { l with freeReserves := (l.returnReserve p).freeReserves } := by
  unfold Lane.returnReserve
  split <;> rfl

theorem State.Changes.directoryWritten (h : s.Changes c m) (x t b : Nat) (course : EraseCourse) (erased : Ending) (d : Directory)
    (w : Ending) : s.Changes c (m.directoryWritten x t b course erased d w) := by
  have hreturn (p : Nat) (f : BlockRec → BlockRec) : s.Changes c (m.modLane x (fun l =>
      { ((l.takeTables d).returnReserve p).modRecord b f with job := none })) := by
    refine h.modLane x ?_
    rw [Lane.returnReserve_frame]
    exact .of_rest rfl rfl rfl rfl
  unfold State.directoryWritten
  split
  · exact (hreturn _ _).finish _ _ _ _
  · exact (h.modLane x (.of_rest rfl rfl rfl rfl)).finish _ _ _ _
  · exact (hreturn _ _).finish _ _ _ _
  · exact (h.modLane x (.of_rest rfl rfl rfl rfl)).finish _ _ _ _

theorem execDirectoryWriteEnd_changes (s : State) (x : Nat) (ending : Ending) :
    AnswersByChanges c s (execDirectoryWriteEnd x ending s) := by
  refine .unlessReset ?_
  split
  · rename_i hengine _
    refine .happen (State.Changes.testBlock (State.Changes.directoryWritten ?_ _ _ _ _ _ _ _) _ _) s _
    exact (State.Changes.refl c s).modAwake (Lane.awake_of_engine hengine) rfl
  · exact .refusal _

theorem State.Changes.endScan (h : s.Changes c m) : s.Changes c m.endScan := by
  unfold State.endScan
  split
  · refine State.Changes.setRqu (State.Changes.setRqu (h.mapLanes (f := Lane.startRunning) fun l => ?_) rfl rfl rfl) rfl rfl rfl
    unfold Lane.startRunning
    split
    · exact .refl l
    · exact ⟨fun ho => absurd ho.1 ‹_›, Nat.zero_le _⟩
  · exact h

theorem Lane.directoryRead_workQueue (ending : Ending) (l : Lane) : (l.directoryRead ending).workQueue = l.workQueue := by
  unfold Lane.directoryRead
  dsimp only
  split <;> rfl

theorem execDirectoryReadEnd_changes (s : State) (r : DirectoryRead) : AnswersByChanges c s (execDirectoryReadEnd r s) := by
  refine .unlessReset ?_
  split
  · rename_i hengine
    have hread := (State.Changes.refl c s).modAwake (f := Lane.directoryRead r.ending)
      (Lane.awake_of_engine hengine) (Lane.directoryRead_workQueue _ _)
    exact .happen hread.endScan s _
  · exact .refusal _

theorem Lane.surveyed_workQueue (l : Lane) (p : Nat) : (l.surveyed p).workQueue = l.workQueue := by
  unfold Lane.surveyed Lane.classifyBlocks
  dsimp only
  split <;> rfl

theorem execSurveyEnd_changes (s : State) (x : Nat) : AnswersByChanges c s (execSurveyEnd x s) := by
  refine .unlessReset ?_
  split
  · rename_i p hengine
    have hread := (State.Changes.refl c s).modAwake (f := fun l => l.surveyed p)
      (Lane.awake_of_engine hengine) (Lane.surveyed_workQueue _ _)
    exact .happen hread.endScan s _
  · exact .refusal _

/-! ### The commands -/

/-- Every command is a chain of changes. -/
theorem exec_changes (s : State) (c : Instr) : AnswersByChanges c s (exec c s) := by
  cases c with
  | badFrame ending bytes => exact execBadFrame_changes s ending bytes
  | sequencedFrame bytes => exact execSequencedFrame_changes s bytes
  | sync bytes => exact execSync_changes s bytes
  | ackTimerExpiry => exact execAckTimerExpiry_changes s
  | malformedFrameTaken => exact execMalformedFrameTaken_changes s
  | identify => exact execIdentify_changes s
  | configure => exact execConfigure_changes s
  | readSettings => exact execReadSettings_changes s
  | blockStatus => exact execBlockStatus_changes s
  | poolStatus => exact execPoolStatus_changes s
  | tagStatus => exact execTagStatus_changes s
  | abort => exact execAbort_changes s
  | relocate => exact execRelocate_changes s
  | discard => exact execDiscard_changes s
  | read => exact execRead_changes s
  | erase => exact execErase_changes s
  | write => exact execWrite_changes s
  | close => exact execClose_changes s
  | laneReset => exact execLaneReset_changes s
  | partReset => exact execPartReset_changes s
  | data => exact execData_changes s
  | transferTimeout slot => exact execTransferTimeout_changes s slot
  | dataRoughEnd x ending => exact endPass_changes s .rough x ending fun _ b n hm => hm.roughPassed x b n
  | terminatorRoughEnd x ending => exact endPass_changes s .terminator x ending fun _ b _ hm => hm.modRecord x b _
  | finalEnd x ending => exact endPass_changes s .final x ending fun _ b n hm => hm.finalPassed x b n
  | singleEnd x ending => exact endPass_changes s .single x ending fun _ b n hm => hm.singlePassed x b n
  | senseEnd x noise => exact execSenseEnd_changes s x noise
  | decodeEnd x found => exact execDecodeEnd_changes s x found
  | inPlaceEraseEnd x ending => exact execInPlaceEraseEnd_changes s x ending
  | reserveEraseEnd x ending => exact execReserveEraseEnd_changes s x ending
  | directoryWriteEnd x ending => exact execDirectoryWriteEnd_changes s x ending
  | directoryReadEnd scan => exact execDirectoryReadEnd_changes s scan
  | surveyEnd x => exact execSurveyEnd_changes s x
  | rspDeparture => exact execRspDeparture_changes s
  | dataFrameDeparture => exact execDataFrameDeparture_changes s
  | noteDeparture => exact execNoteDeparture_changes s
  | linkControlDeparture => exact execLinkControlDeparture_changes s
  | wpChanged => exact execWpChanged_changes s
  | rstAsserted => exact execRstAsserted_changes s
  | rstReleased => exact execRstReleased_changes s

end Sys2Proof.Machine
end

