-- ==== Sys2Proof/Proofs/KeptForms.lean ====
section
/-! PROOFS. The forms that each change keeps, and the statements about every step and every command that follow from them. -/

namespace Sys2Proof.Machine

variable {c : Instr} {s m : State}

/-- A step is a chain of changes, from the state with the command taken off the queue. -/
theorem step_changes {s t : State} (h : step s = .next t) : t = s ∨ ∃ c rest, State.Changes c { s with pending := rest } t := by
  unfold step at h
  split at h
  · cases h; exact .inl rfl
  · exact .inr ⟨_, _, exec_changes _ _ t h⟩

theorem State.tag_powerOn (arrays : Vector FlashArray 4) (engine : Option Operation) (wp inReset : Bool) (pending : List Instr)
    (t : Nat) : (State.powerOn arrays engine wp inReset pending).tag t = none := by
  simp only [State.powerOn, State.tag, Rqu.powerOn, Vector.getElem?_replicate]
  split <;> rfl

/-! ### Tags (R149) -/

/-- A tag table that differs in a legal entry of one tag. -/
theorem State.TagsLegal.set (h : s.TagsLegal) {e : TagEntry} (he : TagState.legalFor e.kind e.state = true)
    (hm : ∀ u g, m.tag u = some g → g = e ∨ s.tag u = some g) : m.TagsLegal := fun u g hu => by
  rcases hm u g hu with rfl | hg
  · exact he
  · exact h u g hg

/-- What setting a tag leaves of the table. -/
theorem State.tag_setTag_cases {t u : Nat} {e g : TagEntry} (h : (s.setTag t (some e)).tag u = some g) :
    g = e ∨ s.tag u = some g := by
  by_cases hu : u = t
  · subst hu
    by_cases hlt : u < 64
    · rw [s.tag_setTag_same _ hlt] at h; exact .inl (Option.some.inj h).symm
    · exact absurd (State.tag_lt _ h) hlt
  · rw [s.tag_setTag_ne _ hu] at h; exact .inr h

theorem TagState.legalFor_replying (k : ReqKind) : TagState.legalFor k .replying = true := by
  cases k <;> rfl

theorem State.queueStaged_tag (s : State) (t u : Nat) : (s.queueStaged t).tag u = s.tag u := by
  unfold State.queueStaged
  split <;> rfl

theorem State.Change.tagsLegal (hc : s.Change c m) (h : s.TagsLegal) : m.TagsLegal := by
  cases hc with
  | lanes v _ => exact h
  | pool p => exact h
  | rqu r htags _ _ => exact fun t e ht => h t e (by simpa [State.tag, htags] using ht)
  | ring g _ => exact h
  | tags v hv =>
    intro t g ht
    obtain ⟨e, he, hkept⟩ := hv t g ht
    exact hkept.1 (h t e he)
  | comeLive t e _ hlegal => exact h.set hlegal fun _ _ => State.tag_setTag_cases
  | link l _ => exact h
  | finish t st fields src =>
    intro u g hu
    rw [State.finish_tag] at hu
    split at hu
    · obtain ⟨e, -, rfl⟩ := Option.map_eq_some_iff.mp hu
      exact TagState.legalFor_replying _
    · exact h u g hu
  | answer t e st fields src _ =>
    exact h.set (e := { e with state := .replying }) (TagState.legalFor_replying _) fun _ _ => State.tag_setTag_cases
  | stage t e st ht hkind _ hst =>
    intro u g hu
    rw [State.queueStaged_tag, State.modTag_of_some _ _ ht] at hu
    rcases State.tag_setTag_cases hu with rfl | hg
    · rcases hst with rfl | rfl <;> simp [hkind, TagState.legalFor]
    · exact h u g hg
  | refuse f st fields _ => exact h
  | interim q rest _ _ _ => exact h
  | settings new _ _ => exact h
  | accept f bytes _ _ => exact h
  | sync e bytes _ => exact h
  | toggleWp _ => exact h
  | powerOn arrays engine inReset _ =>
    intro t e ht
    rw [State.tag_powerOn] at ht
    cases ht

/-- Settles O5: each change of a tag keeps it in a state of its kind. -/
theorem tagsStayLegal : Obligations.TagsStayLegal := fun s t h hstep => by
  rcases step_changes hstep with rfl | ⟨c, rest, hch⟩
  · exact h
  · exact hch.keep (P := State.TagsLegal) h fun _ _ hc => hc.tagsLegal

/-! ### Capacities, settings and the SYNC answer -/

/-- The capacities with the ranges of the settings and the number under a due SYNC answer. -/
def State.InBounds (s : State) : Prop :=
  s.WithinCapacity ∧ s.rqu.settings.inRange = true ∧ s.link.syncedWhenDue

/-- A change that leaves intake, refusals and a reply held back, the ring, the work queues, the settings and the SYNC answer. -/
theorem State.InBounds.congr (h : s.InBounds) (hin : m.link.intake = s.link.intake)
    (hq : m.link.queue.countP QueueEntry.isRefusal = s.link.queue.countP QueueEntry.isRefusal)
    (hd : ∀ q, m.link.deferred = some q → s.link.deferred = some q ∨ q.isRefusal = false) (hring : m.rqu.ring = s.rqu.ring)
    (hlanes : ∀ x, (m.lane x).workQueue = (s.lane x).workQueue) (hset : m.rqu.settings = s.rqu.settings)
    (hsync : s.link.syncedWhenDue → m.link.syncedWhenDue) : m.InBounds := by
  obtain ⟨⟨h1, h2, h3, h4, h5⟩, h6, h7⟩ := h
  exact ⟨⟨hin ▸ h1, hq ▸ h2, fun q hm => (hd q hm).elim (h3 q) id, hring ▸ h4, fun x => hlanes x ▸ h5 x⟩, hset ▸ h6, hsync h7⟩

/-- A final reply takes a place, and never a shared refusal place. -/
theorem Link.placeFinal_refusals {l : Link} {e : QueueEntry} (he : e.reply.cls = .final) :
    (l.placeFinal e).queue.countP QueueEntry.isRefusal = l.queue.countP QueueEntry.isRefusal := by
  have hn : e.isRefusal = false := by simp [QueueEntry.isRefusal, he]
  unfold Link.placeFinal
  split_ifs
  · rfl
  · rw [List.countP_map]
    refine List.countP_congr fun q _ => ?_
    rw [Function.comp_apply]
    split
    · rename_i hq
      simp only [QueueEntry.interimOf, Bool.and_eq_true, decide_eq_true_eq] at hq
      simp [QueueEntry.isRefusal, he, hq.1]
    · rfl
  · simp [List.countP_append, hn]

/-- What placing a final reply holds back. -/
theorem Link.placeFinal_deferred {l : Link} {e q : QueueEntry} (h : (l.placeFinal e).deferred = some q) :
    l.deferred = some q ∨ q = e := by
  unfold Link.placeFinal at h
  split_ifs at h
  · exact .inr (Option.some.inj h).symm
  · exact .inl h
  · exact .inl h

theorem Link.placeFinal_synced {l : Link} (e : QueueEntry) (h : l.syncedWhenDue) : (l.placeFinal e).syncedWhenDue := by
  rw [show l.placeFinal e = _ from l.placeFinal_frame e]; exact h

theorem Link.placeFinal_intake (l : Link) (e : QueueEntry) : (l.placeFinal e).intake = l.intake := by
  rw [show l.placeFinal e = _ from l.placeFinal_frame e]

/-- A final reply that is placed, whatever becomes of its tag. -/
theorem State.InBounds.placeFinal (h : s.InBounds) {e : QueueEntry} (he : e.reply.cls = .final)
    (hlink : m.link = s.link.placeFinal e) (hring : m.rqu.ring = s.rqu.ring)
    (hlanes : m.lanes = s.lanes) (hset : m.rqu.settings = s.rqu.settings) : m.InBounds := by
  refine h.congr (by rw [hlink, Link.placeFinal_intake]) (by rw [hlink, Link.placeFinal_refusals he]) (fun q hd => ?_) hring
    (fun x => by simp [State.lane, hlanes]) hset (fun hs => hlink ▸ Link.placeFinal_synced e hs)
  rw [hlink] at hd
  exact (Link.placeFinal_deferred hd).imp id fun hq => by simp [hq, QueueEntry.isRefusal, he]

theorem State.powerOn_workQueue (arrays : Vector FlashArray 4) (engine : Option Operation) (wp inReset : Bool)
    (pending : List Instr) (x : Nat) : ((State.powerOn arrays engine wp inReset pending).lane x).workQueue = [] := by
  by_cases hx : x < 4 <;> simp [State.powerOn, State.lane, Lane.powerOn, hx]

theorem State.Change.inBounds (hc : s.Change c m) (h : s.InBounds) : m.InBounds := by
  cases hc with
  | lanes v hv =>
    obtain ⟨⟨h1, h2, h3, h4, h5⟩, h6, h7⟩ := h
    exact ⟨⟨h1, h2, h3, h4, fun x => (hv x).2.trans (max_le (h5 x) le_rfl)⟩, h6, h7⟩
  | pool p => exact h
  | rqu r _ hring hset => exact h.congr rfl rfl (fun _ => .inl) hring (fun _ => rfl) hset id
  | ring g hg =>
    obtain ⟨⟨h1, h2, h3, -, h5⟩, h6, h7⟩ := h
    exact ⟨⟨h1, h2, h3, hg, h5⟩, h6, h7⟩
  | tags v _ => exact h
  | comeLive t e _ _ => exact h
  | link l hl =>
    obtain ⟨⟨h1, h2, h3, h4, h5⟩, h6, h7⟩ := h
    obtain ⟨-, hin, hq, hd, hsync⟩ := hl
    exact ⟨⟨hin.trans h1, hq.countP_le.trans h2, fun q hm => h3 q (hd q hm).1, h4, h5⟩, h6, hsync h7⟩
  | finish t st fields src =>
    rcases s.finish_cases t st fields src with ⟨heq, -⟩ | ⟨e, -, -, heq⟩
    · rwa [heq]
    · rw [heq]
      exact h.placeFinal (e := QueueEntry.finalOf t e.kind st fields src) rfl rfl rfl rfl rfl
  | answer t e st fields src _ =>
    exact h.placeFinal (e := QueueEntry.finalOf t e.kind st fields src) rfl rfl rfl rfl rfl
  | stage t e st ht _ _ _ =>
    rw [State.modTag_of_some _ _ ht]
    unfold State.queueStaged
    split
    · exact h
    · exact h.congr rfl (by simp [List.countP_append, QueueEntry.isRefusal]) (fun _ => .inl) rfl (fun _ => rfl) rfl id
  | refuse f st fields hroom =>
    obtain ⟨⟨h1, -, h3, h4, h5⟩, h6, h7⟩ := h
    refine ⟨⟨h1, ?_, h3, h4, h5⟩, h6, h7⟩
    simp only [State.refuse, List.countP_append, List.countP_singleton]
    split <;> omega
  | interim q rest hq _ hcls =>
    refine h.congr rfl ?_ (fun _ hd => by cases hd) rfl (fun _ => rfl) rfl id
    have hdef : ∀ d ∈ s.link.deferred.toList, ¬d.isRefusal = true := fun d hd => by
      simp [h.1.2.2.1 d (by simpa using hd)]
    rw [List.countP_append, List.countP_eq_zero.mpr hdef, hq, List.countP_cons]
    simp [QueueEntry.isRefusal, hcls]
  | settings new _ hnew =>
    obtain ⟨h5, h6, h7⟩ := h
    exact ⟨h5, hnew h6, h7⟩
  | accept f bytes _ hroom =>
    obtain ⟨⟨-, h2, h3, h4, h5⟩, h6, h7⟩ := h
    refine ⟨⟨?_, h2, h3, h4, h5⟩, h6, h7⟩
    simp only [Link.accept, Link.owe, List.length_append, List.length_singleton]
    omega
  | sync e bytes _ =>
    obtain ⟨⟨-, h2, h3, h4, h5⟩, h6, -⟩ := h
    exact ⟨⟨Nat.zero_le _, h2, h3, h4, h5⟩, h6, fun _ => rfl⟩
  | toggleWp _ => exact h
  | powerOn arrays engine inReset _ =>
    refine ⟨⟨Nat.zero_le _, Nat.zero_le _, by simp [State.powerOn, Link.powerOn], Nat.zero_le _, fun x => ?_⟩, rfl, fun _ => rfl⟩
    rw [State.powerOn_workQueue]
    exact Nat.zero_le _

/-! ### Places (R151) -/

/-- A change that leaves every entry's being final, and what is queued and held back and being sent. -/
theorem State.RepliesPlaced.congr (h : s.RepliesPlaced) (htag : ∀ t, m.tag t = s.tag t) (hq : m.link.queue = s.link.queue)
    (hd : m.link.deferred = s.link.deferred) (htx : m.link.tx = s.link.tx) : m.RepliesPlaced := by
  obtain ⟨h1, h2, h3⟩ := h
  refine ⟨by rwa [hq], fun t e ht => ?_, fun q hm => ?_⟩
  · rw [htag] at ht; rw [hq]; exact h2 t e ht
  · rw [hd] at hm
    simpa only [htag, Link.sendingInterim, Link.sendingReply, hq, htx] using h3 q hm

/-- Changes of entries that end no tag and leave a held page held. -/
theorem State.RepliesPlaced.retag (h : s.RepliesPlaced) (hlink : m.link = s.link)
    (htag : ∀ t g, m.tag t = some g → ∃ e, s.tag t = some e ∧ e.KeptBy g) : m.RepliesPlaced := by
  obtain ⟨h1, h2, h3⟩ := h
  unfold State.RepliesPlaced
  rw [hlink]
  refine ⟨h1, fun t g ht hg q hq hres => ?_, fun q hd => ⟨(h3 q hd).1, (h3 q hd).2.1, fun g ht => ?_⟩⟩
  · obtain ⟨e, he, -, hrep, hheld⟩ := htag t g ht
    obtain ⟨hcls, hst⟩ := h2 t e he (fun hr => hg (hrep.mpr hr)) q hq hres
    exact ⟨hcls, hheld hst⟩
  · obtain ⟨e, he, -, hrep, -⟩ := htag _ g ht
    exact hrep.mpr ((h3 q hd).2.2 e he)

/-- The tag of a reply held back has its interim reply at the head of the queue. -/
theorem State.RepliesPlaced.deferred_tag (h : s.RepliesPlaced) {q : QueueEntry} (hd : s.link.deferred = some q) :
    s.link.queue.any (QueueEntry.reservedFor q.reply.tag) = true := by
  obtain ⟨-, -, h3⟩ := h
  obtain ⟨-, hs, -⟩ := h3 q hd
  unfold Link.sendingInterim at hs
  rcases hq : s.link.queue with _ | ⟨r, rest⟩
  · simp [hq] at hs
  · simp only [hq, Bool.and_eq_true] at hs
    simp [QueueEntry.reservedFor_of_interimOf hs.2]

/-- A tag whose place is empty comes live. -/
theorem State.RepliesPlaced.comeLive (h : s.RepliesPlaced) {t : Nat} (hfree : s.PlaceFree t) (e : TagEntry) :
    (s.setTag t (some e)).RepliesPlaced := by
  have hne : ∀ q ∈ s.link.queue, QueueEntry.reservedFor t q = false := by simpa using hfree.2
  refine ⟨h.1, fun u g hu hg q hq hres => ?_, fun q hd => ⟨(h.2.2 q hd).1, (h.2.2 q hd).2.1, fun g hu => ?_⟩⟩
  · by_cases hut : u = t
    · subst hut
      rw [hne q hq] at hres; cases hres
    · rw [s.tag_setTag_ne _ hut] at hu
      exact h.2.1 u g hu hg q hq hres
  · by_cases hut : q.reply.tag = t
    · have := h.deferred_tag hd
      rw [hut, hfree.2] at this; cases this
    · rw [s.tag_setTag_ne _ hut] at hu
      exact (h.2.2 q hd).2.2 g hu

/-- A reply joins the tail: one of no tag's place, or the first of its tag's place, that its tag may have there. -/
theorem State.RepliesPlaced.append (h : s.RepliesPlaced) {r : QueueEntry} (htag : ∀ t, m.tag t = s.tag t)
    (hlink : m.link = { s.link with queue := s.link.queue ++ [r] })
    (hfree : r.isRefusal = false → s.link.queue.any (QueueEntry.reservedFor r.reply.tag) = false)
    (hmay : r.isRefusal = false → ∀ e, s.tag r.reply.tag = some e → e.state ≠ .replying →
      r.reply.cls = .interim ∧ (e.state = .staged ∨ e.state = .heldFailed)) : m.RepliesPlaced := by
  obtain ⟨h1, h2, h3⟩ := h
  have hres : ∀ u, r.reservedFor u = true → r.isRefusal = false ∧ r.reply.tag = u := fun u hu => by
    simpa [QueueEntry.reservedFor] using hu
  unfold State.RepliesPlaced
  rw [hlink]
  refine ⟨fun u => ?_, fun u e hu he q hq hq' => ?_, fun q hd => ⟨(h3 q hd).1, ?_, fun e hu => ?_⟩⟩
  · rw [List.countP_append, List.countP_singleton]
    split
    · obtain ⟨hn, rfl⟩ := hres u ‹_›
      rw [List.countP_eq_zero.mpr (by simpa using hfree hn)]
    · exact h1 u
  · rw [htag] at hu
    rcases List.mem_append.mp hq with hq | hq
    · exact h2 u e hu he q hq hq'
    · obtain rfl := List.mem_singleton.mp hq
      obtain ⟨hn, rfl⟩ := hres u hq'
      exact hmay hn e hu he
  · have hs := (h3 q hd).2.1
    unfold Link.sendingInterim at hs ⊢
    rcases hq : s.link.queue with _ | ⟨r', rest⟩
    · simp [hq] at hs
    · simpa [hq, Link.sendingReply] using hs
  · rw [htag] at hu
    exact (h3 q hd).2.2 e hu

/-- Replies leave the queue or a reply held back is given up. -/
theorem State.RepliesPlaced.prune (h : s.RepliesPlaced) {l : Link} (hl : s.link.KeptBy l) :
    State.RepliesPlaced { s with link := l } := by
  obtain ⟨h1, h2, h3⟩ := h
  obtain ⟨-, -, hq, hd, -⟩ := hl
  refine ⟨fun t => (hq.countP_le).trans (h1 t), fun t e ht he q hm => h2 t e ht he q (hq.subset hm), fun q hm => ?_⟩
  obtain ⟨hold, hsend⟩ := hd q hm
  exact ⟨(h3 q hold).1, hsend (h3 q hold).2.1, (h3 q hold).2.2⟩

/-- The interim frame leaves, and the reply held back for it joins the tail in its place. -/
theorem State.RepliesPlaced.interim (h : s.RepliesPlaced) {q : QueueEntry} {rest : List QueueEntry} (hq : s.link.queue = q :: rest) :
    State.RepliesPlaced { s with link := { s.link with tx := none, queue := rest ++ s.link.deferred.toList, deferred := none } } := by
  obtain ⟨h1, h2, h3⟩ := h
  rw [hq] at h1 h2
  have hhead : ∀ d, s.link.deferred = some d → q.interimOf d.reply.tag = true := fun d hd => by
    have hs := (h3 d hd).2.1
    simp only [Link.sendingInterim, hq, Bool.and_eq_true] at hs
    exact hs.2
  refine ⟨fun t => ?_, fun t e ht he r hr hres => ?_, fun r hr => by cases hr⟩
  · change (rest ++ s.link.deferred.toList).countP _ ≤ 1
    have hone := h1 t
    rw [List.countP_cons] at hone
    rw [List.countP_append]
    rcases hd : s.link.deferred with _ | d
    · simp only [Option.toList_none, List.countP_nil]; omega
    · have hint := hhead d hd
      have hsame : d.reservedFor t = q.reservedFor t := by
        rw [QueueEntry.reservedFor_of_interimOf hint]
        simp [QueueEntry.reservedFor, QueueEntry.isRefusal, (h3 d hd).1]
      simp only [Option.toList_some, List.countP_singleton, hsame]
      exact hone
  · rcases List.mem_append.mp hr with hr | hr
    · exact h2 t e ht he r (List.mem_cons_of_mem _ hr) hres
    · have hd : s.link.deferred = some r := by simpa using hr
      simp only [QueueEntry.reservedFor, Bool.and_eq_true, decide_eq_true_eq] at hres
      obtain rfl := hres.2
      exact absurd ((h3 r hd).2.2 e ht) he

theorem State.Change.repliesPlaced (hc : s.Change c m) (h : s.RepliesPlaced) : m.RepliesPlaced := by
  cases hc with
  | lanes v _ => exact h
  | pool p => exact h
  | rqu r htags _ _ => exact h.congr (fun t => by simp [State.tag, htags]) rfl rfl rfl
  | ring g _ => exact h
  | tags v hv => exact h.retag rfl hv
  | comeLive t e hfree _ => exact h.comeLive hfree e
  | link l hl => exact h.prune hl
  | finish t st fields src => exact h.finish t st fields src
  | answer t e st fields src hfree =>
    have hadmit := h.comeLive hfree { e with state := .replying }
    have hplace := Link.placeFinal_tail s.link (QueueEntry.finalOf t e.kind st fields src) hfree.2
    refine hadmit.append (r := QueueEntry.finalOf t e.kind st fields src) (fun _ => rfl) hplace (fun _ => hfree.2)
      fun _ g hg hne => ?_
    rcases State.tag_setTag_cases hg with rfl | hg
    · exact absurd rfl hne
    · cases hfree.1.symm.trans hg
  | stage t e st ht hkind hstate hst =>
    have hnone : s.link.queue.any (QueueEntry.reservedFor t) = false := by
      rw [List.any_eq_false]
      intro q hq hres
      obtain ⟨-, hheld⟩ := h.2.1 t e ht (by simp [hstate]) q hq hres
      rcases hheld with hh | hh <;> cases hstate.symm.trans hh
    have hset : (s.setTag t (some { e with state := st })).RepliesPlaced := by
      refine ⟨h.1, fun u g hu hg q hq hres => ?_, fun q hd => ⟨(h.2.2 q hd).1, (h.2.2 q hd).2.1, fun g hu => ?_⟩⟩
      · by_cases hut : u = t
        · subst hut
          exact absurd hres (by simpa using (List.any_eq_false.mp hnone) q hq)
        · rw [s.tag_setTag_ne _ hut] at hu
          exact h.2.1 u g hu hg q hq hres
      · by_cases hut : q.reply.tag = t
        · have := h.deferred_tag hd
          rw [hut, hnone] at this; cases this
        · rw [s.tag_setTag_ne _ hut] at hu
          exact (h.2.2 q hd).2.2 g hu
    have hnew : (s.setTag t (some { e with state := st })).tag t = some { e with state := st } :=
      s.tag_setTag_same _ (s.tag_lt ht)
    rw [State.modTag_of_some _ _ ht]
    unfold State.queueStaged
    rw [hnew]
    refine hset.append (fun _ => rfl) rfl (fun _ => hnone) fun _ g hg hne => ⟨rfl, ?_⟩
    dsimp only at hg
    obtain rfl := Option.some.inj (hnew.symm.trans hg)
    exact hst
  | refuse f st fields _ => exact h.append (fun _ => rfl) rfl (fun hn => by cases hn) fun hn => by cases hn
  | interim q rest hq _ _ => exact h.interim hq
  | settings new _ _ => exact h
  | accept f bytes _ _ => exact h
  | sync e bytes _ => exact h
  | toggleWp _ => exact h
  | powerOn arrays engine inReset _ =>
    refine ⟨fun t => Nat.zero_le _, fun t e ht => ?_, fun q hd => by cases hd⟩
    rw [State.tag_powerOn] at ht
    cases ht

/-- Settles O6: each change keeps the capacities, the ranges and the places. -/
theorem capacitiesKept : Obligations.CapacitiesKept := fun s t hstep => by
  rcases step_changes hstep with rfl | ⟨c, rest, hch⟩
  · exact ⟨fun h1 h2 h3 => ⟨h1, h2, h3⟩, id⟩
  · exact ⟨fun h1 h2 h3 => hch.keep (P := State.InBounds) ⟨h1, h2, h3⟩ fun _ _ hc => hc.inBounds,
      fun h => hch.keep (P := State.RepliesPlaced) h fun _ _ hc => hc.repliesPlaced⟩

/-! ### OFFLINE lanes, input lines, settings, the expected number -/

theorem State.queueStaged_lane (s : State) (t x : Nat) : (s.queueStaged t).lane x = s.lane x := by
  unfold State.queueStaged
  split <;> rfl

theorem State.Change.lane_kept (hc : s.Change c m) (ha : c ≠ .rstAsserted) (hr : c ≠ .rstReleased) (x : Nat) :
    (s.lane x).KeptBy (m.lane x) := by
  cases hc with
  | lanes v hv => exact hv x
  | finish t st fields src => rw [(s.finish_frame t st fields src).lane]; exact .refl _
  | stage t e st _ _ _ _ => rw [State.queueStaged_lane, State.modTag_lane]; exact .refl _
  | powerOn arrays engine inReset h => exact (h.elim ha hr).elim
  | _ => exact .refl _

/-- Settles O7: no change but those of RST# wakes an OFFLINE lane at rest. -/
theorem offlineLanesRest : Obligations.OfflineLanesRest := fun c s t x hrest hexec ha hr =>
  (exec_changes s c t hexec).keep (P := fun m => (m.lane x).atRestOffline) hrest fun _ _ hc => (hc.lane_kept ha hr x).1

theorem State.queueStaged_inputs (s : State) (t : Nat) : s.sameInputs (s.queueStaged t) := by
  unfold State.queueStaged
  split <;> exact ⟨rfl, rfl, rfl⟩

theorem State.Change.inputs (hc : s.Change c m) :
    m.pending = s.pending ∧ (c ≠ .wpChanged → m.wpAsserted = s.wpAsserted)
      ∧ (c ≠ .rstAsserted → c ≠ .rstReleased → m.inReset = s.inReset) := by
  have hsame (h : s.sameInputs m) : m.pending = s.pending ∧ (c ≠ .wpChanged → m.wpAsserted = s.wpAsserted)
      ∧ (c ≠ .rstAsserted → c ≠ .rstReleased → m.inReset = s.inReset) := ⟨h.2.2, fun _ => h.1, fun _ _ => h.2.1⟩
  cases hc with
  | finish t st fields src => exact hsame (s.finish_frame t st fields src).inputs
  | stage t e st _ _ _ _ =>
    obtain ⟨hwp, hreset, hpending⟩ := (s.modTag t (fun e => { e with state := st })).queueStaged_inputs t
    obtain ⟨-, -, -, -, hwp', hreset', hpending'⟩ := s.modTag_frame t (fun e => { e with state := st })
    exact hsame ⟨hwp.trans hwp', hreset.trans hreset', hpending.trans hpending'⟩
  | toggleWp h => exact ⟨rfl, fun hn => absurd h hn, fun _ _ => rfl⟩
  | powerOn arrays engine inReset h => exact ⟨rfl, fun _ => rfl, fun ha hr => (h.elim ha hr).elim⟩
  | _ => exact hsame ⟨rfl, rfl, rfl⟩

/-- Settles O8: each change leaves the waiting commands, and only those of the line commands change the input lines. -/
theorem execLeavesQueueAndPins : Obligations.ExecLeavesQueueAndPins := fun c s t hexec =>
  (exec_changes s c t hexec).keep
    (P := fun m => m.pending = s.pending ∧ (c ≠ .wpChanged → m.wpAsserted = s.wpAsserted)
      ∧ (c ≠ .rstAsserted → c ≠ .rstReleased → m.inReset = s.inReset))
    ⟨rfl, fun _ => rfl, fun _ _ => rfl⟩ fun _ _ hc h => by
      obtain ⟨h1, h2, h3⟩ := hc.inputs
      exact ⟨h1.trans h.1, fun hw => (h2 hw).trans (h.2.1 hw), fun ha hr => (h3 ha hr).trans (h.2.2 ha hr)⟩

theorem State.queueStaged_rqu (s : State) (t : Nat) : (s.queueStaged t).rqu = s.rqu := by
  unfold State.queueStaged
  split <;> rfl

/-- The request unit but for its tags has the same settings. -/
theorem Rqu.sameButTags.settings {r q : Rqu} (h : r.sameButTags q) : q.settings = r.settings := by rw [h]

theorem State.Change.settings_eq (hc : s.Change c m) (hconf : c ≠ .configure) (ha : c ≠ .rstAsserted) (hr : c ≠ .rstReleased) :
    m.rqu.settings = s.rqu.settings := by
  cases hc with
  | rqu r _ _ hset => exact hset
  | finish t st fields src => exact (s.finish_frame t st fields src).rqu.settings
  | stage t e st _ _ _ _ =>
    obtain ⟨-, -, -, htags, -⟩ := s.modTag_frame t (fun e => { e with state := st })
    rw [State.queueStaged_rqu]; exact htags.settings
  | settings new h _ => exact absurd h hconf
  | powerOn arrays engine inReset h => exact (h.elim ha hr).elim
  | _ => rfl

/-- Settles O9: no change but those of CONFIGURE and RST# sets the settings. -/
theorem settingsOnlyByConfigure : Obligations.SettingsOnlyByConfigure := fun c s t hexec hconf ha hr =>
  (exec_changes s c t hexec).keep (P := fun m => m.rqu.settings = s.rqu.settings) rfl fun _ _ hc h =>
    (hc.settings_eq hconf ha hr).trans h

theorem State.queueStaged_expected (s : State) (t : Nat) : (s.queueStaged t).link.expected = s.link.expected := by
  unfold State.queueStaged
  split <;> rfl

theorem State.Change.expected_eq (hc : s.Change c m) (hseq : ∀ bytes, c ≠ .sequencedFrame bytes) (hsync : ∀ bytes, c ≠ .sync bytes)
    (ha : c ≠ .rstAsserted) (hr : c ≠ .rstReleased) : m.link.expected = s.link.expected := by
  cases hc with
  | link l hl => exact hl.1
  | finish t st fields src => rw [(s.finish_frame t st fields src).link]
  | answer t e st fields src _ =>
    have hframe := s.link.placeFinal_frame (QueueEntry.finalOf t e.kind st fields src)
    exact (congrArg Link.expected hframe).trans rfl
  | stage t e st _ _ _ _ => rw [State.queueStaged_expected, State.modTag_link]
  | accept f bytes h _ => exact absurd h (hseq bytes)
  | sync e bytes h => exact absurd h (hsync bytes)
  | powerOn arrays engine inReset h => exact (h.elim ha hr).elim
  | _ => rfl

/-- With no lane concerned, the end of a happening leaves the expected number. -/
theorem State.conclude_nil_expected (s m : State) : (s.conclude [] m).link.expected = m.link.expected := by
  obtain ⟨-, -, -, -, -, -, -, hexp, -⟩ := (m.poolCheck s.freeCount).arbitrate_frame
  rw [State.conclude_nil, hexp, (m.poolCheck_frame _).1]

/-- The expected number moves when the expected frame is accepted, and by one. -/
theorem Link.takeSequenced_expected {l : Link} {f : LineFrame} (h : (l.takeSequenced f).expected ≠ l.expected) :
    (l.takeSequenced f).expected = l.expected + 1 ∧ l.intake.length < 16 := by
  have hnak : ∀ r, (l.testNak r).expected = l.expected := fun r => by unfold Link.testNak; split <;> rfl
  unfold Link.takeSequenced at h ⊢
  dsimp only at h ⊢
  split at h
  · split at h
    · rename_i hd hroom
      rw [if_pos hd, if_pos hroom]
      exact ⟨rfl, hroom⟩
    · exact absurd (hnak _) h
  · split at h
    · exact absurd (hnak _) h
    · exact absurd rfl h

/-- Settles O10: only an acceptance, a host SYNC and RST# change the expected number, and an acceptance moves it by one. -/
theorem expectedNumberMoves : Obligations.ExpectedNumberMoves := fun c s t hexec hne => by
  by_cases hseq : ∃ bytes, c = .sequencedFrame bytes
  · obtain ⟨bytes, rfl⟩ := hseq
    refine .inl ⟨bytes, rfl, ?_⟩
    change execSequencedFrame bytes s = .next t at hexec
    unfold execSequencedFrame at hexec
    split at hexec
    · cases hexec; exact absurd rfl hne
    · split at hexec
      · cases hexec
        rw [State.conclude_nil_expected] at hne ⊢
        exact Link.takeSequenced_expected hne
      · cases hexec
  by_cases hsync : ∃ bytes, c = .sync bytes
  · exact .inr (.inl hsync)
  by_cases ha : c = .rstAsserted
  · exact .inr (.inr (.inl ha))
  by_cases hr : c = .rstReleased
  · exact .inr (.inr (.inr hr))
  · refine absurd ((exec_changes s c t hexec).keep (P := fun m => m.link.expected = s.link.expected) rfl fun _ _ hc h => ?_) hne
    exact (hc.expected_eq (fun bytes h => hseq ⟨bytes, h⟩) (fun bytes h => hsync ⟨bytes, h⟩) ha hr).trans h

end Sys2Proof.Machine
end

