-- ==== Sys2Proof/Proofs/StepAndReset.lean ====
section
/-! PROOFS. The step, the reset state, and the input lines (sections 9.6, 10.8, 11.1). -/

namespace Sys2Proof.Machine

/-! ### The step and reset -/

/-- Settles O1: both clauses are what step does on its two forms of queue. -/
theorem stepRunsFrontCommand : Obligations.StepRunsFrontCommand := by
  refine ⟨fun s c rest h => ?_, fun s h => ?_⟩
  · simp only [step, h]
  · simp only [step, h]

theorem State.lane_powerOn (arrays : Vector FlashArray 4) (engine : Option Operation) (wp inReset : Bool) (pending : List Instr)
    {x : Nat} (hx : x < 4) : (State.powerOn arrays engine wp inReset pending).lane x = Lane.powerOn arrays[x] engine := by
  simp [State.powerOn, State.lane, hx]

theorem State.slot_powerOn (arrays : Vector FlashArray 4) (engine : Option Operation) (wp inReset : Bool) (pending : List Instr)
    (i : Nat) : (State.powerOn arrays engine wp inReset pending).slot i = Slot.powerOn := by
  by_cases hi : i < 96 <;> simp [State.powerOn, State.slot, Pool.powerOn, hi]

/-- At power-on every slot is FREE. -/
theorem State.freeCount_powerOn (arrays : Vector FlashArray 4) (engine : Option Operation) (wp inReset : Bool)
    (pending : List Instr) : (State.powerOn arrays engine wp inReset pending).freeCount = 96 := by
  have hall : ∀ i ∈ slotNumbers,
      decide (((State.powerOn arrays engine wp inReset pending).slot i).state = .free) = true := fun i _ => by
    rw [State.slot_powerOn]; rfl
  rw [State.freeCount, State.slotsIn, List.filter_eq_self.mpr hall]
  rfl

/-- Settles O2: reset is the power-on state, read field by field. -/
theorem resetState : Obligations.ResetState := by
  refine ⟨fun t => State.tag_powerOn _ _ _ _ _ t, rfl, rfl, rfl, rfl, rfl, rfl, rfl, rfl, rfl, rfl, rfl, rfl, rfl, rfl, rfl, rfl, rfl,
    rfl, rfl, rfl, fun i => ?_, State.freeCount_powerOn _ _ _ _ _, rfl, fun x hx => ?_⟩
  · have hslot : State.reset.slot i = Slot.powerOn := State.slot_powerOn _ _ _ _ _ i
    rw [hslot]
    exact ⟨rfl, rfl⟩
  · have hlane : State.reset.lane x = Lane.powerOn _ _ := State.lane_powerOn _ _ _ _ _ hx
    rw [hlane]
    exact ⟨rfl, rfl, rfl, rfl, rfl, rfl, rfl, rfl, rfl, rfl, rfl⟩

/-- Settles O3: at power-on there are no tags and no replies, and every slot is FREE. -/
theorem resetIsSafe : Obligations.ResetIsSafe := by
  refine ⟨State.slotsFormed_powerOn _ _ _ _ _, fun t e ht => ?_, ?_, ?_, rfl, fun _ => rfl⟩
  · cases (State.tag_powerOn _ _ _ _ _ t).symm.trans ht
  · refine ⟨Nat.zero_le _, Nat.zero_le _, fun q hq => (by cases hq), Nat.zero_le _, fun x => ?_⟩
    have hwork : (State.reset.lane x).workQueue = [] := State.powerOn_workQueue _ _ _ _ _ x
    rw [hwork]
    exact Nat.zero_le _
  · refine ⟨fun t => Nat.zero_le _, fun t e ht => ?_, fun q hq => by cases hq⟩
    cases (State.tag_powerOn _ _ _ _ _ t).symm.trans ht

end Sys2Proof.Machine
end

