-- ==== Sys2Proof/Proofs/InputLines.lean ====
section
/-! PROOFS. The input lines WP# and RST#, and what an operation that is cut short leaves in the array (R16, R161, R179, R180). -/

namespace Sys2Proof.Machine

/-! ### The array after a cut -/

theorem PhysBlock.tear_written {pb : PhysBlock} {w : Written} (h : pb.cells = .written w) (n : Nat) :
    pb.tear n = { pb with cells := .written { w with strips := w.strips.setIfInBounds n { state := .torn, pages := [] } } } := by
  simp [PhysBlock.tear, PhysBlock.setStrip, h, Written.setStrip]

/-- The two directory copies and the other blocks stay as they are. -/
def FlashArray.sameButBlock (a m : FlashArray) (p : Nat) : Prop :=
  m.copyA = a.copyA ∧ m.copyB = a.copyB ∧ ∀ q, q ≠ p → m.block q = a.block q

theorem FlashArray.modBlock_sameButBlock (a : FlashArray) (p : Nat) (f : PhysBlock → PhysBlock) :
    a.sameButBlock (a.modBlock p f) p := ⟨rfl, rfl, fun _ hq => a.block_modBlock_ne f hq⟩

/-- Operation `op` is a pass of strip `n` of block `p`, refused by the starting-state check or not. -/
def Operation.isPass (op : Operation) (p n : Nat) (refused : Bool) : Prop :=
  (∃ pages, op = .rough p n pages refused) ∨ (∃ dataEnd, op = .terminatorRough p n dataEnd refused)
    ∨ (∃ pages, op = .final p n pages refused) ∨ ∃ page, op = .single p n page refused

/-- A pass that R11 refused changes nothing, at its start or when it is cut short. -/
theorem Operation.refused_inert {op : Operation} {p n : Nat} (h : op.isPass p n true) (a : FlashArray) :
    op.cut a = a ∧ op.begin a = a := by
  rcases h with ⟨pages, rfl⟩ | ⟨dataEnd, rfl⟩ | ⟨pages, rfl⟩ | ⟨page, rfl⟩ <;> exact ⟨rfl, rfl⟩

/-- A pass that is cut short tears its strip. -/
theorem Operation.cut_pass {op : Operation} {p n : Nat} (h : op.isPass p n false) (a : FlashArray) :
    op.cut a = a.modBlock p (·.tear n) := by
  rcases h with ⟨pages, rfl⟩ | ⟨dataEnd, rfl⟩ | ⟨pages, rfl⟩ | ⟨page, rfl⟩ <;> rfl

/-- A pass but a FINAL makes a BLANK block WRITTEN as it starts. -/
theorem Operation.begin_pass {op : Operation} {p n : Nat} {kind : PassKind} (h : op.isPass p n false)
    (hk : op.passKind = some kind) (hf : kind ≠ .final) (a : FlashArray) : op.begin a = a.modBlock p (·.beginPass kind) := by
  rcases h with ⟨pages, rfl⟩ | ⟨dataEnd, rfl⟩ | ⟨pages, rfl⟩ | ⟨page, rfl⟩ <;> cases hk
  · rfl
  · rfl
  · exact absurd rfl hf
  · rfl

theorem PassKind.marker_eq (kind : PassKind) : kind.marker = if kind = .single then .swift else .dense := by
  cases kind <;> rfl

theorem PhysBlock.beginPass_blank {pb : PhysBlock} (h : pb.cells = .blank) (kind : PassKind) :
    (pb.beginPass kind).cells
      = .written { marker := if kind = .single then .swift else .dense
                   strips := Vector.replicate 64 { state := .blank, pages := [] }, terminator := none } := by
  simp [PhysBlock.beginPass, h, PassKind.marker_eq, Strip.blank]

/-! ### RST# -/

theorem State.getElem_lanes (s : State) {x : Nat} (hx : x < 4) : s.lanes[x] = s.lane x := by
  simp [State.lane, hx]

theorem execRstAsserted_eq (s : State) :
    exec .rstAsserted s = .next (State.powerOn s.cutArrays none s.wpAsserted true s.pending) := rfl

theorem execRstReleased_eq {s : State} (h : s.inReset = true) :
    exec .rstReleased s
      = .next (State.powerOn (s.lanes.map Lane.array) (some .directoryRead) s.wpAsserted false s.pending) := if_pos h

/-- While RST# is asserted, a command but those of the lines is refused, for no rule of any block acts. -/
theorem unlessReset_held {s : State} (r : Result) (h : s.inReset = true) : unlessReset s r = .refused .heldInReset := if_pos h

/-- Settles O60: the line commands by their definitions, and an operation that is cut short by its kind. -/
theorem inputLines : Obligations.InputLines := by
  refine ⟨fun s h => ⟨s.toggleWp.raiseWpChanged, if_neg (by simp [h]), rfl, rfl, rfl, rfl, rfl, rfl, h, rfl⟩,
    fun s c h => ?_,
    fun s => ⟨_, execRstAsserted_eq s, rfl, rfl, rfl, rfl, rfl, rfl, fun x hx => ?_⟩,
    fun s h => ⟨_, execRstReleased_eq h, rfl, rfl, rfl, rfl, rfl, rfl, fun x hx => ?_⟩, fun s h => if_neg (by simp [h]),
    fun a op p n hp => ⟨fun h => op.refused_inert h a, fun h => ⟨?_, fun w hw => ?_, fun hb kind hk hf => ?_⟩, ?_, ?_, ?_, ?_⟩⟩
  · cases c with
    | wpChanged => exact if_pos h
    | rstAsserted => trivial
    | rstReleased => trivial
    | badFrame ending bytes => exact if_pos h
    | sequencedFrame bytes => exact if_pos h
    | sync bytes => exact if_pos h
    | _ => exact unlessReset_held _ h
  · rw [State.lane_powerOn _ _ _ _ _ hx, State.cutArrays, Vector.getElem_map, s.getElem_lanes hx]
    rfl
  · rw [State.lane_powerOn _ _ _ _ _ hx, Vector.getElem_map, s.getElem_lanes hx]
  · rw [op.cut_pass h]; exact a.modBlock_sameButBlock p _
  · rw [op.cut_pass h, a.block_modBlock_same _ hp]; exact PhysBlock.tear_written hw n
  · rw [op.begin_pass h hk hf, a.block_modBlock_same _ hp]; exact PhysBlock.beginPass_blank hb kind
  · rintro rfl
    exact ⟨a.modBlock_sameButBlock p _, a.block_modBlock_same _ hp⟩
  · rintro contents g rfl
    rfl
  · rintro contents g rfl
    rfl
  · rintro (⟨page, step, rfl⟩ | rfl | rfl) <;> rfl

end Sys2Proof.Machine
end

