-- ==== Sys2Proof/Proofs/LinkFrames.lean ====
section
/-! PROOFS. What the link does with a received frame, with the acknowledge timer, and with a final reply (sections 9.4, 10.3 to 10.6). -/

namespace Sys2Proof.Machine

theorem execSequencedFrame_running {s : State} {bytes : List Byte} {f : LineFrame} (hr : s.inReset = false)
    (hf : receive bytes = .sequenced f) :
    exec (.sequencedFrame bytes) s = .next (s.conclude [] { s with link := s.link.takeSequenced f }) := by
  change execSequencedFrame bytes s = _
  rw [execSequencedFrame, if_neg (by simp [hr]), hf]
  rfl

/-- The mark of a frame that is taken (R172), as the statements write it. -/
theorem LineFrame.malformed_eq (f : LineFrame) :
    f.malformed
      = ((decide (f.kind ≠ 1) && decide (f.kind ≠ 2)) || (decide (f.kind = 1) && decide (f.payload = []))
          || (decide (f.kind = 2) && decide (f.payload.length ≠ 1025))) := by
  have hnil : decide (f.payload.length = 0) = decide (f.payload = []) := by simp
  rw [LineFrame.malformed, hnil]
  rfl

theorem Link.distance_self (l : Link) : l.distance l.expected = 0 := by
  simp [Link.distance]

/-- Settles O17: at distance 0, with a buffer free, takeSequenced accepts. -/
theorem sequencedFrameAccepted : Obligations.SequencedFrameAccepted := fun s bytes f hr hf hseq hroom => by
  have haccept : s.link.takeSequenced f = s.link.accept f := by
    rw [Link.takeSequenced, hseq, Link.distance_self]
    exact (if_pos rfl).trans (if_pos hroom)
  rw [execSequencedFrame_running hr hf, haccept, ← f.malformed_eq]
  rfl

/-! ### Discarded frames -/

/-- The test of the NAK flag, as an update of its two fields (R170). -/
theorem Link.testNak_eq (l : Link) (r : NakReason) :
    l.testNak r = { l with nakFlag := true, nakDue := if l.nakFlag then l.nakDue else some r } := by
  unfold Link.testNak
  rcases l with ⟨_, _ | _, _⟩ <;> rfl

theorem execBadFrame_running {s : State} {ending : FrameEnding} {bytes : List Byte} (hr : s.inReset = false)
    (hbad : ending = .byStart ∨ receive bytes = .bad) :
    exec (.badFrame ending bytes) s = .next (s.conclude [] { s with link := s.link.testNak .badFrame }) := by
  change execBadFrame ending bytes s = _
  cases ending with
  | byStart => rw [execBadFrame, if_neg (by simp [hr])]; rfl
  | byEnd =>
    have hb : receive bytes = .bad := hbad.resolve_left (by simp)
    simp only [execBadFrame, hb]
    exact if_neg (by simp [hr])

/-- Settles O18: each discarded frame by its distance from the expected number. -/
theorem framesDiscarded : Obligations.FramesDiscarded := by
  refine ⟨fun s ending bytes hr hbad => ?_, fun s bytes f hr hf => ⟨fun hseq hfull => ?_, fun hlow hhigh => ?_, fun hdup => ?_⟩⟩
  · rw [execBadFrame_running hr hbad, Link.testNak_eq]
  · have htake : s.link.takeSequenced f = { s.link.testNak .noBuffer with windowClosed := true } := by
      rw [Link.takeSequenced, hseq, Link.distance_self]
      exact (if_pos rfl).trans (if_neg (Nat.not_lt.mpr hfull))
    rw [execSequencedFrame_running hr hf, htake, Link.testNak_eq]
  · have htake : s.link.takeSequenced f = s.link.testNak .gap :=
      (if_neg (show s.link.distance f.seq ≠ 0 by unfold Link.distance; omega)).trans (if_pos hhigh)
    rw [execSequencedFrame_running hr hf, htake, Link.testNak_eq]
  · have htake : s.link.takeSequenced f = { s.link with ackDue := true } :=
      (if_neg (show s.link.distance f.seq ≠ 0 by unfold Link.distance; omega)).trans
        (if_neg (show ¬s.link.distance f.seq ≤ 127 by unfold Link.distance; omega))
    rw [execSequencedFrame_running hr hf, htake]

/-! ### SYNC and the acknowledge timer -/

/-- Settles O19: both commands by their definitions. -/
theorem syncAndAckTimer : Obligations.SyncAndAckTimer := by
  refine ⟨fun s bytes e hr hf => ?_, fun s hr => ⟨fun ht => ?_, fun ht => ?_⟩⟩
  · change execSync bytes s = _
    rw [execSync, if_neg (by simp [hr]), hf]
    rfl
  · exact (unlessReset_running _ hr).trans (if_pos ht)
  · exact (unlessReset_running _ hr).trans (if_neg (by simp [ht]))

/-! ### The place of a final reply -/

/-- Replacing the one entry that satisfies `p`. -/
theorem List.map_replace_one {α : Type} {p : α → Bool} {e q : α} {before after : List α} (hq : p q = true)
    (hne : ∀ r ∈ before ++ after, p r = false) :
    (before ++ q :: after).map (fun r => if p r then e else r) = before ++ e :: after := by
  have hid : ∀ l : List α, (∀ r ∈ l, p r = false) → l.map (fun r => if p r then e else r) = l := fun l hl =>
    (List.map_congr_left fun r hr => by simp [hl r hr]).trans (List.map_id _)
  rw [List.map_append, List.map_cons, hid before fun r hr => hne r (by simp [hr]), hid after fun r hr => hne r (by simp [hr]),
    if_pos hq]

/-- Settles O20: the three cases of placeFinal. -/
theorem finalReplyPlace : Obligations.FinalReplyPlace := fun l e => by
  refine ⟨fun hs => if_pos hs, fun hs => ⟨fun before after q hq hint hne => ?_, fun hnone => ?_⟩⟩
  · have hany : l.queue.any (QueueEntry.interimOf e.reply.tag) = true := by
      rw [hq, List.any_eq_true]; exact ⟨q, by simp, hint⟩
    rw [Link.placeFinal, if_neg (by simp [hs]), if_pos hany, hq, List.map_replace_one hint hne]
  · have hany : ¬l.queue.any (QueueEntry.interimOf e.reply.tag) = true := by
      simpa using hnone
    rw [Link.placeFinal, if_neg (by simp [hs]), if_neg hany]

/-! ### Frames on the line -/

theorem byteAt_of_getElem? {l : List Byte} {i : Nat} {b : Byte} (h : l[i]? = some b) : byteAt l i = b.toNat := by
  simp [byteAt, h]

theorem receive_of_not_good {bytes : List Byte} (h : goodFrame bytes = none) : receive bytes = .bad := by
  simp [receive, h]

/-- The framing test of R166: the length field is at most 1,040 and 11 less than the byte count. -/
def WellFramed (bytes : List Byte) : Prop :=
  11 ≤ bytes.length ∧ numAt2 bytes 5 ≤ 1040 ∧ bytes.length = numAt2 bytes 5 + 11

theorem goodFrame_eq {bytes : List Byte} (h : WellFramed bytes) :
    goodFrame bytes
      = if crc32 (bytes.take (numAt2 bytes 5 + 7)) = wordAt bytes (numAt2 bytes 5 + 7) then
          some { kind := byteAt bytes 0, seq := BitVec.ofNat 8 (byteAt bytes 1), tag := byteAt bytes 4,
                 payload := (bytes.drop 7).take (numAt2 bytes 5) }
        else none := by
  obtain ⟨h1, h2, h3⟩ := h
  have hlen : ¬Config.maxPayload < numAt2 bytes 5 := Nat.not_lt.mpr h2
  rw [goodFrame, if_neg (by omega), if_neg hlen, if_neg (by omega), ite_not]

theorem goodFrame_none {bytes : List Byte} (h : ¬WellFramed bytes) : goodFrame bytes = none := by
  unfold goodFrame
  dsimp only
  split_ifs with h1 h2 h3 h4
  · rfl
  · rfl
  · rfl
  · rfl
  · exact absurd ⟨by omega, Nat.not_lt.mp h2, by omega⟩ h

/-- A byte at the low end, in arithmetic. -/
theorem BitVec.toNat_append_byte {w : Nat} (v : BitVec w) (b : Byte) : (v ++ b).toNat = v.toNat * 256 + b.toNat := by
  rw [BitVec.toNat_append, ← Nat.shiftLeft_add_eq_or_of_lt b.isLt, Nat.shiftLeft_eq]

/-- The four-byte number after a list of bytes, low byte first. -/
theorem wordAt_append (body : List Byte) (c0 c1 c2 c3 : Byte) :
    wordAt (body ++ [c0, c1, c2, c3]) body.length = c3 ++ c2 ++ c1 ++ c0 := by
  have hat : ∀ i b, [c0, c1, c2, c3][i]? = some b → byteAt (body ++ [c0, c1, c2, c3]) (body.length + i) = b.toNat :=
    fun i b hb => byteAt_of_getElem? (by rw [List.getElem?_append_right (by omega)]; simpa using hb)
  have h0 := hat 0 c0 rfl; have h1 := hat 1 c1 rfl; have h2 := hat 2 c2 rfl; have h3 := hat 3 c3 rfl
  have hlt0 := c0.isLt; have hlt1 := c1.isLt; have hlt2 := c2.isLt; have hlt3 := c3.isLt
  rw [Nat.add_zero] at h0
  refine BitVec.eq_of_toNat_eq ?_
  simp only [wordAt, numAt2, Nat.add_assoc, Nat.reduceAdd, h0, h1, h2, h3, BitVec.toNat_append_byte, BitVec.toNat_ofNat]
  omega

/-- A 32-bit value is its four bytes. -/
theorem word4_append (w : Word32) :
    (w >>> 24).setWidth 8 ++ (w >>> 16).setWidth 8 ++ (w >>> 8).setWidth 8 ++ w.setWidth 8 = w := by
  refine BitVec.eq_of_toNat_eq ?_
  have hlt := w.isLt
  simp only [BitVec.toNat_append_byte, BitVec.toNat_setWidth, BitVec.toNat_ushiftRight, Nat.shiftRight_eq_div_pow]
  omega

/-- A frame is bad when its last four bytes are not its CRC, low byte first. -/
theorem goodFrame_crc {body : List Byte} {c0 c1 c2 c3 : Byte} (h : crc32 body ≠ c3 ++ c2 ++ c1 ++ c0) :
    goodFrame (body ++ [c0, c1, c2, c3]) = none := by
  by_cases hw : WellFramed (body ++ [c0, c1, c2, c3])
  · have hbody : numAt2 (body ++ [c0, c1, c2, c3]) 5 + 7 = body.length := by
      obtain ⟨-, -, hlen⟩ := hw
      simp only [List.length_append, List.length_cons, List.length_nil] at hlen
      omega
    rw [goodFrame_eq hw, hbody, wordAt_append, List.take_left]
    exact if_neg h
  · exact goodFrame_none hw

/-- A frame laid out by R167 is good, and its fields are those it was laid out with. -/
theorem goodFrame_lineBytes (kind tag : Nat) (seq ack : Byte) (window : Nat) {payload : List Byte} (hp : payload.length ≤ 1040) :
    goodFrame (lineBytes kind seq ack window tag payload)
      = some { kind := kind % 256, seq := seq, tag := tag % 256, payload := payload } := by
  generalize hbody : num1 kind ++ [seq, ack] ++ num1 window ++ num1 tag ++ num2 payload.length ++ payload = body
  have hlen : body.length = payload.length + 7 := by
    rw [← hbody]; simp [num1, num2]
  have hline : lineBytes kind seq ack window tag payload = body ++ word4 (crc32 body) := by rw [← hbody]; rfl
  have hfield : numAt2 (body ++ word4 (crc32 body)) 5 = payload.length := by
    rw [← hbody]
    simp [numAt2, byteAt, num1, num2]
    omega
  have hw : WellFramed (body ++ word4 (crc32 body)) := by
    refine ⟨?_, by rw [hfield]; exact hp, ?_⟩
    · simp [word4, hlen]
    · rw [hfield]; simp [word4, hlen]
  rw [hline, goodFrame_eq hw, hfield, ← hlen, List.take_left, word4, wordAt_append, word4_append, if_pos rfl, ← hbody]
  simp [byteAt, num1, num2]

/-- Settles O16: the layout and the receiver's tests invert each other. -/
theorem lineFrames : Obligations.LineFrames := by
  refine ⟨fun kind seq ack window tag payload hk hs ht hp => ?_, fun seq ack e window tag => ?_,
    fun seq ack window tag payload hp hone => ?_, fun bytes h => ?_, fun bytes lo hi hlo hhi h => ?_,
    fun body c0 c1 c2 c3 h => receive_of_not_good (goodFrame_crc h), by decide +kernel⟩
  · rw [receive, goodFrame_lineBytes kind tag seq ack window hp, Nat.mod_eq_of_lt hk, Nat.mod_eq_of_lt ht]
    exact if_neg hs
  · rw [receive, goodFrame_lineBytes 3 tag seq ack window (payload := [e]) (by simp)]
    rfl
  · rw [receive, goodFrame_lineBytes 3 tag seq ack window hp]
    rcases payload with _ | ⟨e, _ | ⟨e', rest⟩⟩
    · rfl
    · exact absurd rfl hone
    · rfl
  · exact receive_of_not_good (goodFrame_none fun hw => absurd hw.1 (by omega))
  · refine receive_of_not_good (goodFrame_none fun hw => ?_)
    obtain ⟨-, h2, h3⟩ := hw
    rw [numAt2, byteAt_of_getElem? hlo, byteAt_of_getElem? hhi] at h2 h3
    omega

end Sys2Proof.Machine
end

