-- ==== Sys2Proof/Proofs/Refusals.lean ====
section
/-! PROOFS. The first checks of every kind of request (R143, R145 to R147), and checks 4 and 5 of those that name a lane (R95). -/

namespace Sys2Proof.Machine

/-! ### Checks 1 to 3 -/

/-- Every kind of request is taken through checks 1 to 3. -/
theorem exec_command (k : ReqKind) (s : State) : ∃ g, exec k.command s = takeRequest s k g := by
  cases k with
  | identify => exact ⟨_, execIdentify.eq_1 s⟩
  | configure => exact ⟨_, execConfigure.eq_1 s⟩
  | readSettings => exact ⟨_, execReadSettings.eq_1 s⟩
  | blockStatus => exact ⟨_, execBlockStatus.eq_1 s⟩
  | poolStatus => exact ⟨_, execPoolStatus.eq_1 s⟩
  | tagStatus => exact ⟨_, execTagStatus.eq_1 s⟩
  | abort => exact ⟨_, execAbort.eq_1 s⟩
  | relocate => exact ⟨_, execRelocate.eq_1 s⟩
  | discard => exact ⟨_, execDiscard.eq_1 s⟩
  | read => exact ⟨_, execRead.eq_1 s⟩
  | erase => exact ⟨_, execErase.eq_1 s⟩
  | write => exact ⟨_, execWrite.eq_1 s⟩
  | close => exact ⟨_, execClose.eq_1 s⟩
  | laneReset => exact ⟨_, execLaneReset.eq_1 s⟩
  | partReset => exact ⟨_, execPartReset.eq_1 s⟩

/-- When RQU may take a frame (R143), as the statements write it. -/
theorem State.mayTake_iff (s : State) (f : InFrame) :
    s.mayTake f = true
      ↔ s.link.queue.countP (fun q => decide (q.reply.cls = .refusal)) < 16
        ∧ (f.kind = 1 → f.tag < 64 → s.tag f.tag = none →
          ∀ q ∈ s.link.queue, q.reply.cls = .refusal ∨ q.reply.tag ≠ f.tag) := by
  have hplace : (s.link.queue.any (QueueEntry.reservedFor f.tag) = false)
      ↔ ∀ q ∈ s.link.queue, q.reply.cls = .refusal ∨ q.reply.tag ≠ f.tag := by
    simp only [List.any_eq_false, QueueEntry.reservedFor, QueueEntry.isRefusal]
    refine forall₂_congr fun q _ => ?_
    by_cases hc : q.reply.cls = .refusal <;> simp [hc]
  have hlive : (s.tag f.tag).isSome = false ↔ s.tag f.tag = none := by simp
  simp only [State.mayTake, Bool.and_eq_true, Bool.or_eq_true, decide_eq_true_eq, Bool.not_eq_true', hplace]
  refine and_congr_right' ?_
  by_cases hk : f.kind = kindReq
  · by_cases ht : Config.tags ≤ f.tag
    · have ht' : ¬f.tag < 64 := Nat.not_lt.mpr ht
      simp [ht, ht']
    · have ht' : f.tag < 64 := Nat.not_le.mp ht
      have hone : kindReq = 1 := rfl
      by_cases hn : s.tag f.tag = none <;> simp [hk, hone, ht, ht', hn, Option.isSome_iff_ne_none]
  · have hk' : f.kind ≠ 1 := hk
    simp [hk, hk']

/-- A frame of the row that R143 holds back waits. -/
theorem takeOldest_waits {s : State} {f : InFrame} {p : InFrame → Bool} (k : State → InFrame → Result) (hr : s.inReset = false)
    (hf : s.link.intake.head? = some f) (hp : p f = true) (hm : s.mayTake f = false) : takeOldest s p k = .next s := by
  obtain ⟨rest, hi⟩ := List.head?_eq_some_iff.mp hf
  rw [takeOldest, unlessReset_running _ hr, hi]
  simp [hp, hm]

/-- An offered request comes to checks 1 to 3. -/
theorem takeRequest_offers {s : State} {f : InFrame} {k : ReqKind} (g : State → InFrame → Request → Result) (h : s.Offers f)
    (hk : f.isRequest k = true) :
    takeRequest s k g
      = match parseRequest f.payload with
        | none => refused s.unbuffer f .malformed .plain
        | some req =>
          if Config.tags ≤ f.tag then refused s.unbuffer f .malformed .plain
          else if (s.tag f.tag).isSome then refused s.unbuffer f .tagInUse .plain
          else
            match partCheck k s.rqu.part with
            | some st => refused s.unbuffer f st .plain
            | none => g s.unbuffer f req := by
  rw [takeRequest, takeOldest_offers _ h hk]
  rfl

/-- Check 3 of every kind but the two that are taken in every part state (R146). -/
theorem partCheck_busy {k : ReqKind} (hi : k ≠ .identify) (ht : k ≠ .tagStatus) (part : PartState) :
    partCheck k part = match part with
      | .starting => some .starting
      | .resetting => some .resetting
      | .running => none := by
  cases k with
  | identify => exact absurd rfl hi
  | tagStatus => exact absurd rfl ht
  | _ => cases part <;> rfl

/-- Settles O21: the conditions of a taking, and the branches of checks 1 to 3 in their order. -/
theorem firstChecksRefuse : Obligations.FirstChecksRefuse := by
  refine ⟨State.mayTake_iff, fun k s f hr hf hk hm => ?_, fun k s f ho hk => ?_⟩
  · obtain ⟨g, hg⟩ := exec_command k s
    rw [hg]
    exact takeOldest_waits _ hr hf hk hm
  obtain ⟨g, hg⟩ := exec_command k s
  rw [hg, takeRequest_offers g ho hk]
  refine ⟨fun hmal => ?malformed, fun hp ht => ?wellFormed⟩
  case malformed =>
    rcases hp : parseRequest f.payload with _ | req
    · exact refused_eq _ _ _ _
    · have ht : Config.tags ≤ f.tag := hmal.resolve_left (by simp [hp])
      dsimp only
      rw [if_pos ht]
      exact refused_eq _ _ _ _
  case wellFormed =>
    obtain ⟨req, hreq⟩ := Option.ne_none_iff_exists'.mp hp
    rw [hreq]
    dsimp only
    rw [if_neg (show ¬Config.tags ≤ f.tag from Nat.not_le.mpr ht)]
    refine ⟨fun hlive => ?_, fun hnone hid hts => ⟨fun hpart => ?_, fun hpart => ?_⟩⟩
    · rw [if_pos (Option.isSome_iff_ne_none.mpr hlive)]
      exact refused_eq _ _ _ _
    · rw [if_neg (by simp [hnone]), partCheck_busy hid hts, hpart]
      exact refused_eq _ _ _ _
    · rw [if_neg (by simp [hnone]), partCheck_busy hid hts, hpart]
      exact refused_eq _ _ _ _

/-! ### MALFORMED frames -/

/-- Settles O23: the taking of a frame of the MALFORMED row. -/
theorem malformedFrameRefused : Obligations.MalformedFrameRefused := by
  have hexec (s : State) : exec .malformedFrameTaken s = _ := execMalformedFrameTaken.eq_1 s
  refine ⟨fun s f hr hf hp hm => ?_, fun s f ho hp => ?_⟩
  · rw [hexec, takeOldest_waits _ hr hf hp hm]
  · rw [hexec, takeOldest_offers _ ho hp]
    rfl

/-! ### Checks 4 and 5 -/

/-- The kind of a request. -/
def Request.kind : Request → ReqKind
  | .identify => .identify
  | .configure _ _ _ _ => .configure
  | .readSettings => .readSettings
  | .blockStatus _ _ => .blockStatus
  | .poolStatus => .poolStatus
  | .tagStatus _ => .tagStatus
  | .abort _ => .abort
  | .relocate _ _ _ => .relocate
  | .discard _ _ => .discard
  | .read _ _ _ => .read
  | .erase _ _ => .erase
  | .write _ _ _ _ _ _ => .write
  | .close _ _ => .close
  | .laneReset _ => .laneReset
  | .partReset => .partReset

/-- A payload parses to a request of the kind its first byte names. -/
theorem payloadKind_of_parse {p : List Byte} {r : Request} (h : parseRequest p = some r) : payloadKind p = some r.kind := by
  unfold parseRequest at h
  split at h
  · cases h
  · rename_i k hk
    split at h
    · cases h
    · cases k
      case tagStatus =>
        obtain ⟨t, -, rfl⟩ := Option.map_eq_some_iff.mp h
        exact hk
      case abort =>
        obtain ⟨t, -, rfl⟩ := Option.map_eq_some_iff.mp h
        exact hk
      case write =>
        obtain ⟨d, -, rfl⟩ := Option.map_eq_some_iff.mp h
        exact hk
      all_goals
        cases h
        exact hk

/-- An admitted request is of the kind its command takes. -/
theorem State.Admits.kind_eq {s : State} {f : InFrame} {k : ReqKind} {r : Request} (h : s.Admits f k r) : k = r.kind := by
  obtain ⟨-, hreq, hparse, -⟩ := h
  simp only [InFrame.isRequest, Bool.and_eq_true, decide_eq_true_eq] at hreq
  exact Option.some.inj (hreq.2.symm.trans (payloadKind_of_parse hparse))

/-- The checks from 4 on of a request that names a lane. -/
def State.requestCheck (s : State) : Request → Option Status
  | .blockStatus x b => addressCheck s x b
  | .relocate x a b => s.relocateCheck x a b
  | .discard x b => s.discardCheck x b
  | .read x b p => s.readCheck x b p
  | .erase x b => s.eraseCheck x b
  | .write x b p d _ _ => s.writeCheck x b p d
  | .close x b => s.closeCheck x b
  | .laneReset x => s.laneResetCheck x
  | _ => none

/-- A check that fails names the refusal (R145). -/
theorem dispatch_of_check {s : State} {f : InFrame} {check : Option Status} {st : Status} (h : check = some st) (taken : Result) :
    dispatch s.unbuffer f check taken = .next (s.conclude [] (s.refusedWith f st .plain)) := by
  rw [h]; rfl

/-- An admitted request one of whose checks fails is refused with its status. -/
theorem exec_requestCheck {s : State} {f : InFrame} {k : ReqKind} {r : Request} (h : s.Admits f k r) {st : Status}
    (hc : s.requestCheck r = some st) : exec k.command s = .next (s.conclude [] (s.refusedWith f st .plain)) := by
  obtain rfl := h.kind_eq
  cases r with
  | blockStatus x b => exact (execBlockStatus.eq_1 s).trans ((takeRequest_admits _ h).trans (dispatch_of_check hc _))
  | relocate x a b => exact (execRelocate.eq_1 s).trans ((takeRequest_admits _ h).trans (dispatch_of_check hc _))
  | discard x b => exact (execDiscard.eq_1 s).trans ((takeRequest_admits _ h).trans (dispatch_of_check hc _))
  | read x b p => exact (execRead.eq_1 s).trans ((takeRequest_admits _ h).trans (dispatch_of_check hc _))
  | erase x b => exact (execErase.eq_1 s).trans ((takeRequest_admits _ h).trans (dispatch_of_check hc _))
  | write x b p d check area =>
    have hw : s.unbuffer.writeCheck x b p d = some st := (s.writeCheck_unbuffer x b p d).trans hc
    refine (execWrite.eq_1 s).trans ((takeRequest_admits _ h).trans ?_)
    dsimp only
    rw [hw]
    rfl
  | close x b => exact (execClose.eq_1 s).trans ((takeRequest_admits _ h).trans (dispatch_of_check hc _))
  | laneReset x => exact (execLaneReset.eq_1 s).trans ((takeRequest_admits _ h).trans (dispatch_of_check hc _))
  | _ => cases hc

theorem addressCheck_eq (s : State) (x b : Nat) :
    addressCheck s x b = if x ≤ 3 ∧ b ≤ 1023 then laneCheck (s.lane x) else some .badAddress := by
  split
  · rename_i h
    exact addressCheck_lane s (by omega) (by omega)
  · exact addressCheck_bad s (by omega)

theorem relocateCheck_address {s : State} {x a b : Nat} {st : Status}
    (h : (if x ≤ 3 ∧ a ≤ 1023 ∧ b ≤ 1023 then laneCheck (s.lane x) else some .badAddress) = some st) :
    s.relocateCheck x a b = some st := by
  have hfirst : (if Config.hostBlocks ≤ b then some .badAddress else addressCheck s x a) = some st := by
    rw [← h, addressCheck_eq, Config.hostBlocks]
    split_ifs <;> first | rfl | omega
  rw [State.relocateCheck, hfirst, Option.some_or]

theorem readCheck_address {s : State} {x b p : Nat} {st : Status}
    (h : (if x ≤ 3 ∧ b ≤ 1023 ∧ p ≤ 255 then laneCheck (s.lane x) else some .badAddress) = some st) :
    s.readCheck x b p = some st := by
  rw [← h, State.readCheck, addressCheck_eq]
  split_ifs <;> first | rfl | omega

theorem writeCheck_address {s : State} {x b p : Nat} {d : Density} {st : Status}
    (h : (if x ≤ 3 ∧ b ≤ 1023 ∧ p < d.pages then laneCheck (s.lane x) else some .badAddress) = some st) :
    s.writeCheck x b p d = some st := by
  rw [State.writeCheck, Config.lanes, Config.hostBlocks]
  split_ifs at h with hin
  · rw [if_neg (by omega), h, Option.some_or]
  · rw [if_pos (by omega), h]

/-- Checks 4 and 5 come first among a request's checks: out of range BAD_ADDRESS, in range those of its lane's state. -/
theorem State.requestCheck_address {s : State} {r : Request} {x : Nat} (h : r.lane = some x) {st : Status}
    (hc : (if r.inRange = true then laneCheck (s.lane x) else some .badAddress) = some st) : s.requestCheck r = some st := by
  have haddr (b : Nat) (hx : (if x ≤ 3 ∧ b ≤ 1023 then laneCheck (s.lane x) else some .badAddress) = some st) :
      addressCheck s x b = some st := (addressCheck_eq s x b).trans hx
  cases r <;> cases h
  case blockStatus b => exact haddr b (by simpa [Request.inRange] using hc)
  case relocate a b => exact relocateCheck_address (by simpa [Request.inRange, and_assoc] using hc)
  case discard b =>
    rw [State.requestCheck, State.discardCheck, haddr b (by simpa [Request.inRange] using hc), Option.some_or]
  case read b p => exact readCheck_address (by simpa [Request.inRange, and_assoc] using hc)
  case erase b =>
    rw [State.requestCheck, State.eraseCheck, haddr b (by simpa [Request.inRange] using hc), Option.some_or]
  case write b p d check area => exact writeCheck_address (by simpa [Request.inRange, and_assoc] using hc)
  case close b =>
    rw [State.requestCheck, State.closeCheck, haddr b (by simpa [Request.inRange] using hc), Option.some_or]
  case laneReset =>
    rw [State.requestCheck, State.laneResetCheck, Config.lanes, ← hc]
    simp only [Request.inRange, decide_eq_true_eq]
    split_ifs <;> first | rfl | omega

/-- Settles O22: checks 4 and 5 come first among the checks of each kind that names a lane. -/
theorem addressAndLaneRefusals : Obligations.AddressAndLaneRefusals := by
  refine fun k s f r x h hx => ⟨fun hr => ?_, fun hr => ⟨fun hl => ?_, fun hl => ?_⟩⟩
  · exact exec_requestCheck h (State.requestCheck_address hx (by rw [hr]; rfl))
  · refine exec_requestCheck h (State.requestCheck_address hx ?_)
    rw [if_pos hr, laneCheck]
    rcases hl with hl | hl <;> rw [hl]
  · refine exec_requestCheck h (State.requestCheck_address hx ?_)
    rw [if_pos hr, laneCheck, hl]

end Sys2Proof.Machine
end

