-- ==== Sys2Proof/Proofs/StatusRequests.lean ====
section
/-! PROOFS. The requests the request unit answers itself (section 9.6): IDENTIFY, READ_SETTINGS, POOL_STATUS, BLOCK_STATUS, CONFIGURE,
TAG_STATUS and ABORT. -/

namespace Sys2Proof.Machine

/-- An admitted request that is answered at its dispatch, and changes nothing else. -/
theorem State.Admits.answered {s : State} {f : InFrame} {k : ReqKind} {r : Request} (h : s.Admits f k r) (e : TagEntry) (st : Status)
    (fields : ReplyFields) (he : e.state = .replying) :
    s.unbuffer.answer f.tag e st fields none = s.answered f.tag e (Reply.finalOf f.tag e.kind st fields) := h.answer e st fields none he

/-- Settles O24: each of the four is answered at its dispatch. -/
theorem statusRequestsAnswered : Obligations.StatusRequestsAnswered := by
  refine ⟨fun s f h => ?_, fun s f h => ?_, fun s f h => ?_, fun s f x b h hr => ?_⟩
  · exact (execIdentify.eq_1 s).trans ((takeRequest_admits _ h).trans (congrArg (happen s.unbuffer []) (h.answered _ _ _ rfl)))
  · exact (execReadSettings.eq_1 s).trans ((takeRequest_admits _ h).trans (congrArg (happen s.unbuffer []) (h.answered _ _ _ rfl)))
  · exact (execPoolStatus.eq_1 s).trans ((takeRequest_admits _ h).trans (congrArg (happen s.unbuffer []) (h.answered _ _ _ rfl)))
  · refine (execBlockStatus.eq_1 s).trans ((takeRequest_admits _ h).trans ?_)
    have hcheck : addressCheck s.unbuffer x b = none := hr.addressCheck
    dsimp only
    rw [hcheck]
    exact congrArg (happen s.unbuffer []) (h.answered _ _ _ rfl)

/-! ### CONFIGURE -/

theorem outside_iff (lo hi : Nat) (n : Option Nat) : outside lo hi n = true ↔ ∃ v, n = some v ∧ (v < lo ∨ hi < v) := by
  cases n <;> simp [outside]

theorem execConfigure_refuses {s : State} {f : InFrame} {tt rb dt pw : Option Nat} (h : s.Admits f .configure (.configure tt rb dt pw))
    {n : Nat} (hn : firstOutOfRange tt rb dt pw = some n) :
    exec .configure s = .next (s.conclude [] (s.refusedWith f .range (.setting n))) := by
  refine (execConfigure.eq_1 s).trans ((takeRequest_admits _ h).trans ?_)
  dsimp only
  rw [hn]
  rfl

theorem execConfigure_takes {s : State} {f : InFrame} {tt rb dt pw : Option Nat} (h : s.Admits f .configure (.configure tt rb dt pw))
    (hn : firstOutOfRange tt rb dt pw = none) :
    exec .configure s
      = .next (s.conclude []
          ((s.unbuffer.configure (s.rqu.settings.update tt rb dt pw)).answer f.tag (.immediate .configure) .done
            (.settings (s.rqu.settings.update tt rb dt pw)) none)) := by
  refine (execConfigure.eq_1 s).trans ((takeRequest_admits _ h).trans ?_)
  dsimp only
  rw [hn]
  rfl

/-- The answer of a CONFIGURE, whose settings, armed flag and pool-low condition are set first, as an update of the taken request's
answer. -/
theorem State.Admits.answered_after {s m : State} {f : InFrame} {k : ReqKind} {r : Request} (h : s.Admits f k r) (e : TagEntry)
    (st : Status) (fields : ReplyFields) (he : e.state = .replying) (hlink : m.link = s.unbuffer.link)
    (htags : m.rqu.tags = s.rqu.tags) :
    m.answer f.tag e st fields none
      = { m with link := (s.answered f.tag e (Reply.finalOf f.tag e.kind st fields)).link
                 rqu := { m.rqu with tags := (s.answered f.tag e (Reply.finalOf f.tag e.kind st fields)).rqu.tags } } := by
  have hplace : m.link.queue.any (QueueEntry.reservedFor f.tag) = false := by rw [hlink]; exact h.placeFree.2
  rw [State.answer_tail m e st fields none he hplace]
  simp only [State.answered, State.linkWith, Rqu.withTag, hlink, htags]
  rfl

theorem State.configure_same {s : State} {new : Settings} (h : new.poolWatermark = s.rqu.settings.poolWatermark) :
    s.configure new = { s with rqu := { s.rqu with settings := new } } := if_pos h

theorem State.configure_high {s : State} {new : Settings} (h : new.poolWatermark ≠ s.rqu.settings.poolWatermark)
    (hlow : ¬(0 < new.poolWatermark ∧ s.freeCount < new.poolWatermark)) :
    s.configure new = { s with rqu := { s.rqu with settings := new }, pool := { s.pool with armed := true } } := by
  have hfalse : ¬(0 < new.poolWatermark ∧ true = true ∧ s.freeCount < new.poolWatermark) := by simpa using hlow
  exact (if_neg h).trans (if_neg hfalse)

theorem State.configure_low {s : State} {new : Settings} (h : new.poolWatermark ≠ s.rqu.settings.poolWatermark)
    (hlow : 0 < new.poolWatermark ∧ s.freeCount < new.poolWatermark) :
    s.configure new
      = State.raisePoolLow { s with rqu := { s.rqu with settings := new }, pool := { s.pool with armed := false } } :=
  (if_neg h).trans (if_pos ⟨hlow.1, rfl, hlow.2⟩)

/-- Settles O25: the first setting out of range, or the three outcomes of new settings. -/
theorem configureTaken : Obligations.ConfigureTaken := by
  intro s f tt rb dt pw h
  dsimp only
  have h1 := outside_iff 1 250 tt
  have h2 := outside_iff 1 16 rb
  have h3 := outside_iff 1 24 dt
  have h4 : outside 0 64 pw = true ↔ ∃ v, pw = some v ∧ 64 < v := by simp [outside_iff]
  rw [← h1, ← h2, ← h3, ← h4]
  refine ⟨fun a1 => execConfigure_refuses h (if_pos a1),
    fun a1 a2 => execConfigure_refuses h ((if_neg a1).trans (if_pos a2)),
    fun a1 a2 a3 => execConfigure_refuses h ((if_neg a1).trans ((if_neg a2).trans (if_pos a3))),
    fun a1 a2 a3 a4 => execConfigure_refuses h ((if_neg a1).trans ((if_neg a2).trans ((if_neg a3).trans (if_pos a4)))),
    fun a1 a2 a3 a4 => ?_⟩
  have hnone : firstOutOfRange tt rb dt pw = none :=
    (if_neg a1).trans ((if_neg a2).trans ((if_neg a3).trans (if_neg a4)))
  rw [execConfigure_takes h hnone]
  refine ⟨fun hw => ?_, fun hw hl => ?_, fun hw hl => ?_⟩
  · rw [State.configure_same (s := s.unbuffer) hw]
    refine congrArg (happen s []) ((h.answered_after _ _ _ ?_ ?_ ?_).trans ?_) <;> rfl
  · rw [State.configure_high (s := s.unbuffer) hw hl]
    refine congrArg (happen s []) ((h.answered_after _ _ _ ?_ ?_ ?_).trans ?_) <;> rfl
  · rw [State.configure_low (s := s.unbuffer) hw hl]
    refine congrArg (happen s []) ((h.answered_after _ _ _ ?_ ?_ ?_).trans ?_) <;> rfl

/-! ### TAG_STATUS -/

/-- The newest copy of a tag is the last of the ring. -/
theorem newestCopy_append {before after : List Reply} {r : Reply} (h : ∀ q ∈ after, q.tag ≠ r.tag) :
    newestCopy (before ++ r :: after) r.tag = some r := by
  have hafter : after.reverse.find? (fun q => decide (q.tag = r.tag)) = none := by
    simpa [List.find?_eq_none] using h
  simp [newestCopy, List.find?_append, hafter]

theorem newestCopy_none {ring : List Reply} {t : Nat} (h : ∀ q ∈ ring, q.tag ≠ t) : newestCopy ring t = none := by
  simpa [newestCopy, List.find?_eq_none] using h

/-- Settles O26: the live entry, the newest copy, or neither. -/
theorem tagStatusAnswered : Obligations.TagStatusAnswered := by
  intro s f target h
  have hexec := (execTagStatus.eq_1 s).trans (takeRequest_admits _ h)
  refine ⟨fun e he => hexec.trans ?_,
    fun hn => ⟨fun before r after hring hr hafter => hexec.trans ?_, fun hring => hexec.trans ?_⟩⟩
  · have he' : s.unbuffer.tag target = some e := he
    dsimp only
    rw [he']
    exact congrArg (happen s.unbuffer []) (h.answered _ _ _ rfl)
  · subst hr
    have hn' : s.unbuffer.tag r.tag = none := hn
    have hcopy : newestCopy s.unbuffer.rqu.ring r.tag = some r := by
      rw [State.unbuffer_rqu, hring, newestCopy_append hafter]
    dsimp only
    rw [hn', hcopy]
    exact congrArg (happen s.unbuffer []) (h.answered _ _ _ rfl)
  · have hn' : s.unbuffer.tag target = none := hn
    have hcopy : newestCopy s.unbuffer.rqu.ring target = none := newestCopy_none hring
    dsimp only
    rw [hn', hcopy]
    rfl

end Sys2Proof.Machine
end

