-- ==== Sys2Proof/Proofs/AbortRequests.lean ====
section
/-! PROOFS. ABORT (R76, R92, R160): what it withdraws, and its own answer after its target's reply. -/

namespace Sys2Proof.Machine

/-! ### Answers at dispatch -/

theorem State.answer_link (s : State) (t : Nat) (e : TagEntry) (st : Status) (fields : ReplyFields) (src : Option Source) :
    (s.answer t e st fields src).link = s.link.placeFinal (QueueEntry.finalOf t e.kind st fields src) := rfl

theorem State.answer_tag_ne (s : State) {t u : Nat} (e : TagEntry) (st : Status) (fields : ReplyFields) (src : Option Source)
    (h : u ≠ t) : (s.answer t e st fields src).tag u = s.tag u := s.tag_setTag_ne _ h

theorem State.answer_frame (s : State) (t : Nat) (e : TagEntry) (st : Status) (fields : ReplyFields) (src : Option Source) :
    s.OnlyReplies (s.answer t e st fields src) := ⟨rfl, rfl, ⟨rfl, rfl, rfl⟩, rfl, Link.placeFinal_frame _ _⟩

/-! ### What an ABORT withdraws -/

/-- A lane that gives up the queued entries of tag `t`, whose request `e` names block `b` (R92). -/
def Lane.withdrawn (l : Lane) (t b : Nat) (e : TagEntry) : Lane :=
  let l' := { l with workQueue := l.workQueue.filter (fun w => decide (w.tag ≠ t)) }
  if e.kind = .erase then l'.modRecord b (fun r => { r with erasePending := false }) else l'

theorem Lane.withdrawn_frame (l : Lane) (t b : Nat) (e : TagEntry) :
    l.withdrawn t b e
      = { l with
          records := (l.withdrawn t b e).records
          workQueue := l.workQueue.filter (fun w => decide (w.tag ≠ t)) } := by
  unfold Lane.withdrawn
  dsimp only
  split <;> rfl

theorem Lane.record_withdrawn_same (l : Lane) (t : Nat) {b : Nat} (e : TagEntry) (hb : b < 1024) :
    (l.withdrawn t b e).record b = if e.kind = .erase then { l.record b with erasePending := false } else l.record b := by
  unfold Lane.withdrawn
  dsimp only
  split
  · rw [Lane.record_modRecord_same _ _ hb]; rfl
  · rfl

theorem Lane.record_withdrawn_ne (l : Lane) (t : Nat) {b c : Nat} (e : TagEntry) (hc : c ≠ b) :
    (l.withdrawn t b e).record c = l.record c := by
  unfold Lane.withdrawn
  dsimp only
  split
  · rw [Lane.record_modRecord_ne _ _ hc]; rfl
  · rfl

/-- A withdrawal of queued work is a change of the lane and the end of the tag. -/
theorem State.withdrawQueued_eq (s : State) (t : Nat) {e : TagEntry} {x b : Nat} (hl : e.lane = some x) (hb : e.block = some b)
    (hx : x < 4) :
    s.withdrawQueued t e
      = (s.modLane x (fun l => l.withdrawn t b e)).finish t .aborted
          (if e.kind = .erase then .erase x b none else .page x b (e.page.getD 0)) none := by
  unfold State.withdrawQueued Lane.withdrawn
  rw [hl, hb]
  dsimp only [Option.getD_some]
  split
  · rw [State.clearErasePending, State.modRecord, State.modLane_modLane _ _ _ hx]
  · rfl

theorem execAbort_withdraws {s : State} {f : InFrame} {target : Nat} {e : TagEntry} (h : s.Admits f .abort (.abort target))
    (he : s.tag target = some e) (hw : e.withdrawable = true) :
    exec .abort s
      = .next (s.conclude [e.lane.getD 0]
          ((s.unbuffer.withdraw target e).answer f.tag (TagEntry.mk' .abort .replying none none none) .done (.target target) none)) := by
  have he' : s.unbuffer.tag target = some e := he
  refine (execAbort.eq_1 s).trans ((takeRequest_admits _ h).trans ?_)
  dsimp only
  rw [he']
  exact if_pos hw

/-- Settles O27: a queued target, a WRITE in TRANSFER, and every other target. -/
theorem abortAnswered : Obligations.AbortAnswered := by
  intro s f target h
  refine ⟨fun hn => ?notLive, fun e he => ⟨fun hk hst => ?write, fun x b hk hst hl hb hx hbl => ?queued, fun hnw hnq => ?tooLate⟩⟩
  case notLive =>
    have hn' : s.unbuffer.tag target = none := hn
    refine (execAbort.eq_1 s).trans ((takeRequest_admits _ h).trans ?_)
    dsimp only
    rw [hn']
    rfl
  case write =>
    rw [execAbort_withdraws h he (by simp [TagEntry.withdrawable, hk, hst]), State.withdraw, if_pos hk]
  case tooLate =>
    have he' : s.unbuffer.tag target = some e := he
    have hw : ¬e.withdrawable = true := by
      simp only [TagEntry.withdrawable, Bool.or_eq_true, Bool.and_eq_true, decide_eq_true_eq]
      tauto
    refine (execAbort.eq_1 s).trans ((takeRequest_admits _ h).trans ?_)
    dsimp only
    rw [he']
    exact if_neg hw
  case queued =>
    have hexec := execAbort_withdraws h he (by rcases hk with hk | hk <;> simp [TagEntry.withdrawable, hk, hst])
    have hkw : e.kind ≠ .write := by rcases hk with hk | hk <;> simp [hk]
    have hfree : s.unbuffer.PlaceFree f.tag := h.placeFree
    have hne : target ≠ f.tag := by
      rintro rfl
      cases he.symm.trans h.placeFree.1
    have htlt : target < 64 := s.tag_lt he
    have hflt : f.tag < 64 := h.2.2.2.1
    obtain ⟨w, hw⟩ : ∃ w, w = s.unbuffer.modLane x (fun l => l.withdrawn target b e) := ⟨_, rfl⟩
    have hend : s.unbuffer.withdraw target e = _ := (if_neg hkw).trans (s.unbuffer.withdrawQueued_eq target hl hb hx)
    have hwtag : w.tag target = some e := by rw [hw]; exact he
    have hplace := (hfree.withdraw target e).2
    rw [← hw] at hend
    rw [hend, w.finish_link _ _ _ hwtag (by simp [hst])] at hplace
    rw [hl, Option.getD_some, hend] at hexec
    have hframe := (w.finish_frame target .aborted (if e.kind = .erase then .erase x b none else .page x b (e.page.getD 0)) none).trans
      (State.answer_frame _ f.tag (TagEntry.mk' .abort .replying none none none) .done (.target target) none)
    have hlane : w.lane x = (s.lane x).withdrawn target b e := by rw [hw]; exact State.lane_modLane_same _ _ hx
    have hlink : w.link = s.unbuffer.link := by rw [hw]; rfl
    refine ⟨_, hexec, ?_, ?_, fun u hut huf => ?_, ?_, ?_, ?_, ?_, fun c hc => ?_, fun y hy => ?_, ?_, ?_, ?_, ?_⟩
    · rw [State.answer_tag_ne _ _ _ _ _ hne, State.finish_tag, if_pos rfl, hwtag]; rfl
    · exact State.answer_tag_same _ _ _ _ _ hflt
    · rw [State.answer_tag_ne _ _ _ _ _ huf, State.finish_tag, if_neg hut, hw]; rfl
    · rw [State.answer_link, w.finish_link _ _ _ hwtag (by simp [hst]), hlink]; rfl
    · rw [State.answer_link, w.finish_link _ _ _ hwtag (by simp [hst]), Link.placeFinal_tail _ _ hplace, List.getLast?_concat]; rfl
    · rw [hframe.lane, hlane]; exact Lane.withdrawn_frame _ _ _ _
    · rw [State.record, hframe.lane, hlane]; exact Lane.record_withdrawn_same _ _ _ hbl
    · rw [hframe.lane, hlane]; exact Lane.record_withdrawn_ne _ _ _ hc
    · rw [hframe.lane, hw]; exact State.lane_modLane_ne _ _ hy
    · rw [hframe.pool, hw]; rfl
    · exact hframe.rqu.trans (by rw [hw]; rfl)
    · exact hframe.link.trans (by rw [hlink])
    · exact ⟨hframe.inputs.1.trans (by rw [hw]; rfl), hframe.inputs.2.1.trans (by rw [hw]; rfl),
        hframe.inputs.2.2.trans (by rw [hw]; rfl)⟩

end Sys2Proof.Machine
end

