-- ==== Sys2Proof/Proofs/Arbiter.lean ====
section
/-! PROOFS. The outbound arbiter (R177): what it chooses, and the frame it composes (R171, R174 to R176). -/

namespace Sys2Proof.Machine

/-! ### The choice -/

theorem State.outbound_of_sync {s : State} (h : s.link.syncDue = true) : s.outbound = .sync := if_pos h

theorem State.outbound_of_nak {s : State} {r : NakReason} (hs : s.link.syncDue = false) (h : s.link.nakDue = some r) :
    s.outbound = .nak r := by
  simp [State.outbound, hs, h]

theorem State.outbound_of_data {s : State} {c : Nat} {q : QueueEntry} {rest : List QueueEntry} (hs : s.link.syncDue = false)
    (hn : s.link.nakDue = none) (hc : s.link.transmission = some c) (hq : s.link.queue = q :: rest) : s.outbound = .data q c := by
  simp [State.outbound, hs, hn, hc, hq]

theorem State.outbound_of_none {s : State} (hs : s.link.syncDue = false) (hn : s.link.nakDue = none)
    (hc : s.link.transmission = none) : s.outbound = s.replyOrNotice := by
  simp [State.outbound, hs, hn, hc]

theorem State.replyOrNotice_reply {s : State} {q : QueueEntry} {rest : List QueueEntry} (hq : s.link.queue = q :: rest)
    (h : s.nextNotice = none ∨ s.link.lastTurn = some .notice) : s.replyOrNotice = .reply q.reply := by
  rcases hn : s.nextNotice with _ | n
  · simp [State.replyOrNotice, hq, hn]
  · simp [State.replyOrNotice, hq, hn, h.resolve_left (by simp [hn])]

theorem State.replyOrNotice_notice {s : State} {n : Notice} (hn : s.nextNotice = some n)
    (h : s.link.queue = [] ∨ s.link.lastTurn ≠ some .notice) : s.replyOrNotice = .notice n := by
  rcases hq : s.link.queue with _ | ⟨q, rest⟩
  · simp [State.replyOrNotice, hq, hn]
  · simp [State.replyOrNotice, hq, hn, h.resolve_left (by simp [hq])]

theorem State.replyOrNotice_idle {s : State} (hq : s.link.queue = []) (hn : s.nextNotice = none) :
    s.replyOrNotice = if s.link.ackDue then .ack else .nothing := by
  simp [State.replyOrNotice, hq, hn]

/-- What the arbiter's choice leaves. -/
def State.send (s : State) : Outbound → State
  | .sync => s.sendSync
  | .nak r => s.sendNak r
  | .data q c => s.sendChunk q c
  | .reply r => s.sendReply r
  | .notice n => s.sendNotice n
  | .ack => s.sendAck
  | .nothing => s

/-- With the transmitter idle, the arbiter carries out its choice. -/
theorem State.arbitrate_idle {s : State} (h : s.link.tx = none) : s.arbitrate = s.send s.outbound := by
  rw [State.arbitrate, if_neg (by simp [h])]
  rfl

/-! ### The notices -/

/-- The first of a range of numbers for which `f` answers. -/
theorem List.findSome?_range_eq_some {α : Type} {f : Nat → Option α} {n : Nat} {a : α} :
    (List.range n).findSome? f = some a ↔ ∃ x, x < n ∧ f x = some a ∧ ∀ y, y < x → f y = none := by
  induction n with
  | zero => simp
  | succ n ih =>
    rw [List.range_succ, List.findSome?_append, Option.or_eq_some_iff, ih]
    simp only [List.findSome?_eq_none_iff, List.mem_range, List.findSome?_singleton]
    constructor
    · rintro (⟨x, hx, h⟩ | ⟨hnone, h⟩)
      · exact ⟨x, by omega, h⟩
      · exact ⟨n, by omega, h, hnone⟩
    · rintro ⟨x, hx, h, hbelow⟩
      rcases Nat.lt_succ_iff_lt_or_eq.mp hx with hx | rfl
      · exact .inl ⟨x, hx, h, hbelow⟩
      · exact .inr ⟨hbelow, h⟩

theorem Lane.getElem_records (l : Lane) {b : Nat} (h : b < 1024) : l.records[b] = l.record b := by
  simp [Lane.record, h]

/-- The lowest block of a lane with its notice pending. -/
theorem Lane.firstFailed_eq_some {l : Lane} {b : Nat} :
    l.firstFailed = some b ↔ b < 1024 ∧ (l.record b).failNotice = true ∧ ∀ c, c < b → (l.record c).failNotice = false := by
  rw [Lane.firstFailed, List.findIdx?_eq_some_iff_getElem]
  constructor
  · rintro ⟨hb, hset, hlow⟩
    rw [Vector.length_toList] at hb
    refine ⟨hb, ?_, fun c hc => ?_⟩
    · simpa [l.getElem_records hb] using hset
    · simpa [l.getElem_records (hc.trans hb)] using hlow c hc
  · rintro ⟨hb, hset, hlow⟩
    refine ⟨by simpa using hb, ?_, fun c hc => ?_⟩
    · simpa [l.getElem_records hb] using hset
    · simpa [l.getElem_records (hc.trans hb)] using hlow c hc

theorem Lane.firstFailed_eq_none {l : Lane} : l.firstFailed = none ↔ ∀ b, b < 1024 → (l.record b).failNotice = false := by
  rw [Lane.firstFailed, List.findIdx?_eq_none_iff]
  constructor
  · intro h b hb
    refine h _ ?_
    rw [← l.getElem_records hb]
    simp
  · intro h r hr
    obtain ⟨b, hb, rfl⟩ := List.mem_iff_getElem.mp hr
    rw [Vector.length_toList] at hb
    simpa [l.getElem_records hb] using h b hb

/-- The lowest lane and block with its notice pending. -/
theorem State.firstBlockFailed_eq_some {s : State} {x b : Nat} :
    s.firstBlockFailed = some (.blockFailed x b)
      ↔ x < 4 ∧ b < 1024 ∧ (s.record x b).failNotice = true ∧ (∀ c, c < b → (s.record x c).failNotice = false)
        ∧ ∀ y c, y < x → c < 1024 → (s.record y c).failNotice = false := by
  rw [State.firstBlockFailed, List.findSome?_range_eq_some]
  simp only [Option.map_eq_some_iff, Option.map_eq_none_iff, Lane.firstFailed_eq_none]
  constructor
  · rintro ⟨y, hy, ⟨c, hc, heq⟩, hlow⟩
    cases heq
    obtain ⟨hb, hset, hbelow⟩ := Lane.firstFailed_eq_some.mp hc
    exact ⟨hy, hb, hset, hbelow, fun z c hz => hlow z hz c⟩
  · rintro ⟨hx, hb, hset, hbelow, hlow⟩
    exact ⟨x, hx, ⟨b, Lane.firstFailed_eq_some.mpr ⟨hb, hset, hbelow⟩, rfl⟩, fun z hz c => hlow z c hz⟩

theorem State.firstBlockFailed_eq_none {s : State} (h : ∀ x b, x < 4 → b < 1024 → (s.record x b).failNotice = false) :
    s.firstBlockFailed = none := by
  rw [State.firstBlockFailed, List.findSome?_eq_none_iff]
  intro x hx
  rw [Option.map_eq_none_iff, Lane.firstFailed_eq_none]
  exact fun b hb => h x b (List.mem_range.mp hx) hb

/-- Settles O14: the arbiter's choice by its branches, and the notices by the order of their tests. -/
theorem arbiterOrder : Obligations.ArbiterOrder := by
  refine ⟨fun s htx => ⟨fun hs => ?_, fun hs => ⟨fun r hr => ?_, fun hn => ⟨fun c q rest hc hq => ?_, fun hc =>
    ⟨fun q rest hq h => ?_, fun n hnot h => ?_, fun hq hnot => ?_⟩⟩⟩⟩, fun s => ⟨fun hs => ?_, fun hs =>
    ⟨fun hw => ?_, fun hw hp => ?_, fun hw hp => ?_⟩⟩⟩
  · rw [State.arbitrate_idle htx, State.outbound_of_sync hs]; rfl
  · rw [State.arbitrate_idle htx, State.outbound_of_nak hs hr]; rfl
  · rw [State.arbitrate_idle htx, State.outbound_of_data hs hn hc hq]; rfl
  · rw [State.arbitrate_idle htx, State.outbound_of_none hs hn hc, State.replyOrNotice_reply hq h]; exact ⟨rfl, rfl⟩
  · rw [State.arbitrate_idle htx, State.outbound_of_none hs hn hc, State.replyOrNotice_notice hnot h]; exact ⟨rfl, rfl⟩
  · rw [State.arbitrate_idle htx, State.outbound_of_none hs hn hc, State.replyOrNotice_idle hq hnot]
    split
    · rfl
    · exact congrArg (Option.map OutFrame.what) htx
  · exact if_pos hs
  · exact (if_neg (by simp [hs])).trans (if_pos hw)
  · exact (if_neg (by simp [hs])).trans ((if_neg (by simp [hw])).trans (if_pos hp))
  · have hnext : s.nextNotice = s.firstBlockFailed :=
      (if_neg (by simp [hs])).trans ((if_neg (by simp [hw])).trans (if_neg (by simp [hp])))
    rw [hnext]
    exact ⟨fun x b => State.firstBlockFailed_eq_some, State.firstBlockFailed_eq_none⟩

/-! ### The frame -/

/-- What stands behind a choice of the arbiter (R177). -/
def Outbound.Grounded (s : State) : Outbound → Prop
  | .sync => s.link.syncDue = true
  | .nak r => s.link.nakDue = some r
  | .data q c => s.link.transmission = some c ∧ ∃ rest, s.link.queue = q :: rest
  | .reply r => ∃ q rest, s.link.queue = q :: rest ∧ q.reply = r
  | .notice n => s.nextNotice = some n
  | .ack => s.link.ackDue = true
  | .nothing => True

theorem State.replyOrNotice_grounded (s : State) : s.replyOrNotice.Grounded s := by
  unfold State.replyOrNotice
  split
  · split
    · exact ⟨_, _, ‹_›, rfl⟩
    · assumption
  · exact ⟨_, _, ‹_›, rfl⟩
  · assumption
  · split
    · assumption
    · trivial

theorem State.outbound_grounded (s : State) : s.outbound.Grounded s := by
  unfold State.outbound
  split
  · assumption
  · split
    · assumption
    · split
      · exact ⟨‹_›, _, ‹_›⟩
      · exact s.replyOrNotice_grounded

theorem flatMap_num1_map (l : List Bool) :
    l.flatMap (fun ok => num1 (if ok then 2 else 4)) = l.map (fun ready => if ready then 2#8 else 4#8) := by
  induction l with
  | nil => rfl
  | cons a l ih =>
    rw [List.flatMap_cons, List.map_cons, ih]
    cases a <;> rfl

/-- The payload of a notice (R161, R167), as the statements write it. -/
theorem State.noticePayload_eq (s : State) (n : Notice) :
    s.noticePayload n = (match n with
      | .blockFailed x b =>
        let first := (s.record x b).firstHeld
        [1#8, BitVec.ofNat 8 x, BitVec.ofNat 8 b, BitVec.ofNat 8 (b / 256), BitVec.ofNat 8 first,
          BitVec.ofNat 8 (first / 256), BitVec.ofNat 8 (s.record x b).heldCount]
      | .poolLow => [2#8, BitVec.ofNat 8 s.freeCount]
      | .wpChanged => [3#8, if s.wpAsserted then 1#8 else 0#8]
      | .startupDone => 4#8 :: s.rqu.scanEnd.toList.map (fun ready => if ready then 2#8 else 4#8)) := by
  cases n with
  | blockFailed x b => rfl
  | poolLow => rfl
  | wpChanged => cases h : s.wpAsserted <;> simp [State.noticePayload, flag1, num1, h]
  | startupDone => exact congrArg (List.cons 4#8) (flatMap_num1_map _)

/-- Settles O15: the composition of each choice. -/
theorem composedHeader : Obligations.ComposedHeader := by
  intro s f htx hf
  have hwhy := s.outbound_grounded
  have harb := State.arbitrate_idle htx
  rw [harb] at hf ⊢
  cases hout : s.outbound with
  | sync =>
    simp only [hout] at hf hwhy ⊢
    obtain rfl := Option.some.inj hf
    exact ⟨rfl, rfl, rfl, rfl, rfl, rfl, rfl, rfl, rfl, ⟨hwhy, rfl, rfl⟩, rfl, rfl, rfl, rfl, rfl, rfl⟩
  | nak r =>
    simp only [hout] at hf hwhy ⊢
    obtain rfl := Option.some.inj hf
    exact ⟨rfl, rfl, rfl, rfl, rfl, rfl, rfl, rfl, rfl, ⟨r, hwhy, rfl, by cases r <;> rfl⟩, rfl, rfl, rfl, rfl, rfl, rfl⟩
  | data q c =>
    simp only [hout] at hf hwhy ⊢
    obtain rfl := Option.some.inj hf
    obtain ⟨hc, rest, hq⟩ := hwhy
    refine ⟨rfl, rfl, rfl, rfl, rfl, rfl, rfl, rfl, rfl, ⟨rfl, hc, q, rest, hq, rfl, fun i hi => ?_, fun x sector hx hsec => ?_⟩,
      rfl, rfl, rfl, rfl, rfl, rfl⟩
    · change num1 c ++ s.sourceChunk q.source c = _
      rw [hi]; rfl
    · change num1 c ++ s.sourceChunk q.source c = _
      rw [hx]
      simp [State.sourceChunk, hsec, num1]
  | reply r =>
    simp only [hout] at hf hwhy ⊢
    obtain rfl := Option.some.inj hf
    obtain ⟨q, rest, hq, rfl⟩ := hwhy
    exact ⟨rfl, rfl, rfl, rfl, rfl, rfl, rfl, rfl, rfl, ⟨rfl, q, rest, hq, rfl, rfl⟩, rfl, rfl, rfl, rfl, rfl, rfl⟩
  | notice n =>
    simp only [hout] at hf hwhy ⊢
    obtain rfl := Option.some.inj hf
    exact ⟨rfl, rfl, rfl, rfl, rfl, rfl, rfl, rfl, rfl, ⟨hwhy, rfl, s.noticePayload_eq n⟩, rfl, rfl, rfl, rfl, rfl, rfl⟩
  | ack =>
    simp only [hout] at hf hwhy ⊢
    obtain rfl := Option.some.inj hf
    exact ⟨rfl, rfl, rfl, rfl, rfl, rfl, rfl, rfl, rfl, ⟨hwhy, rfl, rfl⟩, rfl, rfl, rfl, rfl, rfl, rfl⟩
  | nothing =>
    simp only [hout] at hf
    cases htx.symm.trans hf

end Sys2Proof.Machine
end

