-- ==== Sys2Proof/Proofs/Choices.lean ====
section
/-! PROOFS. The lane scheduler's choices (R86 to R91, R103, R117, R120, R123): what is chosen, what a taken READ, ERASE or pass leaves,
and that choices go on until one waits or starts a job. -/

namespace Sys2Proof.Machine

/-! ### Setting one lane -/

theorem State.setLane_out (s : State) {x : Nat} (l : Lane) (h : ¬x < 4) : s.setLane x l = s := by
  unfold State.setLane
  rw [Vector.setIfInBounds_eq_of_size_le (by omega)]

/-- What a lane keeps when it is set to `l`, whether or not the lane exists. -/
theorem State.lane_setLane_keep {α : Type} (F : Lane → α) (s : State) {x : Nat} {l : Lane} (h : F l = F (s.lane x)) :
    F ((s.setLane x l).lane x) = F (s.lane x) := by
  by_cases hx : x < 4
  · rw [State.lane_setLane_same s l hx, h]
  · rw [State.setLane_out s l hx]

theorem State.modLane_setLane (s : State) (x : Nat) (l : Lane) (f : Lane → Lane) : (s.setLane x l).modLane x f = s.setLane x (f l) := by
  by_cases hx : x < 4
  · rw [State.modLane_eq_setLane, State.lane_setLane_same s l hx, State.setLane_setLane]
  · rw [State.modLane_eq_setLane, State.setLane_out s l hx, State.setLane_out s _ hx, State.setLane_out s _ hx]

theorem State.modRecord_setLane (s : State) (x b : Nat) (l : Lane) (f : BlockRec → BlockRec) :
    (s.setLane x l).modRecord x b f = s.setLane x (l.modRecord b f) := s.modLane_setLane x l _

theorem State.modTag_setLane (s : State) (x t : Nat) (l : Lane) (f : TagEntry → TagEntry) :
    (s.setLane x l).modTag t f = (s.modTag t f).setLane x l := by
  unfold State.modTag
  rw [State.setLane_tag]
  split <;> rfl

/-! ### Taking a READ -/

theorem Lane.popRead_eq (l : Lane) :
    l.popRead = { l with workQueue := l.workQueue.tail, readRun := if l.readyList = [] then l.readRun else l.readRun + 1 } := by
  unfold Lane.popRead
  simp only [List.isEmpty_iff]

/-- The lane after the start of an array READ job (R89, R103). -/
def Lane.reading (l : Lane) (t b p : Nat) : Lane :=
  { l.popRead with
    engine := some (.sense (l.record b).physical p 0)
    job := some (.read t b p (l.record b).physical)
    egress := l.egress.claim }

theorem State.take_finalized (s : State) (x t b p : Nat) :
    s.take x (.read t b p .finalized) = (s.modTag t TagEntry.activate).setLane x ((s.lane x).reading t b p) := by
  have hphys : ((s.setLane x (s.lane x).popRead).record x b).physical = (s.record x b).physical :=
    s.lane_setLane_keep (fun l => (l.record b).physical) rfl
  show State.startRead (s.setLane x (s.lane x).popRead) x t b p = _
  unfold State.startRead
  rw [hphys, State.modTag_setLane, State.modLane_setLane]
  rfl

theorem State.take_held (s : State) (x t b p i : Nat) :
    s.take x (.read t b p (.held i))
      = ((s.setLane x (s.lane x).popRead).modSlot i Slot.pin).finish t .done (.read x b p (s.slotReadFields i)) (some (.slot i)) := rfl

/-- A READ of a class without a data source is answered by its class (R102). -/
theorem State.take_empty (s : State) (x t b p : Nat) {c : PageClass} (hf : c ≠ .finalized) (hh : ∀ i, c ≠ .held i) :
    s.take x (.read t b p c) = (s.setLane x (s.lane x).popRead).finish t c.status (.page x b p) none := by
  cases c with
  | finalized => exact absurd rfl hf
  | held i => exact absurd rfl (hh i)
  | erased => rfl
  | notWritten => rfl
  | pad => rfl

/-! ### Taking an ERASE -/

/-- The lane after an ERASE at the head has been taken and has ended at once (R41, R91). -/
def Lane.eraseEnded (l : Lane) (b : Nat) : Lane :=
  Lane.modRecord { l with workQueue := l.workQueue.tail } b (fun r => { r with erasePending := false })

/-- The lane after the start of an ERASE job on course `c` (R91, R117, R120). -/
def Lane.erasing (l : Lane) (t b : Nat) (c : EraseCourse) : Lane :=
  { l with
    workQueue := l.workQueue.tail
    engine := some (.erase (c.block (l.record b).physical))
    freeReserves := c.takeReserve l.freeReserves
    job := some (.erase t b c none) }

theorem State.take_erase_protected (s : State) (x t b : Nat) (h : s.wpAsserted = true) :
    s.take x (.erase t b) = (s.setLane x ((s.lane x).eraseEnded b)).finish t .writeProtected (.erase x b none) none := by
  show (if s.wpAsserted then _ else _) = _
  rw [if_pos h]
  unfold State.clearErasePending
  rw [State.modLane_eq_setLane, State.modRecord_setLane]
  rfl

theorem State.take_erase_eq (s : State) (x t b : Nat) (h : s.wpAsserted = false) :
    s.take x (.erase t b)
      = match (s.lane x).eraseCourse b with
        | some c => (s.modTag t TagEntry.activate).setLane x ((s.lane x).erasing t b c)
        | none =>
          (s.setLane x ((s.lane x).eraseEnded b)).finish t .noReserve
            (.erase x b (some { course := none, physical := (s.record x b).physical, substituted := false, directory := .notNeeded,
                                freeReserves := (s.lane x).freeReserves.length })) none := by
  obtain ⟨popped, hpop⟩ : ∃ l, l = { s.lane x with workQueue := (s.lane x).workQueue.tail } := ⟨_, rfl⟩
  have hcourse : ((s.setLane x popped).lane x).eraseCourse b = (s.lane x).eraseCourse b :=
    s.lane_setLane_keep (fun l => l.eraseCourse b) (by rw [hpop]; rfl)
  have hphys : ((s.setLane x popped).record x b).physical = (s.record x b).physical :=
    s.lane_setLane_keep (fun l => (l.record b).physical) (by rw [hpop]; rfl)
  have hfree : ((s.setLane x popped).lane x).freeReserves = (s.lane x).freeReserves :=
    s.lane_setLane_keep Lane.freeReserves (by rw [hpop])
  have htake : s.take x (.erase t b)
      = match ((s.setLane x popped).lane x).eraseCourse b with
        | some c => (s.setLane x popped).startErase x t b c
        | none => (s.setLane x popped).endNoReserve x t b := by
    rw [hpop]
    exact if_neg (by simp [h])
  rw [htake, hcourse]
  cases (s.lane x).eraseCourse b with
  | some c =>
    dsimp only [State.startErase]
    rw [hphys, State.modTag_setLane, State.modLane_setLane, hpop]
    rfl
  | none =>
    dsimp only [State.endNoReserve, State.clearErasePending]
    rw [hphys, hfree, State.modRecord_setLane, hpop]
    rfl

/-! ### Taking a pass -/

/-- The lane after the start of a pass (R29). -/
def Lane.passing (l : Lane) (e : ReadyEntry) (op : Operation) : Lane :=
  { l with
    records := l.records.setIfInBounds e.block { l.record e.block with readyPass := none }
    readyList := l.readyList.filter (fun f => decide (f.block ≠ e.block))
    readRun := 0
    engine := some op
    array := op.begin l.array
    job := some (.pass e.block e.pass) }

theorem State.take_pass (s : State) (x : Nat) (e : ReadyEntry) :
    s.take x (.pass e) = s.setLane x ((s.lane x).passing e (s.passOperation x e.block e.pass)) := rfl

/-! ### What is chosen (R87) -/

/-- No READ goes first (R87, R88): the head is no READ, or it waits for the egress buffer, or its burst is over. -/
def State.NoReadFirst (s : State) (x : Nat) : Prop :=
  ∀ t b p rest, (s.lane x).workQueue = { tag := t, block := b, kind := .read p } :: rest →
    (s.classify x b p = .finalized ∧ (s.lane x).egress.state ≠ .free)
      ∨ ((s.lane x).readyList ≠ [] ∧ s.rqu.settings.readBurst ≤ (s.lane x).readRun)

theorem State.readFirst_head {s : State} {x t b p : Nat} {rest : List WorkItem}
    (h : (s.lane x).workQueue = { tag := t, block := b, kind := .read p } :: rest) :
    s.readFirst x
      = if (s.classify x b p ≠ .finalized ∨ (s.lane x).egress.state = .free)
          ∧ ((s.lane x).readyList = [] ∨ (s.lane x).readRun < s.rqu.settings.readBurst) then
          some (.read t b p (s.classify x b p))
        else none := by
  unfold State.readFirst
  simp only [h]

theorem State.readFirst_of_noRead {s : State} {x : Nat} (h : s.NoReadFirst x) : s.readFirst x = none := by
  cases hq : (s.lane x).workQueue with
  | nil => unfold State.readFirst; simp only [hq]
  | cons w rest =>
    obtain ⟨t, b, k⟩ := w
    cases k with
    | erase => unfold State.readFirst; simp only [hq]
    | read p =>
      rw [State.readFirst_head hq, if_neg]
      rintro ⟨hegress, hburst⟩
      rcases h t b p rest hq with ⟨hclass, hbusy⟩ | ⟨hready, hover⟩
      · exact hegress.elim (· hclass) hbusy
      · exact hburst.elim hready (Nat.not_lt.mpr hover)

/-- What the rules of R87 chose, and why. -/
theorem State.choice_cases (s : State) (x : Nat) :
    (∃ t b p rest, (s.lane x).workQueue = { tag := t, block := b, kind := .read p } :: rest
        ∧ s.choice x = .read t b p (s.classify x b p)
        ∧ (s.classify x b p ≠ .finalized ∨ (s.lane x).egress.state = .free))
      ∨ (s.readFirst x = none ∧ ∃ e, (s.lane x).nextPass = some e ∧ s.choice x = .pass e)
      ∨ (s.readFirst x = none ∧ (s.lane x).nextPass = none
        ∧ ∃ t b rest, (s.lane x).workQueue = { tag := t, block := b, kind := .erase } :: rest ∧ s.choice x = .erase t b)
      ∨ (s.readFirst x = none ∧ (s.lane x).nextPass = none ∧ s.choice x = .wait
        ∧ ∀ t b rest, (s.lane x).workQueue ≠ { tag := t, block := b, kind := .erase } :: rest) := by
  unfold State.choice
  cases hread : s.readFirst x with
  | some c =>
    left
    cases hq : (s.lane x).workQueue with
    | nil => unfold State.readFirst at hread; simp only [hq] at hread; cases hread
    | cons w rest =>
      obtain ⟨t, b, k⟩ := w
      cases k with
      | erase => unfold State.readFirst at hread; simp only [hq] at hread; cases hread
      | read p =>
        rw [State.readFirst_head hq] at hread
        split at hread
        next hgoes => exact ⟨t, b, p, rest, rfl, (Option.some.inj hread).symm, hgoes.1⟩
        next => cases hread
  | none =>
    right
    dsimp only
    cases hpass : (s.lane x).nextPass with
    | some e => exact .inl ⟨rfl, e, rfl, rfl⟩
    | none =>
      right
      dsimp only
      cases hq : (s.lane x).workQueue with
      | nil => exact .inr ⟨rfl, rfl, rfl, fun t b rest h => nomatch h⟩
      | cons w rest =>
        obtain ⟨t, b, k⟩ := w
        cases k with
        | erase => exact .inl ⟨rfl, rfl, t, b, rest, rfl, rfl⟩
        | read p => exact .inr ⟨rfl, rfl, rfl, fun t b rest h => nomatch h⟩

theorem Lane.nextPass_mem {l : Lane} {e : ReadyEntry} (h : l.nextPass = some e) : e ∈ l.readyList := by
  unfold Lane.nextPass at h
  split at h
  next f hf =>
    rw [← Option.some.inj h]
    exact List.mem_of_find?_eq_some hf
  next => exact List.mem_of_mem_head? h

theorem Lane.nextPass_none {l : Lane} : l.nextPass = none ↔ l.readyList = [] := by
  unfold Lane.nextPass
  split
  next f hf =>
    have hne : l.readyList ≠ [] := List.ne_nil_of_mem (List.mem_of_find?_eq_some hf)
    simp [hne]
  next => exact List.head?_eq_none_iff

theorem Lane.nextPass_final {l : Lane} {e : ReadyEntry} {before after : List ReadyEntry} (h : l.readyList = before ++ e :: after)
    (he : e.pass.kind = .final) (hb : ∀ f ∈ before, f.pass.kind ≠ .final) : l.nextPass = some e := by
  have hfind : l.readyList.find? (fun f => decide (f.pass.kind = .final)) = some e := by
    rw [h, List.find?_append, List.find?_eq_none.mpr (fun f hf => by simp [hb f hf]), Option.none_or,
      List.find?_cons_of_pos (by simp [he])]
  unfold Lane.nextPass
  rw [hfind]

theorem Lane.nextPass_head {l : Lane} {e : ReadyEntry} {after : List ReadyEntry} (h : l.readyList = e :: after)
    (hb : ∀ f ∈ l.readyList, f.pass.kind ≠ .final) : l.nextPass = some e := by
  have hfind : l.readyList.find? (fun f => decide (f.pass.kind = .final)) = none :=
    List.find?_eq_none.mpr (fun f hf => by simp [hb f hf])
  unfold Lane.nextPass
  rw [hfind, h]
  rfl

theorem State.choice_pass {s : State} {x : Nat} {e : ReadyEntry} (h : s.NoReadFirst x) (he : (s.lane x).nextPass = some e) :
    s.choice x = .pass e := by
  unfold State.choice
  rw [State.readFirst_of_noRead h]
  dsimp only
  rw [he]

/-! ### Choices in a row (R86) -/

theorem Lane.choiceDue_iff (l : Lane) :
    l.choiceDue = true ↔ l.job = none ∧ l.state = .ready ∧ (l.readyList ≠ [] ∨ l.workQueue ≠ []) := by
  simp [Lane.choiceDue, and_assoc]

theorem Lane.not_choiceDue_of_job {l : Lane} {j : Job} (h : l.job = some j) : l.choiceDue = false := by
  simp [Lane.choiceDue, h]

/-- A choice leaves its lane waiting, starts a job, or takes the head of the work queue. -/
theorem State.choice_progress {s : State} {x : Nat} (h : (s.lane x).choiceDue = true) :
    s.choice x = .wait ∨ (∃ j, ((s.take x (s.choice x)).lane x).job = some j)
      ∨ ((s.take x (s.choice x)).lane x).workQueue.length + 1 = (s.lane x).workQueue.length := by
  have hx : x < 4 := s.lane_lt_of_state (by rw [((s.lane x).choiceDue_iff.mp h).2.1]; decide)
  rcases s.choice_cases x with ⟨t, b, p, rest, hq, hc, -⟩ | ⟨-, e, -, hc⟩ | ⟨-, -, t, b, rest, hq, hc⟩ | ⟨-, -, hc, -⟩
  · rw [hc, hq]
    by_cases hfin : s.classify x b p = .finalized
    · rw [hfin, State.take_finalized, State.lane_setLane_same _ _ hx]
      exact .inr (.inl ⟨_, rfl⟩)
    · have hlane : (s.take x (.read t b p (s.classify x b p))).lane x = (s.lane x).popRead := by
        by_cases hheld : ∃ i, s.classify x b p = .held i
        · obtain ⟨i, hi⟩ := hheld
          rw [hi, State.take_held, (State.finish_frame _ _ _ _ _).lane, State.modSlot_lane, State.lane_setLane_same _ _ hx]
        · rw [State.take_empty _ _ _ _ _ hfin (fun i hi => hheld ⟨i, hi⟩), (State.finish_frame _ _ _ _ _).lane,
            State.lane_setLane_same _ _ hx]
      rw [hlane, Lane.popRead_eq, hq]
      exact .inr (.inr rfl)
  · rw [hc, State.take_pass, State.lane_setLane_same _ _ hx]
    exact .inr (.inl ⟨_, rfl⟩)
  · rw [hc, hq]
    have hended : ((s.lane x).eraseEnded b).workQueue.length + 1 = (s.lane x).workQueue.length := by
      show (s.lane x).workQueue.tail.length + 1 = _
      rw [hq]
      rfl
    by_cases hwp : s.wpAsserted = true
    · rw [State.take_erase_protected _ _ _ _ hwp, (State.finish_frame _ _ _ _ _).lane, State.lane_setLane_same _ _ hx, hended, hq]
      exact .inr (.inr rfl)
    · rw [State.take_erase_eq _ _ _ _ (by simpa using hwp)]
      split
      · rw [State.lane_setLane_same _ _ hx]
        exact .inr (.inl ⟨_, rfl⟩)
      · rw [(State.finish_frame _ _ _ _ _).lane, State.lane_setLane_same _ _ hx, hended, hq]
        exact .inr (.inr rfl)
  · exact .inl hc

theorem scheduleFuel_of_not_due {s : State} {x : Nat} (h : (s.lane x).choiceDue = false) (n : Nat) : scheduleFuel n x s = s := by
  cases n with
  | zero => rfl
  | succ n => exact if_neg (by simp [h])

theorem scheduleFuel_of_wait {s : State} {x : Nat} (h : s.choice x = .wait) (n : Nat) : scheduleFuel n x s = s := by
  induction n with
  | zero => rfl
  | succ n ih =>
    rw [scheduleFuel]
    split
    · rw [h]; exact ih
    · rfl

/-- Fuel above the length of the work queue is enough, and more makes no difference. -/
theorem scheduleFuel_enough {x : Nat} (n : Nat) : ∀ (s : State) (m : Nat), (s.lane x).workQueue.length < n →
    (s.lane x).workQueue.length < m → scheduleFuel n x s = scheduleFuel m x s := by
  induction n with
  | zero => exact fun _ _ hn _ => absurd hn (Nat.not_lt_zero _)
  | succ n ih =>
    intro s m hn hm
    cases m with
    | zero => exact absurd hm (Nat.not_lt_zero _)
    | succ m =>
      cases hdue : (s.lane x).choiceDue with
      | false => rw [scheduleFuel_of_not_due hdue, scheduleFuel_of_not_due hdue]
      | true =>
        rw [scheduleFuel, scheduleFuel, if_pos hdue, if_pos hdue]
        rcases State.choice_progress hdue with hwait | ⟨j, hj⟩ | hlen
        · rw [hwait]
          exact (scheduleFuel_of_wait hwait n).trans (scheduleFuel_of_wait hwait m).symm
        · rw [scheduleFuel_of_not_due (Lane.not_choiceDue_of_job hj), scheduleFuel_of_not_due (Lane.not_choiceDue_of_job hj)]
        · exact ih _ m (by omega) (by omega)

theorem State.schedule_of_not_due {s : State} {x : Nat} (h : (s.lane x).choiceDue = false) : s.schedule x = s :=
  scheduleFuel_of_not_due h _

theorem State.schedule_of_wait {s : State} {x : Nat} (h : s.choice x = .wait) : s.schedule x = s := scheduleFuel_of_wait h _

theorem State.schedule_of_due {s : State} {x : Nat} (h : (s.lane x).choiceDue = true) :
    s.schedule x = (s.take x (s.choice x)).schedule x := by
  unfold State.schedule
  rw [scheduleFuel, if_pos h]
  rcases State.choice_progress h with hwait | ⟨j, hj⟩ | hlen
  · rw [hwait]
    exact (scheduleFuel_of_wait hwait _).trans (scheduleFuel_of_wait hwait _).symm
  · rw [scheduleFuel_of_not_due (Lane.not_choiceDue_of_job hj), scheduleFuel_of_not_due (Lane.not_choiceDue_of_job hj)]
  · exact scheduleFuel_enough _ _ _ (by omega) (by omega)

/-- Settles O13: the rules of R87 in order, and one choice at a time; every choice but a wait takes an entry of the work queue or starts
a job, so the scheduler's fuel is never short. -/
theorem schedulerOrder : Obligations.SchedulerOrder := by
  refine ⟨fun s x t b p rest hq hegress hburst => ?read, fun s x e before after hno hlist he hb => ?final,
    fun s x e after hno hlist hb => ?oldest, fun s x t b rest hlist hq => ?erase,
    fun s x t b p rest hlist hq hclass hbusy => ?waits, fun s x => ?row⟩
  case read =>
    unfold State.choice
    rw [State.readFirst_head hq, if_pos ⟨hegress, hburst⟩]
  case final => exact State.choice_pass hno (Lane.nextPass_final hlist he hb)
  case oldest => exact State.choice_pass hno (Lane.nextPass_head hlist hb)
  case erase =>
    have hno : s.NoReadFirst x := fun t b p rest h => by rw [hq] at h; cases h
    unfold State.choice
    rw [State.readFirst_of_noRead hno]
    dsimp only
    rw [Lane.nextPass_none.mpr hlist]
    dsimp only
    rw [hq]
  case waits =>
    unfold State.choice
    rw [State.readFirst_head hq, if_neg (fun h => h.1.elim (· hclass) hbusy)]
    dsimp only
    rw [Lane.nextPass_none.mpr hlist]
    dsimp only
    rw [hq]
  case row =>
    refine ⟨fun hdue => ?_, State.schedule_of_wait, fun hdue => ?_⟩
    · exact State.schedule_of_not_due (Bool.eq_false_iff.mpr fun h => hdue ((s.lane x).choiceDue_iff.mp h))
    · exact State.schedule_of_due ((s.lane x).choiceDue_iff.mpr hdue)

end Sys2Proof.Machine
end

