-- ==== Sys2Proof/Proofs/ReadsAndErases.lean ====
section
/-! PROOFS. Page classes (R38), and READ and ERASE at their dispatch and at their take by the scheduler (R90, R91, R101, R115, R117). -/

namespace Sys2Proof.Machine

/-! ### Page classes -/

theorem BlockRec.q_of_density {r : BlockRec} {d : Density} (h : r.density = some d) : r.q = d.perStrip := by
  unfold BlockRec.q
  rw [h]
  rfl

theorem BlockRec.pagesEnd_eq (r : BlockRec) :
    r.pagesEnd = match r.dataEnd with
      | some e => if r.density = some .swift then e else (e + 3) / 4 * 4
      | none => r.intakeNext := rfl

theorem BlockRec.isPad_iff (r : BlockRec) (p : Nat) : r.isPad p = true ↔ ∃ e, r.dataEnd = some e ∧ e ≤ p ∧ p < r.pagesEnd := by
  unfold BlockRec.isPad
  cases r.dataEnd with
  | none => simp
  | some e => simp

/-- The rows of R38 below the first two, of a page inside its block. -/
theorem State.classify_of_inside {s : State} {x b p : Nat} (he : (s.record x b).state ≠ .erased) (hr : (s.record x b).state ≠ .retired)
    {d : Density} (hd : (s.record x b).density = some d) (hp : p < d.pages) :
    s.classify x b p
      = if (s.record x b).isPad p then .pad
        else if (s.record x b).pagesEnd ≤ p then .notWritten
        else if p / d.perStrip < (s.record x b).finalDone then .finalized
        else
          match s.slotOf x b p with
          | some i => if (s.slot i).state = .staged ∨ (s.slot i).state = .roughed then .held i else .notWritten
          | none => .notWritten := by
  have hq : ¬(s.record x b).q * Config.strips ≤ p := by
    rw [BlockRec.q_of_density hd]
    exact Nat.not_le.mpr hp
  unfold State.classify
  dsimp only
  rw [if_neg he, if_neg hr, if_neg hq, BlockRec.q_of_density hd] <;> rfl

/-- Settles O34: the rows of R38 in their order. -/
theorem pageClasses : Obligations.PageClasses := by
  intro s x b p r stop
  have hstop : r.pagesEnd = stop := r.pagesEnd_eq
  refine ⟨fun h => if_pos h, fun h => ?retired, fun he hr hd hp => ?beyond, fun he hr d hd hp => ⟨fun e hde hle hlt => ?pad,
    fun hle => ?past, fun hlt hbelow => ⟨fun hfin => ?finalized, fun hfin i hi => ?slot⟩⟩⟩
  case retired =>
    have he : (s.record x b).state ≠ .erased := by rw [h]; decide
    unfold State.classify
    dsimp only
    rw [if_neg he, if_pos h]
  case beyond =>
    have hq : (s.record x b).q * Config.strips ≤ p := by
      rw [BlockRec.q_of_density hd]
      exact hp
    unfold State.classify
    dsimp only
    rw [if_neg he, if_neg hr, if_pos hq]
  case pad =>
    rw [State.classify_of_inside he hr hd hp, if_pos ((r.isPad_iff p).mpr ⟨e, hde, hle, hstop ▸ hlt⟩)]
  case past =>
    have hpad : ¬r.isPad p = true := fun h => by
      obtain ⟨e, -, -, hlt⟩ := (r.isPad_iff p).mp h
      omega
    rw [State.classify_of_inside he hr hd hp, if_neg hpad, if_pos (hstop ▸ hle)]
  case finalized =>
    have hpad : ¬r.isPad p = true := fun h => by
      obtain ⟨e, hde, hle, -⟩ := (r.isPad_iff p).mp h
      exact absurd (hbelow e hde) (Nat.not_lt.mpr hle)
    rw [State.classify_of_inside he hr hd hp, if_neg hpad, if_neg (by rw [hstop]; omega), if_pos hfin]
  case slot =>
    have hpad : ¬r.isPad p = true := fun h => by
      obtain ⟨e, hde, hle, -⟩ := (r.isPad_iff p).mp h
      exact absurd (hbelow e hde) (Nat.not_lt.mpr hle)
    rw [State.classify_of_inside he hr hd hp, if_neg hpad, if_neg (by rw [hstop]; omega), if_neg (Nat.not_lt.mpr hfin), hi]
    refine ⟨fun h => if_pos h, fun h => if_neg ?_⟩
    rw [h]
    decide

/-! ### READ -/

/-- A QUEUED tag becomes ACTIVE as its job starts. -/
theorem State.modTag_activate {s : State} {t : Nat} {e : TagEntry} (h : s.tag t = some e) (hq : e.state = .queued) :
    s.modTag t TagEntry.activate = { s with rqu := s.rqu.withTag t { e with state := .active } } := by
  rw [State.modTag_of_some s _ h]
  unfold TagEntry.activate
  rw [if_pos hq]
  rfl

/-- A QUEUED tag ends with its final reply. -/
theorem State.finish_queued {s m : State} {t : Nat} {e : TagEntry} (st : Status) (fields : ReplyFields) (src : Option Source)
    (h : s.tag t = some e) (hq : e.state = .queued) (hr : m.rqu = s.rqu) (hl : m.link = s.link) :
    m.finish t st fields src
      = { m with
          rqu := s.rqu.withTag t { e with state := .replying }
          link := s.link.placeFinal (QueueEntry.finalOf t e.kind st fields src) } := by
  have hm : m.tag t = some e := by
    unfold State.tag at h ⊢
    rw [hr, h]
  rw [State.finish_of_some m st fields src hm (by rw [hq]; decide), ← hr, ← hl]
  rfl

/-- Settles O35: at dispatch a HELD page is served and any other READ is queued (R101); at its take the class decides (R90). -/
theorem readDispatched : Obligations.ReadDispatched := by
  refine ⟨fun s f x b p hadm hreach hp => ⟨fun i hheld => ?held, fun hclass hlen => ?queued⟩, fun s x t b p entry htag hq => ?taken⟩
  case held =>
    have hfree : (s.unbuffer.modSlot i Slot.pin).link.queue.any (QueueEntry.reservedFor f.tag) = false := hadm.placeFree.2
    rw [execRead_held hadm hreach hp hheld, State.answer_tail _ _ _ _ _ rfl hfree]
    rfl
  case queued =>
    have hroom : (s.lane x).queueFull = false := Bool.eq_false_iff.mpr fun h => by
      have hfull := (s.lane x).queueFull_iff.mp h
      omega
    rw [execRead_queued hadm hreach hp hclass, hroom]
    rfl
  case taken =>
    intro l phys taken ended
    have hpop : l.popRead = taken := l.popRead_eq
    have hended : ∀ st fields source, (s.setLane x taken).finish t st fields source = ended st fields source := fun st fields source =>
      State.finish_queued st fields source htag hq rfl rfl
    refine ⟨?_, fun i => ?_, ?_, ?_, ?_⟩
    · rw [State.take_finalized, State.modTag_activate htag hq, Lane.reading, hpop]
      rfl
    · rw [State.take_held, hpop]
      exact State.finish_queued (s := s) _ _ _ htag hq rfl rfl
    · exact (State.take_empty s x t b p (by simp) (by simp)).trans (by rw [hpop, hended]; rfl)
    · exact (State.take_empty s x t b p (by simp) (by simp)).trans (by rw [hpop, hended]; rfl)
    · exact (State.take_empty s x t b p (by simp) (by simp)).trans (by rw [hpop, hended]; rfl)

/-! ### ERASE -/

theorem mapTarget_isSome_iff (map : List (Nat × Option Nat)) (b : Nat) : (mapTarget map b).isSome = true ↔ ∃ e ∈ map, e.1 = b := by
  simp [mapTarget, List.find?_isSome]

theorem Lane.reserveAvailable_iff (l : Lane) (b : Nat) :
    l.reserveAvailable b = true ↔ l.freeReserves ≠ [] ∧ ((∃ e ∈ l.substMap, e.1 = b) ∨ l.substMap.length < 64) := by
  unfold Lane.reserveAvailable mapHasRoom
  simp only [Bool.and_eq_true, Bool.or_eq_true, mapTarget_isSome_iff, Bool.not_eq_true', List.isEmpty_eq_false_iff,
    decide_eq_true_iff]
  rfl

theorem Lane.eraseCourse_of_sound {l : Lane} {b : Nat} (hs : (l.record b).suspect = false) (hr : (l.record b).state ≠ .retired) :
    l.eraseCourse b = some .inPlace := if_neg (by simp [hs, hr])

theorem Lane.eraseCourse_of_worn {l : Lane} {b : Nat} (h : (l.record b).suspect = true ∨ (l.record b).state = .retired) :
    l.eraseCourse b
      = if l.reserveAvailable b then some (.substitution (l.freeReserves.headD 0))
        else if (l.record b).state = .retired then none else some .inPlace := if_pos h

theorem Lane.eraseCourse_suspect {l : Lane} {b : Nat} (h : (l.record b).suspect = true) (hr : (l.record b).state ≠ .retired)
    (hspare : ¬l.reserveAvailable b = true) : l.eraseCourse b = some .inPlace := by
  rw [Lane.eraseCourse_of_worn (.inl h), if_neg hspare, if_neg hr]

theorem Lane.eraseCourse_retired {l : Lane} {b : Nat} (h : (l.record b).state = .retired) (hspare : ¬l.reserveAvailable b = true) :
    l.eraseCourse b = none := by
  rw [Lane.eraseCourse_of_worn (.inr h), if_neg hspare, if_pos h]

/-- The checks of an ERASE after its lane's (R115). -/
theorem State.eraseCheck_lane {s : State} {x b : Nat} (h : s.Reaches x b) :
    s.eraseCheck x b
      = (failsWith s.wpAsserted .writeProtected).or
          ((failsWith ((s.record x b).erasePending || decide (0 < (s.record x b).heldCount)) .blockBusy).or
            (failsWith (s.lane x).queueFull .queueFull)) := by
  unfold State.eraseCheck
  rw [h.addressCheck]
  rfl

/-- Settles O46: the checks of R115 and the tail of the work queue; at its take the course of R117. -/
theorem eraseQueued : Obligations.EraseQueued := by
  refine ⟨fun s f x b hadm hreach => ⟨fun hwp => ?lines, fun hwp hbusy => ?busy, fun hwp hpending hheld hlen => ?queued⟩,
    fun s x t b entry htag hq => ?taken⟩
  case lines =>
    exact exec_requestCheck hadm ((State.eraseCheck_lane hreach).trans (by rw [hwp]; rfl))
  case busy =>
    exact exec_requestCheck hadm ((State.eraseCheck_lane hreach).trans (by simp [failsWith, hwp, hbusy]))
  case queued =>
    have hroom : (s.lane x).queueFull = false := Bool.eq_false_iff.mpr fun h => by
      have hfull := (s.lane x).queueFull_iff.mp h
      omega
    have hcheck : s.unbuffer.eraseCheck x b = none := by
      refine (State.eraseCheck_reaches (s := s.unbuffer) hreach hwp hpending hheld).trans ?_
      show failsWith (s.lane x).queueFull .queueFull = none
      rw [hroom]
      rfl
    refine (execErase.eq_1 s).trans ((takeRequest_admits _ hadm).trans ?_)
    dsimp only
    rw [hcheck]
    rfl
  case taken =>
    intro l r spare taken started ended
    have hstart : ∀ c, (s.modTag t TagEntry.activate).setLane x (l.erasing t b c)
        = started (c.block r.physical) c (c.takeReserve l.freeReserves) := fun c => by
      rw [State.modTag_activate htag hq]
      rfl
    have hend : ∀ st fields, (s.setLane x (l.eraseEnded b)).finish t st (.erase x b fields) none = ended st fields := fun st fields =>
      State.finish_queued st (.erase x b fields) none htag hq rfl rfl
    refine ⟨fun hwp => (State.take_erase_protected s x t b hwp).trans (hend _ _), fun hwp =>
      ⟨fun hsound hstate => ?_, fun p rest hworn hspare hfree => ?_, fun hsuspect hstate hspare => ?_, fun hstate hspare => ?_⟩⟩
    · rw [State.take_erase_eq s x t b hwp, Lane.eraseCourse_of_sound hsound hstate]
      exact hstart .inPlace
    · rw [State.take_erase_eq s x t b hwp, Lane.eraseCourse_of_worn hworn, if_pos ((l.reserveAvailable_iff b).mpr hspare)]
      refine (hstart _).trans ?_
      rw [hfree]
      rfl
    · rw [State.take_erase_eq s x t b hwp,
        Lane.eraseCourse_suspect hsuspect hstate (fun h => hspare ((l.reserveAvailable_iff b).mp h))]
      exact hstart .inPlace
    · rw [State.take_erase_eq s x t b hwp,
        Lane.eraseCourse_retired hstate (fun h => hspare ((l.reserveAvailable_iff b).mp h))]
      exact hend _ _

end Sys2Proof.Machine
end

