-- ==== Sys2Proof/Proofs/ChoicesMade.lean ====
section
/-! PROOFS. What the scheduler's choices can change (R86 to R91): an account of one choice that composes, so that it holds of all the
choices of a happening. -/

namespace Sys2Proof.Machine

/-! ### Pins alone -/

/-- The slots of `p` are those of `m` but for pins that have been added. -/
def State.OnlyPins (m p : State) : Prop := ∀ i, p.slot i = { m.slot i with pins := (p.slot i).pins } ∧ (m.slot i).pins ≤ (p.slot i).pins

theorem State.OnlyPins.trans {m n p : State} (h : m.OnlyPins n) (k : n.OnlyPins p) : m.OnlyPins p := fun i => by
  obtain ⟨hn, hle⟩ := h i
  obtain ⟨hp, hle'⟩ := k i
  refine ⟨?_, hle.trans hle'⟩
  rw [hp, hn]

theorem State.OnlyPins.of_pool {m p : State} (h : p.pool = m.pool) : m.OnlyPins p := fun i => by
  unfold State.slot
  rw [h]
  exact ⟨rfl, le_rfl⟩

theorem State.OnlyPins.pin (m : State) (i : Nat) : m.OnlyPins (m.modSlot i Slot.pin) := fun j => by
  by_cases hj : j = i
  · subst hj
    by_cases hi : j < 96
    · rw [State.slot_modSlot_same m _ hi]
      exact ⟨rfl, Nat.le_succ _⟩
    · rw [State.slot_modSlot_out m _ hi]
      exact ⟨rfl, le_rfl⟩
  · rw [State.slot_modSlot_ne m _ hj]
    exact ⟨rfl, le_rfl⟩

/-- The page a pass programs depends on its slot but for the pins. -/
theorem State.OnlyPins.programPage {m n : State} (h : m.OnlyPins n) (x b : Nat) : n.programPage x b = m.programPage x b := by
  have howner : ∀ i, (n.slot i).owner = (m.slot i).owner := fun i => by rw [(h i).1]
  have hpad : ∀ i, (n.slot i).pad = (m.slot i).pad := fun i => by rw [(h i).1]
  have hpage : ∀ i, (n.slot i).page = (m.slot i).page := fun i => by rw [(h i).1]; rfl
  funext p
  unfold State.programPage
  simp only [State.slotOf_congr x b p howner, hpad, hpage]

theorem State.passOperation_congr {m n : State} {x b : Nat} (hslot : m.OnlyPins n)
    (hphys : (n.record x b).physical = (m.record x b).physical) (hend : (n.record x b).dataEnd = (m.record x b).dataEnd)
    (harray : (n.lane x).array = (m.lane x).array) (q : Pass) : n.passOperation x b q = m.passOperation x b q := by
  unfold State.passOperation
  dsimp only
  rw [hslot.programPage, hphys, hend, harray]

theorem Lane.eraseCourse_congr {l k : Lane} {b : Nat} (hsuspect : (k.record b).suspect = (l.record b).suspect)
    (hstate : (k.record b).state = (l.record b).state) (hfree : k.freeReserves = l.freeReserves) (hmap : k.substMap = l.substMap) :
    k.eraseCourse b = l.eraseCourse b := by
  unfold Lane.eraseCourse Lane.reserveAvailable
  dsimp only
  rw [hsuspect, hstate, hfree, hmap]

/-! ### The lane -/

/-- What choices that began in `m` can have made of lane `x`. -/
structure State.LaneChose (m : State) (x : Nat) (k : Lane) : Prop where
  frame : (m.lane x).sameButChoices k
  still : k.job = (m.lane x).job → k.engine = (m.lane x).engine ∧ k.array = (m.lane x).array ∧ k.egress = (m.lane x).egress
    ∧ k.freeReserves = (m.lane x).freeReserves
  started : ∀ j, (m.lane x).job = none → k.job = some j → m.JobStarted x j k
  queue : k.workQueue <:+ (m.lane x).workQueue
  ready : k.readyList.Sublist (m.lane x).readyList
  run : (k.readRun = 0 ∧ k.job ≠ none)
    ∨ ((m.lane x).readRun ≤ k.readRun ∧ k.readRun + k.workQueue.length ≤ (m.lane x).readRun + (m.lane x).workQueue.length)
  record : ∀ b,
    k.record b = { m.record x b with readyPass := (k.record b).readyPass, erasePending := (k.record b).erasePending }
      ∧ ((k.record b).readyPass = (m.record x b).readyPass ∨ ((k.record b).readyPass = none ∧ ∃ p, k.job = some (.pass b p)))
      ∧ ((k.record b).erasePending = (m.record x b).erasePending
        ∨ ((k.record b).erasePending = false ∧ ∃ w ∈ (m.lane x).workQueue, w.block = b ∧ w.kind = .erase))

theorem Lane.sameButChoices.trans {l k j : Lane} (h : l.sameButChoices k) (h' : k.sameButChoices j) : l.sameButChoices j := by
  unfold Lane.sameButChoices at h h' ⊢
  rw [h', h]

theorem State.LaneChose.refl (m : State) (x : Nat) : m.LaneChose x (m.lane x) where
  frame := rfl
  still _ := ⟨rfl, rfl, rfl, rfl⟩
  started j hnone hj := by rw [hnone] at hj; cases hj
  queue := List.suffix_refl _
  ready := List.Sublist.refl _
  run := .inr ⟨le_rfl, le_rfl⟩
  record _ := ⟨rfl, .inl rfl, .inl rfl⟩

/-- A job's start is the same seen from before choices that started none. -/
theorem State.JobStarted.of_earlier {m n : State} {x : Nat} {j : Job} {k : Lane} (h : n.JobStarted x j k)
    (hlane : m.LaneChose x (n.lane x)) (hslot : m.OnlyPins n) (hm : (m.lane x).job = none) (hn : (n.lane x).job = none) :
    m.JobStarted x j k := by
  obtain ⟨-, harray, hegress, hfree⟩ := hlane.still (hn.trans hm.symm)
  have hrecord : ∀ b, ∃ p e, n.record x b = { m.record x b with readyPass := p, erasePending := e } := fun b =>
    ⟨_, _, (hlane.record b).1⟩
  have hphys : ∀ b, (n.record x b).physical = (m.record x b).physical := fun b => by
    obtain ⟨p, e, h⟩ := hrecord b
    rw [h]
  have hend : ∀ b, (n.record x b).dataEnd = (m.record x b).dataEnd := fun b => by
    obtain ⟨p, e, h⟩ := hrecord b
    rw [h]
  cases j with
  | pass b p =>
    have hop := State.passOperation_congr hslot (hphys b) (hend b) harray p
    obtain ⟨h1, h2, h3, h4, h5⟩ := h
    exact ⟨hop ▸ h1, by rw [h2, hop, harray], h3, h4.trans hegress, h5.trans hfree⟩
  | read t b p phys =>
    obtain ⟨h1, h2, h3, h4, h5⟩ := h
    exact ⟨h1.trans (hphys b), h2, h3.trans harray, by rw [h4, hegress], h5.trans hfree⟩
  | erase t b c erased =>
    have hcourse : (n.lane x).eraseCourse b = (m.lane x).eraseCourse b := by
      obtain ⟨p, e, hr⟩ : ∃ p e, (n.lane x).record b = { (m.lane x).record b with readyPass := p, erasePending := e } := hrecord b
      have hmap : (n.lane x).substMap = (m.lane x).substMap := by rw [hlane.frame]
      exact Lane.eraseCourse_congr (by rw [hr]) (by rw [hr]) hfree hmap
    obtain ⟨h1, h2, h3, h4, h5, h6⟩ := h
    exact ⟨h1, hcourse ▸ h2, by rw [h3, hphys], h4.trans harray, h5.trans hegress, by rw [h6, hfree]⟩

theorem State.LaneChose.trans {m n : State} {x : Nat} {k : Lane} (h : m.LaneChose x (n.lane x)) (h' : n.LaneChose x k)
    (hslot : m.OnlyPins n) (hm : (m.lane x).job = none) (hn : (n.lane x).job = none) : m.LaneChose x k where
  frame := h.frame.trans h'.frame
  still hk := by
    obtain ⟨h1, h2, h3, h4⟩ := h.still (hn.trans hm.symm)
    obtain ⟨k1, k2, k3, k4⟩ := h'.still (hk.trans (hm.trans hn.symm))
    exact ⟨k1.trans h1, k2.trans h2, k3.trans h3, k4.trans h4⟩
  started j _ hj := (h'.started j hn hj).of_earlier h hslot hm hn
  queue := h'.queue.trans h.queue
  ready := h'.ready.trans h.ready
  run := by
    have hlen := h'.queue.length_le
    rcases h'.run with h0 | ⟨hle, hsum⟩
    · exact .inl h0
    · rcases h.run with h0 | ⟨hle', hsum'⟩
      · exact absurd hn h0.2
      · exact .inr ⟨hle'.trans hle, hsum.trans hsum'⟩
  record b := by
    obtain ⟨(h1 : n.record x b = _), h2, h3⟩ := h.record b
    obtain ⟨k1, k2, k3⟩ := h'.record b
    refine ⟨?_, ?_, ?_⟩
    · rw [k1, h1]
    · refine k2.imp (fun hk => hk.trans (h2.resolve_right ?_)) id
      rintro ⟨-, p, hp⟩
      rw [hn] at hp
      cases hp
    · rcases k3 with hk | ⟨hk, w, hw, hb⟩
      · exact h3.imp hk.trans fun ⟨hf, hw⟩ => ⟨hk.trans hf, hw⟩
      · exact .inr ⟨hk, w, h.queue.subset hw, hb⟩

/-! ### One choice, of the lane -/

theorem State.LaneChose.popRead (m : State) {x : Nat} (h : (m.lane x).workQueue ≠ []) : m.LaneChose x (m.lane x).popRead where
  frame := rfl
  still _ := ⟨rfl, rfl, rfl, rfl⟩
  started j hnone hj := by
    rw [show (m.lane x).popRead.job = (m.lane x).job from rfl, hnone] at hj
    cases hj
  queue := List.tail_suffix _
  ready := List.Sublist.refl _
  run := by
    have hlen := List.length_pos_iff.mpr h
    rw [Lane.popRead_eq]
    dsimp only
    rw [List.length_tail]
    split <;> exact .inr ⟨by omega, by omega⟩
  record _ := ⟨rfl, .inl rfl, .inl rfl⟩

theorem State.LaneChose.reading (m : State) {x t b p : Nat} (h : (m.lane x).workQueue ≠ []) (hjob : (m.lane x).job = none) :
    m.LaneChose x ((m.lane x).reading t b p) where
  frame := rfl
  still hj := by rw [hjob] at hj; cases hj
  started j _ hj := by
    cases hj
    exact ⟨rfl, rfl, rfl, rfl, rfl⟩
  queue := List.tail_suffix _
  ready := List.Sublist.refl _
  run := (State.LaneChose.popRead m h).run.imp (fun h0 => ⟨h0.1, by simp [Lane.reading]⟩) id
  record _ := ⟨rfl, .inl rfl, .inl rfl⟩

theorem State.LaneChose.eraseEnded (m : State) {x t b : Nat} {rest : List WorkItem}
    (h : (m.lane x).workQueue = { tag := t, block := b, kind := .erase } :: rest) : m.LaneChose x ((m.lane x).eraseEnded b) where
  frame := rfl
  still _ := ⟨rfl, rfl, rfl, rfl⟩
  started j hnone hj := by
    rw [show ((m.lane x).eraseEnded b).job = (m.lane x).job from rfl, hnone] at hj
    cases hj
  queue := List.tail_suffix _
  ready := List.Sublist.refl _
  run := .inr ⟨le_rfl, Nat.add_le_add_left (List.tail_suffix _).length_le _⟩
  record c := by
    unfold Lane.eraseEnded
    by_cases hb : b < 1024
    · by_cases hc : c = b
      · subst hc
        rw [Lane.record_modRecord_same _ _ hb]
        exact ⟨rfl, .inl rfl, .inr ⟨rfl, _, h ▸ List.mem_cons_self, rfl, rfl⟩⟩
      · rw [Lane.record_modRecord_ne _ _ hc]
        exact ⟨rfl, .inl rfl, .inl rfl⟩
    · rw [Lane.record_modRecord_out _ _ hb]
      exact ⟨rfl, .inl rfl, .inl rfl⟩

theorem State.LaneChose.erasing (m : State) {x t b : Nat} {c : EraseCourse} (hjob : (m.lane x).job = none)
    (hc : (m.lane x).eraseCourse b = some c) : m.LaneChose x ((m.lane x).erasing t b c) where
  frame := rfl
  still hj := by rw [hjob] at hj; cases hj
  started j _ hj := by
    cases hj
    exact ⟨rfl, hc, rfl, rfl, rfl, rfl⟩
  queue := List.tail_suffix _
  ready := List.Sublist.refl _
  run := .inr ⟨le_rfl, Nat.add_le_add_left (List.tail_suffix _).length_le _⟩
  record _ := ⟨rfl, .inl rfl, .inl rfl⟩

theorem Lane.record_passing (l : Lane) (e : ReadyEntry) (op : Operation) (c : Nat) :
    (l.passing e op).record c = (l.modRecord e.block (fun r => { r with readyPass := none })).record c := rfl

theorem State.LaneChose.passing (m : State) {x : Nat} (e : ReadyEntry) (hjob : (m.lane x).job = none) :
    m.LaneChose x ((m.lane x).passing e (m.passOperation x e.block e.pass)) where
  frame := rfl
  still hj := by rw [hjob] at hj; cases hj
  started j _ hj := by
    cases hj
    exact ⟨rfl, rfl, rfl, rfl, rfl⟩
  queue := List.suffix_refl _
  ready := List.filter_sublist
  run := .inl ⟨rfl, by simp [Lane.passing]⟩
  record c := by
    rw [Lane.record_passing]
    by_cases hb : e.block < 1024
    · by_cases hc : c = e.block
      · subst hc
        rw [Lane.record_modRecord_same _ _ hb]
        exact ⟨rfl, .inr ⟨rfl, _, rfl⟩, .inl rfl⟩
      · rw [Lane.record_modRecord_ne _ _ hc]
        exact ⟨rfl, .inl rfl, .inl rfl⟩
    · rw [Lane.record_modRecord_out _ _ hb]
      exact ⟨rfl, .inl rfl, .inl rfl⟩

/-! ### Tags and replies -/

/-- What choices that took the entries of the work queue `lq` down to `kq` can have made of the rest of the state. -/
structure State.TagsChose (m p : State) (lq kq : List WorkItem) : Prop where
  pins : m.OnlyPins p
  other : ∀ u, (∀ w ∈ lq, w.tag ≠ u) → p.tag u = m.tag u
  dead : ∀ u, m.tag u = none → p.tag u = none
  live : ∀ u e, m.tag u = some e →
    ∃ st, p.tag u = some { e with state := st } ∧ (st = e.state ∨ st = .active ∨ st = .replying)
  rqu : m.rqu.sameButTags p.rqu
  armed : p.pool.armed = m.pool.armed
  inputs : m.sameInputs p
  link : m.link.sameButReplies p.link
  placed : (∀ w ∈ lq, ∀ q ∈ m.link.queue, q.interimOf w.tag = false) →
    p.link.deferred = m.link.deferred
      ∧ ∃ new, p.link.queue = m.link.queue ++ new ∧ new.length + kq.length ≤ lq.length
        ∧ ∀ q ∈ new, q.reply.cls = .final ∧ ∃ w ∈ lq, w.tag = q.reply.tag

theorem QueueEntry.interimOf_final {q : QueueEntry} (h : q.reply.cls = .final) (t : Nat) : q.interimOf t = false := by
  simp [QueueEntry.interimOf, h]

/-- Nothing but lanes has changed, and entries may have left the queue. -/
theorem State.TagsChose.of_same {m p : State} {lq kq : List WorkItem} (hpool : p.pool = m.pool) (hrqu : p.rqu = m.rqu)
    (hlink : p.link = m.link) (hin : m.sameInputs p) (hlen : kq.length ≤ lq.length) : m.TagsChose p lq kq where
  pins := .of_pool hpool
  other u _ := by unfold State.tag; rw [hrqu]
  dead u h := by unfold State.tag at h ⊢; rw [hrqu, h]
  live u e h := ⟨e.state, by unfold State.tag at h ⊢; rw [hrqu, h], .inl rfl⟩
  rqu := by rw [hrqu]; rfl
  armed := by rw [hpool]
  inputs := hin
  link := by rw [hlink]; rfl
  placed _ := ⟨by rw [hlink], [], by rw [hlink, List.append_nil], by simpa using hlen, by simp⟩

theorem State.TagsChose.trans {m n p : State} {lq kq jq : List WorkItem} (h : m.TagsChose n lq kq) (h' : n.TagsChose p kq jq)
    (hq : kq <:+ lq) : m.TagsChose p lq jq where
  pins := h.pins.trans h'.pins
  other u hu := (h'.other u fun w hw => hu w (hq.subset hw)).trans (h.other u hu)
  dead u hu := h'.dead u (h.dead u hu)
  live u e he := by
    obtain ⟨st, hst, hcase⟩ := h.live u e he
    obtain ⟨st', hst', hcase'⟩ := h'.live u _ hst
    exact ⟨st', hst', hcase'.elim (fun heq => heq ▸ hcase) .inr⟩
  rqu := by
    have h1 := h.rqu
    have h2 := h'.rqu
    unfold Rqu.sameButTags at h1 h2 ⊢
    rw [h2, h1]
  armed := h'.armed.trans h.armed
  inputs := ⟨h'.inputs.1.trans h.inputs.1, h'.inputs.2.1.trans h.inputs.2.1, h'.inputs.2.2.trans h.inputs.2.2⟩
  link := by
    have h1 := h.link
    have h2 := h'.link
    unfold Link.sameButReplies at h1 h2 ⊢
    rw [h2, h1]
  placed hno := by
    obtain ⟨hd, new, hnew, hlen, hall⟩ := h.placed hno
    obtain ⟨hd', new', hnew', hlen', hall'⟩ := h'.placed fun w hw q hmem => by
      rw [hnew] at hmem
      rcases List.mem_append.mp hmem with hold | hadded
      · exact hno w (hq.subset hw) q hold
      · exact QueueEntry.interimOf_final (hall q hadded).1 _
    refine ⟨hd'.trans hd, new ++ new', by rw [hnew', hnew, List.append_assoc], by rw [List.length_append]; omega, fun q hmem => ?_⟩
    rcases List.mem_append.mp hmem with hold | hadded
    · exact hall q hold
    · obtain ⟨hcls, w, hw, ht⟩ := hall' q hadded
      exact ⟨hcls, w, hq.subset hw, ht⟩

theorem Link.placeFinal_of_no_interim {l : Link} {e : QueueEntry} (h : ∀ q ∈ l.queue, q.interimOf e.reply.tag = false) :
    l.placeFinal e = { l with queue := l.queue ++ [e] } := by
  have hsend : l.sendingInterim e.reply.tag = false := by
    unfold Link.sendingInterim
    cases hq : l.queue with
    | nil => simp
    | cons q rest => simp [h q (by rw [hq]; exact List.mem_cons_self)]
  have hany : l.queue.any (QueueEntry.interimOf e.reply.tag) = false :=
    List.any_eq_false.mpr fun q hq => by simp [h q hq]
  unfold Link.placeFinal
  rw [hsend, hany]
  rfl

/-- The head entry's tag ends, and its entry leaves the queue. -/
theorem State.TagsChose.finish (m : State) (w : WorkItem) (rest : List WorkItem) (st : Status) (fields : ReplyFields)
    (src : Option Source) : m.TagsChose (m.finish w.tag st fields src) (w :: rest) rest where
  pins := .of_pool (m.finish_frame _ _ _ _).pool
  other u hu := by rw [State.finish_tag, if_neg (hu w List.mem_cons_self).symm]
  dead u hu := by
    rw [State.finish_tag]
    split
    · rw [hu]; rfl
    · exact hu
  live u e he := by
    rw [State.finish_tag]
    split
    · exact ⟨.replying, by rw [he]; rfl, .inr (.inr rfl)⟩
    · exact ⟨e.state, he, .inl rfl⟩
  rqu := (m.finish_frame _ _ _ _).rqu
  armed := by rw [(m.finish_frame _ _ _ _).pool]
  inputs := (m.finish_frame _ _ _ _).inputs
  link := (m.finish_frame _ _ _ _).link
  placed hno := by
    rcases m.finish_cases w.tag st fields src with ⟨hsame, -⟩ | ⟨e, htag, hopen, -⟩
    · rw [hsame]
      exact ⟨rfl, [], by rw [List.append_nil], by simp, by simp⟩
    · rw [State.finish_link m st fields src htag hopen, Link.placeFinal_of_no_interim fun q hq => hno w List.mem_cons_self q hq]
      refine ⟨rfl, _, rfl, by simp [Nat.add_comm], fun q hq => ?_⟩
      obtain rfl := List.mem_singleton.mp hq
      exact ⟨rfl, w, List.mem_cons_self, rfl⟩

/-- The head entry's tag becomes ACTIVE, and its entry leaves the queue. -/
theorem State.TagsChose.activate (m : State) (w : WorkItem) (rest : List WorkItem) :
    m.TagsChose (m.modTag w.tag TagEntry.activate) (w :: rest) rest where
  pins := .of_pool (m.modTag_frame _ _).2.1
  other u hu := by rw [State.tag_modTag, if_neg (hu w List.mem_cons_self).symm]
  dead u hu := by
    rw [State.tag_modTag]
    split
    · rw [hu]; rfl
    · exact hu
  live u e he := by
    rw [State.tag_modTag]
    split
    · rw [he]
      unfold TagEntry.activate
      by_cases hq : e.state = .queued
      · exact ⟨.active, by rw [Option.map_some, if_pos hq], .inr (.inl rfl)⟩
      · exact ⟨e.state, by rw [Option.map_some, if_neg hq], .inl rfl⟩
    · exact ⟨e.state, he, .inl rfl⟩
  rqu := (m.modTag_frame _ _).2.2.2.1
  armed := by rw [(m.modTag_frame _ _).2.1]
  inputs := (m.modTag_frame _ _).2.2.2.2
  link := by rw [(m.modTag_frame _ _).1]; rfl
  placed _ := ⟨by rw [(m.modTag_frame _ _).1], [], by rw [(m.modTag_frame _ _).1, List.append_nil], by simp, by simp⟩

/-! ### One choice and several -/

/-- What choices on lane `x` that began in `m` can have led to. -/
structure State.Chose (m p : State) (x : Nat) : Prop where
  others : m.sameLanesBut p x
  lane : m.LaneChose x (p.lane x)
  rest : m.TagsChose p (m.lane x).workQueue (p.lane x).workQueue

theorem State.Chose.refl (m : State) (x : Nat) : m.Chose m x :=
  ⟨fun _ _ => rfl, .refl m x, .of_same rfl rfl rfl ⟨rfl, rfl, rfl⟩ le_rfl⟩

theorem State.Chose.trans {m n p : State} {x : Nat} (h : m.Chose n x) (h' : n.Chose p x) (hm : (m.lane x).job = none)
    (hn : (n.lane x).job = none) : m.Chose p x :=
  ⟨fun y hy => (h'.others y hy).trans (h.others y hy), h.lane.trans h'.lane h.rest.pins hm hn, h.rest.trans h'.rest h.lane.queue⟩

/-- A choice that sets its lane and ends the head entry's tag, which may pin a slot. -/
theorem State.Chose.ended {m n : State} {x : Nat} {k : Lane} {w : WorkItem} {rest : List WorkItem} (hx : x < 4)
    (hq : (m.lane x).workQueue = w :: rest) (hk : m.LaneChose x k) (hrest : k.workQueue = rest)
    (hlanes : n.lanes = (m.setLane x k).lanes) (hpins : m.OnlyPins n) (harmed : n.pool.armed = m.pool.armed) (hrqu : n.rqu = m.rqu)
    (hlink : n.link = m.link) (hin : m.sameInputs n) (st : Status) (fields : ReplyFields) (src : Option Source) :
    m.Chose (n.finish w.tag st fields src) x := by
  have hlane : ∀ y, (n.finish w.tag st fields src).lane y = (m.setLane x k).lane y := fun y => by
    rw [(n.finish_frame _ _ _ _).lane]
    unfold State.lane
    rw [hlanes]
  have hend := State.TagsChose.finish n w rest st fields src
  have htag : ∀ u, n.tag u = m.tag u := fun u => by unfold State.tag; rw [hrqu]
  refine ⟨fun y hy => (hlane y).trans (State.lane_setLane_ne m _ hy), ?_, ?_⟩
  · rw [hlane, State.lane_setLane_same m _ hx]
    exact hk
  · rw [hlane, State.lane_setLane_same m _ hx, hq, hrest]
    exact {
      pins := hpins.trans hend.pins
      other := fun u hu => (hend.other u hu).trans (htag u)
      dead := fun u hu => hend.dead u ((htag u).trans hu)
      live := fun u e he => hend.live u e ((htag u).trans he)
      rqu := hrqu ▸ hend.rqu
      armed := hend.armed.trans harmed
      inputs := ⟨hend.inputs.1.trans hin.1, hend.inputs.2.1.trans hin.2.1, hend.inputs.2.2.trans hin.2.2⟩
      link := hlink ▸ hend.link
      placed := hlink ▸ hend.placed }

/-- A choice that sets its lane and starts the job of the head entry. -/
theorem State.Chose.begun {m : State} {x : Nat} {k : Lane} {w : WorkItem} {rest : List WorkItem} (hx : x < 4)
    (hq : (m.lane x).workQueue = w :: rest) (hk : m.LaneChose x k) (hrest : k.workQueue = rest) :
    m.Chose ((m.modTag w.tag TagEntry.activate).setLane x k) x := by
  have hstart := State.TagsChose.activate m w rest
  refine ⟨fun y hy => ?_, ?_, ?_⟩
  · rw [State.lane_setLane_ne _ _ hy, State.modTag_lane]
  · rw [State.lane_setLane_same _ _ hx]
    exact hk
  · rw [State.lane_setLane_same _ _ hx, hq, hrest]
    exact ⟨hstart.pins, hstart.other, hstart.dead, hstart.live, hstart.rqu, hstart.armed, hstart.inputs, hstart.link, hstart.placed⟩

/-- One choice carried out (R86, R87). -/
theorem State.Chose.take {m : State} {x : Nat} (h : (m.lane x).choiceDue = true) : m.Chose (m.take x (m.choice x)) x := by
  obtain ⟨hjob, hstate, -⟩ := (m.lane x).choiceDue_iff.mp h
  have hx : x < 4 := m.lane_lt_of_state (by rw [hstate]; decide)
  rcases m.choice_cases x with ⟨t, b, p, rest, hq, hc, -⟩ | ⟨-, e, -, hc⟩ | ⟨-, -, t, b, rest, hq, hc⟩ | ⟨-, -, hc, -⟩
  · have hne : (m.lane x).workQueue ≠ [] := by rw [hq]; simp
    have hpop : (m.lane x).popRead.workQueue = rest := by rw [Lane.popRead_eq, hq]; rfl
    rw [hc]
    by_cases hfin : m.classify x b p = .finalized
    · rw [hfin, State.take_finalized]
      exact State.Chose.begun hx hq (State.LaneChose.reading m hne hjob) hpop
    · by_cases hheld : ∃ i, m.classify x b p = .held i
      · obtain ⟨i, hi⟩ := hheld
        rw [hi, State.take_held]
        exact State.Chose.ended hx hq (State.LaneChose.popRead m hne) hpop (n := (m.setLane x (m.lane x).popRead).modSlot i Slot.pin)
          rfl (State.OnlyPins.pin m i) rfl rfl rfl ⟨rfl, rfl, rfl⟩ _ _ _
      · rw [State.take_empty m x t b p hfin fun i hi => hheld ⟨i, hi⟩]
        exact State.Chose.ended hx hq (State.LaneChose.popRead m hne) hpop (n := m.setLane x (m.lane x).popRead)
          rfl (.of_pool rfl) rfl rfl rfl ⟨rfl, rfl, rfl⟩ _ _ _
  · rw [hc, State.take_pass]
    refine ⟨fun y hy => State.lane_setLane_ne m _ hy, ?_, ?_⟩
    · rw [State.lane_setLane_same m _ hx]
      exact State.LaneChose.passing m e hjob
    · rw [State.lane_setLane_same m _ hx]
      exact .of_same rfl rfl rfl ⟨rfl, rfl, rfl⟩ le_rfl
  · have hrest : (m.lane x).workQueue.tail = rest := by rw [hq]; rfl
    have hended : ∀ st fields, m.Chose ((m.setLane x ((m.lane x).eraseEnded b)).finish t st fields none) x := fun st fields =>
      State.Chose.ended hx hq (State.LaneChose.eraseEnded m hq) hrest (n := m.setLane x ((m.lane x).eraseEnded b))
        rfl (.of_pool rfl) rfl rfl rfl ⟨rfl, rfl, rfl⟩ _ _ _
    rw [hc]
    by_cases hwp : m.wpAsserted = true
    · rw [State.take_erase_protected m x t b hwp]
      exact hended _ _
    · rw [State.take_erase_eq m x t b (by simpa using hwp)]
      split
      next c hcourse => exact State.Chose.begun hx hq (State.LaneChose.erasing m hjob hcourse) hrest
      next => exact hended _ _
  · rw [hc]
    exact .refl m x

theorem State.Chose.scheduleFuel (n x : Nat) : ∀ m : State, m.Chose (scheduleFuel n x m) x := by
  induction n with
  | zero => exact fun m => .refl m x
  | succ n ih =>
    intro m
    rw [Machine.scheduleFuel]
    split
    next hdue =>
      have hjob := ((m.lane x).choiceDue_iff.mp hdue).1
      have htake := State.Chose.take hdue
      cases hnext : ((m.take x (m.choice x)).lane x).job with
      | none => exact htake.trans (ih _) hjob hnext
      | some j =>
        rw [scheduleFuel_of_not_due (Lane.not_choiceDue_of_job hnext)]
        exact htake
    next => exact .refl m x

theorem State.Chose.schedule (m : State) (x : Nat) : m.Chose (m.schedule x) x := State.Chose.scheduleFuel _ x m

/-- The choices of a happening end where none is due or the rules say wait. -/
theorem scheduleFuel_settles {x : Nat} (n : Nat) : ∀ m : State, (m.lane x).workQueue.length < n →
    ((scheduleFuel n x m).lane x).choiceDue = false ∨ (scheduleFuel n x m).choice x = .wait := by
  induction n with
  | zero => exact fun m h => absurd h (Nat.not_lt_zero _)
  | succ n ih =>
    intro m hlen
    cases hdue : (m.lane x).choiceDue with
    | false => exact .inl (by rw [scheduleFuel_of_not_due hdue, hdue])
    | true =>
      rw [scheduleFuel, if_pos hdue]
      rcases State.choice_progress hdue with hwait | ⟨j, hj⟩ | hshort
      · have hsame : scheduleFuel n x (m.take x (m.choice x)) = m := by
          rw [hwait]
          exact scheduleFuel_of_wait hwait n
        exact .inr (by rw [hsame, hwait])
      · have hnot := Lane.not_choiceDue_of_job hj
        exact .inl (by rw [scheduleFuel_of_not_due hnot, hnot])
      · exact ih _ (by omega)

theorem State.schedule_settles (m : State) (x : Nat) :
    ((m.schedule x).lane x).choiceDue = false ∨ (m.schedule x).choice x = .wait :=
  scheduleFuel_settles _ m (Nat.lt_succ_self _)

/-- Where the rules say wait, no pass is ready, and the queue is empty or begins with a READ that waits for the egress buffer. -/
theorem State.waits_of_choice {s : State} {x : Nat} (h : s.choice x = .wait) :
    (s.lane x).readyList = []
      ∧ ((s.lane x).workQueue = []
        ∨ ∃ t b p rest, (s.lane x).workQueue = { tag := t, block := b, kind := .read p } :: rest
          ∧ s.classify x b p = .finalized ∧ (s.lane x).egress.state ≠ .free) := by
  rcases s.choice_cases x with ⟨t, b, p, rest, -, hc, -⟩ | ⟨-, e, -, hc⟩ | ⟨-, -, t, b, rest, -, hc⟩ | ⟨hread, hpass, -, hno⟩
  · rw [hc] at h; cases h
  · rw [hc] at h; cases h
  · rw [hc] at h; cases h
  · have hready := Lane.nextPass_none.mp hpass
    refine ⟨hready, ?_⟩
    cases hq : (s.lane x).workQueue with
    | nil => exact .inl rfl
    | cons w rest =>
      obtain ⟨t, b, k⟩ := w
      cases k with
      | erase => exact absurd hq (hno t b rest)
      | read p =>
        rw [State.readFirst_head hq] at hread
        split at hread
        next => cases hread
        next hnot =>
          refine .inr ⟨t, b, p, rest, rfl, ?_⟩
          by_contra hgoes
          refine hnot ⟨?_, .inl hready⟩
          by_cases hclass : s.classify x b p = .finalized
          · exact .inr (by_contra fun hbusy => hgoes ⟨hclass, hbusy⟩)
          · exact .inl hclass

end Sys2Proof.Machine
end

