-- ==== Sys2Proof/Proofs/HappeningEnd.lean ====
section
/-! PROOFS. The end of a happening (R60, R61, R86, R98, R164, R177): resets, choices, the pool's tests, the arbiter. -/

namespace Sys2Proof.Machine

/-- The pool's tests seen from a state that agrees in what they read and write. -/
theorem State.PoolTested.congr {s m t m' t' : State} (h : s.PoolTested m t) (hset : m'.rqu.settings = m.rqu.settings)
    (harmed : m'.pool.armed = m.pool.armed) (hlow : m'.rqu.poolLow = m.rqu.poolLow)
    (hnote : m'.link.sendingNote .poolLow = m.link.sendingNote .poolLow) (hpool : t'.pool = t.pool)
    (hlow' : t'.rqu.poolLow = t.rqu.poolLow) : s.PoolTested m' t' := by
  unfold State.PoolTested at h ⊢
  rw [hset, harmed, hlow, hnote, hpool, hlow', State.freeCount_congr (congrArg Pool.slots hpool)]
  exact h

theorem State.poolCheck_eq (n : Nat) (m : State) :
    m.poolCheck n
      = { m with
          pool := { m.pool with armed := (m.poolCheck n).pool.armed }
          rqu := { m.rqu with poolLow := (m.poolCheck n).rqu.poolLow } } := by
  rcases m.poolCheck_cases n with h | h | h <;> rw [h] <;> rfl

theorem State.conclude_nil_frame (s m : State) :
    (s.conclude [] m).lanes = m.lanes ∧ (s.conclude [] m).pool.slots = m.pool.slots ∧ m.sameInputs (s.conclude [] m)
      ∧ s.PoolTested m (s.conclude [] m) ∧ (s.conclude [] m).rqu = { m.rqu with poolLow := (s.conclude [] m).rqu.poolLow }
      ∧ (s.conclude [] m).link.queue = m.link.queue ∧ (s.conclude [] m).link.deferred = m.link.deferred
      ∧ (s.conclude [] m).link.intake = m.link.intake ∧ (s.conclude [] m).link.expected = m.link.expected
      ∧ (s.conclude [] m).link.nakFlag = m.link.nakFlag ∧ (s.conclude [] m).link.windowClosed = m.link.windowClosed
      ∧ (m.link.tx.isSome = true → (s.conclude [] m).link = m.link) := by
  obtain ⟨hlink, hlanes, hslots, hin, hrqu⟩ := m.poolCheck_frame s.freeCount
  obtain ⟨ar, ap, al, ai, aq, ad, ain, ae, an, aw⟩ := (m.poolCheck s.freeCount).arbitrate_frame
  rw [State.conclude_nil]
  refine ⟨al.trans hlanes, by rw [ap, hslots], ⟨ai.1.trans hin.1, ai.2.1.trans hin.2.1, ai.2.2.trans hin.2.2⟩,
    (s.poolCheck_tested m).congr rfl rfl rfl rfl ap (by rw [ar]), by rw [ar]; exact hrqu, by rw [aq, hlink], by rw [ad, hlink],
    by rw [ain, hlink], by rw [ae, hlink], by rw [an, hlink], by rw [aw, hlink], fun hbusy => ?_⟩
  rw [State.arbitrate_busy _ (by rw [hlink]; exact hbusy), hlink]

/-- On a READY lane with no PART_RESET under way, the end of a happening is the scheduler's choices and what follows them. -/
theorem State.conclude_ready {s m : State} {x : Nat} (hstate : (m.lane x).state = .ready) (hreset : m.rqu.partReset = none) :
    s.conclude [x] m = s.conclude [] (m.schedule x) := by
  have hdue : m.applyDueReset x = m := if_neg (by simp [hstate])
  have hcomplete : m.completeReset = m := by
    unfold State.completeReset
    rw [hreset]
  show (((m.applyDueReset x).completeReset.schedule x).poolCheck s.freeCount).arbitrate = _
  rw [hdue, hcomplete]
  rfl

theorem State.lane_of_lanes {s m : State} (h : m.lanes = s.lanes) (x : Nat) : m.lane x = s.lane x := by
  unfold State.lane
  rw [h]

theorem State.tag_of_rqu {s m : State} (h : m.rqu.tags = s.rqu.tags) (t : Nat) : m.tag t = s.tag t := by
  unfold State.tag
  rw [h]

theorem State.slot_of_slots {s m : State} (h : m.pool.slots = s.pool.slots) (i : Nat) : m.slot i = s.slot i := by
  unfold State.slot
  rw [h]

theorem State.classify_congr {s m : State} {x b : Nat} (hrecord : m.record x b = s.record x b) (hslot : ∀ i, m.slot i = s.slot i)
    (p : Nat) : m.classify x b p = s.classify x b p := by
  have hof : m.slotOf x b p = s.slotOf x b p := State.slotOf_congr x b p fun i => by rw [hslot i]
  unfold State.classify
  simp only [hrecord, hslot, hof]

/-- Settles O12: the order is the definition's; what the scheduler does is one account of its choices (State.Chose), and the pool's
tests and the arbiter touch none of it. -/
theorem happeningEnd : Obligations.HappeningEnd := by
  refine ⟨fun s m => ?pool, fun s m x xs => rfl, fun s m x hstate hreset => ?lane⟩
  case pool =>
    obtain ⟨hlanes, hslots, hin, htest, hrqu, hq, hd, hintake, he, hn, hw, hbusy⟩ := s.conclude_nil_frame m
    exact ⟨hlanes, hslots, hin, htest, hrqu, hq, hd, hintake, he, hn, hw, hbusy, m.poolCheck s.freeCount, rfl,
      s.poolCheck_tested m, m.poolCheck_eq _⟩
  case lane =>
    intro t l k
    obtain ⟨p, hp⟩ : ∃ p, p = m.schedule x := ⟨_, rfl⟩
    have ht : t = s.conclude [] p := by rw [hp]; exact State.conclude_ready hstate hreset
    have hchose : m.Chose p x := hp ▸ State.Chose.schedule m x
    obtain ⟨hlanes, hslots, hin, htest, hrqu, hq, hd, hintake, he, hn, hw, hbusy⟩ := s.conclude_nil_frame p
    rw [← ht] at hlanes hslots hin htest hrqu hq hd hintake he hn hw hbusy
    have hk : k = p.lane x := State.lane_of_lanes hlanes x
    have hrecord : ∀ b, t.record x b = (p.lane x).record b := fun b => congrArg (Lane.record · b) hk
    have hslot : ∀ i, t.slot i = p.slot i := State.slot_of_slots hslots
    have htag : ∀ u, t.tag u = p.tag u := State.tag_of_rqu (by rw [hrqu])
    have hlane := hchose.lane
    have hrest := hchose.rest
    have hplink : p.link = { m.link with queue := p.link.queue, deferred := p.link.deferred } := hrest.link
    have hprqu : p.rqu = { m.rqu with tags := p.rqu.tags } := hrest.rqu
    refine ⟨fun hidle => ?idle, fun y hy => (State.lane_of_lanes hlanes y).trans (hchose.others y hy),
      ⟨hin.1.trans hrest.inputs.1, hin.2.1.trans hrest.inputs.2.1, hin.2.2.trans hrest.inputs.2.2⟩, hk ▸ hlane.frame,
      hk ▸ hlane.still, fun j hj hjob => hk ▸ hlane.started j hj (hk ▸ hjob), fun hjob => ?waits, hk ▸ hlane.queue, hk ▸ hlane.ready,
      ?run, fun b => ?record, fun i => hslot i ▸ hrest.pins i, fun u hu => (htag u).trans (hrest.other u hu),
      fun u hu => (htag u).trans (hrest.dead u hu), fun u e hu => htag u ▸ hrest.live u e hu, ?rqu, ?tested, ?intake, ?expected, ?nak,
      ?window, fun htx => ?busy, fun hno => ?placed⟩
    case idle =>
      have hnot : (m.lane x).choiceDue = false := Bool.eq_false_iff.mpr fun h => by
        obtain ⟨hjob, -, hwork⟩ := (m.lane x).choiceDue_iff.mp h
        exact hidle.elim (· hjob) fun hempty => hwork.elim (· hempty.1) (· hempty.2)
      rw [ht, hp, State.schedule_of_not_due hnot]
    case waits =>
      have hnojob : (p.lane x).job = none := hk ▸ hjob
      have hready : (p.lane x).state = .ready := by
        rw [hlane.frame]
        exact hstate
      rw [hk]
      rcases m.schedule_settles x with hnot | hwait
      · rw [← hp] at hnot
        have hempty : ¬((p.lane x).readyList ≠ [] ∨ (p.lane x).workQueue ≠ []) := fun h =>
          Bool.eq_false_iff.mp hnot ((p.lane x).choiceDue_iff.mpr ⟨hnojob, hready, h⟩)
        rw [not_or, not_ne_iff, not_ne_iff] at hempty
        exact ⟨hempty.1, .inl hempty.2⟩
      · rw [← hp] at hwait
        obtain ⟨hlist, hqueue⟩ := State.waits_of_choice hwait
        refine ⟨hlist, hqueue.imp id ?_⟩
        rintro ⟨u, b, q, rest, hq, hclass, hfree⟩
        exact ⟨u, b, q, rest, hq, (State.classify_congr (hrecord b) hslot q).trans hclass, hfree⟩
    case run => exact hk ▸ hlane.run.imp And.left id
    case record =>
      rw [hrecord, hk]
      exact hlane.record b
    case rqu => rw [hrqu, hprqu]
    case tested =>
      exact htest.congr (by rw [hprqu]) hrest.armed.symm (by rw [hprqu]) (by rw [hplink]; rfl) rfl rfl
    case intake => rw [hintake, hplink]
    case expected => rw [he, hplink]
    case nak => rw [hn, hplink]
    case window => rw [hw, hplink]
    case busy =>
      rw [hbusy (by rw [hplink]; exact htx)]
      exact hrest.link
    case placed =>
      obtain ⟨hdef, new, hnew, hlen, hall⟩ := hrest.placed hno
      exact ⟨hd.trans hdef, new, hq.trans hnew, by rw [hk]; exact hlen, hall⟩

end Sys2Proof.Machine
end

