-- ==== Sys2Proof/Proofs/PassOrder.lean ====
section
/-! PROOFS. The pass order of a block (R17 to R19, R28), and the operation of a pass that is taken (R8 to R11, R29). -/

namespace Sys2Proof.Machine

theorem State.stagedPage_iff (s : State) (x b p : Nat) :
    s.stagedPage x b p = true ↔ ∃ i, s.slotOf x b p = some i ∧ (s.slot i).state = .staged := by
  unfold State.stagedPage
  split
  next i hi => simp [hi]
  next hnone => simp [hnone]

/-- The four pages of strip `n` are STAGED. -/
def State.StripStaged (s : State) (x b n : Nat) : Prop := ∀ k, k < 4 → ∃ i, s.slotOf x b (4 * n + k) = some i ∧ (s.slot i).state = .staged

theorem State.stripStaged_iff (s : State) (x b n : Nat) : (stripPages n).all (s.stagedPage x b) = true ↔ s.StripStaged x b n := by
  rw [List.all_eq_true]
  constructor
  · exact fun h k hk => (s.stagedPage_iff x b _).mp (h _ (mem_stripPages.mpr ⟨k, hk, rfl⟩))
  · intro h p hp
    obtain ⟨k, hk, rfl⟩ := mem_stripPages.mp hp
    exact (s.stagedPage_iff x b _).mpr (h k hk)

/-- A ROUGH of strip `n` follows the FINAL two strips below (R17). -/
def BlockRec.InOrder (r : BlockRec) (n : Nat) : Prop := n < 2 ∨ n - 1 ≤ r.finalDone

theorem BlockRec.roughInOrder_iff (r : BlockRec) (n : Nat) : r.roughInOrder n = true ↔ r.InOrder n := by
  simp [BlockRec.roughInOrder, BlockRec.InOrder]

theorem State.roughEligible_iff (s : State) (x b : Nat) :
    s.roughEligible x b = true ↔ (s.record x b).roughDone < 64 ∧ (s.record x b).InOrder (s.record x b).roughDone
      ∧ s.StripStaged x b (s.record x b).roughDone := by
  unfold State.roughEligible
  simp only [Bool.and_eq_true, decide_eq_true_eq, BlockRec.roughInOrder_iff, State.stripStaged_iff, and_assoc]
  rfl

theorem State.stripSettled_iff (s : State) (x b n : Nat) :
    s.stripSettled x b n = true
      ↔ ∀ i, (s.slot i).ownedBy x b = true → (s.slot i).pageNumber / 4 = n →
        (s.slot i).state ≠ .filling ∧ (s.slot i).state ≠ .reserved := by
  unfold State.stripSettled
  simp only [List.all_eq_true, State.mem_ownedSlots, Bool.or_eq_true, Bool.and_eq_true, decide_eq_true_eq, ← imp_iff_not_or]

/-- The last data strip of a CLOSING block stands settled below strip `n` (R17). -/
def State.Terminable (s : State) (x b n : Nat) : Prop :=
  ∃ e, (s.record x b).dataEnd = some e ∧ (e - 1) / 4 < 63 ∧ n = (e - 1) / 4 + 1
    ∧ ∀ i, (s.slot i).ownedBy x b = true → (s.slot i).pageNumber / 4 = (e - 1) / 4 →
      (s.slot i).state ≠ .filling ∧ (s.slot i).state ≠ .reserved

theorem State.Terminable.lt {s : State} {x b n : Nat} (h : s.Terminable x b n) : n < 64 := by
  obtain ⟨e, -, hlt, hn, -⟩ := h
  omega

theorem State.terminatorEligible_iff (s : State) (x b : Nat) :
    s.terminatorEligible x b = true ↔ (s.record x b).InOrder (s.record x b).roughDone ∧ (s.record x b).state = .closing
      ∧ s.Terminable x b (s.record x b).roughDone := by
  unfold State.terminatorEligible State.Terminable lastStrip
  dsimp only
  cases (s.record x b).dataEnd with
  | none => simp
  | some e =>
    simp only [Bool.and_eq_true, decide_eq_true_eq, BlockRec.roughInOrder_iff, State.stripSettled_iff, Option.some.injEq,
      exists_eq_left']
    tauto

theorem BlockRec.finalEligible_iff (r : BlockRec) :
    r.finalEligible = true ↔ r.finalDone < 64 ∧ r.finalDone < r.roughDone ∧ (r.finalDone + 1 < r.roughDone ∨ r.finalDone = 63)
      ∧ (r.state = .closing → ∃ e, r.dataEnd = some e ∧ r.finalDone ≤ (e - 1) / 4) := by
  unfold BlockRec.finalEligible lastStrip Config.strips
  cases r.dataEnd with
  | none => simp [and_assoc]
  | some e => simp [and_assoc, imp_iff_not_or]

/-- The FINAL of a block does not come while a ROUGH may (R17, R18). -/
theorem BlockRec.not_finalEligible_of_rough {r : BlockRec} (hlt : r.roughDone < 64) (horder : r.InOrder r.roughDone) :
    ¬r.finalEligible = true := fun h => by
  obtain ⟨-, hrough, hroom, -⟩ := r.finalEligible_iff.mp h
  unfold BlockRec.InOrder at horder
  omega

theorem State.eligible_rest {s : State} {x b : Nat} (ho : (s.record x b).state ≠ .opened) (hc : (s.record x b).state ≠ .closing) :
    s.eligible x b = none := if_neg fun h => ((s.record x b).running_iff.mp h).elim ho hc

theorem State.eligible_dense {s : State} {x b : Nat} (hrun : (s.record x b).state = .opened ∨ (s.record x b).state = .closing)
    (hd : (s.record x b).density = some .dense) :
    s.eligible x b
      = if (s.record x b).finalEligible then some { kind := .final, strip := (s.record x b).finalDone }
        else if s.roughEligible x b then some { kind := .rough, strip := (s.record x b).roughDone }
        else if s.terminatorEligible x b then some { kind := .terminator, strip := (s.record x b).roughDone }
        else none := by
  unfold State.eligible
  dsimp only
  rw [if_pos ((s.record x b).running_iff.mpr hrun), hd]

theorem State.eligible_swift {s : State} {x b : Nat} (hrun : (s.record x b).state = .opened ∨ (s.record x b).state = .closing)
    (hd : (s.record x b).density = some .swift) :
    s.eligible x b
      = if decide ((s.record x b).finalDone < 64) && s.stagedPage x b (s.record x b).finalDone then
          some { kind := .single, strip := (s.record x b).finalDone }
        else none := by
  unfold State.eligible
  dsimp only
  rw [if_pos ((s.record x b).running_iff.mpr hrun), hd]
  rfl

/-- Settles O39: the conditions of R17 to R19 read off the definition; a data ROUGH and a terminator ROUGH each exclude the FINAL. -/
theorem passOrder : Obligations.PassOrder := by
  refine ⟨fun s x b => ?order, fun s x e => rfl, fun s x b n => ⟨rfl, rfl, rfl, fun e he => ?operation⟩⟩
  case operation =>
    unfold State.passOperation
    dsimp only
    rw [he]
    rfl
  case order =>
    intro r staged inOrder
    refine ⟨State.eligible_rest, fun hrun hd => ⟨fun n => ?final, fun n => ?rough, fun n => ?terminator, fun n => ?single⟩,
      fun hrun hd q => ?swift, fun hx hb hready hflight q hq => ?joins⟩
    case final =>
      rw [State.eligible_dense hrun hd]
      split
      next hfin =>
        obtain ⟨h1, h2, h3, h4⟩ := r.finalEligible_iff.mp hfin
        constructor
        · intro h
          cases h
          exact ⟨rfl, h1, h2, h3, h4⟩
        · rintro ⟨rfl, -⟩
          rfl
      next hfin =>
        constructor
        · intro h
          split_ifs at h <;> cases h
        · rintro ⟨rfl, h⟩
          exact absurd (r.finalEligible_iff.mpr h) hfin
    case rough =>
      have hexcludes : r.roughDone < 64 → r.InOrder r.roughDone → ¬r.finalEligible = true := BlockRec.not_finalEligible_of_rough
      rw [State.eligible_dense hrun hd]
      constructor
      · intro h
        split_ifs at h with hfin hrough
        · cases h
        · obtain ⟨h1, h2, h3⟩ := (s.roughEligible_iff x b).mp hrough
          cases h
          exact ⟨rfl, h1, h2, h3⟩
        · cases h
      · rintro ⟨rfl, hlt, horder, hstaged⟩
        rw [if_neg (hexcludes hlt horder), if_pos ((s.roughEligible_iff x b).mpr ⟨hlt, horder, hstaged⟩)]
    case terminator =>
      have hexcludes : r.roughDone < 64 → r.InOrder r.roughDone → ¬r.finalEligible = true := BlockRec.not_finalEligible_of_rough
      rw [State.eligible_dense hrun hd]
      constructor
      · intro h
        split_ifs at h with hfin hrough hterm
        · cases h
        · cases h
        · obtain ⟨horder, hclosing, hterminable⟩ := (s.terminatorEligible_iff x b).mp hterm
          cases h
          exact ⟨rfl, horder, hclosing, hterminable,
            fun hstaged => hrough ((s.roughEligible_iff x b).mpr ⟨hterminable.lt, horder, hstaged⟩)⟩
      · rintro ⟨rfl, horder, hclosing, hterminable, hstaged⟩
        have hterm : s.Terminable x b r.roughDone := hterminable
        rw [if_neg (hexcludes hterm.lt horder), if_neg fun h => hstaged ((s.roughEligible_iff x b).mp h).2.2,
          if_pos ((s.terminatorEligible_iff x b).mpr ⟨horder, hclosing, hterm⟩)]
    case single =>
      rw [State.eligible_dense hrun hd]
      split_ifs <;> simp
    case swift =>
      rw [State.eligible_swift hrun hd]
      constructor
      · intro h
        split_ifs at h with hel
        rw [Bool.and_eq_true, decide_eq_true_eq, State.stagedPage_iff] at hel
        exact ⟨(Option.some.inj h).symm, hel⟩
      · rintro ⟨rfl, hlt, hstaged⟩
        rw [if_pos (by rw [Bool.and_eq_true, decide_eq_true_eq, State.stagedPage_iff]; exact ⟨hlt, hstaged⟩)]
    case joins =>
      have hrun : r.running = true := by_contra fun h => by
        rw [State.eligible, if_neg h] at hq
        cases hq
      have htest : s.testBlock x b = s.modLane x (fun l => l.makeReady b q) := by
        unfold State.testBlock
        dsimp only
        rw [if_pos hrun, if_pos (by rw [hready, hflight]; rfl), hq]
      rw [htest, State.record, State.lane_modLane_same s _ hx, Lane.record_makeReady_same _ _ hb]
      exact ⟨rfl, rfl⟩

end Sys2Proof.Machine
end

