-- ==== Sys2Proof/Proofs/PassEnds.lean ====
section
/-! PROOFS. The ends of passes that PASS (R28, R30 to R33, R53, R79): what every such end leaves of the lane, and what finalizing a strip
leaves of its slots, tags and replies. -/

namespace Sys2Proof.Machine

/-! ### The lane after the end of a pass -/

theorem Lane.modRecord_modRecord (l : Lane) (b : Nat) (f g : BlockRec → BlockRec) (hb : b < 1024) :
    (l.modRecord b f).modRecord b g = l.modRecord b (fun r => g (f r)) := by
  have hrec : (l.modRecord b f).record b = f (l.record b) := Lane.record_modRecord_same _ _ hb
  show ({ l.modRecord b f with records := (l.modRecord b f).records.setIfInBounds b (g ((l.modRecord b f).record b)) } : Lane) = _
  rw [hrec]
  unfold Lane.modRecord
  simp only [Lane.mk.injEq, and_true, true_and]
  ext i hi
  simp [Vector.getElem_setIfInBounds]

/-- The lane whose pass has ended with outcome `e`, the block's record changed by `f`. -/
def Lane.passEnded (l : Lane) (op : Operation) (e : Ending) (b : Nat) (f : BlockRec → BlockRec) : Lane :=
  Lane.modRecord { l.endOperation op e with job := none } b f

theorem State.passEnded_modRecord (s : State) (x b : Nat) (op : Operation) (e : Ending) (f : BlockRec → BlockRec) :
    (s.passEnded x op e).modRecord x b f = s.setLane x ((s.lane x).passEnded op e b f) := s.modRecord_setLane x b _ f

theorem State.passEnded_record (s : State) (x b : Nat) (op : Operation) (e : Ending) :
    (s.passEnded x op e).record x b = s.record x b := s.lane_setLane_keep (fun l => l.record b) rfl

/-- What the end of a pass with outcome `e` leaves of the lanes, when the block's record becomes `r` and the test of R28 follows. -/
structure State.PassSettled (s m : State) (x b : Nat) (op : Operation) (e : Ending) (r : BlockRec) : Prop where
  array : (m.lane x).array = op.finish e (s.lane x).array
  engine : (m.lane x).engine = none
  job : (m.lane x).job = none
  lane : (s.lane x).sameButPass (m.lane x)
  tested : s.BlockTested m x b r.readyPass
  record : r.sameButReady (m.record x b)
  rest : r.running = false → m.record x b = { r with readyPass := none }
  records : (s.lane x).sameRecordsBut (m.lane x) b
  lanes : s.sameLanesBut m x

theorem State.PassSettled.of_lanes {s k : State} {x b : Nat} {op : Operation} {e : Ending} {f : BlockRec → BlockRec} (hx : x < 4)
    (hb : b < 1024) (hk : k.lanes = (s.setLane x ((s.lane x).passEnded op e b f)).lanes) :
    s.PassSettled (k.testBlock x b) x b op e (f (s.record x b)) := by
  obtain ⟨-, -, -, -, hlanes, hlane, hrecs⟩ := k.testBlock_frame x b
  have hkx : k.lane x = (s.lane x).passEnded op e b f :=
    (State.lane_of_lanes hk x).trans (State.lane_setLane_same s _ hx)
  have hkr : k.record x b = f (s.record x b) := by
    rw [State.record, hkx]
    exact Lane.record_modRecord_same _ _ hb
  have hlane' := hlane
  rw [hkx] at hlane'
  have htest := State.testBlock_tested (s := s) (k := k) hx hb (by rw [hkx]; rfl) (by rw [hkx]; rfl)
  have hrec := k.testBlock_record x b
  rw [hkr] at htest hrec
  refine ⟨by rw [hlane']; rfl, by rw [hlane']; rfl, by rw [hlane']; rfl, ?_, htest, hrec, fun hrun => ?_, fun c hc => ?_,
    fun y hy => ?_⟩
  · unfold Lane.sameButPass
    rw [hlane']
    rfl
  · rw [State.testBlock_record_rest k hx hb (by rw [hkr]; exact hrun), hkr]
  · rw [hrecs c hc, hkx]
    exact Lane.record_modRecord_ne _ _ hc
  · rw [hlanes y hy, State.lane_of_lanes hk y, State.lane_setLane_ne s _ hy]

/-! ### ROUGH -/

theorem Slot.rough_staged {sl : Slot} (h : sl.state = .staged) : sl.rough = { sl with state := .roughed } := if_pos h

theorem Slot.rough_other {sl : Slot} (h : sl.state ≠ .staged) : sl.rough = sl := if_neg h

theorem State.stripSlots_lt {s : State} {x b n i : Nat} (h : i ∈ s.stripSlots x b n) : i < 96 := by
  obtain ⟨k, -, hi⟩ := (s.mem_stripSlots x b n i).mp h
  exact (State.slotOf_owner hi).1

theorem State.stripSlots_page {s : State} {x b n i : Nat} (h : i ∈ s.stripSlots x b n) :
    (s.slot i).ownedBy x b = true ∧ (s.slot i).pageNumber / 4 = n := by
  obtain ⟨k, hk, hi⟩ := (s.mem_stripSlots x b n i).mp h
  obtain ⟨howned, hpage⟩ := State.slotOf_owned hi
  exact ⟨howned, by omega⟩

/-- Settles O42: a ROUGH changes its lane as every pass does, and a data ROUGH the STAGED slots of its strip. -/
theorem roughPasses : Obligations.RoughPasses := by
  refine ⟨fun s x b n phys pages hreset hb hengine hjob => ?rough, fun s x b n phys dataEnd hreset hb hengine hjob => ?terminator⟩
  case rough =>
    have hx := s.lane_lt_of_engine hengine
    obtain ⟨k, hk⟩ : ∃ k, k = (s.passEnded x (.rough phys n pages false) .pass).roughPassed x b n := ⟨_, rfl⟩
    obtain ⟨base, hbase⟩ : ∃ base,
        base = s.setLane x ((s.lane x).passEnded (.rough phys n pages false) .pass b fun r => { r with roughDone := n + 1 }) := ⟨_, rfl⟩
    have hkb : k = base.modSlots (s.stripSlots x b n) Slot.rough := by
      rw [hk, hbase, ← State.passEnded_modRecord]
      rfl
    obtain ⟨flink, frqu, flanes, farmed, fin⟩ := base.modSlots_frame (s.stripSlots x b n) Slot.rough
    rw [← hkb] at flink frqu flanes farmed fin
    obtain ⟨tlink, trqu, tpool, tin, -, -, -⟩ := k.testBlock_frame x b
    have hset := State.PassSettled.of_lanes hx hb (flanes.trans (congrArg State.lanes hbase))
    have hslot : ∀ i, i ∉ s.stripSlots x b n → (k.testBlock x b).slot i = s.slot i := fun i hi => by
      rw [State.testBlock_slot, hkb, State.slot_modSlots_ne _ _ _ hi, hbase, State.setLane_slot]
    have hslot' : ∀ i, i ∈ s.stripSlots x b n → (k.testBlock x b).slot i = (s.slot i).rough := fun i hi => by
      rw [State.testBlock_slot, hkb, State.slot_modSlots_mem _ _ (s.stripSlots_nodup x b n) hi (State.stripSlots_lt hi), hbase,
        State.setLane_slot]
    refine ⟨k.testBlock x b, ?_, hset.record, hset.array, fun i j hj hi hstaged => ?_, fun i hi => ?_, hset.engine, hset.job, hset.lane,
      hset.tested, hset.records, hset.lanes, ?_, ?_, ?_, ?_⟩
    · rw [hk]
      exact endPass_pass State.roughPassed hreset hengine hjob rfl rfl
    · rw [hslot' i ((s.mem_stripSlots x b n i).mpr ⟨j, hj, hi⟩), Slot.rough_staged hstaged]
    · by_cases hmem : i ∈ s.stripSlots x b n
      · obtain ⟨howned, hpage⟩ := State.stripSlots_page hmem
        have hnot : (s.slot i).state ≠ .staged := hi.resolve_right (by simp [howned, hpage])
        rw [hslot' i hmem, Slot.rough_other hnot]
      · exact hslot i hmem
    · rw [trqu, frqu, hbase]; rfl
    · rw [tlink, flink, hbase]; rfl
    · rw [tpool, farmed, hbase]; rfl
    · rw [hbase] at fin
      exact ⟨tin.1.trans fin.1, tin.2.1.trans fin.2.1, tin.2.2.trans fin.2.2⟩
  case terminator =>
    have hx := s.lane_lt_of_engine hengine
    obtain ⟨k, hk⟩ : ∃ k,
        k = s.setLane x ((s.lane x).passEnded (.terminatorRough phys n dataEnd false) .pass b fun r => { r with roughDone := n + 1 }) :=
      ⟨_, rfl⟩
    obtain ⟨tlink, trqu, tpool, tin, -, -, -⟩ := k.testBlock_frame x b
    have hset := State.PassSettled.of_lanes hx hb (congrArg State.lanes hk)
    refine ⟨k.testBlock x b, ?_, hset.record, hset.array, hset.engine, hset.job, hset.lane, hset.tested, hset.records, hset.lanes, ?_,
      ?_, ?_, ?_⟩
    · rw [hk, ← State.passEnded_modRecord]
      exact endPass_pass State.terminatorPassed hreset hengine hjob rfl rfl
    · rw [trqu, hk]; rfl
    · rw [tlink, hk]; rfl
    · rw [tpool, hk]; rfl
    · rw [hk] at tin ⊢
      exact tin

/-! ### Finalizing a strip -/

/-- What finalizing the pages in the slots `is` leaves of slots, tags and replies. -/
structure State.Finalized (s m : State) (is : List Nat) : Prop where
  slot : ∀ i ∈ is, m.slot i = (s.slot i).release
  slotOther : ∀ i, i ∉ is → m.slot i = s.slot i
  tag : ∀ i t, i ∈ is → (s.slot i).tag = some t → m.tag t = (s.tag t).map (fun e => { e with state := .replying, slot := none })
  tagOther : ∀ t, (∀ i ∈ is, (s.slot i).tag ≠ some t) → m.tag t = s.tag t
  kept : ∀ i t e, i ∈ is → (s.slot i).tag = some t → s.tag t = some e → e.state ≠ .replying → m.link.keeps (s.durableReply t e)
  placed : s.WritesOpen (fun i => i ∈ is) → m.link = (s.slotReplies is (fun _ => s.durableReply)).foldl Link.placeFinal s.link
  rqu : s.rqu.sameButTags m.rqu
  link : s.link.sameButReplies m.link
  armed : m.pool.armed = s.pool.armed
  inputs : s.sameInputs m

theorem Lane.physical_modRecord (l : Lane) (b c : Nat) {f : BlockRec → BlockRec} (hf : ∀ r, (f r).physical = r.physical) :
    ((l.modRecord b f).record c).physical = (l.record c).physical := by
  by_cases hb : b < 1024
  · by_cases hc : c = b
    · subst hc
      rw [Lane.record_modRecord_same _ _ hb, hf]
    · rw [Lane.record_modRecord_ne _ _ hc]
  · rw [Lane.record_modRecord_out _ _ hb]

/-- A DURABLE reply reads of the records only which physical block serves the page. -/
theorem State.durableReply_of_physical {s m : State} (h : ∀ y c, (m.record y c).physical = (s.record y c).physical) :
    m.durableReply = s.durableReply := by
  funext t e
  unfold State.durableReply
  rw [h]

theorem State.physical_setLane {s : State} {x : Nat} {l : Lane} (h : ∀ c, (l.record c).physical = ((s.lane x).record c).physical)
    (y c : Nat) : ((s.setLane x l).record y c).physical = (s.record y c).physical := by
  by_cases hy : y = x
  · subst hy
    exact s.lane_setLane_keep (fun l => (l.record c).physical) (h c)
  · unfold State.record
    rw [State.lane_setLane_ne s _ hy]

/-- Finalizing after a change of one lane that leaves the physical blocks in place. -/
theorem State.Finalized.of_setLane {s : State} {x : Nat} {l : Lane} {is : List Nat} (hn : is.Nodup) (hlt : ∀ i ∈ is, i < 96)
    (h : ∀ c, (l.record c).physical = ((s.lane x).record c).physical) : s.Finalized ((s.setLane x l).finalize is) is := by
  have hreply : (s.setLane x l).durableReply = s.durableReply := State.durableReply_of_physical (State.physical_setLane h)
  obtain ⟨-, frqu, flink, farmed, fin⟩ := (s.setLane x l).finalize_frame is
  refine ⟨fun i hi => ?_, fun i hi => ?_, fun i t hi ht => ?_, fun t ht => ?_, fun i t e hi ht he hopen => ?_, fun hopen => ?_,
    frqu, flink, farmed, fin⟩
  · rw [State.finalize_slot _ hn (hlt i hi), if_pos hi, State.setLane_slot]
  · by_cases hi' : i < 96
    · rw [State.finalize_slot _ hn hi', if_neg hi, State.setLane_slot]
    · rw [State.slot_out _ hi', State.slot_out s hi']
  · rw [State.finalize_tag _ hn, if_pos ⟨i, hi, ht⟩, State.setLane_tag]
  · rw [State.finalize_tag _ hn, if_neg (by rintro ⟨i, hi, h⟩; exact ht i hi h), State.setLane_tag]
  · exact hreply ▸ State.finalize_keeps (s.setLane x l) hn hi ht he hopen
  · have hlink := State.finalize_link (s.setLane x l) hn hopen
    rw [hreply] at hlink
    exact hlink

/-- Nothing of slots, tags or replies changes after the finalizing. -/
theorem State.Finalized.congr {s m m' : State} {is : List Nat} (h : s.Finalized m is) (hpool : m'.pool = m.pool) (hrqu : m'.rqu = m.rqu)
    (hlink : m'.link = m.link) (hin : m.sameInputs m') : s.Finalized m' is where
  slot i hi := (State.slot_of_slots (congrArg Pool.slots hpool) i).trans (h.slot i hi)
  slotOther i hi := (State.slot_of_slots (congrArg Pool.slots hpool) i).trans (h.slotOther i hi)
  tag i t hi ht := (State.tag_of_rqu (congrArg Rqu.tags hrqu) t).trans (h.tag i t hi ht)
  tagOther t ht := (State.tag_of_rqu (congrArg Rqu.tags hrqu) t).trans (h.tagOther t ht)
  kept i t e hi ht he hopen := hlink ▸ h.kept i t e hi ht he hopen
  placed hopen := hlink.trans (h.placed hopen)
  rqu := hrqu ▸ h.rqu
  link := hlink ▸ h.link
  armed := (congrArg Pool.armed hpool).trans h.armed
  inputs := ⟨hin.1.trans h.inputs.1, hin.2.1.trans h.inputs.2.1, hin.2.2.trans h.inputs.2.2⟩

/-- The slots that serve the pages of strip `n`, of `q` pages, in page order. -/
def State.servingSlots (s : State) (x b q n : Nat) : List Nat := (List.range q).filterMap (fun k => s.slotOf x b (q * n + k))

theorem State.mem_servingSlots (s : State) (x b q n i : Nat) :
    i ∈ s.servingSlots x b q n ↔ ∃ k, k < q ∧ s.slotOf x b (q * n + k) = some i := by
  simp [State.servingSlots]

theorem stripPages_eq (n : Nat) : stripPages n = (List.range 4).map (4 * n + ·) := by simp [stripPages, List.range_succ]

theorem State.servingSlots_dense (s : State) (x b n : Nat) : s.servingSlots x b 4 n = s.stripSlots x b n := by
  unfold State.servingSlots State.stripSlots
  rw [stripPages_eq, List.filterMap_map]
  rfl

theorem State.servingSlots_swift (s : State) (x b n : Nat) : s.servingSlots x b 1 n = (s.slotOf x b n).toList := by
  unfold State.servingSlots
  rw [List.range_one, one_mul]
  cases h : s.slotOf x b n with
  | none => exact List.filterMap_cons_none h
  | some i => exact List.filterMap_cons_some h

theorem State.servingSlots_nodup (s : State) (x b q n : Nat) : (s.servingSlots x b q n).Nodup := by
  refine List.Nodup.filterMap ?_ List.nodup_range
  intro j k i hj hk
  have h1 := State.slotOf_owner (by simpa using hj)
  have h2 := State.slotOf_owner (by simpa using hk)
  simpa using h1.2.symm.trans h2.2

theorem State.servingSlots_lt {s : State} {x b q n i : Nat} (h : i ∈ s.servingSlots x b q n) : i < 96 := by
  obtain ⟨k, -, hi⟩ := (s.mem_servingSlots x b q n i).mp h
  exact (State.slotOf_owner hi).1

/-! ### FINAL and SINGLE -/

/-- The pages of a strip of the kind of pass that finalizes it. -/
def PassKind.stripPages (k : PassKind) : Nat := if k = .single then 1 else 4

/-- What a FINAL or SINGLE that ended PASS does for its block and strip (R32, R33). -/
def PassKind.passed (k : PassKind) : State → Nat → Nat → Nat → State := if k = .single then State.singlePassed else State.finalPassed

/-- The pass of strip `n` finalizes the last page of a CLOSING block (R32, R33). -/
def PassKind.Arrives (k : PassKind) (r : BlockRec) (n : Nat) : Prop :=
  r.state = .closing ∧ if k = .single then r.dataEnd = some (n + 1) else r.dataEnd.map lastStrip = some n

/-- The state with the strip's slots released and their tags ended, before the block's state changes. -/
def State.stripFinalized (s : State) (x b n q : Nat) (op : Operation) : State :=
  (s.setLane x ((s.lane x).passEnded op .pass b fun r => { r with finalDone := n + 1 })).finalize (s.servingSlots x b q n)

theorem State.stripFinalized_finalized (s : State) (x b n q : Nat) (op : Operation) :
    s.Finalized (s.stripFinalized x b n q op) (s.servingSlots x b q n) :=
  .of_setLane (s.servingSlots_nodup x b q n) (fun _ => State.servingSlots_lt) fun c => Lane.physical_modRecord _ b c fun _ => rfl

theorem State.stripFinalized_lanes (s : State) (x b n q : Nat) (op : Operation) :
    (s.stripFinalized x b n q op).lanes = (s.setLane x ((s.lane x).passEnded op .pass b fun r => { r with finalDone := n + 1 })).lanes :=
  (State.finalize_frame _ _).1

theorem PassKind.passed_full (k : PassKind) (s : State) (x b n : Nat) (op : Operation)
    (h : (s.record x b).state = .opened ∧ n = 63) :
    k.passed (s.passEnded x op .pass) x b n
      = (s.stripFinalized x b n k.stripPages op).modRecord x b (fun r => r.fill (64 * k.stripPages)) := by
  unfold PassKind.passed PassKind.stripPages
  split
  · rw [State.singlePassed, State.passEnded_record, if_pos h, State.passEnded_modRecord]
    unfold State.stripFinalized
    rw [State.servingSlots_swift]
    rfl
  · rw [State.finalPassed, State.passEnded_record, if_pos h, State.passEnded_modRecord]
    unfold State.stripFinalized
    rw [State.servingSlots_dense]
    rfl

theorem PassKind.passed_through (k : PassKind) (s : State) (x b n : Nat) (op : Operation)
    (hfull : ¬((s.record x b).state = .opened ∧ n = 63)) (harrive : ¬k.Arrives (s.record x b) n) :
    k.passed (s.passEnded x op .pass) x b n = s.stripFinalized x b n k.stripPages op := by
  unfold PassKind.Arrives at harrive
  unfold PassKind.passed PassKind.stripPages
  split
  next hk =>
    rw [if_pos hk] at harrive
    rw [State.singlePassed, State.passEnded_record, if_neg hfull, if_neg harrive, State.passEnded_modRecord]
    unfold State.stripFinalized
    rw [State.servingSlots_swift]
    rfl
  next hk =>
    rw [if_neg hk] at harrive
    rw [State.finalPassed, State.passEnded_record, if_neg hfull, if_neg harrive, State.passEnded_modRecord]
    unfold State.stripFinalized
    rw [State.servingSlots_dense]
    rfl

theorem PassKind.passed_arrives (k : PassKind) (s : State) (x b n : Nat) (op : Operation) (h : k.Arrives (s.record x b) n) :
    k.passed (s.passEnded x op .pass) x b n
      = ((s.stripFinalized x b n k.stripPages op).modRecord x b
          (fun r => { r.arrive with intakeNext := if k = .single then n + 1 else r.intakeNext })).endClose x b .done := by
  have hfull : ¬((s.record x b).state = .opened ∧ n = 63) := fun ho => by rw [h.1] at ho; exact nomatch ho.1
  unfold PassKind.Arrives at h
  unfold PassKind.passed PassKind.stripPages
  split
  next hk =>
    rw [if_pos hk] at h
    rw [State.singlePassed, State.passEnded_record, if_neg hfull, if_pos h, State.passEnded_modRecord]
    unfold State.stripFinalized
    rw [State.servingSlots_swift]
    rfl
  next hk =>
    rw [if_neg hk] at h
    rw [State.finalPassed, State.passEnded_record, if_neg hfull, if_pos h, State.passEnded_modRecord]
    unfold State.stripFinalized
    rw [State.servingSlots_dense]
    rfl

end Sys2Proof.Machine
end

