-- ==== Sys2Proof/Proofs/Finalizing.lean ====
section
/-! PROOFS. A FINAL or SINGLE that ends PASS (R32, R33, R37, R79): of an OPEN block, of a CLOSING block below its last strip, and of the
last page of a CLOSING block. -/

namespace Sys2Proof.Machine

theorem State.modRecord_lanes {k m : State} (h : k.lanes = m.lanes) (x b : Nat) (f : BlockRec → BlockRec) :
    (k.modRecord x b f).lanes = (m.modRecord x b f).lanes := by
  unfold State.modRecord State.modLane State.setLane State.lane
  rw [h]

/-- The lanes after the strip is finalized and the block's record changes again. -/
theorem State.stripFinalized_modRecord (s : State) (x b n q : Nat) (op : Operation) (f : BlockRec → BlockRec) (hb : b < 1024) :
    ((s.stripFinalized x b n q op).modRecord x b f).lanes
      = (s.setLane x ((s.lane x).passEnded op .pass b fun r => f { r with finalDone := n + 1 })).lanes := by
  rw [State.modRecord_lanes (s.stripFinalized_lanes x b n q op), State.modRecord_setLane]
  unfold Lane.passEnded
  rw [Lane.modRecord_modRecord _ _ _ _ hb]

/-- The operation and kind of a pass that finalizes a strip, and the command that ends it. -/
def FinalizesBy (x n phys : Nat) (c : Instr) (op : Operation) (kind : PassKind) : Prop :=
  (∃ pages, c = .finalEnd x .pass ∧ kind = .final ∧ op = .final phys n pages false)
    ∨ ∃ page, c = .singleEnd x .pass ∧ kind = .single ∧ op = .single phys n page false

theorem FinalizesBy.exec {s : State} {x b n phys : Nat} {c : Instr} {op : Operation} {kind : PassKind}
    (h : FinalizesBy x n phys c op kind) (hreset : s.inReset = false) (hengine : (s.lane x).engine = some op)
    (hjob : (s.lane x).job = some (.pass b { kind := kind, strip := n })) :
    Machine.exec c s = .next (s.conclude [x] ((kind.passed (s.passEnded x op .pass) x b n).testBlock x b)) := by
  rcases h with ⟨pages, rfl, rfl, rfl⟩ | ⟨page, rfl, rfl, rfl⟩
  · exact endPass_pass State.finalPassed hreset hengine hjob rfl rfl
  · exact endPass_pass State.singlePassed hreset hengine hjob rfl rfl

theorem FinalizesBy.arrives_iff {x n phys : Nat} {c : Instr} {op : Operation} {kind : PassKind} (h : FinalizesBy x n phys c op kind)
    (r : BlockRec) :
    kind.Arrives r n ↔ r.state = .closing ∧ ∃ e, r.dataEnd = some e ∧ (kind = .final → (e - 1) / 4 = n) ∧ (kind = .single → e = n + 1) := by
  unfold PassKind.Arrives
  rcases h with ⟨pages, -, rfl, -⟩ | ⟨page, -, rfl, -⟩
  · simp [lastStrip]
  · simp

/-- Settles O43: the strip is finalized, and the block becomes FULL or goes on. -/
theorem finalizingPasses : Obligations.FinalizingPasses := by
  intro s x b n phys q c op kind hreset hb hengine hjob hends hstays
  have hx := s.lane_lt_of_engine hengine
  have hby : FinalizesBy x n phys c op kind := hends.imp (fun ⟨pages, hc, hk, _, ho⟩ => ⟨pages, hc, hk, ho⟩)
    fun ⟨page, hc, hk, _, ho⟩ => ⟨page, hc, hk, ho⟩
  have hq : q = kind.stripPages := by
    rcases hends with ⟨-, -, rfl, rfl, -⟩ | ⟨-, -, rfl, rfl, -⟩ <;> rfl
  have hnot : ¬kind.Arrives (s.record x b) n := fun h => by
    obtain ⟨hclosing, e, he, hfinal, hsingle⟩ := (hby.arrives_iff _).mp h
    obtain ⟨hnf, hns⟩ := hstays hclosing e he
    rcases hby with ⟨-, -, hk, -⟩ | ⟨-, -, hk, -⟩
    · exact hnf hk (hfinal hk)
    · exact hns hk (hsingle hk)
  obtain ⟨k, hk⟩ : ∃ k, k = kind.passed (s.passEnded x op .pass) x b n := ⟨_, rfl⟩
  have hfin : s.Finalized k (s.servingSlots x b q n) := by
    have hbase := s.stripFinalized_finalized x b n q op
    by_cases hfull : (s.record x b).state = .opened ∧ n = 63
    · rw [hk, kind.passed_full s x b n op hfull, ← hq]
      exact hbase.congr rfl rfl rfl ⟨rfl, rfl, rfl⟩
    · rw [hk, kind.passed_through s x b n op hfull hnot, ← hq]
      exact hbase
  have hset : s.PassSettled (k.testBlock x b) x b op .pass
      (if (s.record x b).state = .opened ∧ n = 63 then BlockRec.fill { s.record x b with finalDone := n + 1 } (64 * q)
        else { s.record x b with finalDone := n + 1 }) := by
    by_cases hfull : (s.record x b).state = .opened ∧ n = 63
    · rw [hk, kind.passed_full s x b n op hfull, ← hq, if_pos hfull]
      exact .of_lanes (f := fun r => BlockRec.fill { r with finalDone := n + 1 } (64 * q)) hx hb
        (s.stripFinalized_modRecord x b n q op _ hb)
    · rw [hk, kind.passed_through s x b n op hfull hnot, ← hq, if_neg hfull]
      exact .of_lanes hx hb (s.stripFinalized_lanes x b n q op)
  obtain ⟨tlink, trqu, tpool, tin, -, -, -⟩ := k.testBlock_frame x b
  have hfin' := hfin.congr tpool trqu tlink tin
  have hbefore : (if (s.record x b).state = .opened ∧ n = 63 then BlockRec.fill { s.record x b with finalDone := n + 1 } (64 * q)
      else { s.record x b with finalDone := n + 1 }).readyPass = (s.record x b).readyPass := by
    split <;> rfl
  refine ⟨k.testBlock x b, ?_, ?_, fun i j hj hi => ⟨?_, fun t e ht he hopen => ⟨?_, ?_⟩⟩, hfin'.placed, fun i hi => ?_,
    fun t ht => ?_, fun pages ho => ?_, fun page ho => ?_, hset.engine, hset.job, hset.lane, hbefore ▸ hset.tested, hset.records,
    hset.lanes, hfin'.rqu, hfin'.link, hfin'.armed, hfin'.inputs⟩
  · rw [hk]
    exact hby.exec hreset hengine hjob
  · refine Eq.subst (motive := fun r => BlockRec.sameButReady r _) ?_ hset.record
    split
    next hfull => rw [hfull.2]; rfl
    next => rfl
  · exact hfin'.slot i ((s.mem_servingSlots x b q n i).mpr ⟨j, hj, hi⟩)
  · rw [hfin'.tag i t ((s.mem_servingSlots x b q n i).mpr ⟨j, hj, hi⟩) ht, he]
    rfl
  · exact (hfin'.kept i t e ((s.mem_servingSlots x b q n i).mpr ⟨j, hj, hi⟩) ht he hopen).holds
  · refine hfin'.slotOther i fun h => ?_
    obtain ⟨j, hj, hi'⟩ := (s.mem_servingSlots x b q n i).mp h
    exact hi j hj hi'
  · refine hfin'.tagOther t fun i hi => ?_
    obtain ⟨j, hj, hi'⟩ := (s.mem_servingSlots x b q n i).mp hi
    exact ht i j hj hi'
  · rw [hset.array, ho]; rfl
  · rw [hset.array, ho]; rfl

/-- Settles O44: as O43, and the block's one waiting CLOSE ends after its pages' tags. -/
theorem closeArrives : Obligations.CloseArrives := by
  intro s x b n phys t entry c op kind hreset hb hengine hjob hclosing hends htag hkind hwait hlane hblock honly hnoslot
  have hx := s.lane_lt_of_engine hengine
  have hby : FinalizesBy x n phys c op kind := hends.imp (fun ⟨pages, _, hc, hk, ho, _⟩ => ⟨pages, hc, hk, ho⟩)
    fun ⟨page, hc, hk, ho, _⟩ => ⟨page, hc, hk, ho⟩
  have harrives : kind.Arrives (s.record x b) n := by
    refine (hby.arrives_iff _).mpr ⟨hclosing, ?_⟩
    rcases hends with ⟨-, e, -, hk, -, he, hlast⟩ | ⟨-, -, hk, -, he⟩
    · exact ⟨e, he, fun _ => hlast, fun h => absurd (hk.symm.trans h) (by decide)⟩
    · exact ⟨n + 1, he, fun h => absurd (hk.symm.trans h) (by decide), fun _ => rfl⟩
  obtain ⟨arrive, harrive⟩ : ∃ f : BlockRec → BlockRec,
      f = fun r => { r.arrive with intakeNext := if kind = .single then n + 1 else r.intakeNext } := ⟨_, rfl⟩
  obtain ⟨base, hbase⟩ : ∃ m, m = (s.stripFinalized x b n kind.stripPages op).modRecord x b arrive := ⟨_, rfl⟩
  have hfin : s.Finalized base (s.servingSlots x b kind.stripPages n) := by
    rw [hbase]
    exact (s.stripFinalized_finalized x b n kind.stripPages op).congr rfl rfl rfl ⟨rfl, rfl, rfl⟩
  have hclose : base.tag t = some entry := (hfin.tagOther t fun i _ => hnoslot i).trans htag
  have hopen : entry.state ≠ .replying := by rw [hwait]; decide
  have hend : base.endClose x b .done = base.finish t .done (.block x b) none := by
    refine base.endClose_eq .done hclose hkind hwait hlane hblock fun u g hu hk hs hl hg => ?_
    by_cases hslot : ∃ i ∈ s.servingSlots x b kind.stripPages n, (s.slot i).tag = some u
    · obtain ⟨i, hi, hiu⟩ := hslot
      rw [hfin.tag i u hi hiu, Option.map_eq_some_iff] at hu
      obtain ⟨e, -, rfl⟩ := hu
      cases hs
    · exact honly u g ((hfin.tagOther u fun i hi hiu => hslot ⟨i, hi, hiu⟩).symm.trans hu) hk hs hl hg
  obtain ⟨k, hk⟩ : ∃ k, k = kind.passed (s.passEnded x op .pass) x b n := ⟨_, rfl⟩
  have hkf : k = base.finish t .done (.block x b) none := by
    rw [hk, kind.passed_arrives s x b n op harrives, ← harrive, ← hbase, hend]
  have hframe : base.OnlyReplies k := hkf ▸ base.finish_frame t .done (.block x b) none
  have hset : s.PassSettled (k.testBlock x b) x b op .pass (arrive { s.record x b with finalDone := n + 1 }) := by
    refine .of_lanes (f := fun r => arrive { r with finalDone := n + 1 }) hx hb (hframe.lanes.trans ?_)
    rw [hbase]
    exact s.stripFinalized_modRecord x b n kind.stripPages op arrive hb
  obtain ⟨tlink, trqu, tpool, tin, -, -, -⟩ := k.testBlock_frame x b
  have hrest : (arrive { s.record x b with finalDone := n + 1 }).running = false := by rw [harrive]; rfl
  have hlink : k.link = base.link.placeFinal (QueueEntry.finalOf t .close .done (.block x b) none) := by
    rw [hkf, State.finish_link base .done (.block x b) none hclose hopen, hkind]
  have hslotk : ∀ i, (k.testBlock x b).slot i = base.slot i := fun i => (k.testBlock_slot x b i).trans (hframe.slot i)
  have htagk : ∀ u, u ≠ t → (k.testBlock x b).tag u = base.tag u := fun u hu => by
    rw [State.testBlock_tag, hkf, State.finish_tag, if_neg hu]
  have hq : (if kind = .single then 1 else 4) = kind.stripPages := rfl
  have hmem : ∀ i j, j < (if kind = .single then 1 else 4) → s.slotOf x b ((if kind = .single then 1 else 4) * n + j) = some i →
      i ∈ s.servingSlots x b kind.stripPages n := fun i j hj hi => (s.mem_servingSlots x b _ n i).mpr ⟨j, hj, hi⟩
  refine ⟨k.testBlock x b, ?_, ?_, ?_, ?_, ⟨fun i j hj hi => ?_, fun i j u e hj hi hu he hue => ⟨?_, ?_⟩, fun hwrites => ?_,
    fun u hu hno => ?_, fun i hi => ?_⟩, fun pages ho => ?_, fun page ho => ?_, hset.engine, hset.job, hset.lane, ?_, hset.records,
    hset.lanes, ?_, ?_, ?_, ?_⟩
  · rw [hk]
    exact hby.exec hreset hengine hjob
  · rw [hset.rest hrest, harrive]
    rfl
  · rw [State.testBlock_tag, hkf, State.finish_tag, if_pos rfl, hclose]
    rfl
  · rw [tlink, hlink]
    exact (Link.keeps_placeFinal _ _).holds
  · rw [hslotk]
    exact hfin.slot i (hmem i j hj hi)
  · rw [htagk u fun h => hnoslot i (h ▸ hu)]
    rw [hfin.tag i u (hmem i j hj hi) hu, he]
    rfl
  · rw [tlink, hlink]
    exact ((hfin.kept i u e (hmem i j hj hi) hu he hue).placeFinal rfl
      (QueueEntry.finalOf t .close .done (.block x b) none) fun h => hnoslot i (hu.trans (congrArg some h.symm))).holds
  · rw [tlink, hlink, hfin.placed hwrites, List.foldl_append]
    rfl
  · rw [htagk u hu]
    refine hfin.tagOther u fun i hi => ?_
    obtain ⟨j, hj, hi'⟩ := (s.mem_servingSlots x b _ n i).mp hi
    exact hno i j hj hi'
  · rw [hslotk]
    refine hfin.slotOther i fun h => ?_
    obtain ⟨j, hj, hi'⟩ := (s.mem_servingSlots x b _ n i).mp h
    exact hi j hj hi'
  · rw [hset.array, ho]; rfl
  · rw [hset.array, ho]; rfl
  · refine Eq.subst (motive := fun p => s.BlockTested _ x b p) ?_ hset.tested
    rw [harrive]
    rfl
  · have h1 := hfin.rqu
    have h2 := hframe.rqu
    unfold Rqu.sameButTags at h1 h2 ⊢
    rw [trqu, h2, h1]
  · have h1 := hfin.link
    have h2 := hframe.link
    unfold Link.sameButReplies at h1 h2 ⊢
    rw [tlink, h2, h1]
  · rw [tpool, hframe.pool, hfin.armed]
  · exact ⟨tin.1.trans (hframe.inputs.1.trans hfin.inputs.1), tin.2.1.trans (hframe.inputs.2.1.trans hfin.inputs.2.1),
      tin.2.2.trans (hframe.inputs.2.2.trans hfin.inputs.2.2)⟩

end Sys2Proof.Machine
end

