-- ==== Sys2Proof/Proofs/PassFails.lean ====
section
/-! PROOFS. When a pass may start (R11), and what a pass that fails leaves of its block (R128 to R132). -/

namespace Sys2Proof.Machine

theorem PhysBlock.canStart_iff (pb : PhysBlock) (kind : PassKind) (n : Nat) :
    pb.canStart kind n = true
      ↔ pb.factoryBad = false
        ∧ ((pb.cells = .blank ∧ kind ≠ .final)
          ∨ ∃ w, pb.cells = .written w
            ∧ ((kind = .rough ∨ kind = .terminator) → w.marker = .dense ∧ (w.strip n).state = .blank)
            ∧ (kind = .final → w.marker = .dense ∧ (w.strip n).state = .roughed ∧ ∀ e, w.terminator ≠ some (n, e))
            ∧ (kind = .single → w.marker = .swift ∧ (w.strip n).state = .blank)) := by
  unfold PhysBlock.canStart
  rw [Bool.and_eq_true, Bool.not_eq_true']
  refine and_congr_right fun _ => ?_
  cases hc : pb.cells with
  | blank => cases kind <;> simp
  | unsettled => simp
  | written w =>
    cases kind with
    | rough => simp
    | terminator => simp
    | single => simp
    | final =>
      cases hm : w.terminator with
      | none => simp [hm]
      | some mark => obtain ⟨j, d⟩ := mark; simp [hm, and_assoc]

/-! ### Giving up a failed pass's block -/

/-- The failed block's record, slots and tags, before its CLOSE ends (R129 to R132). -/
def State.givenUp (s : State) (x b : Nat) : State :=
  ((if (s.record x b).state = .closing then s.releaseSlots (s.padSlots x b) else s).modRecord x b BlockRec.fail).holdTags x b

theorem State.passFailed_eq (s : State) (x b : Nat) :
    s.passFailed x b
      = if (s.record x b).state = .closing then (s.givenUp x b).endClose x b .programFailed else s.givenUp x b := by
  unfold State.passFailed State.givenUp
  dsimp only
  by_cases h : (s.record x b).state = .closing <;> simp only [h, decide_true, decide_false, if_true, if_false,
    Bool.false_eq_true]

theorem State.givenUp_lanes (s : State) (x b : Nat) : (s.givenUp x b).lanes = (s.modRecord x b BlockRec.fail).lanes := by
  unfold State.givenUp
  split
  · exact State.modRecord_lanes (s.leaveSlots_frame _ _).2.1 x b _
  · rfl

theorem State.givenUp_frame (s : State) (x b : Nat) :
    (s.givenUp x b).link = s.link ∧ s.rqu.sameButTags (s.givenUp x b).rqu ∧ (s.givenUp x b).pool.armed = s.pool.armed
      ∧ s.sameInputs (s.givenUp x b) := by
  unfold State.givenUp
  split
  · obtain ⟨hlink, -, hrqu, harmed, hin⟩ := s.leaveSlots_frame (s.padSlots x b) (fun _ => Slot.release)
    unfold Rqu.sameButTags at hrqu
    refine ⟨hlink, ?_, harmed, hin⟩
    show Rqu.sameButTags s.rqu { (s.releaseSlots (s.padSlots x b)).rqu with tags := _ }
    rw [State.releaseSlots_eq, hrqu]
    rfl
  · exact ⟨rfl, rfl, rfl, rfl, rfl, rfl⟩

theorem State.padSlots_nodup (s : State) (x b : Nat) : (s.padSlots x b).Nodup := (s.ownedSlots_nodup x b).filter _

theorem State.mem_padSlots (s : State) (x b i : Nat) : i ∈ s.padSlots x b ↔ (s.slot i).ownedBy x b = true ∧ (s.slot i).pad = true := by
  simp [State.padSlots, State.mem_ownedSlots]

theorem State.givenUp_slot (s : State) (x b i : Nat) :
    (s.givenUp x b).slot i
      = if (s.record x b).state = .closing ∧ (s.slot i).pad = true ∧ (s.slot i).ownedBy x b = true then (s.slot i).release
        else s.slot i := by
  unfold State.givenUp
  by_cases hclosing : (s.record x b).state = .closing
  · rw [if_pos hclosing]
    show (s.releaseSlots (s.padSlots x b)).slot i = _
    rw [State.releaseSlots_eq]
    by_cases hi : i ∈ s.padSlots x b
    · obtain ⟨howned, hpad⟩ := (s.mem_padSlots x b i).mp hi
      rw [State.slot_leaveSlots_mem s _ (s.padSlots_nodup x b) hi (s.owned_lt howned), if_pos ⟨hclosing, hpad, howned⟩]
    · rw [State.slot_leaveSlots_ne s _ _ hi, if_neg]
      rintro ⟨-, hpad, howned⟩
      exact hi ((s.mem_padSlots x b i).mpr ⟨howned, hpad⟩)
  · rw [if_neg hclosing, if_neg fun h => hclosing h.1]
    rfl

theorem State.tag_holdTags (s : State) (x b t : Nat) : (s.holdTags x b).tag t = (s.tag t).map (TagEntry.holdFailed x b) := by
  unfold State.tag State.holdTags
  rw [Vector.getElem?_map]
  cases s.rqu.tags[t]? <;> rfl

/-- A failed pass leaves of each live tag its entry, which may lose its slot and moves to HELD_FAILED if it is a STAGED write. -/
theorem State.givenUp_tag (s : State) (x b t : Nat) :
    ∃ drop : TagEntry → TagEntry, (drop = id ∨ drop = TagEntry.dropSlot)
      ∧ (s.givenUp x b).tag t = (s.tag t).map (fun e => (drop e).holdFailed x b) := by
  unfold State.givenUp
  rw [State.tag_holdTags, State.modRecord_tag]
  split
  · rw [State.releaseSlots_eq, State.tag_leaveSlots s _ (s.padSlots_nodup x b)]
    split
    · exact ⟨TagEntry.dropSlot, .inr rfl, Option.map_map _ _ _⟩
    · exact ⟨id, .inl rfl, rfl⟩
  · exact ⟨id, .inl rfl, rfl⟩

/-- The state a failed pass of block `b` gives a tag (R131). -/
def TagEntry.stateHeld (x b : Nat) (e : TagEntry) : TagState :=
  if e.kind = .write ∧ e.state = .staged ∧ e.lane = some x ∧ e.block = some b then .heldFailed else e.state

theorem TagEntry.holdFailed_fields (x b : Nat) (e : TagEntry) :
    (e.holdFailed x b).kind = e.kind ∧ (e.holdFailed x b).lane = e.lane ∧ (e.holdFailed x b).block = e.block
      ∧ (e.holdFailed x b).state = e.stateHeld x b := by
  unfold TagEntry.holdFailed TagEntry.stateHeld
  split <;> exact ⟨rfl, rfl, rfl, rfl⟩

theorem State.givenUp_some {s : State} {x b t : Nat} {e : TagEntry} (h : s.tag t = some e) :
    ∃ g, (s.givenUp x b).tag t = some g ∧ g.kind = e.kind ∧ g.lane = e.lane ∧ g.block = e.block ∧ g.state = e.stateHeld x b := by
  obtain ⟨drop, hdrop, htag⟩ := s.givenUp_tag x b t
  rw [h] at htag
  refine ⟨_, htag, ?_⟩
  rcases hdrop with rfl | rfl
  · exact e.holdFailed_fields x b
  · exact e.dropSlot.holdFailed_fields x b

theorem State.of_givenUp {s : State} {x b t : Nat} {g : TagEntry} (h : (s.givenUp x b).tag t = some g) :
    ∃ e, s.tag t = some e ∧ g.kind = e.kind ∧ g.lane = e.lane ∧ g.block = e.block ∧ g.state = e.stateHeld x b := by
  cases hs : s.tag t with
  | none =>
    obtain ⟨drop, -, htag⟩ := s.givenUp_tag x b t
    rw [hs, h] at htag
    cases htag
  | some e =>
    obtain ⟨g', hg', hfields⟩ := State.givenUp_some (x := x) (b := b) hs
    rw [h] at hg'
    cases hg'
    exact ⟨e, rfl, hfields⟩

theorem TagEntry.stateHeld_of_close {x b : Nat} {e : TagEntry} (h : e.kind = .close) : e.stateHeld x b = e.state :=
  if_neg fun hw => by rw [h] at hw; exact nomatch hw.1

/-! ### The end of a failed pass -/

/-- The operation of a pass of each kind. -/
def PassKind.Performs (kind : PassKind) (op : Operation) (phys n : Nat) (refused : Bool) : Prop :=
  (∃ pages, kind = .rough ∧ op = .rough phys n pages refused) ∨ (∃ e, kind = .terminator ∧ op = .terminatorRough phys n e refused)
    ∨ (∃ pages, kind = .final ∧ op = .final phys n pages refused) ∨ ∃ page, kind = .single ∧ op = .single phys n page refused

theorem PassKind.Performs.finish_fail {kind : PassKind} {op : Operation} {phys n : Nat} {refused : Bool}
    (h : kind.Performs op phys n refused) (a : FlashArray) :
    op.finish .fail a
      = if refused then a else a.modBlock phys (fun pb => pb.setStrip n { state := .torn, pages := [] }) := by
  rcases h with ⟨_, _, rfl⟩ | ⟨_, _, rfl⟩ | ⟨_, _, rfl⟩ | ⟨_, _, rfl⟩ <;> rfl

theorem PassKind.Performs.outcome_fail {kind : PassKind} {op : Operation} {phys n : Nat} {refused : Bool}
    (h : kind.Performs op phys n refused) {ending : Ending} (hf : refused = true ∨ ending = .fail) (a : FlashArray) :
    op.outcome a ending = .fail := by
  have hout : op.outcome a ending = if refused then .fail else ending := by
    rcases h with ⟨_, _, rfl⟩ | ⟨_, _, rfl⟩ | ⟨_, _, rfl⟩ | ⟨_, _, rfl⟩ <;> rfl
  rw [hout]
  rcases hf with rfl | rfl
  · rfl
  · exact ite_self _

theorem PassKind.Performs.exec {kind : PassKind} {op : Operation} {phys n x b : Nat} {refused : Bool} {s : State} {ending : Ending}
    (h : kind.Performs op phys n refused) (hf : refused = true ∨ ending = .fail) (hreset : s.inReset = false)
    (hengine : (s.lane x).engine = some op) (hjob : (s.lane x).job = some (.pass b { kind := kind, strip := n })) :
    Machine.exec (kind.endCommand x ending) s
      = .next (s.conclude [x] (((s.passEnded x op .fail).passFailed x b).testBlock x b)) := by
  have hout := h.outcome_fail hf (s.lane x).array
  rcases h with ⟨_, rfl, rfl⟩ | ⟨_, rfl, rfl⟩ | ⟨_, rfl, rfl⟩ | ⟨_, rfl, rfl⟩
  · exact endPass_fail State.roughPassed hreset hengine hjob rfl hout
  · exact endPass_fail State.terminatorPassed hreset hengine hjob rfl hout
  · exact endPass_fail State.finalPassed hreset hengine hjob rfl hout
  · exact endPass_fail State.singlePassed hreset hengine hjob rfl hout

/-- Settles O45: the starting states of R11, and the end of a failed pass as its block, slots, tags and CLOSE see it. -/
theorem passFails : Obligations.PassFails := by
  refine ⟨PhysBlock.canStart_iff, fun s x b n phys kind op refused ending hreset hb hf hengine hjob hop => ?_⟩
  intro r
  have hperf : kind.Performs op phys n refused := hop
  have hx := s.lane_lt_of_engine hengine
  obtain ⟨ended, hended⟩ : ∃ m, m = s.passEnded x op .fail := ⟨_, rfl⟩
  have hrec : ended.record x b = r := hended ▸ s.passEnded_record x b op .fail
  have hslots : ∀ i, ended.slot i = s.slot i := fun i => by rw [hended]; rfl
  have htags : ∀ t, ended.tag t = s.tag t := fun t => by rw [hended]; rfl
  obtain ⟨base, hbase⟩ : ∃ m, m = ended.givenUp x b := ⟨_, rfl⟩
  obtain ⟨blink, brqu, barmed, bin⟩ := ended.givenUp_frame x b
  rw [← hbase] at blink brqu barmed bin
  obtain ⟨k, hk⟩ : ∃ k, k = ended.passFailed x b := ⟨_, rfl⟩
  have hkb : k = if r.state = .closing then base.endClose x b .programFailed else base := by
    rw [hk, State.passFailed_eq, hrec, ← hbase]
  have hframe : base.OnlyReplies k := by
    rw [hkb]
    split
    · exact base.endClose_frame x b _
    · exact .refl base
  have hset : s.PassSettled (k.testBlock x b) x b op .fail r.fail := by
    refine .of_lanes hx hb (hframe.lanes.trans ?_)
    rw [hbase, State.givenUp_lanes, hended, State.passEnded_modRecord]
  obtain ⟨tlink, trqu, tpool, tin, -, -, -⟩ := k.testBlock_frame x b
  have hmrec : (k.testBlock x b).record x b = r.fail := (hset.rest rfl).trans rfl
  have hother : ∀ t e, s.tag t = some e → e.kind ≠ .close → ((k.testBlock x b).tag t).map TagEntry.state = some (e.stateHeld x b) :=
    fun t e ht hkind => by
      obtain ⟨g, hg, hgk, -, -, hgs⟩ := State.givenUp_some (x := x) (b := b) ((htags t).trans ht)
      rw [← hbase] at hg
      have hsame : k.tag t = base.tag t := by
        rw [hkb]
        split
        · refine base.endClose_tag_other x b t _ fun e' he' hc => hkind ?_
          rw [hg] at he'
          cases he'
          exact hgk.symm.trans hc.1
        · rfl
      rw [State.testBlock_tag, hsame, hg, Option.map_some, hgs]
  obtain ⟨-, hlist, hrun⟩ := hset.tested.2.2.2 (by rw [hmrec]; exact (by decide : ¬(BlockState.failed = .opened ∨ BlockState.failed = .closing))) rfl
  refine ⟨k.testBlock x b, ?_, hmrec, ?_, fun i => ?_, fun t e ht hkind hstate hlane hblock => ?_,
    fun t e ht hkind hnot => ?_, fun hopen => ?_, fun t entry hclosing ht hkind hwait hlane hblock honly => ?_, hset.engine, hset.job,
    hset.lane, hlist, hrun, hset.records, hset.lanes, ?_, ?_, ?_, ?_⟩
  · rw [hk, hended]
    exact hperf.exec hf hreset hengine hjob
  · rw [hset.array, hperf.finish_fail]
  · rw [State.testBlock_slot, hframe.slot, hbase, State.givenUp_slot, hrec, hslots]
  · rw [hother t e ht (by rw [hkind]; decide)]
    exact congrArg some (if_pos ⟨hkind, hstate, hlane, hblock⟩)
  · rw [hother t e ht hkind]
    refine congrArg some (if_neg ?_)
    rintro ⟨h1, h2, h3, h4⟩
    rcases hnot with h | h | h | h
    · exact h h1
    · exact h h2
    · exact h h3
    · exact h h4
  · rw [tlink, hkb, if_neg hopen, blink, hended]
    rfl
  · obtain ⟨g, hg, hgk, hgl, hgb, hgs⟩ := State.givenUp_some (x := x) (b := b) ((htags t).trans ht)
    rw [← hbase] at hg
    rw [TagEntry.stateHeld_of_close hkind] at hgs
    have hend : k = base.finish t .programFailed (.block x b) none := by
      rw [hkb, if_pos hclosing]
      refine base.endClose_eq _ hg (hgk.trans hkind) (hgs.trans hwait) (hgl.trans hlane) (hgb.trans hblock)
        fun u h hu huk hus hul hub => ?_
      rw [hbase] at hu
      obtain ⟨e, he, h1, h2, h3, h4⟩ := State.of_givenUp hu
      have hek : e.kind = .close := h1.symm.trans huk
      rw [TagEntry.stateHeld_of_close hek] at h4
      exact honly u e ((htags u).symm.trans he) hek (h4.symm.trans hus) (h2.symm.trans hul) (h3.symm.trans hub)
    have hgopen : g.state ≠ .replying := by rw [hgs, hwait]; decide
    refine ⟨?_, ?_⟩
    · rw [State.testBlock_tag, hend, State.finish_tag, if_pos rfl, hg]
      rfl
    · rw [tlink, hend, State.finish_link base _ _ _ hg hgopen, blink, hgk, hkind, hended]
      rfl
  · have h1 := brqu
    have h2 := hframe.rqu
    unfold Rqu.sameButTags at h1 h2 ⊢
    rw [trqu, h2, h1, hended]
    rfl
  · have h2 := hframe.link
    unfold Link.sameButReplies at h2 ⊢
    rw [tlink, h2, blink, hended]
    rfl
  · rw [tpool, hframe.pool, barmed, hended]
    rfl
  · rw [hended] at bin
    exact ⟨tin.1.trans (hframe.inputs.1.trans bin.1), tin.2.1.trans (hframe.inputs.2.1.trans bin.2.1),
      tin.2.2.trans (hframe.inputs.2.2.trans bin.2.2)⟩

end Sys2Proof.Machine
end

