-- ==== Sys2Proof/Proofs/EraseEnds.lean ====
section
/-! PROOFS. The ends of an ERASE job's operations (R118 to R125), and the directory copies a write leaves (R15). -/

namespace Sys2Proof.Machine

/-! ### A lane set and a tag ended -/

/-- Lane `x` has been set to `l` and tag `t`, whose entry was `e`, has ended with the reply `q`; nothing else has changed. -/
structure State.LaneReplied (s m : State) (x : Nat) (l : Lane) (t : Nat) (e : TagEntry) (q : QueueEntry) : Prop where
  lane : m.lane x = l
  lanes : s.sameLanesBut m x
  pool : m.pool = s.pool
  inputs : s.sameInputs m
  rqu : s.rqu.sameButTags m.rqu
  link : s.link.sameButReplies m.link
  tag : m.tag t = some { e with state := .replying }
  tagOther : ∀ u, u ≠ t → m.tag u = s.tag u
  placed : m.link = s.link.placeFinal q

theorem State.LaneReplied.finish {s : State} {x t : Nat} {e : TagEntry} (l : Lane) (st : Status) (fields : ReplyFields)
    (src : Option Source) (hx : x < 4) (ht : s.tag t = some e) (he : e.state ≠ .replying) :
    s.LaneReplied ((s.setLane x l).finish t st fields src) x l t e (QueueEntry.finalOf t e.kind st fields src) := by
  obtain ⟨hpool, hlanes, hin, hrqu, hlink⟩ := (s.setLane x l).finish_frame t st fields src
  refine ⟨?_, fun y hy => ?_, hpool, hin, hrqu, hlink, ?_, fun u hu => ?_, State.finish_link _ st fields src ht he⟩
  · rw [State.lane_of_lanes hlanes, State.lane_setLane_same s l hx]
  · rw [State.lane_of_lanes hlanes, State.lane_setLane_ne s l hy]
  · rw [State.finish_tag, if_pos rfl, State.setLane_tag, ht]
    rfl
  · rw [State.finish_tag, if_neg hu, State.setLane_tag]

/-- The test of R28 finds nothing to change in a block at rest without ready_pass. -/
theorem State.testBlock_of_rest {s : State} {x b : Nat} (hrun : (s.record x b).running = false)
    (hready : (s.record x b).readyPass = none) : s.testBlock x b = s := by
  unfold State.testBlock
  dsimp only
  rw [if_neg (by simp [hrun]), if_neg (by simp [hready])]

theorem State.LaneReplied.record {s m : State} {x t : Nat} {l : Lane} {e : TagEntry} {q : QueueEntry} (h : s.LaneReplied m x l t e q)
    (b : Nat) : m.record x b = l.record b := congrArg (Lane.record · b) h.lane

/-! ### A lane whose ERASE job's operation has ended -/

/-- The job of a lane ends and its block's record changes. -/
def Lane.settled (l : Lane) (b : Nat) (f : BlockRec → BlockRec) : Lane := { l.modRecord b f with job := none }

theorem Lane.record_settled (l : Lane) {b : Nat} (f : BlockRec → BlockRec) (hb : b < 1024) : (l.settled b f).record b = f (l.record b) :=
  Lane.record_modRecord_same l f hb

/-- `k` is lane `l` with its job and operation ended, the array `a`, the record of block `b` and the tables changed, and no more. -/
structure Lane.JobEnded (l k : Lane) (b : Nat) (a : FlashArray) : Prop where
  array : k.array = a
  engine : k.engine = none
  job : k.job = none
  frame : l.sameButErase k
  records : l.sameRecordsBut k b
  list : k.readyList = l.readyList
  run : k.readRun = l.readRun

theorem Lane.JobEnded.of_tables {l k : Lane} {op : Operation} {w : Ending}
    (h : k = { l.endOperation op w with
      substMap := k.substMap, freeReserves := k.freeReserves, retiredReserves := k.retiredReserves })
    (b : Nat) (f : BlockRec → BlockRec) : l.JobEnded (k.settled b f) b (op.finish w l.array) where
  array := by rw [h]; rfl
  engine := by rw [h]; rfl
  job := rfl
  frame := by unfold Lane.sameButErase; rw [h]; rfl
  records c hc := (Lane.record_modRecord_ne k f hc).trans (by rw [h]; rfl)
  list := by rw [h]; rfl
  run := by rw [h]; rfl

/-- The reply of an ERASE job whose lane has been set to `k`. -/
def Lane.eraseReply (k : Lane) (x t b : Nat) (entry : TagEntry) (st : Status) (c : EraseCourse) (phys : Nat) (subst : Bool)
    (dir : DirResult) : QueueEntry :=
  QueueEntry.finalOf t entry.kind st
    (.erase x b (some { course := some c, physical := phys, substituted := subst, directory := dir,
                        freeReserves := k.freeReserves.length })) none

theorem State.LaneReplied.erase {s : State} {x t : Nat} {entry : TagEntry} (k : Lane) (b : Nat) (st : Status) (c : EraseCourse)
    (phys : Nat) (subst : Bool) (dir : DirResult) (hx : x < 4) (ht : s.tag t = some entry) (hopen : entry.state ≠ .replying) :
    s.LaneReplied ((s.setLane x k).replyErase x t b st c phys subst dir) x k t entry
      (k.eraseReply x t b entry st c phys subst dir) := by
  unfold State.replyErase
  rw [State.lane_setLane_same s k hx]
  exact .finish k st _ none hx ht hopen

/-- The end of an ERASE job that leaves its block at rest. -/
theorem State.LaneReplied.atRest {s m : State} {x t b : Nat} {k : Lane} {entry : TagEntry} {q : QueueEntry}
    (h : s.LaneReplied m x k t entry q) (hrun : (k.record b).running = false) (hready : (k.record b).readyPass = none) :
    m.testBlock x b = m :=
  State.testBlock_of_rest ((congrArg BlockRec.running (h.record b)).trans hrun)
    ((congrArg BlockRec.readyPass (h.record b)).trans hready)

/-! ### IN_PLACE_ERASE_END -/

theorem execInPlaceEraseEnd_pass {s : State} {x t b p : Nat} {e : Ending} (hreset : s.inReset = false)
    (hengine : (s.lane x).engine = some (.erase p)) (hjob : (s.lane x).job = some (.erase t b .inPlace none))
    (hout : (Operation.erase p).outcome (s.lane x).array e = .pass) :
    exec (.inPlaceEraseEnd x e) s
      = .next (s.conclude [x]
          (((s.setLane x (((s.lane x).endOperation (.erase p) .pass).settled b fun r => r.afterErase r.physical)).replyErase x t b .done
            .inPlace p false .notNeeded).testBlock x b)) := by
  show execInPlaceEraseEnd x e s = _
  rw [execInPlaceEraseEnd, unlessReset_running _ hreset, hengine, hjob]
  dsimp only
  rw [hout]
  dsimp only
  rw [State.modLane_eq_setLane s, State.modLane_setLane]
  rfl

theorem execInPlaceEraseEnd_full {s : State} {x t b p : Nat} {e : Ending} (hreset : s.inReset = false)
    (hengine : (s.lane x).engine = some (.erase p)) (hjob : (s.lane x).job = some (.erase t b .inPlace none))
    (hout : (Operation.erase p).outcome (s.lane x).array e = .fail) (hroom : mapHasRoom (s.lane x).substMap b = false) :
    exec (.inPlaceEraseEnd x e) s
      = .next (s.conclude [x]
          (((s.setLane x (((s.lane x).endOperation (.erase p) .fail).settled b fun r => r.retire p)).replyErase x t b .eraseFailed
            .inPlace p false .mapFull).testBlock x b)) := by
  show execInPlaceEraseEnd x e s = _
  rw [execInPlaceEraseEnd, unlessReset_running _ hreset, hengine, hjob]
  dsimp only
  rw [hout]
  dsimp only
  rw [if_neg (by simp [hroom]), State.modLane_eq_setLane s, State.modLane_setLane]
  rfl

theorem execInPlaceEraseEnd_retires {s : State} {x t b p : Nat} {e : Ending} (hreset : s.inReset = false)
    (hengine : (s.lane x).engine = some (.erase p)) (hjob : (s.lane x).job = some (.erase t b .inPlace none))
    (hout : (Operation.erase p).outcome (s.lane x).array e = .fail) (hroom : mapHasRoom (s.lane x).substMap b = true) :
    exec (.inPlaceEraseEnd x e) s
      = .next (s.conclude [x]
          (s.setLane x (((s.lane x).endOperation (.erase p) .fail).presentDirectory t b .inPlace .fail
            ((s.lane x).tables.retire b p)))) := by
  show execInPlaceEraseEnd x e s = _
  rw [execInPlaceEraseEnd, unlessReset_running _ hreset, hengine, hjob]
  dsimp only
  rw [hout]
  dsimp only
  rw [if_pos hroom, State.modLane_eq_setLane s, State.modLane_setLane]
  rfl

/-- What the retirement's directory write leaves of a lane as it is presented. -/
theorem Lane.presentDirectory_keeps (l : Lane) (t b : Nat) (c : EraseCourse) (e : Ending) (d : Directory) :
    (l.presentDirectory t b c e d).records = l.records ∧ (l.presentDirectory t b c e d).readyList = l.readyList
      ∧ (l.presentDirectory t b c e d).readRun = l.readRun ∧ l.sameButPass (l.presentDirectory t b c e d) := ⟨rfl, rfl, rfl, rfl⟩

theorem Lane.endOperation_keeps (l : Lane) (op : Operation) (e : Ending) :
    (l.endOperation op e).records = l.records ∧ (l.endOperation op e).readyList = l.readyList ∧ (l.endOperation op e).readRun = l.readRun
      ∧ l.sameButPass (l.endOperation op e) := ⟨rfl, rfl, rfl, rfl⟩

theorem Lane.sameButPass.trans {l m n : Lane} (h : l.sameButPass m) (k : m.sameButPass n) : l.sameButPass n := by
  unfold Lane.sameButPass at h k ⊢
  rw [k, h]

theorem Lane.retiring_keeps (l : Lane) (p t b : Nat) :
    let m := (l.endOperation (.erase p) .fail).presentDirectory t b .inPlace .fail (l.tables.retire b p)
    m.records = l.records ∧ m.readyList = l.readyList ∧ m.readRun = l.readRun ∧ l.sameButPass m := by
  intro m
  obtain ⟨hrec, hlist, hrun, hpass⟩ := l.endOperation_keeps (.erase p) .fail
  obtain ⟨krec, klist, krun, kpass⟩ := (l.endOperation (.erase p) .fail).presentDirectory_keeps t b .inPlace .fail (l.tables.retire b p)
  exact ⟨krec.trans hrec, klist.trans hlist, krun.trans hrun, hpass.trans kpass⟩

/-- Settles O48: PASS, FAIL with room in the map, and FAIL with the map full, each as the lane it sets and the reply it queues. -/
theorem inPlaceErase : Obligations.InPlaceErase := by
  intro s x t b p e entry hreset hb hengine hjob htag hopen out l erased reply
  have hx := s.lane_lt_of_engine hengine
  have hout : (Operation.erase p).outcome l.array e = out := rfl
  have hended : ∀ (w : Ending) (f : BlockRec → BlockRec),
      l.JobEnded ((l.endOperation (.erase p) w).settled b f) b (l.array.modBlock p fun pb => pb.endErase w) := fun w f =>
    .of_tables (op := .erase p) (w := w) rfl b f
  have hrec : ∀ (w : Ending) (f : BlockRec → BlockRec),
      ((l.endOperation (.erase p) w).settled b f).record b = f (s.record x b) := fun w f => Lane.record_settled _ f hb
  have herased : ∀ w, out = w → (l.array.modBlock p fun pb => pb.endErase w) = erased := fun w hw => by rw [← hw]
  cases hcase : out with
  | pass =>
    have hk := hended .pass fun r => r.afterErase r.physical
    have hkr := hrec .pass fun r => r.afterErase r.physical
    have hdone := State.LaneReplied.erase ((l.endOperation (.erase p) .pass).settled b fun r => r.afterErase r.physical) b .done
      .inPlace p false .notNeeded hx htag hopen
    generalize hm : State.replyErase _ _ _ _ _ _ _ _ _ = m at hdone
    refine ⟨m, (execInPlaceEraseEnd_pass hreset hengine hjob (hout.trans hcase)).trans ?_, hdone.lanes, hdone.pool, hdone.inputs,
      hdone.lane ▸ hk.records, ?_, (congrArg Lane.readyList hdone.lane).trans hk.list, (congrArg Lane.readRun hdone.lane).trans hk.run,
      hdone.rqu, hdone.link, hdone.tagOther, fun _ => ⟨?_, ?_, (congrArg Lane.engine hdone.lane).trans hk.engine,
      (congrArg Lane.job hdone.lane).trans hk.job, hdone.tag, hdone.placed⟩, fun h => absurd h (by decide), fun h => absurd h (by decide)⟩
    · rw [hm, hdone.atRest (by rw [hkr]; rfl) (by rw [hkr]; rfl)]
    · unfold Lane.sameButPass
      rw [hdone.lane]
      rfl
    · exact (hdone.record b).trans hkr
    · exact (congrArg Lane.array hdone.lane).trans (hk.array.trans (herased _ hcase))
  | fail =>
    cases hroom : mapHasRoom l.substMap b with
    | false =>
      have hk := hended .fail fun r => r.retire p
      have hkr := hrec .fail fun r => r.retire p
      have hdone := State.LaneReplied.erase ((l.endOperation (.erase p) .fail).settled b fun r => r.retire p) b .eraseFailed
        .inPlace p false .mapFull hx htag hopen
      generalize hm : State.replyErase _ _ _ _ _ _ _ _ _ = m at hdone
      refine ⟨m, (execInPlaceEraseEnd_full hreset hengine hjob (hout.trans hcase) hroom).trans ?_, hdone.lanes, hdone.pool,
        hdone.inputs, hdone.lane ▸ hk.records, ?_, (congrArg Lane.readyList hdone.lane).trans hk.list,
        (congrArg Lane.readRun hdone.lane).trans hk.run, hdone.rqu, hdone.link, hdone.tagOther, fun h => absurd h (by decide),
        fun _ _ => ⟨?_, ?_, ?_, (congrArg Lane.engine hdone.lane).trans hk.engine, (congrArg Lane.job hdone.lane).trans hk.job, hdone.tag,
        hdone.placed⟩, fun _ h => absurd h (by decide)⟩
      · rw [hm, hdone.atRest (by rw [hkr]; rfl) (by rw [hkr]; rfl)]
      · unfold Lane.sameButPass
        rw [hdone.lane]
        rfl
      · exact (hdone.record b).trans hkr
      · exact (congrArg Lane.substMap hdone.lane).trans rfl
      · exact (congrArg Lane.array hdone.lane).trans (hk.array.trans (herased _ hcase))
    | true =>
      obtain ⟨k, hk⟩ : ∃ k, k = (l.endOperation (.erase p) .fail).presentDirectory t b .inPlace .fail (l.tables.retire b p) := ⟨_, rfl⟩
      obtain ⟨krecords, klist, krun, kpass⟩ := l.retiring_keeps p t b
      rw [← hk] at krecords klist krun kpass
      have hlane : (s.setLane x k).lane x = k := State.lane_setLane_same s k hx
      refine ⟨s.setLane x k, hk ▸ execInPlaceEraseEnd_retires hreset hengine hjob (hout.trans hcase) hroom,
        fun y hy => State.lane_setLane_ne s k hy, rfl, ⟨rfl, rfl, rfl⟩, ?_, ?_, ?_, ?_, rfl, rfl, fun u _ => rfl, fun h => absurd h (by decide),
        fun _ h => absurd h (by decide), fun _ _ => ?_⟩
      · rw [hlane]
        exact fun c _ => congrArg (fun v => v[c]?.getD BlockRec.unbuilt) krecords
      · rw [hlane]
        exact kpass
      · rw [hlane]
        exact klist
      · rw [hlane]
        exact krun
      · rw [hk, ← herased _ hcase]
        rfl

/-! ### RESERVE_ERASE_END and the directory's copies -/

theorem FlashArray.newest_a {a : FlashArray} {c : DirCopy} (ha : a.copyA = some c)
    (hb : ∀ o, a.copyB = some o → o.generation < c.generation) : a.newest = some (true, c) := by
  unfold FlashArray.newest
  rw [ha]
  cases h : a.copyB with
  | none => rfl
  | some o => exact if_pos (hb o h)

theorem FlashArray.newest_b {a : FlashArray} {c : DirCopy} (hb : a.copyB = some c)
    (ha : ∀ o, a.copyA = some o → o.generation < c.generation) : a.newest = some (false, c) := by
  unfold FlashArray.newest
  rw [hb]
  cases h : a.copyA with
  | none => rfl
  | some o => exact if_neg (Nat.not_lt.mpr (ha o h).le)

/-- The directory a lane's tables become when the erase of reserve `r`, taken for block `b`, has ended with outcome `w` (R121, R122). -/
def Directory.afterReserve (d : Directory) (b r : Nat) (w : Ending) : Directory :=
  match w with
  | .pass => d.substitute b r
  | .fail => d.retire b r

theorem Directory.afterReserve_eq (d : Directory) (b r : Nat) (w : Ending) :
    d.afterReserve b r w
      = if w = .pass then { map := setTarget b (some r) d.map, retired := d.retired }
        else { map := setTarget b none d.map, retired := if 1024 ≤ r then d.retired ++ [r] else d.retired } := by
  cases w <;> rfl

/-- Settles O49: the directory write that follows a substitute's erase, and the copy a write takes and leaves. -/
theorem reserveErase : Obligations.ReserveErase := by
  refine ⟨fun s x t b p r e hreset hengine hjob => ?ends, fun a d c => ⟨fun ha hb => ?copyB, fun hb ha => ?copyA⟩⟩
  case ends =>
    intro out l erased d
    have hexec : exec (.reserveEraseEnd x e) s
        = .next (s.conclude [x]
            (s.setLane x ((l.endOperation (.erase p) out).presentDirectory t b (.substitution r) out
              (l.tables.afterReserve b r out)))) := by
      show execReserveEraseEnd x e s = _
      rw [execReserveEraseEnd, unlessReset_running _ hreset, hengine, hjob]
      dsimp only
      rw [State.modLane_eq_setLane s, State.modLane_setLane]
      rfl
    rw [hexec, Directory.afterReserve_eq]
    rfl
  case copyB =>
    have hnew := FlashArray.newest_a ha hb
    have hop : a.directoryWrite d = .directoryWrite d (c.generation + 1) false := by
      unfold FlashArray.directoryWrite
      rw [hnew]
      rfl
    rw [hop]
    refine ⟨rfl, rfl, rfl, FlashArray.newest_b rfl fun o ho => ?_, rfl, FlashArray.newest_a ha fun o ho => nomatch ho⟩
    obtain rfl := Option.some.inj (ho.symm.trans ha)
    exact Nat.lt_succ_self _
  case copyA =>
    have hnew := FlashArray.newest_b hb ha
    have hop : a.directoryWrite d = .directoryWrite d (c.generation + 1) true := by
      unfold FlashArray.directoryWrite
      rw [hnew]
      rfl
    rw [hop]
    refine ⟨rfl, rfl, rfl, FlashArray.newest_a rfl fun o ho => ?_, rfl, FlashArray.newest_b hb fun o ho => nomatch ho⟩
    obtain rfl := Option.some.inj (ho.symm.trans hb)
    exact Nat.lt_succ_self _

end Sys2Proof.Machine
end

