-- ==== Sys2Proof/Proofs/DirectoryEnds.lean ====
section
/-! PROOFS. The end of an ERASE job's directory write (R121 to R124). -/

namespace Sys2Proof.Machine

/-! ### What the write settles, by course and outcomes -/

/-- The tables after the directory write `d` of an ERASE job of course `c` on a block served by `old`. -/
def Lane.afterWrite (l : Lane) (old : Nat) (c : EraseCourse) (erased : Ending) (d : Directory) (w : Ending) : Lane :=
  match c, erased, w with
  | .substitution _, .pass, .pass => (l.takeTables d).returnReserve old
  | .substitution r, .pass, .fail => l.addReserve r
  | .substitution _, .fail, _ => (l.takeTables d).returnReserve old
  | .inPlace, _, _ => l.takeTables d

/-- The record after the directory write of an ERASE job of course `c` on a block served by `old`. -/
def BlockRec.afterWrite (old : Nat) (c : EraseCourse) (erased w : Ending) (q : BlockRec) : BlockRec :=
  match c, erased, w with
  | .substitution r, .pass, .pass => q.afterErase r
  | .substitution _, .pass, .fail => { q with erasePending := false }
  | .substitution r, .fail, _ => q.retire r
  | .inPlace, _, _ => q.retire old

/-- The status and physical block that an ERASE job's reply carries after its directory write, and whether it was substituted. -/
def EraseCourse.reported (old : Nat) (c : EraseCourse) (erased w : Ending) : Status × Nat × Bool :=
  match c, erased, w with
  | .substitution r, .pass, .pass => (.done, r, true)
  | .substitution _, .pass, .fail => (.eraseFailed, old, false)
  | .substitution r, .fail, _ => (.eraseFailed, r, true)
  | .inPlace, _, _ => (.eraseFailed, old, false)

theorem State.directoryWritten_eq (s : State) (x t b : Nat) (k : Lane) (c : EraseCourse) (erased : Ending) (d : Directory) (w : Ending)
    (hx : x < 4) :
    (s.setLane x k).directoryWritten x t b c erased d w
      = (s.setLane x ((k.afterWrite (k.record b).physical c erased d w).settled b
            (BlockRec.afterWrite (k.record b).physical c erased w))).replyErase x t b (c.reported (k.record b).physical erased w).1 c
          (c.reported (k.record b).physical erased w).2.1 (c.reported (k.record b).physical erased w).2.2 (dirResult w) := by
  have hold : ((s.setLane x k).record x b).physical = (k.record b).physical := by
    rw [State.record, State.lane_setLane_same s k hx]
  unfold State.directoryWritten
  split
  · unfold State.substitutionDone
    dsimp only
    rw [hold, State.modLane_setLane]
    rfl
  · unfold State.substitutionUndone
    dsimp only
    rw [hold, State.modLane_setLane]
    rfl
  · unfold State.reserveRetired
    dsimp only
    rw [hold, State.modLane_setLane]
    rfl
  · unfold State.blockRetired
    dsimp only
    rw [hold, State.modLane_setLane]
    rfl

theorem Lane.afterWrite_frame (l : Lane) (old : Nat) (c : EraseCourse) (erased : Ending) (d : Directory) (w : Ending) :
    l.afterWrite old c erased d w
      = { l with
          substMap := (l.afterWrite old c erased d w).substMap
          freeReserves := (l.afterWrite old c erased d w).freeReserves
          retiredReserves := (l.afterWrite old c erased d w).retiredReserves } := by
  unfold Lane.afterWrite
  split
  · rw [Lane.returnReserve_frame]
    rfl
  · rfl
  · rw [Lane.returnReserve_frame]
    rfl
  · rfl

theorem FlashArray.block_setCopy (a : FlashArray) (toA : Bool) (copy : Option DirCopy) (p : Nat) :
    (a.setCopy toA copy).block p = a.block p := by
  unfold FlashArray.setCopy
  split <;> rfl

theorem Lane.freeReserves_returnReserve (l : Lane) (p : Nat) :
    (l.returnReserve p).freeReserves
      = if 1024 ≤ p ∧ (l.array.block p).factoryBad = false ∧ p ∉ l.retiredReserves then insertByKey id p l.freeReserves
        else l.freeReserves := by
  unfold Lane.returnReserve
  exact apply_ite Lane.freeReserves _ _ _

theorem Lane.substMap_returnReserve (l : Lane) (p : Nat) : (l.returnReserve p).substMap = l.substMap := by
  rw [Lane.returnReserve_frame]

theorem Lane.retiredReserves_returnReserve (l : Lane) (p : Nat) : (l.returnReserve p).retiredReserves = l.retiredReserves := by
  rw [Lane.returnReserve_frame]

/-! ### The state it leaves -/

/-- Lane `x`, of which an ERASE job's directory write has ended, has been settled as `k`, its array is `a`, tag `t` has ended with the
reply `q`, and the test of R28 has been made on block `b`. -/
structure State.EraseSettled (s m : State) (x t b : Nat) (entry : TagEntry) (k : Lane) (a : FlashArray) (q : QueueEntry) : Prop where
  array : (m.lane x).array = a
  engine : (m.lane x).engine = none
  job : (m.lane x).job = none
  tag : m.tag t = some { entry with state := .replying }
  records : (s.lane x).sameRecordsBut (m.lane x) b
  lanes : s.sameLanesBut m x
  pool : m.pool = s.pool
  inputs : s.sameInputs m
  rqu : s.rqu.sameButTags m.rqu
  link : s.link.sameButReplies m.link
  tagOther : ∀ u, u ≠ t → m.tag u = s.tag u
  frame : (s.lane x).sameButErase (m.lane x)
  tables : (m.lane x).substMap = k.substMap ∧ (m.lane x).retiredReserves = k.retiredReserves ∧ (m.lane x).freeReserves = k.freeReserves
  placed : m.link = s.link.placeFinal q
  record : (k.record b).sameButReady (m.record x b)
  tested : s.BlockTested m x b (k.record b).readyPass

theorem State.LaneReplied.settled {s m : State} {x t b : Nat} {entry : TagEntry} {k : Lane} {a : FlashArray} {q : QueueEntry}
    (h : s.LaneReplied m x k t entry q) (hk : (s.lane x).JobEnded k b a) (hx : x < 4) (hb : b < 1024) :
    s.EraseSettled (m.testBlock x b) x t b entry k a q := by
  obtain ⟨hlink, hrqu, hpool, hin, hlanes, hlane, hrecs⟩ := m.testBlock_frame x b
  have hrec : m.record x b = k.record b := h.record b
  rw [h.lane] at hlane
  have htest := State.testBlock_tested (s := s) (k := m) hx hb ((congrArg Lane.readyList h.lane).trans hk.list)
    ((congrArg Lane.readRun h.lane).trans hk.run)
  have hsame := m.testBlock_record x b
  rw [hrec] at htest hsame
  refine
    { array := by rw [hlane]; exact hk.array
      engine := by rw [hlane]; exact hk.engine
      job := by rw [hlane]; exact hk.job
      tag := (m.testBlock_tag x b t).trans h.tag
      records := fun c hc => ?_
      lanes := fun y hy => (hlanes y hy).trans (h.lanes y hy)
      pool := hpool.trans h.pool
      inputs := ?_
      rqu := hrqu ▸ h.rqu
      link := hlink ▸ h.link
      tagOther := fun u hu => (m.testBlock_tag x b u).trans (h.tagOther u hu)
      frame := ?_
      tables := by rw [hlane]; exact ⟨rfl, rfl, rfl⟩
      placed := hlink.trans h.placed
      record := hsame
      tested := htest }
  · rw [hrecs c hc, h.lane]
    exact hk.records c hc
  · obtain ⟨h1, h2, h3⟩ := hin
    obtain ⟨g1, g2, g3⟩ := h.inputs
    exact ⟨h1.trans g1, h2.trans g2, h3.trans g3⟩
  · have hframe := hk.frame
    unfold Lane.sameButErase at hframe ⊢
    rw [hlane, hframe]

/-- A block left at rest without ready_pass: the test of R28 has changed nothing. -/
theorem State.EraseSettled.rest {s m : State} {x t b : Nat} {entry : TagEntry} {k : Lane} {a : FlashArray} {q : QueueEntry}
    (h : s.EraseSettled m x t b entry k a q) (hrun : ¬((k.record b).state = .opened ∨ (k.record b).state = .closing))
    (hready : (k.record b).readyPass = none) :
    m.record x b = k.record b ∧ (m.lane x).readyList = (s.lane x).readyList ∧ (m.lane x).readRun = (s.lane x).readRun := by
  have hrec := h.record
  unfold BlockRec.sameButReady at hrec
  have hrun' : ¬((m.record x b).state = .opened ∨ (m.record x b).state = .closing) := by rwa [hrec]
  obtain ⟨-, -, -, htest⟩ := h.tested
  obtain ⟨hleft, hlist, hread⟩ := htest hrun' hready
  refine ⟨?_, hlist, hread⟩
  rw [hrec, hleft, ← hready]

theorem execDirectoryWriteEnd_settled {s : State} {x t b g : Nat} {d : Directory} {toA : Bool} {course : EraseCourse}
    {erased : Ending} (w : Ending) {entry : TagEntry} (hreset : s.inReset = false) (hb : b < 1024)
    (hengine : (s.lane x).engine = some (.directoryWrite d g toA)) (hjob : (s.lane x).job = some (.erase t b course (some erased)))
    (htag : s.tag t = some entry) (hopen : entry.state ≠ .replying) :
    let old := (s.record x b).physical
    let k := (((s.lane x).endOperation (.directoryWrite d g toA) w).afterWrite old course erased d w).settled b
      (BlockRec.afterWrite old course erased w)
    let rep := course.reported old erased w
    ∃ m, exec (.directoryWriteEnd x w) s = .next (s.conclude [x] m)
      ∧ s.EraseSettled m x t b entry k ((Operation.directoryWrite d g toA).finish w (s.lane x).array)
          (k.eraseReply x t b entry rep.1 course rep.2.1 rep.2.2 (dirResult w)) := by
  intro old k rep
  have hx := s.lane_lt_of_engine hengine
  have hended : (s.lane x).JobEnded k b ((Operation.directoryWrite d g toA).finish w (s.lane x).array) :=
    .of_tables (op := .directoryWrite d g toA) (w := w) (Lane.afterWrite_frame _ _ _ _ _ _) b _
  refine ⟨_, ?_, (State.LaneReplied.erase k b rep.1 course rep.2.1 rep.2.2 (dirResult w) hx htag hopen).settled hended hx hb⟩
  show execDirectoryWriteEnd x w s = _
  rw [execDirectoryWriteEnd, unlessReset_running _ hreset, hengine, hjob]
  dsimp only
  rw [State.modLane_eq_setLane s, State.directoryWritten_eq s x t b _ course erased d w hx]
  rfl

/-- Settles O50: the end of the directory write, by the course and the two outcomes. -/
theorem directoryWriteSettles : Obligations.DirectoryWriteSettles := by
  intro s x t b g d toA course erased w entry hreset hb hengine hjob htag hopen l r copy cleared returned
  obtain ⟨m, hexec, hm⟩ := execDirectoryWriteEnd_settled w hreset hb hengine hjob htag hopen
  have harray : (Operation.directoryWrite d g toA).finish w l.array = l.array.setCopy toA copy := by
    cases w <;> rfl
  have hend : (l.endOperation (.directoryWrite d g toA) w).array = l.array.setCopy toA copy := harray
  have hreturned : ((((l.endOperation (.directoryWrite d g toA) w).takeTables d).returnReserve r.physical).freeReserves) = returned := by
    rw [Lane.freeReserves_returnReserve]
    refine if_congr (and_congr_right' (and_congr_left' ?_)) rfl rfl
    show (((l.endOperation (.directoryWrite d g toA) w).array).block r.physical).factoryBad = false ↔ _
    rw [hend, FlashArray.block_setCopy]
  obtain ⟨hmap, hret, hfree⟩ := hm.tables
  have hkr : ∀ (k : Lane) (f : BlockRec → BlockRec), k.record b = l.record b → (k.settled b f).record b = f r := fun k f hk =>
    (Lane.record_settled k f hb).trans (congrArg f hk)
  have hrec := hkr ((l.endOperation (.directoryWrite d g toA) w).afterWrite r.physical course erased d w)
    (BlockRec.afterWrite r.physical course erased w) (by rw [Lane.afterWrite_frame]; rfl)
  have hleft : m.link = s.link.placeFinal (QueueEntry.finalOf t entry.kind (course.reported r.physical erased w).1
      (.erase x b (some { course := some course, physical := (course.reported r.physical erased w).2.1,
                          substituted := (course.reported r.physical erased w).2.2, directory := dirResult w,
                          freeReserves := (m.lane x).freeReserves.length })) none) := by
    rw [hfree]
    exact hm.placed
  have hresult : dirResult w = if w = .pass then DirResult.written else .writeFailed := by
    cases w <;> rfl
  refine ⟨m, hexec, hm.array.trans harray, hm.engine, hm.job, hm.tag, hm.records, hm.lanes, hm.pool, hm.inputs, hm.rqu, hm.link,
    hm.tagOther, hm.frame, ?inPlaceFree, ?substituted, ?undone, ?reserveRetired, ?blockRetired⟩
  case inPlaceFree =>
    rintro rfl
    exact hfree
  case substituted =>
    rintro p rfl rfl rfl
    obtain ⟨hr, hwaits⟩ := hm.rest (by rw [hrec]; exact fun h => nomatch h) (by rw [hrec]; rfl)
    exact ⟨hr.trans hrec, ⟨hmap.trans (Lane.substMap_returnReserve _ _), hret.trans (Lane.retiredReserves_returnReserve _ _),
      hfree.trans hreturned⟩, hwaits, hleft⟩
  case undone =>
    rintro p rfl rfl rfl
    have hready := hm.record
    have htested := hm.tested
    rw [hrec] at hready htested
    exact ⟨hready, htested, ⟨hmap, hret, hfree⟩, hleft⟩
  case reserveRetired =>
    rintro p rfl rfl
    obtain ⟨hr, hwaits⟩ := hm.rest (by rw [hrec]; exact fun h => nomatch h) (by rw [hrec]; rfl)
    exact ⟨hr.trans hrec, ⟨hmap.trans (Lane.substMap_returnReserve _ _), hret.trans (Lane.retiredReserves_returnReserve _ _),
      hfree.trans hreturned⟩, hwaits, hresult ▸ hleft⟩
  case blockRetired =>
    rintro rfl rfl
    obtain ⟨hr, hwaits⟩ := hm.rest (by rw [hrec]; exact fun h => nomatch h) (by rw [hrec]; rfl)
    exact ⟨hr.trans hrec, ⟨hmap, hret, hfree⟩, hwaits, hresult ▸ hleft⟩

end Sys2Proof.Machine
end

