-- ==== Sys2Proof/Proofs/Departures.lean ====
section
/-! PROOFS. What each frame does as it leaves (R162, R175, R176). -/

namespace Sys2Proof.Machine

theorem execRspDeparture_head {s : State} {q : QueueEntry} {rest : List QueueEntry} (hreset : s.inReset = false)
    (hsend : s.link.tx.map OutFrame.what = some (.rsp false)) (hq : s.link.queue = q :: rest) :
    exec .rspDeparture s = .next (s.conclude q.freedLanes (s.idle.replyLeft q)) := by
  show execRspDeparture s = _
  rw [execRspDeparture, unlessReset_running _ hreset, hsend, hq]
  rfl

theorem execDataFrameDeparture_last {s : State} {q : QueueEntry} {rest : List QueueEntry} (hreset : s.inReset = false)
    (hsend : s.link.tx.map OutFrame.what = some (.data 7 false)) (hq : s.link.queue = q :: rest) :
    exec .dataFrameDeparture s = .next (s.conclude (freedLane q.source) (s.idle.transmitted q)) := by
  show execDataFrameDeparture s = _
  rw [execDataFrameDeparture, unlessReset_running _ hreset, hsend, hq]
  rfl

theorem execNoteDeparture_of {s : State} {n : Notice} (hreset : s.inReset = false)
    (hsend : s.link.tx.map OutFrame.what = some (.note n)) :
    exec .noteDeparture s = .next (s.conclude [] (s.idle.noteLeft n)) := by
  show execNoteDeparture s = _
  rw [execNoteDeparture, unlessReset_running _ hreset, hsend]
  rfl

theorem execLinkControlDeparture_of {s : State} {w : Sending} (hreset : s.inReset = false)
    (hsend : s.link.tx.map OutFrame.what = some w) (hw : w.isControl = true) :
    exec .linkControlDeparture s = .next (s.conclude [] s.idle) := by
  show execLinkControlDeparture s = _
  rw [execLinkControlDeparture, unlessReset_running _ hreset, hsend]
  exact if_pos hw

theorem execDataFrameDeparture_more {s : State} {c : Nat} {dropped : Bool} (hreset : s.inReset = false)
    (hsend : s.link.tx.map OutFrame.what = some (.data c dropped)) (h : dropped = true ∨ (s.link.queue ≠ [] ∧ c < 7)) :
    exec .dataFrameDeparture s = .next (s.conclude [] s.idle) := by
  show execDataFrameDeparture s = _
  rw [execDataFrameDeparture, unlessReset_running _ hreset, hsend]
  cases dropped with
  | true => rfl
  | false =>
    obtain ⟨hne, hc⟩ := h.resolve_left (by decide)
    obtain ⟨q, rest, hq⟩ := List.exists_cons_of_ne_nil hne
    rw [hq]
    exact if_pos (show c + 1 < 8 by omega)

/-! ### Reply frames -/

theorem State.keepCopy_of (s : State) {r : Reply} (h : r.recallable = true) :
    s.keepCopy r = { s with rqu := { s.rqu with ring := pushCopy s.rqu.ring r } } := if_pos h

theorem State.tag_setTag_none (s : State) (t : Nat) : (s.setTag t none).tag t = none := by
  by_cases ht : t < 64
  · exact s.tag_setTag_same none ht
  · exact Option.eq_none_iff_forall_ne_some.mpr fun e he => ht (State.tag_lt _ he)

/-- Tag `q.reply.tag` has left the table with a recall copy, and the transmitter is idle; the link and the lanes are for the rest to say. -/
structure State.ReplyGone (s m : State) (q : QueueEntry) : Prop where
  gone : m.tag q.reply.tag = none
  others : ∀ u, u ≠ q.reply.tag → m.tag u = s.tag u
  rqu : m.rqu = { s.rqu with tags := m.rqu.tags, ring := pushCopy s.rqu.ring q.reply }
  pool : m.pool = s.pool
  inputs : s.sameInputs m

/-- The state in which a final reply's tag has left the table with a recall copy. -/
def State.recalled (s : State) (q : QueueEntry) : State := (s.setTag q.reply.tag none).keepCopy q.reply

theorem State.ReplyGone.recalled (s : State) {q : QueueEntry} (h : q.reply.recallable = true) : s.ReplyGone (s.idle.recalled q) q := by
  unfold State.recalled
  rw [State.keepCopy_of _ h]
  exact ⟨s.idle.tag_setTag_none _, fun u hu => s.idle.tag_setTag_ne none hu, rfl, rfl, rfl, rfl, rfl⟩

theorem State.ReplyGone.congr {s m n : State} {q : QueueEntry} (h : s.ReplyGone m q) (hrqu : n.rqu = m.rqu) (hpool : n.pool = m.pool)
    (hin : m.sameInputs n) : s.ReplyGone n q := by
  obtain ⟨h1, h2, h3⟩ := hin
  obtain ⟨g1, g2, g3⟩ := h.inputs
  exact ⟨(State.tag_of_rqu (congrArg Rqu.tags hrqu) _).trans h.gone, fun u hu => (State.tag_of_rqu (congrArg Rqu.tags hrqu) u).trans (h.others u hu), hrqu ▸ h.rqu,
    hpool.trans h.pool, h1.trans g1, h2.trans g2, h3.trans g3⟩

theorem State.recalled_link (s : State) (q : QueueEntry) : (s.recalled q).link = s.link := by
  unfold State.recalled State.keepCopy
  split <;> rfl

theorem State.recalled_lanes (s : State) (q : QueueEntry) : (s.recalled q).lanes = s.lanes := by
  unfold State.recalled State.keepCopy
  split <;> rfl

theorem State.replyLeft_final (s : State) {q : QueueEntry} (hcls : q.reply.cls = .final) : s.replyLeft q = s.finalLeft q := by
  unfold State.replyLeft
  rw [hcls]

theorem State.finalLeft_data (s : State) {q : QueueEntry} (h : q.withData = true) :
    s.finalLeft q = { s.recalled q with link := { (s.recalled q).link with transmission := some 0 } } := if_pos h

theorem State.finalLeft_plain (s : State) {q : QueueEntry} (h : q.withData = false) :
    s.finalLeft q = (s.recalled q).popReply.releaseSource q.source := if_neg (by simp [h])

theorem QueueEntry.withData_iff (q : QueueEntry) : q.withData = true ↔ q.reply.status = .done ∧ q.source.isSome = true := by
  unfold QueueEntry.withData
  rw [Bool.and_eq_true, decide_eq_true_iff]

theorem QueueEntry.withData_none {q : QueueEntry} (h : q.source = none) : q.withData = false := by
  unfold QueueEntry.withData
  rw [h]
  exact Bool.and_false _

theorem QueueEntry.withData_status {q : QueueEntry} (h : q.reply.status ≠ .done) : q.withData = false := by
  unfold QueueEntry.withData
  rw [decide_eq_false h]
  exact Bool.false_and _

theorem QueueEntry.freedLanes_of {q : QueueEntry} (h : q.withData = false) : q.freedLanes = freedLane q.source :=
  if_neg (by simp [h])

/-- The interim STAGED frame leaves. -/
theorem State.interim_departs (s : State) {q : QueueEntry} {rest : List QueueEntry} (hq : s.link.queue = q :: rest) :
    let m := s.idle.interimLeft q
    m.link = { s.link with tx := none, queue := rest ++ s.link.deferred.toList, deferred := none }
      ∧ m.tag q.reply.tag = (s.tag q.reply.tag).map (fun e => { e with interimSent := true })
      ∧ (∀ u, u ≠ q.reply.tag → m.tag u = s.tag u) ∧ s.rqu.sameButTags m.rqu ∧ m.lanes = s.lanes ∧ m.pool = s.pool
      ∧ s.sameInputs m := by
  intro m
  have hm : m = { s.modTag q.reply.tag TagEntry.sentInterim with
      link := { s.link with tx := none, queue := rest ++ s.link.deferred.toList, deferred := none } } := s.interimLeft_eq hq
  obtain ⟨-, hpool, hlanes, hrqu, hin⟩ := s.modTag_frame q.reply.tag TagEntry.sentInterim
  have htag : ∀ u, m.tag u = if u = q.reply.tag then (s.tag u).map TagEntry.sentInterim else s.tag u := fun u => by
    rw [hm]
    exact s.tag_modTag q.reply.tag u TagEntry.sentInterim
  refine ⟨by rw [hm], (htag _).trans (if_pos rfl), fun u hu => (htag u).trans (if_neg hu), ?_, ?_, ?_, ?_⟩ <;> rw [hm]
  · exact hrqu
  · exact hlanes
  · exact hpool
  · exact hin

/-- A refusal leaves: its entry with a copy, if the reply is one that is copied. -/
theorem State.refusal_departs (s : State) {q : QueueEntry} {rest : List QueueEntry} (hq : s.link.queue = q :: rest)
    (hcls : q.reply.cls = .refusal) :
    s.idle.replyLeft q
      = { s with
          link := { s.link with tx := none, queue := rest }
          rqu := if q.reply.recallable then { s.rqu with ring := pushCopy s.rqu.ring q.reply } else s.rqu } := by
  have hpop : s.idle.popReply = { s with link := { s.link with tx := none, queue := rest } } := by
    unfold State.popReply State.idle
    rw [hq]
    rfl
  unfold State.replyLeft State.keepCopy
  rw [hcls, hpop]
  dsimp only
  split <;> rfl

/-- Settles O59: each kind of frame, by the state its departure leaves. -/
theorem departures : Obligations.Departures := by
  intro s fr hreset htx idle
  have hsend : s.link.tx.map OutFrame.what = some fr.what := congrArg (Option.map OutFrame.what) htx
  refine ⟨fun hw => ?dropped, fun q rest hw hq hcls hsrc => ?interim, fun q rest hw hq hcls hsrc => ?refusal,
    fun q rest hw hq hcls hcopy => ?final, fun c dropped hw hmore => ?more, fun q rest i hw hq hsrc => ?lastSlot,
    fun q rest x hw hq hsrc => ?lastEgress, fun x b hw => ?blockFailed, fun hw => ?poolLow, fun hw => ?wpChanged,
    fun hw => ?startupDone, fun hw => ?control⟩
  case dropped =>
    show execRspDeparture s = _
    rw [execRspDeparture, unlessReset_running _ hreset, hsend, hw]
    rfl
  case interim =>
    refine ⟨s.idle.interimLeft q, (execRspDeparture_head hreset (hw ▸ hsend) hq).trans ?_, s.interim_departs hq⟩
    rw [QueueEntry.freedLanes_of (QueueEntry.withData_none hsrc), hsrc]
    unfold State.replyLeft
    rw [hcls]
    rfl
  case refusal =>
    rw [execRspDeparture_head hreset (hw ▸ hsend) hq, s.refusal_departs hq hcls,
      QueueEntry.freedLanes_of (QueueEntry.withData_none hsrc), hsrc]
    rfl
  case final =>
    have hhead := execRspDeparture_head hreset (hw ▸ hsend) hq
    rw [State.replyLeft_final _ hcls] at hhead
    have hgone := State.ReplyGone.recalled s hcopy
    have hlink : (s.idle.recalled q).link = { s.link with tx := none } := s.idle.recalled_link q
    have hlanes : (s.idle.recalled q).lanes = s.lanes := s.idle.recalled_lanes q
    have hpop : (s.idle.recalled q).popReply.link = { s.link with tx := none, queue := rest } := by
      unfold State.popReply
      rw [hlink]
      dsimp only
      rw [hq]
      rfl
    have hpopped : s.ReplyGone (s.idle.recalled q).popReply q := hgone.congr rfl rfl ⟨rfl, rfl, rfl⟩
    refine ⟨fun hdone hsome => ?_, fun hsrc => ?_, fun x hst hsrc hx => ?_⟩
    · have hdata := q.withData_iff.mpr ⟨hdone, hsome⟩
      rw [State.finalLeft_data _ hdata, QueueEntry.freedLanes, if_pos hdata] at hhead
      refine ⟨_, hhead, hgone.gone, hgone.others, hgone.rqu, ?_, hlanes, hgone.pool, hgone.inputs⟩
      rw [hlink]
    · have hdata := QueueEntry.withData_none hsrc
      rw [State.finalLeft_plain _ hdata, QueueEntry.freedLanes_of hdata, hsrc] at hhead
      exact ⟨_, hhead, hpopped.gone, hpopped.others, hpopped.rqu, hpop, hlanes, hpopped.pool, hpopped.inputs⟩
    · have hdata := QueueEntry.withData_status (q := q) (by rw [hst]; decide)
      rw [State.finalLeft_plain _ hdata, QueueEntry.freedLanes_of hdata, hsrc] at hhead
      have hlane : ∀ y, (s.idle.recalled q).popReply.lane y = s.lane y := fun y => State.lane_of_lanes hlanes y
      refine ⟨_, hhead, hpopped.gone, hpopped.others, hpopped.rqu, hpop, ?_, fun y hy => ?_, hpopped.pool, hpopped.inputs⟩
      · refine (State.lane_modLane_same _ _ hx).trans ?_
        rw [hlane]
      · exact (State.lane_modLane_ne _ _ hy).trans (hlane y)
  case more => exact execDataFrameDeparture_more hreset (hw ▸ hsend) hmore
  case lastSlot =>
    rw [execDataFrameDeparture_last hreset (hw ▸ hsend) hq, hsrc]
    unfold State.transmitted State.popReply State.idle
    rw [hsrc, hq]
    rfl
  case lastEgress =>
    rw [execDataFrameDeparture_last hreset (hw ▸ hsend) hq, hsrc]
    unfold State.transmitted State.popReply State.idle
    rw [hsrc, hq]
    rfl
  case blockFailed => exact execNoteDeparture_of (n := (.blockFailed x b)) hreset (hsend.trans (congrArg some hw))
  case poolLow => exact execNoteDeparture_of (n := .poolLow) hreset (hsend.trans (congrArg some hw))
  case wpChanged => exact execNoteDeparture_of (n := .wpChanged) hreset (hsend.trans (congrArg some hw))
  case startupDone => exact execNoteDeparture_of (n := .startupDone) hreset (hsend.trans (congrArg some hw))
  case control =>
    refine execLinkControlDeparture_of hreset hsend ?_
    obtain hw | hw | hw := hw <;> rw [hw] <;> rfl

end Sys2Proof.Machine
end

