-- ==== Sys2Proof/Proofs/LaneIndependence.lean ====
section
/-! PROOFS. The end of an operation on a lane is local to that lane while no PART_RESET is under way (R1). -/

namespace Sys2Proof.Machine

/-! ### Changes local to a lane -/

/-- Of the lanes `x` alone may have changed, and no PART_RESET has begun or moved. -/
structure State.LocalTo (s m : State) (x : Nat) : Prop where
  lanes : s.sameLanesBut m x
  part : m.rqu.part = s.rqu.part
  partReset : m.rqu.partReset = s.rqu.partReset

namespace State.LocalTo

variable {s m n : State} {x : Nat}

theorem refl (s : State) (x : Nat) : s.LocalTo s x := ⟨fun _ _ => rfl, rfl, rfl⟩

theorem of_frame (h : s.LocalTo m x) (hl : n.lanes = m.lanes) (hr : m.rqu.sameButTags n.rqu) : s.LocalTo n x where
  lanes y hy := (State.lane_of_lanes hl y).trans (h.lanes y hy)
  part := by rw [hr]; exact h.part
  partReset := by rw [hr]; exact h.partReset

theorem onlyReplies (h : s.LocalTo m x) (hn : m.OnlyReplies n) : s.LocalTo n x := h.of_frame hn.lanes hn.rqu

theorem foldl {α : Type} {f : State → α → State} (h : s.LocalTo m x) (as : List α) (hf : ∀ (n : State) (a : α), n.OnlyReplies (f n a)) :
    s.LocalTo (as.foldl f m) x := h.onlyReplies (.foldl hf m as)

theorem modLane (h : s.LocalTo m x) (f : Lane → Lane) : s.LocalTo (m.modLane x f) x :=
  ⟨fun y hy => (m.lane_modLane_ne f hy).trans (h.lanes y hy), h.part, h.partReset⟩

theorem modRecord (h : s.LocalTo m x) (b : Nat) (f : BlockRec → BlockRec) : s.LocalTo (m.modRecord x b f) x := h.modLane _

theorem finish (h : s.LocalTo m x) (t : Nat) (st : Status) (fields : ReplyFields) (src : Option Source) :
    s.LocalTo (m.finish t st fields src) x := h.onlyReplies (m.finish_frame t st fields src)

theorem replyErase (h : s.LocalTo m x) (y t b : Nat) (st : Status) (c : EraseCourse) (phys : Nat) (subst : Bool) (dir : DirResult) :
    s.LocalTo (m.replyErase y t b st c phys subst dir) x := h.finish t st _ none

theorem endClose (h : s.LocalTo m x) (y b : Nat) (st : Status) : s.LocalTo (m.endClose y b st) x :=
  h.onlyReplies (m.endClose_frame y b st)

theorem modSlots (h : s.LocalTo m x) (is : List Nat) (f : Slot → Slot) : s.LocalTo (m.modSlots is f) x := by
  obtain ⟨-, hrqu, hlanes, -⟩ := m.modSlots_frame is f
  exact h.of_frame hlanes (by rw [hrqu]; rfl)

theorem finalize (h : s.LocalTo m x) (is : List Nat) : s.LocalTo (m.finalize is) x := by
  obtain ⟨hlanes, hrqu, -⟩ := m.finalize_frame is
  exact h.of_frame hlanes hrqu

theorem releaseSlots (h : s.LocalTo m x) (is : List Nat) : s.LocalTo (m.releaseSlots is) x := by
  rw [State.releaseSlots_eq]
  obtain ⟨-, hlanes, hrqu, -⟩ := m.leaveSlots_frame is fun _ => Slot.release
  exact h.of_frame hlanes hrqu

theorem releaseLaneSlots (h : s.LocalTo m x) : s.LocalTo (m.releaseSlots (m.laneSlots x)) x := h.releaseSlots _

theorem holdTags (h : s.LocalTo m x) (b : Nat) : s.LocalTo (m.holdTags x b) x := h.of_frame rfl rfl

theorem testBlock (h : s.LocalTo m x) (b : Nat) : s.LocalTo (m.testBlock x b) x := by
  obtain ⟨-, hrqu, -, -, hlanes, -⟩ := m.testBlock_frame x b
  exact ⟨fun y hy => (hlanes y hy).trans (h.lanes y hy), hrqu ▸ h.part, hrqu ▸ h.partReset⟩

/-! ### The end of a happening -/

theorem schedule (h : s.LocalTo m x) : s.LocalTo (m.schedule x) x := by
  have hc := State.Chose.schedule m x
  have hrqu := hc.rest.rqu
  refine ⟨fun y hy => (hc.others y hy).trans (h.lanes y hy), ?_, ?_⟩ <;> rw [hrqu]
  · exact h.part
  · exact h.partReset

theorem applyLaneReset (h : s.LocalTo m x) : s.LocalTo (m.applyLaneReset x) x := by
  unfold State.applyLaneReset
  dsimp only
  have hemptied := (h.foldl (m.lane x).workQueue (State.abortItem_frame x)).modLane Lane.applyReset
  have hwrites := hemptied.releaseLaneSlots.foldl (m.laneWrites x) fun n t => n.endWrite_frame t .aborted
  exact ((hwrites.foldl (m.laneCloses x) State.abortClose_frame).onlyReplies (State.endLaneReset_frame _ _ _ _ _)).modLane _

theorem applyDueReset (h : s.LocalTo m x) (hpart : s.rqu.part ≠ .resetting) : s.LocalTo (m.applyDueReset x) x := by
  unfold State.applyDueReset
  split
  · rw [if_neg (h.part ▸ hpart)]
    exact h.applyLaneReset
  · exact h

theorem completeReset (h : s.LocalTo m x) (hnone : s.rqu.partReset = none) : s.LocalTo m.completeReset x := by
  unfold State.completeReset
  rw [h.partReset, hnone]
  exact h

/-- The whole end of a happening on lane `x`. -/
theorem conclude (h : s.LocalTo m x) (before : State) (hpart : s.rqu.part ≠ .resetting) (hnone : s.rqu.partReset = none) :
    s.sameLanesBut (before.conclude [x] m) x := by
  have hsettled : s.LocalTo (m.settleLane x) x := ((h.applyDueReset hpart).completeReset hnone).schedule
  obtain ⟨-, hpool, -⟩ := (m.settleLane x).poolCheck_frame before.freeCount
  obtain ⟨-, -, harb, -⟩ := ((m.settleLane x).poolCheck before.freeCount).arbitrate_frame
  exact fun y hy => (State.lane_of_lanes (harb.trans hpool) y).trans (hsettled.lanes y hy)

end State.LocalTo

/-! ### The ends of operations -/

/-- If the command comes about, it leaves every lane but `x` as it was, unless a PART_RESET is under way. -/
def AnswersLocally (x : Nat) (s : State) (r : Result) : Prop :=
  s.rqu.part ≠ .resetting → s.rqu.partReset = none → ∀ t, r = .next t → s.sameLanesBut t x

theorem AnswersLocally.happen {s m : State} {x : Nat} (h : s.LocalTo m x) (before : State) :
    AnswersLocally x s (.next (before.conclude [x] m)) := fun hpart hnone t ht => by
  cases ht
  exact h.conclude before hpart hnone

theorem AnswersLocally.refused {s : State} {x : Nat} (why : Refusal) : AnswersLocally x s (.refused why) :=
  fun _ _ _ ht => nomatch ht

theorem AnswersLocally.unlessReset {s : State} {x : Nat} {r : Result} (h : AnswersLocally x s r) :
    AnswersLocally x s (unlessReset s r) := fun hpart hnone t ht => h hpart hnone t (unlessReset_next ht).2

theorem State.LocalTo.passFailed {s m : State} {x : Nat} (h : s.LocalTo m x) (b : Nat) : s.LocalTo (m.passFailed x b) x := by
  have hgiven : s.LocalTo (m.givenUp x b) x := by
    unfold State.givenUp
    refine .holdTags (.modRecord ?_ b _) b
    split
    · exact h.releaseSlots _
    · exact h
  rw [State.passFailed_eq]
  split
  · exact hgiven.endClose x b _
  · exact hgiven

theorem State.LocalTo.finalPassed {s m : State} {x : Nat} (h : s.LocalTo m x) (b n : Nat) : s.LocalTo (m.finalPassed x b n) x := by
  have hdone := (h.modRecord b (fun r => { r with finalDone := n + 1 })).finalize (m.stripSlots x b n)
  unfold State.finalPassed
  dsimp only
  split_ifs
  · exact hdone.modRecord b _
  · exact (hdone.modRecord b _).endClose x b _
  · exact hdone

theorem State.LocalTo.singlePassed {s m : State} {x : Nat} (h : s.LocalTo m x) (b n : Nat) : s.LocalTo (m.singlePassed x b n) x := by
  have hdone := (h.modRecord b (fun r => { r with finalDone := n + 1 })).finalize (m.slotOf x b n).toList
  unfold State.singlePassed
  dsimp only
  split_ifs
  · exact hdone.modRecord b _
  · exact (hdone.modRecord b _).endClose x b _
  · exact hdone

theorem endPass_local (s : State) (kind : PassKind) {passed : State → Nat → Nat → Nat → State} (x : Nat) (ending : Ending)
    (hpassed : ∀ (m : State) (b n : Nat), s.LocalTo m x → s.LocalTo (passed m x b n) x) :
    AnswersLocally x s (endPass kind passed x ending s) := by
  refine .unlessReset ?_
  split
  · split
    · refine .happen (.testBlock ?_ _) s
      have hended := (State.LocalTo.refl s x).modLane
      split
      · exact hpassed _ _ _ (hended _)
      · exact (hended _).passFailed _
    · exact .refused _
  · exact .refused _

theorem execSenseEnd_local (s : State) (x : Nat) (noise : List BitError) : AnswersLocally x s (execSenseEnd x noise s) := by
  refine .unlessReset ?_
  split
  · split
    · exact .happen ((State.LocalTo.refl s x).modLane _) s
    · exact .refused _
  · exact .refused _

theorem execDecodeEnd_local (s : State) (x : Nat) (found : List Codeword) : AnswersLocally x s (execDecodeEnd x found s) := by
  refine .unlessReset ?_
  split
  · split
    · dsimp only
      split
      · exact .happen ((State.LocalTo.refl s x).modLane _) s
      · exact .happen (((State.LocalTo.refl s x).modLane _).finish _ _ _ _) s
    · exact .refused _
  · exact .refused _

theorem execInPlaceEraseEnd_local (s : State) (x : Nat) (e : Ending) : AnswersLocally x s (execInPlaceEraseEnd x e s) := by
  refine .unlessReset ?_
  have hended := (State.LocalTo.refl s x).modLane
  split
  · dsimp only
    split
    · exact .happen ((((hended _).modLane _).replyErase _ _ _ _ _ _ _ _).testBlock _) s
    · split
      · exact .happen ((hended _).modLane _) s
      · exact .happen ((((hended _).modLane _).replyErase _ _ _ _ _ _ _ _).testBlock _) s
  · exact .refused _

theorem execReserveEraseEnd_local (s : State) (x : Nat) (e : Ending) : AnswersLocally x s (execReserveEraseEnd x e s) := by
  refine .unlessReset ?_
  split
  · exact .happen (((State.LocalTo.refl s x).modLane _).modLane _) s
  · exact .refused _

theorem execDirectoryWriteEnd_local (s : State) (x : Nat) (e : Ending) : AnswersLocally x s (execDirectoryWriteEnd x e s) := by
  refine .unlessReset ?_
  split
  · refine .happen (.testBlock ?_ _) s
    have hended := (State.LocalTo.refl s x).modLane
    unfold State.directoryWritten
    split <;> exact ((hended _).modLane _).replyErase _ _ _ _ _ _ _ _
  · exact .refused _

/-- Settles O11: each of the nine ends is local to its lane. -/
theorem lanesIndependent : Obligations.LanesIndependent := by
  intro s t x y e noise found hnone hpart hy hexec
  have hlocal : ∃ r, AnswersLocally x s r ∧ r = .next t := by
    obtain h | h | h | h | h | h | h | h | h := hexec
    · exact ⟨_, endPass_local s .rough x e fun m b n hm => (hm.modRecord b _).modSlots _ _, h⟩
    · exact ⟨_, endPass_local s .terminator x e fun m b n hm => hm.modRecord b _, h⟩
    · exact ⟨_, endPass_local s .final x e fun m b n hm => hm.finalPassed b n, h⟩
    · exact ⟨_, endPass_local s .single x e fun m b n hm => hm.singlePassed b n, h⟩
    · exact ⟨_, execSenseEnd_local s x noise, h⟩
    · exact ⟨_, execDecodeEnd_local s x found, h⟩
    · exact ⟨_, execInPlaceEraseEnd_local s x e, h⟩
    · exact ⟨_, execReserveEraseEnd_local s x e, h⟩
    · exact ⟨_, execDirectoryWriteEnd_local s x e, h⟩
  obtain ⟨r, hr, hnext⟩ := hlocal
  exact hr hpart hnone t hnext y hy

end Sys2Proof.Machine
end

