-- ==== Sys2Proof/Proofs/Writing.lean ====
section
/-! PROOFS. The checks of a WRITE (R23, R65) and the admission of a DENSE page (R24, R48, R50). -/

namespace Sys2Proof.Machine

/-! ### The checks -/

theorem execWrite_refused {s : State} {f : InFrame} {x b p : Nat} {d : Density} {check : Word32} {area : List Byte} {st : Status}
    (h : s.Admits f .write (.write x b p d check area)) (hr : s.Reaches x b) (hp : p < d.pages) (hwp : s.wpAsserted = false)
    (hc : (s.record x b).admissionCheck d p = some st) :
    exec .write s = .next (s.conclude [] (s.refusedWith f st .plain)) := by
  rw [execWrite_admits h, State.writeCheck_reaches hr hp, hwp, hc]
  rfl

/-- Settles O28: the checks in their order, each as the first that fails. -/
theorem writeRefusals : Obligations.WriteRefusals := by
  intro s f x b p d check area hadm hreach hp r
  refine ⟨fun hwp => ?protectedBlock, fun hwp => ?_⟩
  case protectedBlock =>
    rw [execWrite_admits hadm, State.writeCheck_reaches hreach hp, hwp]
    rfl
  have hrefuse : ∀ st, r.admissionCheck d p = some st → exec .write s = .next (s.conclude [] (s.refusedWith f st .plain)) := fun st =>
    execWrite_refused hadm hreach hp hwp
  refine ⟨fun he ho => hrefuse _ (if_pos ⟨he, ho⟩), fun hst => ⟨fun hb => hrefuse _ ?busy, fun hb => ⟨fun ho hd => hrefuse _ ?density,
    fun hd => ⟨fun hn => hrefuse _ ?order, fun hn hdense h4 hw => hrefuse _ ?aheadDense, fun hn hswift hw => hrefuse _ ?aheadSwift⟩⟩⟩⟩
  all_goals
    unfold BlockRec.admissionCheck
    have hrest : ¬(r.state ≠ .erased ∧ r.state ≠ .opened) := fun h => hst.elim h.1 h.2
    rw [if_neg hrest]
  case busy => exact if_pos hb
  all_goals rw [if_neg (by simp [hb])]
  case density => exact if_pos ⟨ho, hd⟩
  all_goals
    have hsame : ¬(r.state = .opened ∧ r.density ≠ some d) := fun h =>
      hd.elim (fun he => absurd (he.symm.trans h.1) (by decide)) h.2
    rw [if_neg hsame]
  case order => exact if_pos hn
  all_goals rw [if_neg (not_not_intro hn)]
  case aheadDense =>
    have hwin : r.inWindow d p = false := by
      rw [hdense]
      show (decide (p % 4 ≠ 0) || decide (p / 4 ≤ r.finalDone + 2)) = false
      rw [decide_eq_false (not_not_intro h4), decide_eq_false (by omega)]
      rfl
    rw [hwin]
    rfl
  case aheadSwift =>
    have hwin : r.inWindow d p = false := by
      rw [hswift]
      exact decide_eq_false (by omega)
    rw [hwin]
    rfl

/-! ### Changing a list of slots, each in its own way -/

/-- The slots named by the entries of a list are changed, each by its own entry. -/
def State.modEach {α : Type} (s : State) (as : List α) (key : α → Nat) (f : α → Slot → Slot) : State :=
  as.foldl (fun s a => s.modSlot (key a) (f a)) s

theorem State.modEach_frame {α : Type} (s : State) (as : List α) (key : α → Nat) (f : α → Slot → Slot) :
    (s.modEach as key f).link = s.link ∧ (s.modEach as key f).rqu = s.rqu ∧ (s.modEach as key f).lanes = s.lanes
      ∧ (s.modEach as key f).pool.armed = s.pool.armed ∧ s.sameInputs (s.modEach as key f) := by
  unfold State.modEach
  induction as generalizing s with
  | nil => exact ⟨rfl, rfl, rfl, rfl, rfl, rfl, rfl⟩
  | cons a as ih => exact ih (s.modSlot (key a) (f a))

theorem State.slot_modEach_ne {α : Type} (s : State) {as : List α} {key : α → Nat} (f : α → Slot → Slot) {j : Nat}
    (h : ∀ a ∈ as, j ≠ key a) : (s.modEach as key f).slot j = s.slot j := by
  unfold State.modEach
  induction as generalizing s with
  | nil => rfl
  | cons a as ih =>
    rw [List.foldl_cons, ih _ fun c hc => h c (List.mem_cons_of_mem a hc)]
    exact State.slot_modSlot_ne s _ (h a List.mem_cons_self)

theorem State.slot_modEach_mem {α : Type} (s : State) {as : List α} {key : α → Nat} (f : α → Slot → Slot) {a : α}
    (hn : (as.map key).Nodup) (ha : a ∈ as) (hlt : key a < 96) : (s.modEach as key f).slot (key a) = f a (s.slot (key a)) := by
  induction as generalizing s with
  | nil => exact nomatch ha
  | cons c as ih =>
    obtain ⟨hc, hn⟩ := List.nodup_cons.mp hn
    have hstep : s.modEach (c :: as) key f = (s.modSlot (key c) (f c)).modEach as key f := rfl
    rw [hstep]
    obtain rfl | ha := List.mem_cons.mp ha
    · rw [State.slot_modEach_ne _ f fun d hd heq => hc (List.mem_map.mpr ⟨d, hd, heq.symm⟩)]
      exact State.slot_modSlot_same s _ hlt
    · rw [ih _ hn ha]
      exact congrArg (f a) (State.slot_modSlot_ne s _ fun heq => hc (heq ▸ List.mem_map_of_mem ha))

/-- The pages of strip `n`, each with the slot it is given. -/
theorem State.reserveStrip_eq (s : State) (x b n : Nat) (is : List Nat) :
    s.reserveStrip x b n is
      = s.modEach (is.zip (stripPages n)) Prod.fst (fun e => Slot.reserveFor { lane := x, block := b, page := e.2 }) := rfl

theorem stripPages_zip_fst {is : List Nat} (h : is.length = 4) (n : Nat) : (is.zip (stripPages n)).map Prod.fst = is :=
  List.map_fst_zip (h.trans rfl).le

theorem mem_stripPages_zip {is : List Nat} {k j : Nat} (n : Nat) (hk : is[k]? = some j) (h : is.length = 4) :
    (j, 4 * n + k) ∈ is.zip (stripPages n) := by
  have hlt : k < 4 := h ▸ (List.getElem?_eq_some_iff.mp hk).1
  refine List.mem_of_getElem? (i := k) (List.getElem?_zip_eq_some.mpr ⟨hk, ?_⟩)
  rw [stripPages_eq, List.getElem?_map, List.getElem?_range hlt]
  rfl

/-! ### The grant of a DENSE page -/

theorem State.ownsStrip_iff (s : State) (x b n : Nat) :
    s.ownsStrip x b n = true ↔ ∃ i, (s.slot i).ownedBy x b = true ∧ (s.slot i).pageNumber / 4 = n := by
  unfold State.ownsStrip
  simp only [List.any_eq_true, State.mem_ownedSlots, decide_eq_true_iff]

theorem State.grantDense_fresh {s : State} {x b p : Nat} (h : ∀ i, (s.slot i).ownedBy x b = true → (s.slot i).pageNumber / 4 ≠ p / 4) :
    s.grantDense x b p
      = if ((s.slotsIn .free).take 4).length = 4 then
          (((s.slotsIn .free).take 4)[p % 4]?).map (fun i => (s.reserveStrip x b (p / 4) ((s.slotsIn .free).take 4), i))
        else none :=
  if_neg fun hown => by
    obtain ⟨i, ho, hp⟩ := (s.ownsStrip_iff x b (p / 4)).mp hown
    exact h i ho hp

theorem State.grantDense_held {s : State} {x b p i : Nat} (h : s.slotOf x b p = some i) :
    s.grantDense x b p
      = if (s.slot i).pins = 0 then some (s, i) else (s.slotsIn .free).head?.map (fun j => (s.releaseSlot i, j)) := by
  obtain ⟨ho, hp⟩ := State.slotOf_owned h
  unfold State.grantDense
  rw [if_pos ((s.ownsStrip_iff x b (p / 4)).mpr ⟨i, ho, by rw [hp]⟩), h]
  cases s.slotsIn .free <;> rfl

/-- An admission whose grant left the pool as `s1`, the same but for its slots. -/
theorem State.AdmitsPage.of_grant {s s1 : State} {f : InFrame} {x b p i : Nat} {d : Density} {check : Word32} {area : List Byte}
    (hadm : s.Admits f .write (.write x b p d check area)) (hreach : s.Reaches x b) (hp : p < d.pages) (hfits : s.WriteFits x b p d)
    (hgrant : s.grant x b p d = some (s1, i)) (hi : i < 96)
    (hs1 : s1.link = s.link ∧ s1.rqu = s.rqu ∧ s1.lanes = s.lanes ∧ s1.pool.armed = s.pool.armed ∧ s.sameInputs s1) :
    ∃ m, exec .write s = .next (s.conclude [x] m) ∧ s.AdmitsPage m f x b p i d check
      ∧ m.slot i = (s1.slot i).filledBy { lane := x, block := b, page := p } f.tag s.rqu.settings.transferTimeout area
      ∧ ∀ j, j ≠ i → m.slot j = s1.slot j := by
  have hexec := execWrite_admits hadm
  rw [State.writeCheck_fits hreach hp hfits, hgrant] at hexec
  obtain ⟨-, -, -, htag, -, -⟩ := hadm
  obtain ⟨hx, hb, -⟩ := hreach
  obtain ⟨hlink, hrqu, hlanes, harmed, hin⟩ := hs1
  refine ⟨_, hexec, State.takeIn_admits hx hb htag hlink hrqu hlanes harmed hin, ?_, fun j hj => ?_⟩
  · rw [State.takeIn_slot, State.slot_modSlot_same _ _ hi, hrqu]
    rfl
  · rw [State.takeIn_slot, State.slot_modSlot_ne _ _ hj]

/-- A WRITE that the pool has no slot for. -/
theorem execWrite_poolFull {s : State} {f : InFrame} {x b p : Nat} {d : Density} {check : Word32} {area : List Byte}
    (hadm : s.Admits f .write (.write x b p d check area)) (hreach : s.Reaches x b) (hp : p < d.pages) (hfits : s.WriteFits x b p d)
    (hgrant : s.grant x b p d = none) : exec .write s = .next (s.conclude [] (s.refusedWith f .poolFull .plain)) := by
  rw [execWrite_admits hadm, State.writeCheck_fits hreach hp hfits, hgrant]
  rfl

/-- Settles O30: a strip without slots takes the four lowest FREE ones; otherwise the page's own slot serves, or gives way to a FREE one. -/
theorem writeAdmitsDense : Obligations.WriteAdmitsDense := by
  intro s f x b p check area hadm hreach hp hfits own timeout
  have hrange : p < Density.dense.pages := hp
  refine ⟨fun hnew => ⟨fun i0 i1 i2 i3 rest hfree => ?strip, fun hfew => ?noStrip⟩,
    fun i hslot hres htag => ⟨fun hpins => ?own, fun hpins => ⟨fun j rest hfree => ?replaced, fun hfull => ?noSlot⟩⟩⟩
  case strip =>
    have htake : (s.slotsIn .free).take 4 = [i0, i1, i2, i3] := by rw [hfree]; rfl
    have hnodup : [i0, i1, i2, i3].Nodup := htake ▸ (s.slotsIn_nodup .free).sublist (List.take_sublist _ _)
    have hlt : ∀ j ∈ [i0, i1, i2, i3], j < 96 := fun j hj =>
      ((s.mem_slotsIn .free j).mp (List.mem_of_mem_take (htake.symm ▸ hj))).1
    have hlevel : p % 4 < [i0, i1, i2, i3].length := Nat.mod_lt p (Nat.succ_pos 3)
    obtain ⟨i, hi⟩ : ∃ i, [i0, i1, i2, i3][p % 4]? = some i := ⟨_, List.getElem?_eq_getElem hlevel⟩
    have hgrant : s.grant x b p .dense = some (s.reserveStrip x b (p / 4) [i0, i1, i2, i3], i) := by
      refine (State.grantDense_fresh hnew).trans ?_
      rw [htake, hi]
      rfl
    have hreserved : ∀ k j, [i0, i1, i2, i3][k]? = some j →
        (s.reserveStrip x b (p / 4) [i0, i1, i2, i3]).slot j
          = (s.slot j).reserveFor { lane := x, block := b, page := 4 * (p / 4) + k } := fun k j hk =>
      s.slot_modEach_mem (key := Prod.fst) (fun e => Slot.reserveFor { lane := x, block := b, page := e.2 })
        ((stripPages_zip_fst (is := [i0, i1, i2, i3]) rfl (p / 4)).symm ▸ hnodup) (mem_stripPages_zip (p / 4) hk rfl) (hlt j (List.mem_of_getElem? hk))
    obtain ⟨m, hexec, hpage, hfilled, hothers⟩ := State.AdmitsPage.of_grant hadm hreach hrange hfits hgrant
      (hlt i (List.mem_of_getElem? hi)) (s.modEach_frame _ _ _)
    refine ⟨m, i, hi, hexec, hpage, ?_, fun k j hk hj => (hothers j hj).trans (hreserved k j hk), fun j hj => ?_⟩
    · rw [hfilled, hreserved _ _ hi]
      rfl
    · rw [hothers j fun heq => hj (heq ▸ List.mem_of_getElem? hi), State.reserveStrip_eq]
      exact s.slot_modEach_ne _ fun e he heq =>
        hj ((stripPages_zip_fst (is := [i0, i1, i2, i3]) rfl (p / 4)) ▸ heq ▸ List.mem_map_of_mem he)
  case noStrip =>
    refine execWrite_poolFull hadm hreach hrange hfits ((State.grantDense_fresh hnew).trans (if_neg ?_))
    have hcount : (s.slotsIn .free).length < 4 := hfew
    rw [List.length_take]
    omega
  case own =>
    have hgrant : s.grant x b p .dense = some (s, i) := (State.grantDense_held hslot).trans (if_pos hpins)
    exact State.AdmitsPage.of_grant hadm hreach hrange hfits hgrant (State.slotOf_owner hslot).1 ⟨rfl, rfl, rfl, rfl, rfl, rfl, rfl⟩
  case replaced =>
    have hfreed : s.releaseSlot i = s.modSlot i Slot.release := by
      unfold State.releaseSlot
      rw [htag]
      rfl
    have hgrant : s.grant x b p .dense = some (s.modSlot i Slot.release, j) := by
      refine (State.grantDense_held hslot).trans ?_
      rw [if_neg hpins.ne', hfree, hfreed]
      rfl
    obtain ⟨hj, hjfree⟩ := (s.mem_slotsIn .free j).mp (hfree ▸ List.mem_cons_self)
    have hij : i ≠ j := fun heq => absurd (hjfree.symm.trans (heq ▸ hres)) (by decide)
    obtain ⟨m, hexec, hpage, hfilled, hothers⟩ := State.AdmitsPage.of_grant hadm hreach hrange hfits hgrant hj
      ⟨rfl, rfl, rfl, rfl, rfl, rfl, rfl⟩
    refine ⟨m, hexec, hpage, ?_, ?_, fun k hki hkj => ?_⟩
    · rw [hfilled, State.slot_modSlot_ne _ _ hij.symm]
    · rw [hothers i hij, State.slot_modSlot_same _ _ (State.slotOf_owner hslot).1]
      exact if_neg hpins.ne'
    · rw [hothers k hkj, State.slot_modSlot_ne _ _ hki]
  case noSlot =>
    refine execWrite_poolFull hadm hreach hrange hfits ((State.grantDense_held hslot).trans ?_)
    rw [if_neg hpins.ne', hfull]
    rfl

end Sys2Proof.Machine
end

