-- ==== Sys2Proof/Proofs/PageIntake.lean ====
section
/-! PROOFS. DATA frames (R67 to R69), the abandonment chain (R55, R72, R73) and the transfer timeout (R70). -/

namespace Sys2Proof.Machine

/-! ### The test of R28 at any address -/

theorem State.record_out (s : State) {x b : Nat} (h : ¬(x < 4 ∧ b < 1024)) : s.record x b = BlockRec.unbuilt := by
  unfold State.record
  by_cases hx : x < 4
  · exact Lane.record_out _ fun hb => h ⟨hx, hb⟩
  · rw [State.lane_out s hx]
    by_cases hb : b < 1024
    · simp [Lane.record, Lane.powerOn, hb]
    · exact Lane.record_out _ hb

/-- The test of R28, for a state whose lists are still those of `s`; out of range it finds nothing to change. -/
theorem State.testBlock_tested_any {s k : State} {x b : Nat} (hlist : (k.lane x).readyList = (s.lane x).readyList)
    (hrun : (k.lane x).readRun = (s.lane x).readRun) : s.BlockTested (k.testBlock x b) x b (k.record x b).readyPass := by
  by_cases h : x < 4 ∧ b < 1024
  · exact State.testBlock_tested h.1 h.2 hlist hrun
  · have hrec := k.record_out h
    rw [State.testBlock_of_rest (by rw [hrec]; rfl) (by rw [hrec]; rfl)]
    have hrest : ¬((k.record x b).state = .opened ∨ (k.record x b).state = .closing) := by
      rw [hrec]
      exact fun h => nomatch h
    have hnone : (k.record x b).readyPass = none := by
      rw [hrec]
      rfl
    exact ⟨fun h => absurd h hrest, fun h => absurd h hrest, fun _ h => absurd hnone h, fun _ _ => ⟨hnone, hlist, hrun⟩⟩

/-! ### Chunks -/

theorem State.modSlot_congr (s : State) (i : Nat) {f g : Slot → Slot} (h : f (s.slot i) = g (s.slot i)) : s.modSlot i f = s.modSlot i g := by
  unfold State.modSlot
  rw [h]

theorem State.takeChunk_early (s : State) (t i : Nat) (o : Owner) (check : Option Word32) {c : Nat} (bytes : List Byte)
    (hc : c = (s.slot i).chunks) (hlow : c < 7) : s.takeChunk t i o check c bytes = s.modSlot i (Slot.takeChunk bytes) := by
  unfold State.takeChunk
  rw [if_neg (not_or.mpr ⟨not_not_intro hc, by omega⟩)]
  exact if_pos hlow

theorem State.takeChunk_disorder (s : State) (t i : Nat) (o : Owner) (check : Option Word32) {c : Nat} (bytes : List Byte)
    (hc : c ≠ (s.slot i).chunks) : s.takeChunk t i o check c bytes = s.abandon o.lane o.block o.page .chunkOrder :=
  if_pos (.inl hc)

theorem State.takeChunk_last (s : State) (t i : Nat) (o : Owner) (check : Option Word32) (bytes : List Byte)
    (hc : (s.slot i).chunks = 7) :
    s.takeChunk t i o check 7 bytes
      = if some (pageCheck ((s.modSlot i (Slot.takeChunk bytes)).slot i).page) = check then
          (s.modSlot i (Slot.takeChunk bytes)).stagePage t i o
        else (s.modSlot i (Slot.takeChunk bytes)).abandon o.lane o.block o.page .checkMismatch := by
  unfold State.takeChunk
  rw [if_neg (not_or.mpr ⟨not_not_intro hc.symm, by decide⟩)]
  exact if_neg (by decide)

/-- Settles O31: a chunk in order is written, a chunk of no transfer is refused, and one held back waits. -/
theorem chunkTaken : Obligations.ChunkTaken := by
  refine ⟨fun s f hr hf hd hm => ?_, fun s f hoff hd => ⟨fun e i o ht hk hs hi hfill ho hlow hc => ?_, fun h => ?_⟩⟩
  · show execData s = _
    exact takeOldest_waits _ hr hf hd hm
  · rw [execData_offers hoff hd, State.transferOf_some ht hk hs hi hfill ho]
    dsimp only
    rw [State.takeChunk_early s.unbuffer f.tag i o e.check (f.payload.drop 1) hc (hc ▸ hlow)]
    rfl
  · rw [execData_offers hoff hd, State.transferOf_none h]
    rfl

/-! ### The eighth chunk -/

theorem State.queueStaged_of_some (s : State) {t : Nat} {e : TagEntry} (h : s.tag t = some e) :
    s.queueStaged t
      = { s with
          link := { s.link with
            queue := s.link.queue
              ++ [{ reply := { tag := t, answers := .request e.kind, status := .staged, cls := .interim,
                               fields := .page (e.lane.getD 0) (e.block.getD 0) (e.page.getD 0), recallable := false },
                    source := none }] } } := by
  unfold State.queueStaged
  rw [h]

theorem stagedState_eq (r : BlockRec) : stagedState r = if r.state = .failed then .heldFailed else .staged := rfl

/-- Settles O32: out of order and with a wrong check the chain runs, else the page is staged. -/
theorem lastChunkTaken : Obligations.LastChunkTaken := by
  intro s f e i o hoff hd ht hk hs hi hfill ho full
  have hlt : i < 96 := s.slot_lt (by rw [hfill]; decide)
  have hexec : exec .data s
      = .next (s.conclude [o.lane] (s.unbuffer.takeChunk f.tag i o e.check (byteAt f.payload 0) (f.payload.drop 1))) := by
    rw [execData_offers hoff hd, State.transferOf_some ht hk hs hi hfill ho]
  refine ⟨fun hc => ?_, fun h7 hc => ?_⟩
  · rw [hexec, State.takeChunk_disorder s.unbuffer f.tag i o e.check _ hc]
  have hfull : s.unbuffer.modSlot i (Slot.takeChunk (f.payload.drop 1)) = full := by
    refine s.unbuffer.modSlot_congr i ?_
    have h7' : (s.unbuffer.slot i).chunks = 7 := h7
    unfold Slot.takeChunk writeChunk
    rw [h7']
    rfl
  rw [hc, State.takeChunk_last s.unbuffer f.tag i o e.check _ h7, hfull] at hexec
  have hcheck : pageCheck (full.slot i).page = crc32 ((full.slot i).data ++ (full.slot i).tagArea) := rfl
  rw [hcheck] at hexec
  refine ⟨fun hbad => ?_, fun hgood => ?_⟩
  · rw [hexec, if_neg hbad]
  rw [if_pos hgood] at hexec
  obtain ⟨after, hstaged⟩ : ∃ st, st = stagedState (full.record o.lane o.block) := ⟨_, rfl⟩
  obtain ⟨k, hkdef⟩ : ∃ k, k = (full.modSlot i Slot.stage).modTag f.tag (fun g => { g with state := after }) := ⟨_, rfl⟩
  have hm : full.stagePage f.tag i o = (k.queueStaged f.tag).testBlock o.lane o.block := by
    rw [hkdef, hstaged]
    rfl
  have htag : ∀ u, k.tag u = if u = f.tag then (s.tag u).map (fun g => { g with state := after }) else s.tag u := fun u => by
    rw [hkdef]
    exact State.tag_modTag _ f.tag u _
  have hktag : k.tag f.tag = some { e with state := after } := by
    rw [htag, if_pos rfl, ht]
    rfl
  obtain ⟨klink, kpool, klanes, krqu, kin⟩ := (full.modSlot i Slot.stage).modTag_frame f.tag (fun g => { g with state := after })
  rw [← hkdef] at klink kpool klanes krqu kin
  have hqueued := k.queueStaged_of_some hktag
  have hlane : ∀ y, (k.queueStaged f.tag).lane y = s.lane y := fun y =>
    (k.queueStaged_lane f.tag y).trans (State.lane_of_lanes klanes y)
  have hrec : (k.queueStaged f.tag).record o.lane o.block = s.record o.lane o.block := congrArg (Lane.record · o.block) (hlane o.lane)
  have hslot : ∀ j, (k.queueStaged f.tag).slot j = (full.modSlot i Slot.stage).slot j := fun j => by
    rw [hqueued]
    exact State.slot_of_slots (congrArg Pool.slots kpool) j
  obtain ⟨tlink, trqu, tpool, tin, tlanes, tlane, trecs⟩ := (k.queueStaged f.tag).testBlock_frame o.lane o.block
  have htested := State.testBlock_tested_any (s := s) (k := k.queueStaged f.tag) (b := o.block) (congrArg Lane.readyList (hlane o.lane))
    (congrArg Lane.readRun (hlane o.lane))
  have hsame := (k.queueStaged f.tag).testBlock_record o.lane o.block
  rw [hrec] at htested hsame
  rw [hlane o.lane] at tlane
  rw [hm] at hexec
  refine ⟨_, hexec, ?_, fun j hj => ?_, ?_, fun u hu => ?_, ?_, hsame, ?_, fun c hc => ?_, ?_, htested, fun y hy => ?_, ?_, ?_, ?_⟩
  · rw [State.testBlock_slot, hslot, State.slot_modSlot_same _ _ hlt]
    rfl
  · rw [State.testBlock_slot, hslot, State.slot_modSlot_ne _ _ hj]
    exact State.slot_modSlot_ne _ _ hj
  · rw [State.testBlock_tag, State.queueStaged_tag, hktag, hstaged]
    rfl
  · rw [State.testBlock_tag, State.queueStaged_tag, htag, if_neg hu]
  · rw [tlink, hqueued, klink]
    rfl
  · unfold Lane.sameButWork
    rw [tlane]
  · exact (trecs c hc).trans (congrArg (Lane.record · c) (hlane o.lane))
  · rw [tlane]
  · exact (tlanes y hy).trans (hlane y)
  · rw [trqu, k.queueStaged_rqu]
    exact krqu
  · rw [tlink, hqueued]
    show s.unbuffer.link.sameButReplies _
    unfold Link.sameButReplies
    rw [klink]
    rfl
  · obtain ⟨h1, h2, h3⟩ := tin
    obtain ⟨g1, g2, g3⟩ := k.queueStaged_inputs f.tag
    obtain ⟨j1, j2, j3⟩ := kin
    exact ⟨h1.trans (g1.trans j1), h2.trans (g2.trans j2), h3.trans (g3.trans j3)⟩

/-! ### The abandonment chain -/

theorem State.mem_chainSlots (s : State) (x b p i : Nat) :
    i ∈ s.chainSlots x b p ↔ ((s.slot i).ownedBy x b = true ∧ p ≤ (s.slot i).pageNumber) ∧ (s.slot i).tag.isSome = true := by
  unfold State.chainSlots
  rw [mem_sortByKey, List.mem_filter, State.mem_ownedSlots, Bool.and_eq_true, decide_eq_true_iff, and_assoc]

theorem BlockRec.firstHeld_dense {r : BlockRec} (h : r.density = some .dense) : r.firstHeld = r.finalDone * 4 := by
  unfold BlockRec.firstHeld
  rw [BlockRec.q_of_density h]
  rfl

theorem BlockRec.chainReturns_iff (r : BlockRec) (p : Nat) :
    r.chainReturns p = true ↔ r.density = some .dense ∧ p ≠ r.finalDone * 4 := by
  unfold BlockRec.chainReturns
  rw [Bool.and_eq_true, decide_eq_true_iff, decide_eq_true_iff]
  exact and_congr_right fun hd => by rw [BlockRec.firstHeld_dense hd]

theorem State.abandon_slot_target {s : State} {x b p i : Nat} (st : Status) (h : i ∈ s.chainTargets x b p) :
    (s.abandon x b p st).slot i
      = if (s.record x b).chainReturns p = true ∧ (s.slot i).pageNumber / 4 = p / 4 then (s.slot i).unfill else (s.slot i).release :=
  (s.abandon_slot x b p i st).trans (if_pos h)

theorem execTransferTimeout_running {s : State} {i : Nat} {o : Owner} (hr : s.inReset = false) (hf : (s.slot i).state = .filling)
    (ht : (s.slot i).timer.isSome = true) (ho : (s.slot i).owner = some o) :
    exec (.transferTimeout i) s = .next (s.conclude [o.lane] (s.abandon o.lane o.block o.page .transferTimeout)) := by
  show execTransferTimeout i s = _
  rw [execTransferTimeout, unlessReset_running _ hr, if_pos ⟨hf, ht⟩, ho]
  rfl

/-- Settles O33: the chain's slots, tags and replies, and the timeout that runs it. -/
theorem abandonmentChain : Obligations.AbandonmentChain := by
  refine ⟨fun s x b p st hx hb => ?_, fun s i o hr => ⟨fun hf ht ho => execTransferTimeout_running hr hf ht ho, fun hf => ?_⟩⟩
  · intro r m hit
    obtain ⟨hlanes, hrqu, hlink, harmed, hin⟩ := s.abandon_frame x b p st
    have hlane : m.lane x = (s.lane x).modRecord b (fun r => { r with intakeNext := p }) :=
      (State.lane_of_lanes hlanes x).trans (State.lane_modRecord_same s b _ hx)
    have htarget : ∀ i, hit i → i ∈ s.chainTargets x b p := fun i h => (s.mem_chainTargets x b p i).mpr ⟨h.1, .inr h.2⟩
    refine ⟨?_, fun c hc => ?_, ?_, fun y hy => ?_, hin, hrqu, hlink, harmed, fun i hd hp ho => ?allReleased,
      fun i hd hp h hpage => ?unfilled, fun i hd hp h hpage => ?above, fun i hd h => ?swift, fun i ho => ?otherBlock,
      fun i hlow hd => ?below, fun i t e h ht he hopen huniq => ?reply, ⟨s.chainSlots x b p, s.mem_chainSlots x b p, ?_, ?_, ?_⟩,
      fun t hno => ?otherTag⟩
    · rw [State.record, hlane]
      exact Lane.record_modRecord_same _ _ hb
    · rw [hlane]
      exact Lane.record_modRecord_ne _ _ hc
    · rw [hlane]
      rfl
    · exact (State.lane_of_lanes hlanes y).trans (State.lane_modRecord_ne s b _ hy)
    case allReleased =>
      have hi : i ∈ s.chainTargets x b p :=
        (s.mem_chainTargets x b p i).mpr ⟨ho, .inl ⟨hd, hp.trans (BlockRec.firstHeld_dense hd).symm⟩⟩
      exact (State.abandon_slot_target st hi).trans (if_neg fun h => ((r.chainReturns_iff p).mp h.1).2 hp)
    case unfilled =>
      exact (State.abandon_slot_target st (htarget i h)).trans (if_pos ⟨(r.chainReturns_iff p).mpr ⟨hd, hp⟩, hpage⟩)
    case above => exact (State.abandon_slot_target st (htarget i h)).trans (if_neg fun hc => hpage hc.2)
    case swift =>
      exact (State.abandon_slot_target st (htarget i h)).trans
        (if_neg fun hc => absurd (hd.symm.trans ((r.chainReturns_iff p).mp hc.1).1) (by decide))
    case otherBlock =>
      refine (s.abandon_slot x b p i st).trans (if_neg fun hi => ?_)
      obtain ⟨ho', -⟩ := (s.mem_chainTargets x b p i).mp hi
      exact absurd (ho.symm.trans ho') (by decide)
    case below =>
      refine (s.abandon_slot x b p i st).trans (if_neg fun hi => ?_)
      obtain ⟨-, ⟨hdense, hp⟩ | hge⟩ := (s.mem_chainTargets x b p i).mp hi
      · exact hd.elim (fun hsw => absurd (hsw.symm.trans hdense) (by decide))
          (fun hne => hne (hp.trans (BlockRec.firstHeld_dense hdense)))
      · exact Nat.not_le.mpr hlow hge
    case reply =>
      refine ⟨?_, (s.abandon_keeps x b p st h.1 h.2 ht he hopen huniq).holds⟩
      refine (s.abandon_tag x b p t st).trans ?_
      rw [if_pos ((s.mem_chainTags_fst x b p t st).mpr ⟨i, h.1, h.2, ht⟩), he]
      rfl
    · exact sortByKey_nodup _ ((s.ownedSlots_nodup x b).filter _)
    · exact sortByKey_pairwise _ _
    · exact s.abandon_link x b p st
    case otherTag =>
      refine (s.abandon_tag x b p t st).trans ?_
      rw [if_neg, if_neg]
      · rintro ⟨i, hi, ht⟩
        exact hno i ((s.mem_chainTargets x b p i).mp hi).1 ht
      · intro hmem
        obtain ⟨i, ho, -, ht⟩ := (s.mem_chainTags_fst x b p t st).mp hmem
        exact hno i ho ht
  · show execTransferTimeout i s = _
    rw [execTransferTimeout, unlessReset_running _ hr]
    exact if_neg fun h => hf h.1

end Sys2Proof.Machine
end

