-- ==== Sys2Proof/Proofs/SenseAndDecode.lean ====
section
/-! PROOFS. The ends of an array READ job's SENSE and decode (R7, R105 to R107). -/

namespace Sys2Proof.Machine

theorem Egress.anyPending_iff (e : Egress) : e.anyPending = true ↔ ∃ k, k < 8 ∧ e.sectors[k]? = some .pending := by
  unfold Egress.anyPending
  rw [List.any_eq_true]
  constructor
  · rintro ⟨r, hr, hp⟩
    obtain ⟨k, hk, hget⟩ := List.mem_iff_getElem.mp hr
    have hlt : k < 8 := by simpa using hk
    refine ⟨k, hlt, ?_⟩
    rw [Vector.getElem?_eq_getElem hlt, ← Vector.getElem_toList (h := by simpa using hlt), hget, of_decide_eq_true hp]
  · rintro ⟨k, hk, hget⟩
    exact ⟨.pending, Vector.mem_toList_iff.mpr (Vector.mem_of_getElem? hget), rfl⟩

theorem Egress.climbs_iff (e : Egress) : e.climbs = true ↔ (∃ k, k < 8 ∧ e.sectors[k]? = some .pending) ∧ e.lastStep < 3 := by
  unfold Egress.climbs
  rw [Bool.and_eq_true, Egress.anyPending_iff, decide_eq_true_iff]
  rfl

theorem SectorResult.settle_eq (r : SectorResult) : r.settle = if r = .pending then .lost else r := by
  cases r <;> rfl

theorem execDecodeEnd_decoded {s : State} {x t b p phys : Nat} {raw : StoredPage} {found : List Codeword} (hr : s.inReset = false)
    (hf : found.all Codeword.wf = true) (hs : (s.lane x).sense = some raw) (hj : (s.lane x).job = some (.read t b p phys)) :
    exec (.decodeEnd x found) s
      = if ((s.lane x).egress.decodeStep raw ((s.lane x).heldPage phys p) found).climbs = true then
          .next (s.conclude [x] (s.climb x p phys ((s.lane x).egress.decodeStep raw ((s.lane x).heldPage phys p) found)))
        else .next (s.conclude [x] (s.endRead x t b p phys ((s.lane x).egress.decodeStep raw ((s.lane x).heldPage phys p) found))) := by
  show execDecodeEnd x found s = _
  rw [execDecodeEnd, unlessReset_running _ hr, if_pos hf, hs, hj]
  rfl

/-- What the end of an array READ job leaves when its buffer stands as `e`. -/
theorem State.endRead_leaves (s : State) {x : Nat} (t b p phys : Nat) (e : Egress) (hx : x < 4) :
    ∃ g, g.state = .loaded ∧ g.bytes = e.bytes ∧ g.tagArea = e.tagArea ∧ g.lastStep = e.lastStep
      ∧ (∀ k : Nat, g.sectors[k]? = (e.sectors[k]?).map (fun r => if r = .pending then .lost else r))
      ∧ (s.endRead x t b p phys e).lane x = { s.lane x with egress := g, sense := none, job := none }
      ∧ s.sameLanesBut (s.endRead x t b p phys e) x ∧ (s.endRead x t b p phys e).pool = s.pool
      ∧ s.sameInputs (s.endRead x t b p phys e) ∧ s.link.sameButReplies (s.endRead x t b p phys e).link
      ∧ s.rqu.sameButTags (s.endRead x t b p phys e).rqu
      ∧ ∀ entry, s.tag t = some entry → entry.state ≠ .replying →
        (s.endRead x t b p phys e).tag t = some { entry with state := .replying }
          ∧ (∀ u, u ≠ t → (s.endRead x t b p phys e).tag u = s.tag u)
          ∧ (s.endRead x t b p phys e).link = s.link.placeFinal
            (QueueEntry.finalOf t entry.kind (if g.lost = [] then .done else .uncorrectable)
                (.read x b p
                  { source := .array, physical := some phys, maxCorrected := g.maxCorrected, lostSectors := g.lost,
                    retryStep := g.lastStep, drifting := decide (s.rqu.settings.driftThreshold ≤ g.maxCorrected),
                    checked := if g.lost = [] then some (crc32 (g.bytes.toList.flatten ++ g.tagArea), g.tagArea) else none })
                (some (.egress x))) := by
  obtain ⟨k, hk⟩ : ∃ k, k = s.modLane x (fun l => { l with egress := e.load, sense := none, job := none }) := ⟨_, rfl⟩
  have hend : s.endRead x t b p phys e
      = k.finish t e.load.status (.read x b p (e.load.readFields phys s.rqu.settings.driftThreshold)) (some (.egress x)) := by
    rw [hk]
    rfl
  rw [hend]
  have hframe := k.finish_frame t e.load.status (.read x b p (e.load.readFields phys s.rqu.settings.driftThreshold)) (some (.egress x))
  have hpool := hframe.pool
  have hin := hframe.inputs
  have hlink := hframe.link
  have hrqu := hframe.rqu
  rw [hk] at hpool hin hlink hrqu
  refine ⟨e.load, rfl, rfl, rfl, rfl, fun j => ?_, ?_, fun y hy => ?_, hk ▸ hpool, hk ▸ hin, hk ▸ hlink, hk ▸ hrqu,
    fun entry ht hopen => ⟨?_, fun u hu => ?_, ?_⟩⟩
  · show (e.sectors.map SectorResult.settle)[j]? = _
    rw [Vector.getElem?_map]
    exact congrArg (Option.map · _) (funext SectorResult.settle_eq)
  · rw [hframe.lane, hk, State.lane_modLane_same s _ hx]
  · rw [hframe.lane, hk, State.lane_modLane_ne s _ hy]
  · rw [State.finish_tag, if_pos rfl, hk, State.modLane_tag, ht]
    rfl
  · rw [State.finish_tag, if_neg hu, hk, State.modLane_tag]
  · rw [State.finish_link k _ _ _ (e := entry) (by rw [hk, State.modLane_tag, ht]) hopen, hk]
    rfl

/-- Settles O37: what the SENSE leaves, and after the decode the climb or the job's end. -/
theorem senseAndDecode : Obligations.SenseAndDecode := by
  refine ⟨fun s x phys page step noise hr hn he => ?sense, fun s x t b p phys raw found hr hf hs hj => ?decode⟩
  case sense =>
    show execSenseEnd x noise s = _
    rw [execSenseEnd, unlessReset_running _ hr, if_pos hn, he]
    rfl
  case decode =>
    have hexec := execDecodeEnd_decoded hr hf hs hj
    have hx := s.lane_lt_of_job hj
    generalize (s.lane x).egress.decodeStep raw ((s.lane x).heldPage phys p) found = e at hexec ⊢
    refine ⟨fun hp hstep => hexec.trans (if_pos (e.climbs_iff.mpr ⟨hp, hstep⟩)), fun hend => ?_⟩
    have hstop : ¬e.climbs = true := fun h => by
      obtain ⟨⟨k, hk, hp⟩, hstep⟩ := e.climbs_iff.mp h
      exact hend.elim (fun h3 => absurd hstep (Nat.not_lt.mpr h3)) fun hno => hno k hk hp
    obtain ⟨g, hg⟩ := s.endRead_leaves t b p phys e hx
    exact ⟨_, g, hexec.trans (if_neg hstop), hg⟩

/-! ### Sensing and decoding a page -/

/-- A PENDING sector for which the decoder has a codeword becomes GOOD with its bytes. -/
theorem Egress.decodeStep_good {e : Egress} {raw : StoredPage} {held : Option Page} {found : List Codeword} {k n : Nat} {c : Codeword}
    (hk : k < 8) (hp : e.sectors[k]? = some .pending) (hc : raw.decode held found k = some (n, c)) :
    (e.decodeStep raw held found).sectors[k]? = some (.good n e.lastStep) ∧ (e.decodeStep raw held found).bytes[k]? = some c.bytes
      ∧ (k = 7 → (e.decodeStep raw held found).tagArea = c.tagArea) := by
  obtain ⟨hsec, hbytes, -⟩ := e.decodeStep_sector raw held found hk
  have hone : ∀ g : Egress, g.sectors[k]? = some .pending →
      g.decodeSector raw held found k
        = { g with
            sectors := g.sectors.setIfInBounds k (.good n g.lastStep)
            bytes := g.bytes.setIfInBounds k c.bytes
            tagArea := if k = 7 then c.tagArea else g.tagArea } := fun g hg => by
    unfold Egress.decodeSector
    rw [if_pos hg, hc]
  rw [hsec, hbytes, hone e hp]
  refine ⟨by simp [hk], by simp [hk], ?_⟩
  rintro rfl
  have hlast : e.decodeStep raw held found
      = ((List.range 7).foldl (Egress.decodeSector raw held found) e).decodeSector raw held found 7 := by
    unfold Egress.decodeStep
    rw [show List.range Config.sectors = List.range 7 ++ [7] from rfl, List.foldl_append, List.foldl_cons,
      List.foldl_nil]
  obtain ⟨hsame, -, -⟩ := Egress.decodeSectors_other raw held found (List.range 7) List.not_mem_range_self e
  rw [hlast, hone _ (hsame.trans hp)]
  dsimp only
  rw [if_pos rfl]

/-- A sector that is not PENDING, or for which the decoder has no codeword, is left alone. -/
theorem Egress.decodeStep_left {e : Egress} {raw : StoredPage} {held : Option Page} {found : List Codeword} {k : Nat} (hk : k < 8)
    (h : e.sectors[k]? ≠ some .pending ∨ raw.decode held found k = none) :
    (e.decodeStep raw held found).sectors[k]? = e.sectors[k]? ∧ (e.decodeStep raw held found).bytes[k]? = e.bytes[k]? := by
  obtain ⟨hsec, hbytes, -⟩ := e.decodeStep_sector raw held found hk
  have hone : e.decodeSector raw held found k = e := by
    unfold Egress.decodeSector
    split
    · rw [h.resolve_left (not_not_intro ‹_›)]
    · rfl
  rw [hsec, hbytes, hone]
  exact ⟨rfl, rfl⟩

theorem PhysBlock.sense_final {pb : PhysBlock} {w : Written} {page : Nat} {c : StoredPage} (noise : List BitError)
    (hw : pb.cells = .written w) (hst : (w.strip (page / w.marker.perStrip)).state = .final)
    (hc : (w.strip (page / w.marker.perStrip)).pages[page % w.marker.perStrip]? = some c) :
    pb.finalPage page = some c ∧ pb.sense page noise = c.sensed noise := by
  have hfinal : pb.finalPage page = some c := by
    unfold PhysBlock.finalPage
    rw [hw]
    exact (if_pos hst).trans hc
  refine ⟨hfinal, ?_⟩
  unfold PhysBlock.sense PhysBlock.stored
  rw [hw]
  dsimp only
  rw [if_neg (by rw [hst]; decide), hfinal]
  rfl

theorem PhysBlock.sense_blank {pb : PhysBlock} {w : Written} {page : Nat} (noise : List BitError) (hw : pb.cells = .written w)
    (hst : (w.strip (page / w.marker.perStrip)).state = .blank) : pb.sense page noise = blankPage.sensed noise := by
  unfold PhysBlock.sense PhysBlock.stored
  rw [hw]
  dsimp only
  rw [if_pos hst]

theorem PhysBlock.finalPage_none {pb : PhysBlock} {w : Written} {page : Nat} (hw : pb.cells = .written w)
    (hst : (w.strip (page / w.marker.perStrip)).state ≠ .final) : pb.finalPage page = none := by
  unfold PhysBlock.finalPage
  rw [hw]
  exact if_neg hst

theorem knownCodeword_sector {held : Option Page} {found : List Codeword} {k : Nat} (hk : k < 8) (hf : found.all Codeword.wf = true)
    (hheld : ∀ p, held = some p → p.data.length = 8192 ∧ p.tagArea.length = 32) (c : Codeword) (h : knownCodeword held found k c) :
    sectorCodeword k c := by
  obtain ⟨hs, hc | ⟨p, hp, rfl⟩⟩ := h
  · have hwf := List.all_eq_true.mp hf c hc
    simp only [Codeword.wf, Bool.and_eq_true, decide_eq_true_iff] at hwf
    exact ⟨hs, hwf.1.2, hwf.2⟩
  · exact p.codeword_sector hk (hheld p hp).1 (hheld p hp).2

end Sys2Proof.Machine
end

