-- ==== Sys2Proof/Proofs/SensedBits.lean ====
section
/-! PROOFS. Wrong bits count as the distance to what was programmed (R7, R105), and the decode rule as a whole. -/

namespace Sys2Proof.Machine

/-! ### Counting bits -/

theorem countP_range_flip {p q : Nat → Bool} {k w : Nat} (hk : k < w) (hp : p k = false) (hq : q k = true)
    (h : ∀ i, i ≠ k → q i = p i) : (List.range w).countP q = (List.range w).countP p + 1 := by
  induction w with
  | zero => exact absurd hk (Nat.not_lt_zero k)
  | succ w ih =>
    rw [List.range_succ, List.countP_append, List.countP_append, List.countP_singleton, List.countP_singleton]
    by_cases hw : k = w
    · subst hw
      have hbelow : (List.range k).countP q = (List.range k).countP p :=
        List.countP_congr fun i hi => by rw [h i (List.mem_range.mp hi).ne]
      rw [hbelow, hp, hq]
      rfl
    · rw [ih (by omega), h w (Ne.symm hw)]
      omega

theorem bitCount_flip {w : Nat} {v : BitVec w} {k : Nat} (hk : k < w) (hv : v.getLsbD k = false) :
    bitCount (v ^^^ BitVec.twoPow w k) = bitCount v + 1 := by
  refine countP_range_flip hk hv ?_ fun i hi => ?_
  · rw [BitVec.getLsbD_xor, BitVec.getLsbD_twoPow, hv]
    simp [hk]
  · rw [BitVec.getLsbD_xor, BitVec.getLsbD_twoPow]
    simp [Ne.symm hi]

/-- Bit `n` of a list of bytes, counted from bit 0 of the first byte. -/
def bitOf (l : List Byte) (n : Nat) : Bool := (l[n / 8]?.getD 0).getLsbD (n % 8)

theorem flipBit_eq (l : List Byte) (n : Nat) : flipBit l n = l.modify (n / 8) (· ^^^ BitVec.twoPow 8 (n % 8)) := rfl

theorem length_flipBit (l : List Byte) (n : Nat) : (flipBit l n).length = l.length := List.length_modify _ _ _

theorem bitOf_flipBit_ne (l : List Byte) {n m : Nat} (h : m ≠ n) : bitOf (flipBit l n) m = bitOf l m := by
  unfold bitOf
  rw [flipBit_eq, List.getElem?_modify]
  by_cases hbyte : n / 8 = m / 8
  · have hbit : n % 8 ≠ m % 8 := fun heq => h (by omega)
    cases l[m / 8]? with
    | none => rfl
    | some v =>
      show (if n / 8 = m / 8 then _ else v).getLsbD (m % 8) = v.getLsbD (m % 8)
      rw [if_pos hbyte, BitVec.getLsbD_xor, BitVec.getLsbD_twoPow]
      simp [hbit]
  · cases l[m / 8]? with
    | none => rfl
    | some v => exact congrArg (fun b : Byte => b.getLsbD (m % 8)) (if_neg hbyte)

theorem flipBit_cons_low (a : Byte) (as : List Byte) {n : Nat} (h : n < 8) : flipBit (a :: as) n = (a ^^^ BitVec.twoPow 8 n) :: as := by
  rw [flipBit_eq, Nat.div_eq_of_lt h, Nat.mod_eq_of_lt h, List.modify_zero_cons]

theorem flipBit_cons_high (a : Byte) (as : List Byte) (n : Nat) : flipBit (a :: as) (n + 8) = a :: flipBit as n := by
  rw [flipBit_eq, Nat.add_div_right n (by decide), Nat.add_mod_right, List.modify_succ_cons]
  rfl

/-- Inverting a bit in which two lists agree puts them one bit further apart. -/
theorem bitDistance_flipBit {l m : List Byte} {n : Nat} (hlen : l.length = m.length) (hn : n < 8 * l.length)
    (hsame : bitOf l n = bitOf m n) : bitDistance (flipBit l n) m = bitDistance l m + 1 := by
  induction l generalizing m n with
  | nil => exact absurd hn (Nat.not_lt_zero n)
  | cons a as ih =>
    cases m with
    | nil => exact nomatch hlen
    | cons b bs =>
      rcases Nat.lt_or_ge n 8 with hlow | hhigh
      · have hbit : (a ^^^ b).getLsbD n = false := by
          unfold bitOf at hsame
          rw [Nat.div_eq_of_lt hlow, Nat.mod_eq_of_lt hlow] at hsame
          have hab : a.getLsbD n = b.getLsbD n := hsame
          rw [BitVec.getLsbD_xor, hab, Bool.xor_self]
        rw [flipBit_cons_low a as hlow, bitDistance, bitDistance, BitVec.xor_assoc, BitVec.xor_comm (BitVec.twoPow 8 n) b,
          ← BitVec.xor_assoc, bitCount_flip hlow hbit]
        omega
      · obtain ⟨k, rfl⟩ := Nat.exists_eq_add_of_le' hhigh
        have hbits : ∀ (c : Byte) (cs : List Byte), bitOf (c :: cs) (k + 8) = bitOf cs k := fun c cs => by
          unfold bitOf
          rw [Nat.add_div_right k (by decide), Nat.add_mod_right]
          rfl
        rw [hbits, hbits] at hsame
        rw [flipBit_cons_high, bitDistance, bitDistance,
          ih (Nat.succ.inj hlen) (by rw [List.length_cons] at hn; omega) hsame, Nat.add_assoc]

theorem bitDistance_append {a b c d : List Byte} (h : a.length = c.length) :
    bitDistance (a ++ b) (c ++ d) = bitDistance a c + bitDistance b d := by
  induction a generalizing c with
  | nil =>
    obtain rfl := List.length_eq_zero_iff.mp h.symm
    rw [List.nil_append, List.nil_append, bitDistance_self, Nat.zero_add]
  | cons x xs ih =>
    cases c with
    | nil => exact nomatch h
    | cons y ys =>
      rw [List.cons_append, List.cons_append, bitDistance, bitDistance, ih (Nat.succ.inj h), Nat.add_assoc]

/-! ### One wrong bit of a page -/

/-- A sector of page data of which a bit of sector `j` has been inverted. -/
theorem sector_flipBit (l : List Byte) (j k : Nat) {n : Nat} (hn : n < 8192) :
    ((flipBit l (8192 * j + n)).drop (1024 * k)).take 1024
      = if k = j then flipBit ((l.drop (1024 * k)).take 1024) n else (l.drop (1024 * k)).take 1024 := by
  have hbyte : (8192 * j + n) / 8 = 1024 * j + n / 8 := by omega
  have hbit : (8192 * j + n) % 8 = n % 8 := by omega
  rw [flipBit_eq, flipBit_eq, hbyte, hbit]
  refine List.ext_getElem? fun i => ?_
  by_cases hi : i < 1024
  · rw [List.getElem?_take_of_lt hi, List.getElem?_drop, List.getElem?_modify]
    by_cases hk : k = j
    · rw [if_pos hk, List.getElem?_modify, List.getElem?_take_of_lt hi, List.getElem?_drop]
      exact congrArg (· <$> _) (funext fun a => if_congr (by omega) rfl rfl)
    · have hother : 1024 * j + n / 8 ≠ 1024 * k + i := fun h => by omega
      rw [if_neg hk, List.getElem?_take_of_lt hi, List.getElem?_drop]
      simp only [if_neg hother]
      exact id_map _
  · have hlen : ∀ m : List Byte, (m.take 1024)[i]? = none := fun m => List.getElem?_eq_none (by
      rw [List.length_take]
      omega)
    split_ifs
    · rw [hlen, List.getElem?_modify, hlen]
      rfl
    · rw [hlen, hlen]

/-- The bit that a wrong bit names, in a page as it is held or sensed. -/
def StoredPage.bitAt (sp : StoredPage) (e : BitError) : Bool :=
  match e.place with
  | .data n => bitOf (sp.page.sector e.sector) n
  | .tagArea n => bitOf sp.page.tagArea n
  | .parity n => (sp.parity[e.sector]?.getD 0).getLsbD n

theorem StoredPage.flip_data (sp : StoredPage) {j n : Nat} (hn : n < 8192) (k : Nat) :
    (sp.flip ⟨j, .data n⟩).page.sector k = if k = j then flipBit (sp.page.sector k) n else sp.page.sector k :=
  sector_flipBit sp.page.data j k hn

theorem BitError.wf_data {j n : Nat} (h : BitError.wf ⟨j, .data n⟩ = true) : j < 8 ∧ n < 8192 := by
  obtain ⟨hj, hn⟩ : j < Config.sectors ∧ n < 8 * Config.chunkBytes := by
    simpa [BitError.wf, BitPlace.inSector] using h
  exact ⟨hj, hn⟩

theorem BitError.wf_tagArea {j n : Nat} (h : BitError.wf ⟨j, .tagArea n⟩ = true) : j = 7 ∧ n < 256 := by
  obtain ⟨-, h7, hn⟩ : j < Config.sectors ∧ j = 7 ∧ n < 8 * Config.tagAreaBytes := by
    simpa [BitError.wf, BitPlace.inSector] using h
  exact ⟨h7, hn⟩

theorem BitError.wf_parity {j n : Nat} (h : BitError.wf ⟨j, .parity n⟩ = true) : j < 8 ∧ n < Config.parityBits := by
  obtain ⟨hj, hn⟩ : j < Config.sectors ∧ n < Config.parityBits := by
    simpa [BitError.wf, BitPlace.inSector] using h
  exact ⟨hj, hn⟩

theorem StoredPage.flip_parity (sp : StoredPage) {j : Nat} (n k : Nat) (hj : j < 8) :
    (sp.flip ⟨j, .parity n⟩).parity[k]?.getD 0
      = if k = j then (sp.parity[k]?.getD 0) ^^^ BitVec.twoPow Config.parityBits n else sp.parity[k]?.getD 0 := by
  show (sp.parity.setIfInBounds j _)[k]?.getD 0 = _
  rw [Vector.getElem?_setIfInBounds]
  by_cases hk : k = j
  · rw [if_pos hk.symm, if_pos hj, if_pos hk, hk]
    rfl
  · rw [if_neg (Ne.symm hk), if_neg hk]

/-- Inverting a bit leaves every other bit. -/
theorem StoredPage.bitAt_flip_ne (sp : StoredPage) {e f : BitError} (he : e.wf = true) (hf : f.wf = true) (h : f ≠ e) :
    (sp.flip e).bitAt f = sp.bitAt f := by
  obtain ⟨j, place⟩ := e
  obtain ⟨k, other⟩ := f
  cases place with
  | data n =>
    cases other with
    | data m =>
      show bitOf ((sp.flip ⟨j, .data n⟩).page.sector k) m = bitOf (sp.page.sector k) m
      rw [sp.flip_data (BitError.wf_data he).2]
      split_ifs with hk
      · exact bitOf_flipBit_ne _ fun hm => h (by rw [hk, hm])
      · rfl
    | tagArea m => rfl
    | parity m => rfl
  | tagArea n =>
    cases other with
    | data m => rfl
    | tagArea m =>
      exact bitOf_flipBit_ne _ fun hm => h (by rw [(BitError.wf_tagArea he).1, (BitError.wf_tagArea hf).1, hm])
    | parity m => rfl
  | parity n =>
    cases other with
    | data m => rfl
    | tagArea m => rfl
    | parity m =>
      show ((sp.flip ⟨j, .parity n⟩).parity[k]?.getD 0).getLsbD m = (sp.parity[k]?.getD 0).getLsbD m
      rw [sp.flip_parity n k (BitError.wf_parity he).1]
      split_ifs with hk
      · rw [BitVec.getLsbD_xor, BitVec.getLsbD_twoPow, decide_eq_false fun hm : n = m => h (by rw [hk, hm])]
        simp
      · rfl

/-- The page has the lengths of R2. -/
def Page.Sized (p : Page) : Prop := p.data.length = 8192 ∧ p.tagArea.length = 32

theorem Page.Sized.length_sector {p : Page} (h : p.Sized) {k : Nat} (hk : k < 8) : (p.sector k).length = 1024 := by
  show ((p.data.drop (1024 * k)).take 1024).length = 1024
  rw [List.length_take, List.length_drop, h.1]
  omega

theorem StoredPage.sized_flip {sp : StoredPage} (h : sp.page.Sized) (e : BitError) : (sp.flip e).page.Sized := by
  obtain ⟨j, place⟩ := e
  cases place with
  | data n => exact ⟨(length_flipBit _ _).trans h.1, h.2⟩
  | tagArea n => exact ⟨h.1, (length_flipBit _ _).trans h.2⟩
  | parity n => exact h

/-- The distance of a sector part by part: its data, for sector 7 the tag area, and the parity. -/
theorem StoredPage.distance_parts {sp : StoredPage} {p : Page} (hs : sp.page.Sized) (hp : p.Sized) {k : Nat} (hk : k < 8) :
    sp.distance (p.codeword k)
      = bitDistance (sp.page.sector k) (p.sector k) + (if k = 7 then bitDistance sp.page.tagArea p.tagArea else 0)
        + bitCount ((sp.parity[k]?.getD 0) ^^^ (p.codeword k).parity) := by
  have hcovered : bitDistance (sp.page.codeword k).covered (p.codeword k).covered
      = bitDistance (sp.page.sector k) (p.sector k) + if k = 7 then bitDistance sp.page.tagArea p.tagArea else 0 := by
    show bitDistance (sp.page.sector k ++ if k = 7 then sp.page.tagArea else []) (p.sector k ++ if k = 7 then p.tagArea else []) = _
    rw [bitDistance_append ((hs.length_sector hk).trans (hp.length_sector hk).symm)]
    split_ifs <;> rfl
  rw [← hcovered]
  rfl

theorem Page.parity_encode (p : Page) {k : Nat} (hk : k < 8) : p.encode.parity[k]?.getD 0 = (p.codeword k).parity := by
  simp [Page.encode, tabulate, hk]

/-- A bit that was right and is read wrong counts once, in its own sector. -/
theorem StoredPage.distance_flip {sp : StoredPage} {p : Page} {e : BitError} (hs : sp.page.Sized) (hp : p.Sized) (he : e.wf = true)
    (hright : sp.bitAt e = p.encode.bitAt e) {k : Nat} (hk : k < 8) :
    (sp.flip e).distance (p.codeword k) = sp.distance (p.codeword k) + if e.sector = k then 1 else 0 := by
  rw [StoredPage.distance_parts (sp.sized_flip hs e) hp hk, StoredPage.distance_parts hs hp hk]
  obtain ⟨j, place⟩ := e
  show _ = _ + if j = k then 1 else 0
  cases place with
  | data n =>
    obtain ⟨-, hn⟩ := BitError.wf_data he
    rw [sp.flip_data hn]
    show _ + (if k = 7 then bitDistance sp.page.tagArea p.tagArea else 0) + bitCount ((sp.parity[k]?.getD 0) ^^^ _) = _
    by_cases hj : j = k
    · subst hj
      rw [if_pos rfl, if_pos rfl, bitDistance_flipBit ((hs.length_sector hk).trans (hp.length_sector hk).symm)
        (by rw [hs.length_sector hk]; exact hn) hright]
      omega
    · rw [if_neg (Ne.symm hj), if_neg hj]
      rfl
  | tagArea n =>
    obtain ⟨rfl, hn⟩ := BitError.wf_tagArea he
    show bitDistance (sp.page.sector k) _ + (if k = 7 then bitDistance (flipBit sp.page.tagArea n) p.tagArea else 0)
      + bitCount ((sp.parity[k]?.getD 0) ^^^ _) = _
    by_cases hj : k = 7
    · rw [if_pos hj, if_pos hj, if_pos hj.symm, bitDistance_flipBit (hs.2.trans hp.2.symm) (by rw [hs.2]; exact hn) hright]
      omega
    · rw [if_neg hj, if_neg hj, if_neg (Ne.symm hj)]
      rfl
  | parity n =>
    obtain ⟨hj8, hn⟩ := BitError.wf_parity he
    rw [sp.flip_parity n k hj8]
    show bitDistance (sp.page.sector k) _ + (if k = 7 then bitDistance sp.page.tagArea p.tagArea else 0) + _ = _
    by_cases hj : j = k
    · subst hj
      have hbit : ((sp.parity[j]?.getD 0) ^^^ (p.codeword j).parity).getLsbD n = false := by
        have hright' : (sp.parity[j]?.getD 0).getLsbD n = (p.encode.parity[j]?.getD 0).getLsbD n := hright
        rw [BitVec.getLsbD_xor, hright', p.parity_encode hk, Bool.xor_self]
      rw [if_pos rfl, if_pos rfl, BitVec.xor_assoc, BitVec.xor_comm (BitVec.twoPow Config.parityBits n), ← BitVec.xor_assoc,
        bitCount_flip hn hbit]
      omega
    · rw [if_neg (Ne.symm hj), if_neg hj]
      rfl

/-! ### All wrong bits of a SENSE -/

theorem StoredPage.distance_flips {p : Page} (hp : p.Sized) {k : Nat} (hk : k < 8) (es : List BitError) (hn : es.Nodup)
    (hwf : ∀ e ∈ es, e.wf = true) (sp : StoredPage) (hs : sp.page.Sized) (hright : ∀ e ∈ es, sp.bitAt e = p.encode.bitAt e) :
    (es.foldl StoredPage.flip sp).distance (p.codeword k)
      = sp.distance (p.codeword k) + (es.filter (fun e => decide (e.sector = k))).length := by
  induction es generalizing sp with
  | nil => rfl
  | cons e es ih =>
    obtain ⟨he, hn⟩ := List.nodup_cons.mp hn
    have hwfe : e.wf = true := hwf e List.mem_cons_self
    have hrest : ∀ f ∈ es, (sp.flip e).bitAt f = p.encode.bitAt f := fun f hf =>
      (sp.bitAt_flip_ne hwfe (hwf f (List.mem_cons_of_mem e hf)) fun heq => he (heq ▸ hf)).trans (hright f (List.mem_cons_of_mem e hf))
    rw [List.foldl_cons, ih hn (fun f hf => hwf f (List.mem_cons_of_mem e hf)) _ (sp.sized_flip hs e) hrest,
      StoredPage.distance_flip hs hp hwfe (hright e List.mem_cons_self) hk, List.filter_cons]
    by_cases hsec : e.sector = k
    · rw [if_pos hsec, if_pos (decide_eq_true hsec), List.length_cons]
      omega
    · rw [if_neg hsec, if_neg (by simp [hsec]), Nat.add_zero]

theorem StoredPage.distance_sensed {p : Page} (hp : p.Sized) {noise : List BitError} (hwf : noise.all BitError.wf = true) {k : Nat}
    (hk : k < 8) :
    (p.encode.sensed noise).distance (p.codeword k) = (noise.dedup.filter (fun e => decide (e.sector = k))).length := by
  have h := StoredPage.distance_flips hp hk noise.dedup noise.nodup_dedup
    (fun e he => List.all_eq_true.mp hwf e (List.mem_dedup.mp he)) p.encode hp fun _ _ => rfl
  rw [StoredPage.distance_encode p hk, Nat.zero_add] at h
  exact h

/-- Settles O38: what is programmed, what is sensed, how far apart they are, and what a decode step makes of it. -/
theorem decodeRule : Obligations.DecodeRule := by
  refine ⟨fun p k hk => ⟨rfl, ?_⟩, fun l w phys page noise hw => ?_, fun p noise k hd ht hwf hk => StoredPage.distance_sensed ⟨hd, ht⟩ hwf hk,
    fun e raw held found k hk hd ht hf hheld => ?_⟩
  · rw [Vector.getElem?_eq_getElem hk, ← Option.getD_some (a := p.encode.parity[k]) (b := 0), ← Vector.getElem?_eq_getElem hk,
      p.parity_encode hk]
    rfl
  · refine ⟨fun hfinal c hc => ?_, fun hblank => PhysBlock.sense_blank noise hw hblank, fun hst => ?_⟩
    · obtain ⟨hpage, hsense⟩ := PhysBlock.sense_final noise hw hfinal hc
      exact ⟨hsense, congrArg (Option.map StoredPage.page) hpage⟩
    · exact congrArg (Option.map StoredPage.page) (PhysBlock.finalPage_none hw hst)
  · have hcases := raw.decode_cases hk hd ht (knownCodeword_sector hk hf hheld)
    refine ⟨fun hno => Egress.decodeStep_left hk (.inl hno), fun hp => ⟨fun c hc hle => ?reached, fun p hpage hle => ?held,
      fun before c after hfound hsec hle hbefore hfar => ?named, fun hfar => ?far⟩⟩
    case reached =>
      obtain ⟨d, hdec, hsec, hnear⟩ | ⟨-, hfar⟩ := hcases
      · exact ⟨d, hsec, hnear, Egress.decodeStep_good hk hp hdec⟩
      · exact absurd hle (Nat.not_le.mpr (hfar c hc))
    case held =>
      subst hpage
      exact Egress.decodeStep_good hk hp (StoredPage.decode_held found hle)
    case named =>
      subst hfound
      exact Egress.decodeStep_good hk hp (StoredPage.decode_named hfar hbefore hsec hle)
    case far =>
      obtain ⟨d, -, hsec, hnear⟩ | ⟨hnone, -⟩ := hcases
      · exact absurd hnear (Nat.not_le.mpr (hfar d hsec))
      · obtain ⟨hs, hb⟩ := Egress.decodeStep_left (e := e) hk (.inr hnone)
        exact ⟨hs.trans hp, hb⟩

end Sys2Proof.Machine
end

