-- ==== Sys2Proof/Proofs/Closing.lean ====
section
/-! PROOFS. CLOSE (R34 to R37): its refusals, a CLOSE with nothing left to program, and one that makes its block CLOSING. -/

namespace Sys2Proof.Machine

/-! ### A block whose record changes, and the test of R28 on it -/

/-- Of the lanes only the record of block `b` of lane `x` has changed, to `r`, and the test of R28 has followed. -/
structure State.Retested (s m : State) (x b : Nat) (r : BlockRec) : Prop where
  lane : (s.lane x).sameButWork (m.lane x)
  queue : (m.lane x).workQueue = (s.lane x).workQueue
  tested : s.BlockTested m x b r.readyPass
  record : r.sameButReady (m.record x b)
  rest : r.running = false → m.record x b = { r with readyPass := none }
  records : (s.lane x).sameRecordsBut (m.lane x) b
  lanes : s.sameLanesBut m x

theorem State.Retested.of_lanes {s k : State} {x b : Nat} {f : BlockRec → BlockRec} (hx : x < 4) (hb : b < 1024)
    (hk : k.lanes = (s.modRecord x b f).lanes) : s.Retested (k.testBlock x b) x b (f (s.record x b)) := by
  obtain ⟨-, -, -, -, hlanes, hlane, hrecs⟩ := k.testBlock_frame x b
  have hkx : k.lane x = (s.lane x).modRecord b f := (State.lane_of_lanes hk x).trans (State.lane_modRecord_same s b f hx)
  have hkr : k.record x b = f (s.record x b) := by
    rw [State.record, hkx]
    exact Lane.record_modRecord_same _ _ hb
  have htest := State.testBlock_tested (s := s) (k := k) hx hb (by rw [hkx]; rfl) (by rw [hkx]; rfl)
  have hrec := k.testBlock_record x b
  rw [hkx] at hlane
  rw [hkr] at htest hrec
  refine ⟨?_, by rw [hlane]; rfl, htest, hrec, fun hrun => ?_, fun c hc => ?_, fun y hy => ?_⟩
  · unfold Lane.sameButWork
    rw [hlane]
    rfl
  · rw [State.testBlock_record_rest k hx hb (by rw [hkr]; exact hrun), hkr]
  · rw [hrecs c hc, hkx]
    exact Lane.record_modRecord_ne _ _ hc
  · rw [hlanes y hy, State.lane_of_lanes hk y, State.lane_modRecord_ne s b f hy]

/-! ### The checks -/

theorem State.anyFilling_iff (s : State) (x b : Nat) :
    s.anyFilling x b = true ↔ ∃ i, (s.slot i).ownedBy x b = true ∧ (s.slot i).state = .filling := by
  unfold State.anyFilling
  simp only [List.any_eq_true, State.mem_ownedSlots, decide_eq_true_iff]

theorem State.anyFilling_false {s : State} {x b : Nat} (h : ∀ i, (s.slot i).ownedBy x b = true → (s.slot i).state ≠ .filling) :
    s.anyFilling x b = false :=
  Bool.eq_false_iff.mpr fun hany => by
    obtain ⟨i, ho, hf⟩ := (s.anyFilling_iff x b).mp hany
    exact h i ho hf

theorem State.closeCheck_reaches {s : State} {x b : Nat} (h : s.Reaches x b) :
    s.closeCheck x b
      = (failsWith s.wpAsserted .writeProtected).or
          ((failsWith (decide ((s.record x b).state ≠ .opened)) .blockState).or
            (failsWith (s.anyFilling x b || (s.record x b).erasePending) .blockBusy)) := by
  unfold State.closeCheck
  rw [h.addressCheck]
  rfl

/-- A CLOSE that passes its checks is taken. -/
theorem execClose_taken {s : State} {f : InFrame} {x b : Nat} (h : s.Admits f .close (.close x b)) (hr : s.Reaches x b)
    (hwp : s.wpAsserted = false) (ho : (s.record x b).state = .opened) (he : (s.record x b).erasePending = false)
    (hf : ∀ i, (s.slot i).ownedBy x b = true → (s.slot i).state ≠ .filling) :
    exec .close s
      = .next (s.conclude [x]
          ((s.unbuffer.setTag f.tag (some (TagEntry.mk' .close .waiting (some x) (some b) none))).closeBlock x b)) := by
  have hcheck : s.unbuffer.closeCheck x b = none := by
    show s.closeCheck x b = none
    rw [State.closeCheck_reaches hr, hwp, ho, he, State.anyFilling_false hf]
    rfl
  refine (execClose.eq_1 s).trans ((takeRequest_admits _ h).trans ?_)
  dsimp only
  rw [hcheck]
  rfl

theorem BlockRec.nothingLeft_iff (r : BlockRec) :
    r.nothingLeft = true ↔ r.intakeNext = 0 ∨ (r.density = some .swift ∧ r.finalDone = r.intakeNext) := by
  unfold BlockRec.nothingLeft
  simp only [Bool.or_eq_true, Bool.and_eq_true, decide_eq_true_iff]

/-! ### A CLOSE that ends at once -/

/-- A tag that has just come live and ends is answered in one step. -/
theorem State.finish_setTag (s : State) {t : Nat} {e : TagEntry} (st : Status) (fields : ReplyFields) (src : Option Source) (ht : t < 64)
    (he : e.state ≠ .replying) : (s.setTag t (some e)).finish t st fields src = s.answer t { e with state := .replying } st fields src := by
  rw [State.finish_of_some _ st fields src (s.tag_setTag_same (some e) ht) he]
  simp [State.answer, State.setTag, QueueEntry.finalOf, Reply.finalOf]

/-- Settles O40: the record is closed, the CLOSE's tag is answered, and the test of R28 is made. -/
theorem closeWithNothingLeft : Obligations.CloseWithNothingLeft := by
  intro s f x b hadm hreach hwp hopen herase hfill hleft honly
  have hexec := execClose_taken hadm hreach hwp hopen herase hfill
  obtain ⟨-, -, -, htag, hnone, -⟩ := id hadm
  obtain ⟨hx, hb, -⟩ := hreach
  obtain ⟨e, he⟩ : ∃ e, e = TagEntry.mk' .close .waiting (some x) (some b) none := ⟨_, rfl⟩
  rw [← he] at hexec
  obtain ⟨close, hclose⟩ : ∃ g : BlockRec → BlockRec,
      g = fun r => { r with dataEnd := some r.intakeNext, closedBy := some .host, state := .closed } := ⟨_, rfl⟩
  obtain ⟨k, hk⟩ : ∃ k, k = (s.unbuffer.modRecord x b close).setTag f.tag (some e) := ⟨_, rfl⟩
  have hktag : k.tag f.tag = some e := by
    rw [hk]
    exact State.tag_setTag_same _ _ htag
  have hkother : ∀ u, u ≠ f.tag → k.tag u = s.tag u := fun u hu => by
    rw [hk]
    exact State.tag_setTag_ne _ _ hu
  have hended : k.endClose x b .done
      = ({ s with
            link := s.linkWith (QueueEntry.finalOf f.tag .close .done (.block x b) none)
            rqu := s.rqu.withTag f.tag (TagEntry.mk' .close .replying (some x) (some b) none) } : State).modRecord x b close := by
    rw [k.endClose_eq .done hktag (by rw [he]; rfl) (by rw [he]; rfl) (by rw [he]; rfl) (by rw [he]; rfl) fun u g hu hk1 hk2 hk3 hk4 => ?only]
    case only =>
      by_contra hne
      exact honly u g ((hkother u hne).symm.trans hu) hk1 hk2 hk3 hk4
    rw [hk, State.finish_setTag _ .done (.block x b) none htag (by rw [he]; exact fun h => nomatch h), he]
    exact congrArg (fun n => State.modRecord n x b close)
      (hadm.answer (TagEntry.mk' .close .replying (some x) (some b) none) .done (.block x b) none rfl)
  have htaken : (s.unbuffer.setTag f.tag (some e)).closeBlock x b = (k.endClose x b .done).testBlock x b := by
    have hnothing : ((s.unbuffer.setTag f.tag (some e)).record x b).nothingLeft = true := (s.record x b).nothingLeft_iff.mpr hleft
    unfold State.closeBlock
    dsimp only
    rw [if_pos hnothing, hk, hclose]
    rfl
  rw [htaken, hended] at hexec
  generalize hn : State.modRecord _ x b close = n at hexec
  have hlanes : n.lanes = (s.modRecord x b close).lanes := by
    rw [← hn]
    rfl
  have hset := State.Retested.of_lanes hx hb hlanes
  obtain ⟨tlink, trqu, tpool, tin, -, -, -⟩ := n.testBlock_frame x b
  have hready : (close (s.record x b)).readyPass = (s.record x b).readyPass := by
    rw [hclose]
  refine ⟨_, hexec, ?_, trqu.trans (by rw [← hn]; rfl), tlink.trans (by rw [← hn]; rfl), tpool.trans (by rw [← hn]; rfl), hset.lane,
    hset.queue, hready ▸ hset.tested, hset.records, hset.lanes, ?_⟩
  · rw [hset.rest (by rw [hclose]; rfl), hclose]
  · rw [← hn] at tin ⊢
    exact tin

/-! ### A CLOSE with pages left -/

theorem State.mem_reservedIn (s : State) (x b n i : Nat) :
    i ∈ s.reservedIn x b n ↔ (s.slot i).ownedBy x b = true ∧ (s.slot i).state = .reserved ∧ (s.slot i).pageNumber / 4 = n := by
  unfold State.reservedIn
  rw [List.mem_filter, State.mem_ownedSlots, Bool.and_eq_true, decide_eq_true_iff, decide_eq_true_iff]

theorem State.reservedIn_nodup (s : State) (x b n : Nat) : (s.reservedIn x b n).Nodup := (s.ownedSlots_nodup x b).filter _

/-- The slots of a DENSE block that closes: pad fill in the last data strip, release in the strip above. -/
def State.closeSlots (s : State) (x b n : Nat) : State :=
  (s.modSlots (s.reservedIn x b n) Slot.padFill).releaseSlots
    ((s.modSlots (s.reservedIn x b n) Slot.padFill).reservedIn x b (n + 1))

theorem State.slot_padFilled (s : State) (x b n i : Nat) :
    (s.modSlots (s.reservedIn x b n) Slot.padFill).slot i
      = if i ∈ s.reservedIn x b n then (s.slot i).padFill else s.slot i := by
  split
  · rename_i hi
    exact s.slot_modSlots_mem _ (s.reservedIn_nodup x b n) hi (s.owned_lt ((s.mem_reservedIn x b n i).mp hi).1)
  · rename_i hi
    exact s.slot_modSlots_ne _ _ hi

/-- The strip above the last data strip is not pad-filled. -/
theorem State.mem_reservedIn_padFilled (s : State) (x b n i : Nat) :
    i ∈ (s.modSlots (s.reservedIn x b n) Slot.padFill).reservedIn x b (n + 1) ↔ i ∈ s.reservedIn x b (n + 1) := by
  rw [State.mem_reservedIn, State.mem_reservedIn, s.slot_padFilled]
  split
  · rename_i hi
    obtain ⟨-, -, hp⟩ := (s.mem_reservedIn x b n i).mp hi
    exact ⟨fun h => (nomatch h.2.1), fun h => absurd (hp.symm.trans h.2.2) (by omega)⟩
  · rfl

theorem State.closeSlots_slot (s : State) (x b n i : Nat) :
    (s.closeSlots x b n).slot i
      = if i ∈ s.reservedIn x b n then (s.slot i).padFill else if i ∈ s.reservedIn x b (n + 1) then (s.slot i).release else s.slot i := by
  unfold State.closeSlots
  rw [State.releaseSlots_eq]
  by_cases hi : i ∈ s.reservedIn x b (n + 1)
  · obtain ⟨ho, -, hp⟩ := (s.mem_reservedIn x b (n + 1) i).mp hi
    have hnot : i ∉ s.reservedIn x b n := fun h => absurd (((s.mem_reservedIn x b n i).mp h).2.2.symm.trans hp) (by omega)
    rw [State.slot_leaveSlots_mem _ _ (State.reservedIn_nodup _ x b (n + 1)) ((s.mem_reservedIn_padFilled x b n i).mpr hi) (s.owned_lt ho),
      s.slot_padFilled, if_neg hnot, if_neg hnot, if_pos hi]
  · rw [State.slot_leaveSlots_ne _ _ _ fun h => hi ((s.mem_reservedIn_padFilled x b n i).mp h), s.slot_padFilled, if_neg hi]

theorem Slot.reserved_fields {sl : Slot} (h : sl.wf = true) (hs : sl.state = .reserved) :
    sl.tag = none ∧ sl.chunks = 0 ∧ sl.timer = none := by
  unfold Slot.wf at h
  rw [hs] at h
  simp only [Bool.and_eq_true, decide_eq_true_iff] at h
  exact ⟨h.1.1.1.2, h.1.2, h.2⟩

theorem Slot.padFill_reserved {sl : Slot} (h : sl.wf = true) (hs : sl.state = .reserved) :
    sl.padFill = { sl with state := .staged, pad := true } := by
  obtain ⟨htag, hchunks, htimer⟩ := Slot.reserved_fields h hs
  cases sl
  cases htag
  cases hchunks
  cases htimer
  rfl

theorem State.closeSlots_frame {s : State} (h : s.SlotsFormed) (x b n : Nat) :
    (s.closeSlots x b n).link = s.link ∧ (s.closeSlots x b n).lanes = s.lanes ∧ s.rqu.sameButTags (s.closeSlots x b n).rqu
      ∧ (∀ u, (s.closeSlots x b n).tag u = s.tag u) ∧ (s.closeSlots x b n).pool.armed = s.pool.armed
      ∧ s.sameInputs (s.closeSlots x b n) := by
  unfold State.closeSlots
  rw [State.releaseSlots_eq]
  obtain ⟨mlink, mrqu, mlanes, marmed, m1, m2, m3⟩ := s.modSlots_frame (s.reservedIn x b n) Slot.padFill
  obtain ⟨llink, llanes, lrqu, larmed, l1, l2, l3⟩ := State.leaveSlots_frame (s.modSlots (s.reservedIn x b n) Slot.padFill)
    ((s.modSlots (s.reservedIn x b n) Slot.padFill).reservedIn x b (n + 1)) fun _ => Slot.release
  refine ⟨llink.trans mlink, llanes.trans mlanes, mrqu ▸ lrqu, fun u => ?_, larmed.trans marmed, l1.trans m1, l2.trans m2, l3.trans m3⟩
  rw [State.leaveSlots_tag_none _ _ (State.reservedIn_nodup _ x b (n + 1))]
  · exact State.tag_of_rqu (congrArg Rqu.tags mrqu) u
  · intro i hi ht
    have hi' := (s.mem_reservedIn_padFilled x b n i).mp hi
    obtain ⟨-, hres, hp⟩ := (s.mem_reservedIn x b (n + 1) i).mp hi'
    have hnot : i ∉ s.reservedIn x b n := fun h => absurd (((s.mem_reservedIn x b n i).mp h).2.2.symm.trans hp) (by omega)
    rw [s.slot_padFilled, if_neg hnot] at ht
    exact nomatch ht.symm.trans (Slot.reserved_fields (h i) hres).1

theorem State.closeDense_eq (s : State) (x b : Nat) :
    s.closeDense x b
      = ((s.closeSlots x b (lastStrip (s.record x b).intakeNext)).modRecord x b (fun q =>
          { q with
            dataEnd := some (s.record x b).intakeNext, intakeNext := stripEnd (s.record x b).intakeNext
            state := .closing })).testBlock x b := rfl

theorem State.closeSwift_eq (s : State) (x b : Nat) :
    s.closeSwift x b
      = (s.modRecord x b (fun q => { q with dataEnd := some q.intakeNext, state := .closing })).testBlock x b := rfl

/-- What every CLOSE with pages left leaves: `k` is the state before its record changes and the test of R28 is made. -/
theorem State.closing_leaves {s k : State} {f : InFrame} {x b : Nat} {e : TagEntry} {g : BlockRec → BlockRec} (hx : x < 4) (hb : b < 1024)
    (ht : f.tag < 64) (hlink : k.link = s.unbuffer.link) (hlanes : k.lanes = s.lanes)
    (hrqu : (s.rqu.withTag f.tag e).sameButTags k.rqu)
    (htag : ∀ u, k.tag u = (s.unbuffer.setTag f.tag (some e)).tag u) (harmed : k.pool.armed = s.pool.armed) (hin : s.sameInputs k)
    (hready : (g (s.record x b)).readyPass = (s.record x b).readyPass) :
    let m := (k.modRecord x b g).testBlock x b
    m.tag f.tag = some e ∧ (∀ u, u ≠ f.tag → m.tag u = s.tag u) ∧ s.rqu.sameButTags m.rqu ∧ m.link = s.unbuffer.link
      ∧ m.pool.armed = s.pool.armed ∧ (s.lane x).sameButWork (m.lane x) ∧ (m.lane x).workQueue = (s.lane x).workQueue
      ∧ s.BlockTested m x b (s.record x b).readyPass ∧ (s.lane x).sameRecordsBut (m.lane x) b ∧ s.sameLanesBut m x ∧ s.sameInputs m
      ∧ (g (s.record x b)).sameButReady (m.record x b) ∧ ∀ i, m.slot i = k.slot i := by
  intro m
  have hset : s.Retested m x b (g (s.record x b)) := State.Retested.of_lanes hx hb (State.modRecord_lanes hlanes x b g)
  obtain ⟨tlink, trqu, tpool, t1, t2, t3⟩ := (k.modRecord x b g).testBlock_frame x b
  obtain ⟨i1, i2, i3⟩ := hin
  have hmtag : ∀ u, m.tag u = (s.unbuffer.setTag f.tag (some e)).tag u := fun u => (State.testBlock_tag _ x b u).trans (htag u)
  refine ⟨(hmtag _).trans (State.tag_setTag_same _ _ ht), fun u hu => (hmtag u).trans (State.tag_setTag_ne _ _ hu), ?_, tlink.trans hlink,
    (congrArg Pool.armed tpool).trans harmed, hset.lane, hset.queue, hready ▸ hset.tested, hset.records, hset.lanes, ?_, hset.record, fun i => State.testBlock_slot _ x b i⟩
  · exact trqu ▸ hrqu
  · exact ⟨t1.1.trans i1, t1.2.1.trans i2, t1.2.2.trans i3⟩

/-- Settles O41: the refusals in their order, and the CLOSE of a SWIFT and of a DENSE block. -/
theorem closeBegins : Obligations.CloseBegins := by
  refine ⟨fun s f x b hadm hreach => ?_, fun s f x b hadm hreach hformed hwp hopen herase hfill hpos => ?_⟩
  · intro r busy
    have hrefuse : ∀ st, s.closeCheck x b = some st → exec .close s = .next (s.conclude [] (s.refusedWith f st .plain)) := fun st hc =>
      exec_requestCheck hadm hc
    refine ⟨fun hwp => hrefuse _ ?_, fun hwp hst => hrefuse _ ?_, fun hwp hst hbusy => hrefuse _ ?_⟩ <;>
      rw [State.closeCheck_reaches hreach, hwp]
    · rfl
    · rw [decide_eq_true (show (s.record x b).state ≠ .opened from hst)]
      rfl
    · have hb : (s.anyFilling x b || (s.record x b).erasePending) = true :=
        Bool.or_eq_true_iff.mpr (hbusy.symm.imp (s.anyFilling_iff x b).mpr id)
      rw [decide_eq_false (not_not_intro hst), hb]
      rfl
  · intro r n hkind
    have hexec := execClose_taken hadm hreach hwp hopen herase hfill
    obtain ⟨-, -, -, htag, -, -⟩ := id hadm
    obtain ⟨hx, hb, -⟩ := hreach
    obtain ⟨e, he⟩ : ∃ e, e = TagEntry.mk' .close .waiting (some x) (some b) none := ⟨_, rfl⟩
    rw [← he] at hexec ⊢
    obtain ⟨k, hk⟩ : ∃ k, k = s.unbuffer.setTag f.tag (some e) := ⟨_, rfl⟩
    rw [← hk] at hexec
    have hkr : k.record x b = r := by
      rw [hk]
      rfl
    have hkslot : ∀ i, k.slot i = s.slot i := fun i => by
      rw [hk]
      rfl
    have hmore : ¬(k.record x b).nothingLeft = true := fun h => by
      rw [hkr] at h
      obtain h0 | ⟨hsw, hdone⟩ := r.nothingLeft_iff.mp h
      · exact hpos.ne' h0
      · obtain hd | ⟨-, hne⟩ := hkind
        · exact absurd (hd.symm.trans hsw) (by decide)
        · exact hne hdone
    unfold State.closeBlock at hexec
    dsimp only at hexec
    rw [if_neg hmore, hkr] at hexec
    obtain hdense | ⟨hswift, -⟩ := hkind
    · rw [if_neg (by rw [hdense]; decide)] at hexec
      have hformed' : k.SlotsFormed := fun i => by rw [hkslot]; exact hformed i
      obtain ⟨clink, clanes, crqu, ctag, carmed, cin⟩ := State.closeSlots_frame hformed' x b n
      have hlast : stripEnd r.intakeNext = 4 * n + 4 := by
        show (r.intakeNext + 3) / 4 * 4 = 4 * ((r.intakeNext - 1) / 4) + 4
        have hpos' : 0 < r.intakeNext := hpos
        omega
      have hstrip : lastStrip r.intakeNext = n := rfl
      rw [k.closeDense_eq, hkr, hlast, hstrip] at hexec
      have hrqu : (s.rqu.withTag f.tag e).sameButTags (k.closeSlots x b n).rqu := by
        rw [hk] at crqu ⊢
        exact crqu
      obtain ⟨h1, h2, h3, h4, h5, h6, h7, h8, h9, h10, h11, hrec, hslot⟩ := State.closing_leaves (s := s) (k := k.closeSlots x b n) (e := e) (f := f)
        (g := fun q => { q with dataEnd := some r.intakeNext, intakeNext := 4 * n + 4, state := .closing }) hx hb htag
        (clink.trans (by rw [hk]; rfl)) (clanes.trans (by rw [hk]; rfl)) hrqu (fun u => (ctag u).trans (by rw [hk]))
        (carmed.trans (by rw [hk]; rfl)) (by rw [hk] at cin ⊢; exact cin) rfl
      refine ⟨_, hexec, h1, h2, h3, h4, h5, h6, h7, h8, h9, h10, h11, fun hsw => absurd (hdense.symm.trans hsw) (by decide), fun _ =>
        ⟨hrec, fun i ho hres hp => ?pad, fun i ho hres hp => ?above, fun i hno => ?kept⟩⟩
      all_goals rw [hslot, k.closeSlots_slot]
      case pad =>
        rw [if_pos ((k.mem_reservedIn x b n i).mpr (by rw [hkslot]; exact ⟨ho, hres, hp⟩)), hkslot]
        exact Slot.padFill_reserved (hformed i) hres
      case above =>
        rw [if_neg fun h => ?lower, if_pos ((k.mem_reservedIn x b (n + 1) i).mpr (by rw [hkslot]; exact ⟨ho, hres, hp⟩)), hkslot]
        case lower =>
          obtain ⟨-, -, hp'⟩ := (k.mem_reservedIn x b n i).mp h
          rw [hkslot] at hp'
          omega
      case kept =>
        have hout : ∀ j, j = n ∨ j = n + 1 → i ∉ k.reservedIn x b j := fun j hj h => by
          obtain ⟨ho, hres, hp⟩ := (k.mem_reservedIn x b j i).mp h
          rw [hkslot] at ho hres hp
          obtain h | h | ⟨h, h'⟩ := hno
          · exact absurd (h.symm.trans ho) (by decide)
          · exact h hres
          · exact hj.elim (fun hj => h (hp.trans hj)) (fun hj => h' (hp.trans hj))
        rw [if_neg (hout n (.inl rfl)), if_neg (hout (n + 1) (.inr rfl)), hkslot]
    · rw [if_pos hswift, k.closeSwift_eq] at hexec
      obtain ⟨h1, h2, h3, h4, h5, h6, h7, h8, h9, h10, h11, hrec, hslot⟩ := State.closing_leaves (s := s) (k := k) (e := e) (f := f)
        (g := fun q => { q with dataEnd := some q.intakeNext, state := .closing }) hx hb htag
        (by rw [hk]; rfl) (by rw [hk]; rfl) (by rw [hk]; rfl) (fun u => by rw [hk]) (by rw [hk]; rfl) (by rw [hk]; exact ⟨rfl, rfl, rfl⟩) rfl
      exact ⟨_, hexec, h1, h2, h3, h4, h5, h6, h7, h8, h9, h10, h11, fun _ => ⟨hrec, fun i => (hslot i).trans (hkslot i)⟩,
        fun hd => absurd (hd.symm.trans hswift) (by decide)⟩

end Sys2Proof.Machine
end

