-- ==== Sys2Proof/Proofs/Discarding.lean ====
section
/-! PROOFS. DISCARD (R140, R141). -/

namespace Sys2Proof.Machine

/-! ### The pages given up -/

theorem BlockRec.heldCount_failed {r : BlockRec} (h : r.state = .failed) : r.heldCount = r.intakeNext - r.firstHeld := by
  unfold BlockRec.heldCount
  rw [h]

/-- The slots of the block, in page order. -/
def State.pageSlots (s : State) (x b : Nat) : List Nat := sortByKey (fun i => (s.slot i).pageNumber) (s.ownedSlots x b)

theorem State.mem_pageSlots (s : State) (x b i : Nat) : i ∈ s.pageSlots x b ↔ (s.slot i).ownedBy x b = true := by
  unfold State.pageSlots
  rw [mem_sortByKey, State.mem_ownedSlots]

theorem State.pageSlots_nodup (s : State) (x b : Nat) : (s.pageSlots x b).Nodup := sortByKey_nodup _ (s.ownedSlots_nodup x b)

theorem State.mem_slotTags (s : State) (x b t : Nat) :
    t ∈ s.slotTags x b ↔ ∃ i, (s.slot i).ownedBy x b = true ∧ (s.slot i).tag = some t := by
  have hlist : s.slotTags x b = (s.pageSlots x b).filterMap (fun i => (s.slot i).tag) := rfl
  rw [hlist, List.mem_filterMap]
  simp only [State.mem_pageSlots]

/-- The write tags that a DISCARD ends, each with its status. -/
def State.discardTags (s : State) (x b : Nat) : List (Nat × Status) := (s.slotTags x b).map (fun t => (t, .discarded))

theorem State.discardTags_fst (s : State) (x b : Nat) : (s.discardTags x b).map Prod.fst = s.slotTags x b := by
  unfold State.discardTags
  rw [List.map_map]
  exact List.map_id _

/-- A DISCARD's block with its slots released and its record closed, before its tags end. -/
def State.discarded (s : State) (x b : Nat) : State := (s.releaseSlots (s.ownedSlots x b)).modRecord x b BlockRec.closeAtFinal

theorem State.discard_eq (s : State) (x b : Nat) :
    s.discard x b = (s.discardTags x b).foldl (fun s e => s.endWrite e.1 e.2) (s.discarded x b) := by
  unfold State.discardTags
  rw [List.foldl_map]
  rfl

theorem State.discarded_frame (s : State) (x b : Nat) :
    (s.discarded x b).link = s.link ∧ (s.discarded x b).lanes = (s.modRecord x b BlockRec.closeAtFinal).lanes
      ∧ s.rqu.sameButTags (s.discarded x b).rqu ∧ (s.discarded x b).pool.armed = s.pool.armed ∧ s.sameInputs (s.discarded x b) := by
  obtain ⟨hlink, hlanes, hrqu, harmed, hin⟩ := s.leaveSlots_frame (s.ownedSlots x b) fun _ => Slot.release
  exact ⟨hlink, State.modRecord_lanes hlanes x b _, hrqu, harmed, hin⟩

theorem State.discard_frame (s : State) (x b : Nat) :
    (s.discard x b).lanes = (s.modRecord x b BlockRec.closeAtFinal).lanes ∧ s.rqu.sameButTags (s.discard x b).rqu
      ∧ s.link.sameButReplies (s.discard x b).link ∧ (s.discard x b).pool.armed = s.pool.armed ∧ s.sameInputs (s.discard x b) := by
  obtain ⟨dlink, dlanes, drqu, darmed, d1, d2, d3⟩ := s.discarded_frame x b
  have h := State.endWrites_frame (s.discarded x b) (s.discardTags x b)
  obtain ⟨h1, h2, h3⟩ := h.inputs
  rw [State.discard_eq]
  refine ⟨h.lanes.trans dlanes, ?_, dlink ▸ h.link, ?_, h1.trans d1, h2.trans d2, h3.trans d3⟩
  · have hrqu := h.rqu
    unfold Rqu.sameButTags at hrqu drqu ⊢
    rw [hrqu, drqu]
  · rw [h.pool]
    exact darmed

theorem State.discard_slot (s : State) (x b i : Nat) :
    (s.discard x b).slot i = if (s.slot i).ownedBy x b = true then (s.slot i).release else s.slot i := by
  rw [State.discard_eq, (State.endWrites_frame _ _).slot]
  show (s.releaseSlots (s.ownedSlots x b)).slot i = _
  rw [State.releaseSlots_eq]
  split
  · rename_i ho
    exact State.slot_leaveSlots_mem _ _ (s.ownedSlots_nodup x b) ((s.mem_ownedSlots x b i).mpr ho) (s.owned_lt ho)
  · rename_i ho
    exact State.slot_leaveSlots_ne _ _ _ fun hi => ho ((s.mem_ownedSlots x b i).mp hi)

theorem State.discarded_tag (s : State) (x b t : Nat) :
    (s.discarded x b).tag t = if t ∈ s.slotTags x b then (s.tag t).map TagEntry.dropSlot else s.tag t := by
  show (s.releaseSlots (s.ownedSlots x b)).tag t = _
  rw [State.releaseSlots_eq, State.tag_leaveSlots _ _ (s.ownedSlots_nodup x b)]
  refine if_congr ?_ rfl rfl
  rw [State.mem_slotTags]
  simp only [State.mem_ownedSlots]

theorem State.discard_tag (s : State) (x b t : Nat) :
    (s.discard x b).tag t
      = if t ∈ s.slotTags x b then (s.tag t).map (fun e => { e with state := .replying, slot := none }) else s.tag t := by
  rw [State.discard_eq, State.endWrites_tag, State.discardTags_fst, State.discarded_tag]
  split
  · rw [Option.map_map]
    rfl
  · rfl

theorem State.discard_keeps (s : State) {x b t : Nat} {e : TagEntry} (hm : t ∈ s.slotTags x b) (he : s.tag t = some e)
    (hopen : e.state ≠ .replying) :
    (s.discard x b).link.keeps
      (QueueEntry.finalOf t e.kind .discarded (.page (e.lane.getD 0) (e.block.getD 0) (e.page.getD 0)) none) := by
  rw [State.discard_eq]
  have hdropped : (s.discarded x b).tag t = some e.dropSlot := by
    rw [State.discarded_tag, if_pos hm, he]
    rfl
  refine State.endWrites_keeps (e := e.dropSlot) _ _ hdropped hopen (List.mem_map_of_mem hm) fun a ha _ => ?_
  obtain ⟨u, -, rfl⟩ := List.mem_map.mp ha
  rfl

theorem State.discard_placeFree {s : State} {u : Nat} (h : s.PlaceFree u) (x b : Nat) :
    (s.discard x b).link.queue.any (QueueEntry.reservedFor u) = false := by
  obtain ⟨hnone, hfree⟩ := h
  rw [State.discard_eq]
  refine State.endWrites_placeFree _ _ u ?_ ?_
  · rw [State.discarded_tag, hnone]
    exact ite_self _
  · rw [(s.discarded_frame x b).1]
    exact hfree

/-- The replies of a DISCARD take their places in page order (R141). -/
theorem State.discard_link (s : State) (x b : Nat) (h : s.WritesOpen (fun i => (s.slot i).ownedBy x b = true)) :
    (s.discard x b).link
      = (s.slotReplies (s.pageSlots x b) (fun _ t e => QueueEntry.writeEnd t e .discarded)).foldl Link.placeFinal s.link := by
  have hmem : ∀ i ∈ s.pageSlots x b, (s.slot i).ownedBy x b = true := fun i hi => (s.mem_pageSlots x b i).mp hi
  rw [State.discard_eq, State.endWrites_link]
  · rw [(s.discarded_frame x b).1]
    congr 1
    unfold State.discardTags
    rw [List.filterMap_map]
    refine Eq.trans ?_ (State.slotReplies_leaveSlots s (fun _ => Slot.release) (s.ownedSlots_nodup x b)
      (fun _ t e => QueueEntry.writeEnd t e .discarded) fun _ _ _ => rfl)
    exact List.filterMap_filterMap
  · rw [State.discardTags_fst]
    exact h.tags_nodup (s.pageSlots_nodup x b) hmem
  · intro a ha e he
    obtain ⟨t, ht, rfl⟩ := List.mem_map.mp ha
    obtain ⟨i, ho, hi⟩ := (s.mem_slotTags x b t).mp ht
    rw [State.discarded_tag, if_pos ht] at he
    obtain ⟨g, hg, rfl⟩ := Option.map_eq_some_iff.mp he
    exact h.2 i t g ho hi hg

/-! ### The request -/

theorem State.discardCheck_reaches {s : State} {x b : Nat} (h : s.Reaches x b) :
    s.discardCheck x b
      = (failsWith (decide ((s.record x b).state ≠ .failed)) .blockState).or (failsWith (s.anyFilling x b) .blockBusy) := by
  unfold State.discardCheck
  rw [h.addressCheck]
  rfl

theorem execDiscard_taken {s : State} {f : InFrame} {x b : Nat} (h : s.Admits f .discard (.discard x b)) (hr : s.Reaches x b)
    (hst : (s.record x b).state = .failed) (hf : ∀ i, (s.slot i).ownedBy x b = true → (s.slot i).state ≠ .filling) :
    exec .discard s
      = .next (s.conclude [x]
          ((s.unbuffer.discard x b).answer f.tag (TagEntry.mk' .discard .replying (some x) (some b) none) .done
            (.discarded x b ((s.record x b).intakeNext - (s.record x b).firstHeld) (s.record x b).firstHeld) none)) := by
  have hcheck : s.unbuffer.discardCheck x b = none := by
    show s.discardCheck x b = none
    rw [State.discardCheck_reaches hr, hst, State.anyFilling_false hf]
    rfl
  refine (execDiscard.eq_1 s).trans ((takeRequest_admits _ h).trans ?_)
  dsimp only
  rw [hcheck, State.unbuffer_record, BlockRec.heldCount_failed hst]
  rfl

/-- Settles O52: the refusals in their order, and the pages given up before the DISCARD's own reply. -/
theorem discardGivesUp : Obligations.DiscardGivesUp := by
  refine ⟨fun s f x b hadm hreach => ⟨fun hst => exec_requestCheck hadm ?_, fun hst hfill => exec_requestCheck hadm ?_⟩,
    fun s f x b hadm hreach hst hfill => ?_⟩
  · show s.discardCheck x b = _
    rw [State.discardCheck_reaches hreach, decide_eq_true hst]
    rfl
  · show s.discardCheck x b = _
    rw [State.discardCheck_reaches hreach, decide_eq_false (not_not_intro hst), (s.anyFilling_iff x b).mpr hfill]
    rfl
  intro r
  have hexec := execDiscard_taken hadm hreach hst hfill
  have hfree : s.unbuffer.PlaceFree f.tag := hadm.placeFree
  obtain ⟨-, -, -, htag, hnone, -⟩ := hadm
  obtain ⟨hx, hb, -⟩ := hreach
  obtain ⟨own, hown⟩ : ∃ q, q = QueueEntry.finalOf f.tag .discard .done (.discarded x b (r.intakeNext - r.firstHeld) r.firstHeld) none :=
    ⟨_, rfl⟩
  obtain ⟨k, hk⟩ : ∃ k, k = s.unbuffer.discard x b := ⟨_, rfl⟩
  obtain ⟨m, hm⟩ : ∃ m, m = k.answer f.tag (TagEntry.mk' .discard .replying (some x) (some b) none) .done
      (.discarded x b (r.intakeNext - r.firstHeld) r.firstHeld) none := ⟨_, rfl⟩
  rw [← hown]
  have hexec' : exec .discard s = .next (s.conclude [x] m) := by
    rw [hm, hk]
    exact hexec
  obtain ⟨dlanes, drqu, dlink, darmed, d1, d2, d3⟩ := s.unbuffer.discard_frame x b
  rw [← hk] at dlanes drqu dlink darmed d1 d2 d3
  have hmlink : m.link = k.link.placeFinal own := by
    rw [hm, hown]
    rfl
  have hmlane : ∀ y, m.lane y = k.lane y := fun y => by
    rw [hm]
    rfl
  have hlane : m.lane x = (s.lane x).modRecord b BlockRec.closeAtFinal :=
    (hmlane x).trans ((State.lane_of_lanes dlanes x).trans (State.lane_modRecord_same s.unbuffer b _ hx))
  have hslot : ∀ i, m.slot i = if (s.slot i).ownedBy x b = true then (s.slot i).release else s.slot i := fun i => by
    rw [hm]
    show k.slot i = _
    rw [hk]
    exact s.unbuffer.discard_slot x b i
  have hmtag : ∀ u, u ≠ f.tag → m.tag u
      = if u ∈ s.slotTags x b then (s.tag u).map (fun e => { e with state := .replying, slot := none }) else s.tag u := fun u hu => by
    rw [hm, State.answer_tag_ne _ _ _ _ _ hu, hk]
    exact s.unbuffer.discard_tag x b u
  have hlast : m.link = { k.link with queue := k.link.queue ++ [own] } := by
    rw [hmlink]
    refine Link.placeFinal_tail _ _ ?_
    rw [hown, hk]
    exact State.discard_placeFree hfree x b
  refine ⟨m, hexec', ?_, fun i ho => (hslot i).trans (if_pos ho), fun i ho => (hslot i).trans (if_neg (by simp [ho])),
    fun i t e ho ht he hopen => ?write, ⟨s.pageSlots x b, s.mem_pageSlots x b, s.pageSlots_nodup x b, sortByKey_pairwise _ _, fun h => ?link⟩,
    ?_, ?_, fun u hu hno => ?_, ?_, fun c hc => ?_, fun y hy => ?_, ?_, ?_, ?_, ?_⟩
  · rw [State.record, hlane]
    exact Lane.record_modRecord_same _ _ hb
  case write =>
    have hmem : t ∈ s.slotTags x b := (s.mem_slotTags x b t).mpr ⟨i, ho, ht⟩
    have hne : t ≠ f.tag := fun h => nomatch (h ▸ he).symm.trans hnone
    refine ⟨?_, ?_⟩
    · rw [hmtag t hne, if_pos hmem, he]
      rfl
    · rw [hmlink]
      refine Link.keeps.holds (Link.keeps.placeFinal ?_ rfl own (by rw [hown]; exact Ne.symm hne))
      rw [hk]
      exact s.unbuffer.discard_keeps hmem he hopen
  case link =>
    rw [List.foldl_append, hmlink, hk, s.unbuffer.discard_link x b h]
    rfl
  · rw [hm]
    exact State.answer_tag_same _ _ _ _ _ htag
  · rw [hlast]
    exact List.getLast?_concat
  · rw [hmtag u hu, if_neg]
    rintro hmem
    obtain ⟨i, ho, ht⟩ := (s.mem_slotTags x b u).mp hmem
    exact hno i ho ht
  · rw [hlane]
    rfl
  · rw [hlane]
    exact Lane.record_modRecord_ne _ _ hc
  · exact (hmlane y).trans ((State.lane_of_lanes dlanes y).trans (State.lane_modRecord_ne s.unbuffer b _ hy))
  · have hrqu : k.rqu.sameButTags m.rqu := by
      rw [hm]
      rfl
    unfold Rqu.sameButTags at hrqu drqu ⊢
    rw [hrqu, drqu]
    rfl
  · unfold Link.sameButReplies at dlink ⊢
    rw [hlast, dlink]
  · rw [hm]
    exact darmed
  · rw [hm]
    exact ⟨d1, d2, d3⟩

end Sys2Proof.Machine
end

