-- ==== Sys2Proof/Proofs/Relocating.lean ====
section
/-! PROOFS. RELOCATE (R135 to R138): what becomes of the slots, the tags and the records. -/

namespace Sys2Proof.Machine

/-! ### Slots by their form (R45) -/

theorem Slot.release_free {sl : Slot} (h : sl.wf = true) (hs : sl.state = .free) : sl.release = sl := by
  unfold Slot.wf at h
  rw [hs] at h
  simp only [Bool.and_eq_true, decide_eq_true_iff, Bool.not_eq_true'] at h
  obtain ⟨⟨⟨⟨⟨howner, htag⟩, hpad⟩, hchunks⟩, hpins⟩, htimer⟩ := h
  unfold Slot.release
  rw [if_pos hpins]
  cases sl
  cases hs
  cases howner
  cases htag
  cases hpad
  cases hchunks
  cases hpins
  cases htimer
  rfl

theorem Slot.not_owned_free {sl : Slot} (h : sl.wf = true) (hs : sl.state = .free) (x b : Nat) : sl.ownedBy x b = false := by
  unfold Slot.wf at h
  rw [hs] at h
  simp only [Bool.and_eq_true, decide_eq_true_iff] at h
  unfold Slot.ownedBy
  rw [h.1.1.1.1.1]

theorem Slot.not_owned_detached {sl : Slot} (h : sl.wf = true) (hs : sl.state = .detached) (x b : Nat) : sl.ownedBy x b = false := by
  unfold Slot.wf at h
  rw [hs] at h
  simp only [Bool.and_eq_true, decide_eq_true_iff] at h
  unfold Slot.ownedBy
  rw [h.1.1.1.1.1]

/-- A slot that a block owns is RESERVED, FILLING, or held. -/
theorem Slot.owned_cases {sl : Slot} (h : sl.wf = true) {x b : Nat} (ho : sl.ownedBy x b = true) :
    sl.state = .reserved ∨ sl.state = .filling ∨ sl.state = .staged ∨ sl.state = .roughed := by
  cases hs : sl.state with
  | free => exact absurd (ho.symm.trans (Slot.not_owned_free h hs x b)) (by decide)
  | detached => exact absurd (ho.symm.trans (Slot.not_owned_detached h hs x b)) (by decide)
  | reserved => exact .inl rfl
  | filling => exact .inr (.inl rfl)
  | staged => exact .inr (.inr (.inl rfl))
  | roughed => exact .inr (.inr (.inr rfl))

theorem Slot.state_release (sl : Slot) : sl.release.state = if sl.pins = 0 then .free else .detached := by
  unfold Slot.release
  split <;> rfl

/-! ### The source's slots -/

/-- What a RELOCATE of block `a` of lane `x` to block `b` may rest on. -/
structure State.Relocatable (s : State) (x a b : Nat) : Prop where
  formed : s.SlotsFormed
  distinct : a ≠ b
  unfilled : ∀ i, (s.slot i).ownedBy x a = true → (s.slot i).state ≠ .filling

theorem State.mem_heldSlots (s : State) (x a i : Nat) :
    i ∈ s.heldSlots x a ↔ (s.slot i).ownedBy x a = true ∧ ((s.slot i).state = .staged ∨ (s.slot i).state = .roughed) := by
  unfold State.heldSlots
  rw [List.mem_filter, State.mem_ownedSlots, Bool.or_eq_true, decide_eq_true_iff, decide_eq_true_iff]

theorem State.heldSlots_nodup (s : State) (x a : Nat) : (s.heldSlots x a).Nodup := (s.ownedSlots_nodup x a).filter _

/-- The held slots relabelled. -/
def State.relabelled (s : State) (x a b : Nat) : State :=
  s.modSlots (s.heldSlots x a) (Slot.relocate x b (s.record x a).firstHeld)

/-- The held slots relabelled and the source's other slots released. -/
def State.vacated (s : State) (x a b : Nat) : State := (s.relabelled x a b).releaseSlots ((s.relabelled x a b).ownedSlots x a)

theorem State.relabelled_slot (s : State) (x a b i : Nat) :
    (s.relabelled x a b).slot i
      = if i ∈ s.heldSlots x a then (s.slot i).relocate x b (s.record x a).firstHeld else s.slot i := by
  unfold State.relabelled
  split
  · rename_i hi
    exact s.slot_modSlots_mem _ (s.heldSlots_nodup x a) hi (s.owned_lt ((s.mem_heldSlots x a i).mp hi).1)
  · rename_i hi
    exact s.slot_modSlots_ne _ _ hi

theorem Slot.ownedBy_relocate (sl : Slot) (x b first y a : Nat) :
    (sl.relocate x b first).ownedBy y a = (decide (x = y) && decide (b = a)) := rfl

theorem State.Relocatable.mem_owned_relabelled {s : State} {x a b : Nat} (h : s.Relocatable x a b) (i : Nat) :
    i ∈ (s.relabelled x a b).ownedSlots x a ↔ (s.slot i).ownedBy x a = true ∧ (s.slot i).state = .reserved := by
  rw [State.mem_ownedSlots, State.relabelled_slot]
  split
  · rename_i hi
    obtain ⟨-, hheld⟩ := (s.mem_heldSlots x a i).mp hi
    rw [Slot.ownedBy_relocate, decide_eq_false (Ne.symm h.distinct), Bool.and_false]
    refine ⟨fun hf => absurd hf (by decide), fun hres => ?_⟩
    rw [hres.2] at hheld
    exact hheld.elim (fun hst => nomatch hst) (fun hst => nomatch hst)
  · rename_i hi
    refine ⟨fun ho => ⟨ho, ?_⟩, And.left⟩
    obtain hst | hst | hst := Slot.owned_cases (h.formed i) ho
    · exact hst
    · exact absurd hst (h.unfilled i ho)
    · exact absurd ((s.mem_heldSlots x a i).mpr ⟨ho, hst⟩) hi

theorem State.Relocatable.vacated_frame {s : State} {x a b : Nat} (h : s.Relocatable x a b) :
    (s.vacated x a b).link = s.link ∧ (s.vacated x a b).lanes = s.lanes ∧ s.rqu.sameButTags (s.vacated x a b).rqu
      ∧ (∀ u, (s.vacated x a b).tag u = s.tag u) ∧ (s.vacated x a b).pool.armed = s.pool.armed ∧ s.sameInputs (s.vacated x a b) := by
  obtain ⟨mlink, mrqu, mlanes, marmed, m1, m2, m3⟩ := s.modSlots_frame (s.heldSlots x a) (Slot.relocate x b (s.record x a).firstHeld)
  obtain ⟨llink, llanes, lrqu, larmed, l1, l2, l3⟩ := (s.relabelled x a b).leaveSlots_frame ((s.relabelled x a b).ownedSlots x a)
    fun _ => Slot.release
  refine ⟨llink.trans mlink, llanes.trans mlanes, mrqu ▸ lrqu, fun u => ?_, larmed.trans marmed, l1.trans m1, l2.trans m2, l3.trans m3⟩
  unfold State.vacated
  rw [State.releaseSlots_eq, State.leaveSlots_tag_none _ _ (State.ownedSlots_nodup _ x a)]
  · exact State.tag_of_rqu (congrArg Rqu.tags mrqu) u
  · intro i hi ht
    obtain ⟨ho, hres⟩ := (h.mem_owned_relabelled i).mp hi
    have hnot : i ∉ s.heldSlots x a := fun hheld => by
      obtain ⟨-, hst⟩ := (s.mem_heldSlots x a i).mp hheld
      rw [hres] at hst
      exact hst.elim (fun hst => nomatch hst) (fun hst => nomatch hst)
    rw [State.relabelled_slot, if_neg hnot] at ht
    exact nomatch ht.symm.trans (Slot.reserved_fields (h.formed i) hres).1

theorem State.Relocatable.vacated_held {s : State} {x a b i : Nat} (h : s.Relocatable x a b) (hi : i ∈ s.heldSlots x a) :
    (s.vacated x a b).slot i = (s.slot i).relocate x b (s.record x a).firstHeld := by
  unfold State.vacated
  rw [State.releaseSlots_eq, State.slot_leaveSlots_ne, State.relabelled_slot, if_pos hi]
  intro hown
  obtain ⟨-, hst⟩ := (s.mem_heldSlots x a i).mp hi
  rw [((h.mem_owned_relabelled i).mp hown).2] at hst
  exact hst.elim (fun hst => nomatch hst) (fun hst => nomatch hst)

theorem State.Relocatable.vacated_other {s : State} {x a b i : Nat} (h : s.Relocatable x a b) (hi : i ∉ s.heldSlots x a) :
    (s.vacated x a b).slot i
      = if (s.slot i).ownedBy x a = true ∧ (s.slot i).state = .reserved then (s.slot i).release else s.slot i := by
  have hsame : (s.relabelled x a b).slot i = s.slot i := by rw [State.relabelled_slot, if_neg hi]
  unfold State.vacated
  rw [State.releaseSlots_eq]
  split
  · rename_i hres
    rw [State.slot_leaveSlots_mem _ _ (State.ownedSlots_nodup _ x a) ((h.mem_owned_relabelled i).mpr hres) (s.owned_lt hres.1), hsame]
  · rename_i hres
    rw [State.slot_leaveSlots_ne _ _ _ fun hown => hres ((h.mem_owned_relabelled i).mp hown), hsame]

/-! ### The FREE slots it counts on -/

/-- The slot is FREE, or an unpinned RESERVED one of block `a` of lane `x`. -/
def Slot.suppliesFrom (x a : Nat) (sl : Slot) : Bool :=
  decide (sl.state = .free) || (sl.ownedBy x a && decide (sl.state = .reserved) && decide (sl.pins = 0))

/-- The FREE slots a RELOCATE counts on, lowest first. -/
def State.relocateFree (s : State) (x a : Nat) : List Nat := slotNumbers.filter (fun i => (s.slot i).suppliesFrom x a)

theorem State.mem_relocateFree (s : State) (x a i : Nat) :
    i ∈ s.relocateFree x a
      ↔ i < 96 ∧ ((s.slot i).state = .free ∨ ((s.slot i).ownedBy x a = true ∧ (s.slot i).state = .reserved ∧ (s.slot i).pins = 0)) := by
  unfold State.relocateFree Slot.suppliesFrom
  rw [List.mem_filter, mem_slotNumbers]
  simp only [Bool.or_eq_true, Bool.and_eq_true, decide_eq_true_iff, and_assoc]

theorem State.relocateFree_nodup (s : State) (x a : Nat) : (s.relocateFree x a).Nodup := slotNumbers_nodup.filter _

theorem countP_or_disjoint {α : Type} {p q : α → Bool} (l : List α) (h : ∀ a ∈ l, p a = true → q a = false) :
    l.countP (fun a => p a || q a) = l.countP p + l.countP q := by
  induction l with
  | nil => rfl
  | cons a l ih =>
    have hrest := ih fun c hc => h c (List.mem_cons_of_mem a hc)
    rw [List.countP_cons, List.countP_cons, List.countP_cons, hrest]
    cases hp : p a with
    | false =>
      rw [Bool.false_or]
      simp only [Bool.false_eq_true, if_false]
      omega
    | true =>
      rw [h a List.mem_cons_self hp]
      simp only [Bool.true_or, Bool.false_eq_true, if_true, if_false]
      omega

theorem State.relocateSupply_eq {s : State} (h : s.SlotsFormed) (x a : Nat) : s.relocateSupply x a = (s.relocateFree x a).length := by
  unfold State.relocateFree Slot.suppliesFrom State.relocateSupply State.freeCount State.slotsIn State.ownedSlots
  rw [← List.countP_eq_length_filter, ← List.countP_eq_length_filter, List.countP_filter, countP_or_disjoint]
  · congr 1
    refine List.countP_congr fun i _ => ?_
    simp only [Bool.and_eq_true, decide_eq_true_iff]
    tauto
  · intro i _ hfree
    rw [Slot.not_owned_free (h i) (of_decide_eq_true hfree)]
    rfl

theorem State.Relocatable.vacated_free {s : State} {x a b i : Nat} (h : s.Relocatable x a b) (hi : i ∈ s.relocateFree x a) :
    i ∉ s.heldSlots x a ∧ (s.vacated x a b).slot i = (s.slot i).release := by
  obtain ⟨-, hcase⟩ := (s.mem_relocateFree x a i).mp hi
  have hnot : i ∉ s.heldSlots x a := fun hheld => by
    obtain ⟨ho, hst⟩ := (s.mem_heldSlots x a i).mp hheld
    obtain hfree | ⟨-, hres, -⟩ := hcase
    · exact absurd (ho.symm.trans (Slot.not_owned_free (h.formed i) hfree x a)) (by decide)
    · rw [hres] at hst
      exact hst.elim (fun hst => nomatch hst) (fun hst => nomatch hst)
  refine ⟨hnot, ?_⟩
  rw [h.vacated_other hnot]
  obtain hfree | ⟨ho, hres, -⟩ := hcase
  · rw [if_neg (fun hc => absurd (hfree.symm.trans hc.2) (by decide))]
    exact (Slot.release_free (h.formed i) hfree).symm
  · exact if_pos ⟨ho, hres⟩

theorem State.Relocatable.vacated_slotsIn {s : State} {x a b : Nat} (h : s.Relocatable x a b) :
    (s.vacated x a b).slotsIn .free = s.relocateFree x a := by
  unfold State.slotsIn State.relocateFree
  refine List.filter_congr fun i hi => ?_
  have hmem : (s.slot i).suppliesFrom x a = true ↔ i ∈ s.relocateFree x a := by
    unfold State.relocateFree
    rw [List.mem_filter]
    exact ⟨fun hs => ⟨hi, hs⟩, And.right⟩
  rw [Bool.eq_iff_iff, decide_eq_true_iff, hmem]
  constructor
  · intro hfree
    refine (s.mem_relocateFree x a i).mpr ⟨mem_slotNumbers.mp hi, ?_⟩
    by_cases hheld : i ∈ s.heldSlots x a
    · obtain ⟨-, hst⟩ := (s.mem_heldSlots x a i).mp hheld
      rw [h.vacated_held hheld] at hfree
      have hmoved : (if (s.slot i).state = .roughed then SlotState.staged else (s.slot i).state) = .free := hfree
      obtain hst | hst := hst <;> rw [hst] at hmoved <;> exact nomatch hmoved
    · rw [h.vacated_other hheld] at hfree
      split at hfree
      · rename_i hres
        rw [Slot.state_release] at hfree
        refine .inr ⟨hres.1, hres.2, ?_⟩
        by_contra hpins
        rw [if_neg hpins] at hfree
        exact nomatch hfree
      · exact .inl hfree
  · intro hfree
    rw [(h.vacated_free hfree).2, Slot.state_release]
    obtain ⟨-, hst | ⟨-, -, hpins⟩⟩ := (s.mem_relocateFree x a i).mp hfree
    · have hwf := Slot.state_release (s.slot i)
      rw [Slot.release_free (h.formed i) hst, hst] at hwf
      exact hwf.symm
    · exact if_pos hpins

/-! ### The slots of the target's last strip -/

/-- The slots after a RELOCATE whose target has density `d` and takes `n` pages. -/
def State.settledIn (s : State) (x a b : Nat) (d : Option Density) (n : Nat) : State :=
  (s.vacated x a b).modEach (((s.vacated x a b).slotsIn .free).zip (relocatePages d n)) Prod.fst
    (fun e => Slot.reserveFor { lane := x, block := b, page := e.2 })

theorem length_relocatePages (d : Option Density) (n : Nat) : (relocatePages d n).length = relocateNeeds d n := by
  unfold relocatePages
  rw [List.length_map, List.length_range]

/-- The FREE slots it takes, each with its page. -/
theorem zip_relocatePages {free : List Nat} {d : Option Density} {n : Nat} (h : relocateNeeds d n ≤ free.length) :
    free.zip (relocatePages d n) = (free.take (relocateNeeds d n)).zip (relocatePages d n) := by
  rw [List.zip_eq_zip_take_min, length_relocatePages, min_eq_right h, List.take_of_length_le (length_relocatePages d n).le]

theorem State.Relocatable.settledIn_eq {s : State} {x a b : Nat} (h : s.Relocatable x a b) {d : Option Density} {n : Nat}
    (hroom : relocateNeeds d n ≤ (s.relocateFree x a).length) :
    s.settledIn x a b d n
      = (s.vacated x a b).modEach (((s.relocateFree x a).take (relocateNeeds d n)).zip (relocatePages d n)) Prod.fst
          (fun e => Slot.reserveFor { lane := x, block := b, page := e.2 }) := by
  unfold State.settledIn
  rw [h.vacated_slotsIn, zip_relocatePages hroom]

theorem zip_taken_fst (free : List Nat) (d : Option Density) (n : Nat) :
    ((free.take (relocateNeeds d n)).zip (relocatePages d n)).map Prod.fst = free.take (relocateNeeds d n) := by
  refine List.map_fst_zip ?_
  rw [length_relocatePages, List.length_take]
  exact min_le_left _ _

theorem State.Relocatable.settledIn_taken {s : State} {x a b : Nat} (h : s.Relocatable x a b) {d : Option Density} {n : Nat}
    (hroom : relocateNeeds d n ≤ (s.relocateFree x a).length) {k i : Nat} (hk : k < relocateNeeds d n)
    (hi : (s.relocateFree x a)[k]? = some i) :
    (s.settledIn x a b d n).slot i = (s.slot i).release.reserveFor { lane := x, block := b, page := n + k } := by
  have hmem : (i, n + k) ∈ ((s.relocateFree x a).take (relocateNeeds d n)).zip (relocatePages d n) := by
    refine List.mem_of_getElem? (i := k) (List.getElem?_zip_eq_some.mpr ⟨?_, ?_⟩)
    · rw [List.getElem?_take_of_lt hk]
      exact hi
    · unfold relocatePages
      rw [List.getElem?_map, List.getElem?_range hk]
      rfl
  have hfree : i ∈ s.relocateFree x a := List.mem_of_getElem? hi
  rw [h.settledIn_eq hroom, ← (h.vacated_free hfree).2]
  exact State.slot_modEach_mem (s.vacated x a b) (key := Prod.fst) (fun e => Slot.reserveFor { lane := x, block := b, page := e.2 })
    (by rw [zip_taken_fst]; exact (s.relocateFree_nodup x a).sublist (List.take_sublist _ _)) hmem
    ((s.mem_relocateFree x a i).mp hfree).1

theorem State.Relocatable.settledIn_other {s : State} {x a b : Nat} (h : s.Relocatable x a b) {d : Option Density} {n : Nat}
    (hroom : relocateNeeds d n ≤ (s.relocateFree x a).length) {i : Nat} (hi : i ∉ (s.relocateFree x a).take (relocateNeeds d n)) :
    (s.settledIn x a b d n).slot i = (s.vacated x a b).slot i := by
  rw [h.settledIn_eq hroom]
  refine State.slot_modEach_ne _ _ fun e he heq => hi ?_
  rw [heq, ← zip_taken_fst]
  exact List.mem_map_of_mem he

theorem State.Relocatable.settledIn_freeCount {s : State} {x a b : Nat} (h : s.Relocatable x a b) {d : Option Density} {n : Nat}
    (hroom : relocateNeeds d n ≤ (s.relocateFree x a).length) :
    (s.settledIn x a b d n).freeCount + relocateNeeds d n = (s.relocateFree x a).length := by
  obtain ⟨free, hfree⟩ : ∃ l, l = s.relocateFree x a := ⟨_, rfl⟩
  have hnodup : free.Nodup := hfree ▸ s.relocateFree_nodup x a
  have hleft : ((s.settledIn x a b d n).slotsIn .free).Perm (free.drop (relocateNeeds d n)) := by
    refine (List.perm_ext_iff_of_nodup (State.slotsIn_nodup _ .free) (hnodup.sublist (List.drop_sublist _ _))).mpr fun i => ?_
    rw [State.mem_slotsIn]
    by_cases htaken : i ∈ free.take (relocateNeeds d n)
    · obtain ⟨k, hk⟩ := List.mem_iff_getElem?.mp htaken
      have hlt : k < relocateNeeds d n := by
        have hle := (List.getElem?_eq_some_iff.mp hk).1
        rw [List.length_take] at hle
        omega
      rw [List.getElem?_take_of_lt hlt] at hk
      refine ⟨fun hst => ?_, fun hdrop => absurd hdrop (List.disjoint_left.mp (List.disjoint_take_drop hnodup le_rfl) htaken)⟩
      rw [h.settledIn_taken hroom hlt (hfree ▸ hk)] at hst
      exact nomatch hst.2
    · have hsplit : i ∈ free ↔ i ∈ free.drop (relocateNeeds d n) := by
        conv_lhs => rw [← List.take_append_drop (relocateNeeds d n) free, List.mem_append]
        exact or_iff_right htaken
      rw [h.settledIn_other hroom (hfree ▸ htaken), ← hsplit, hfree, ← h.vacated_slotsIn, State.mem_slotsIn]
  show ((s.settledIn x a b d n).slotsIn .free).length + _ = _
  rw [hleft.length_eq, List.length_drop, hfree]
  omega

theorem State.Relocatable.settledIn_kept {s : State} {x a b : Nat} (h : s.Relocatable x a b) {d : Option Density} {n : Nat}
    (hroom : relocateNeeds d n ≤ (s.relocateFree x a).length) {i : Nat} (hi : i ∉ s.relocateFree x a) :
    (s.settledIn x a b d n).slot i = (s.vacated x a b).slot i :=
  h.settledIn_other hroom fun htaken => hi (List.mem_of_mem_take htaken)

theorem State.Relocatable.settledIn_held {s : State} {x a b : Nat} (h : s.Relocatable x a b) {d : Option Density} {n : Nat}
    (hroom : relocateNeeds d n ≤ (s.relocateFree x a).length) {i : Nat} (hi : i ∈ s.heldSlots x a) :
    (s.settledIn x a b d n).slot i = { s.slot i with
        state := .staged, owner := some { lane := x, block := b, page := (s.slot i).pageNumber - (s.record x a).firstHeld } } := by
  rw [h.settledIn_kept hroom (fun hfree => (h.vacated_free hfree).1 hi), h.vacated_held hi]
  obtain ⟨-, hst⟩ := (s.mem_heldSlots x a i).mp hi
  have hstaged : (if (s.slot i).state = .roughed then SlotState.staged else (s.slot i).state) = .staged := by
    obtain hst | hst := hst <;> rw [hst] <;> rfl
  unfold Slot.relocate
  rw [hstaged]

theorem State.Relocatable.settledIn_left {s : State} {x a b : Nat} (h : s.Relocatable x a b) {d : Option Density} {n : Nat}
    (hroom : relocateNeeds d n ≤ (s.relocateFree x a).length) {k i : Nat} (hk : relocateNeeds d n ≤ k)
    (hi : (s.relocateFree x a)[k]? = some i) : (s.settledIn x a b d n).slot i = (s.slot i).release := by
  have hout : i ∉ (s.relocateFree x a).take (relocateNeeds d n) := fun htaken => by
    have hdrop : i ∈ (s.relocateFree x a).drop (relocateNeeds d n) :=
      List.mem_of_getElem? (i := k - relocateNeeds d n) (by rw [List.getElem?_drop, Nat.add_sub_cancel' hk]; exact hi)
    exact List.disjoint_left.mp (List.disjoint_take_drop (s.relocateFree_nodup x a) le_rfl) htaken hdrop
  rw [h.settledIn_other hroom hout, (h.vacated_free (List.mem_of_getElem? hi)).2]

theorem State.Relocatable.settledIn_pinned {s : State} {x a b : Nat} (h : s.Relocatable x a b) {d : Option Density} {n : Nat}
    (hroom : relocateNeeds d n ≤ (s.relocateFree x a).length) {i : Nat} (ho : (s.slot i).ownedBy x a = true)
    (hres : (s.slot i).state = .reserved) (hpins : 0 < (s.slot i).pins) : (s.settledIn x a b d n).slot i = (s.slot i).release := by
  rw [h.settledIn_kept hroom, h.vacated_other, if_pos ⟨ho, hres⟩]
  · intro hheld
    obtain ⟨-, hst | hst⟩ := (s.mem_heldSlots x a i).mp hheld
    · exact nomatch hst.symm.trans hres
    · exact nomatch hst.symm.trans hres
  · intro hfree
    obtain ⟨-, hst | ⟨-, -, hp⟩⟩ := (s.mem_relocateFree x a i).mp hfree
    · exact nomatch hst.symm.trans hres
    · omega

theorem State.Relocatable.settledIn_elsewhere {s : State} {x a b : Nat} (h : s.Relocatable x a b) {d : Option Density} {n : Nat}
    (hroom : relocateNeeds d n ≤ (s.relocateFree x a).length) {i : Nat} (ho : (s.slot i).ownedBy x a = false)
    (hst : (s.slot i).state ≠ .free) : (s.settledIn x a b d n).slot i = s.slot i := by
  have hnot : ¬(s.slot i).ownedBy x a = true := by rw [ho]; decide
  rw [h.settledIn_kept hroom, h.vacated_other, if_neg fun hc => hnot hc.1]
  · exact fun hheld => hnot ((s.mem_heldSlots x a i).mp hheld).1
  · intro hfree
    obtain ⟨-, hf | ⟨hown, -⟩⟩ := (s.mem_relocateFree x a i).mp hfree
    · exact hst hf
    · exact hnot hown

/-! ### The tags of the moved pages -/

theorem State.foldl_modTag_notMem (s : State) (f : TagEntry → TagEntry) {ts : List Nat} {u : Nat} (h : u ∉ ts) :
    (ts.foldl (fun s t => s.modTag t f) s).tag u = s.tag u := by
  induction ts generalizing s with
  | nil => rfl
  | cons t ts ih =>
    obtain ⟨hne, hrest⟩ := not_or.mp (mt List.mem_cons.mpr h)
    rw [List.foldl_cons, ih _ hrest, State.tag_modTag, if_neg hne]

theorem State.foldl_modTag_once (s : State) (f : TagEntry → TagEntry) {before after : List Nat} {t : Nat} (hb : t ∉ before)
    (ha : t ∉ after) : ((before ++ t :: after).foldl (fun s t => s.modTag t f) s).tag t = (s.tag t).map f := by
  rw [List.foldl_append, List.foldl_cons, State.foldl_modTag_notMem _ f ha, State.tag_modTag, if_pos rfl,
    State.foldl_modTag_notMem _ f hb]

theorem State.foldl_modTag_frame (s : State) (f : TagEntry → TagEntry) (ts : List Nat) :
    (ts.foldl (fun s t => s.modTag t f) s).link = s.link ∧ s.OnlyReplies (ts.foldl (fun s t => s.modTag t f) s) := by
  refine ⟨?_, .foldl (fun n t => n.modTag_onlyReplies t f) s ts⟩
  induction ts generalizing s with
  | nil => rfl
  | cons t ts ih => rw [List.foldl_cons, ih, State.modTag_link]

/-! ### The request -/

theorem State.BlockTested.of_lists {s s' m : State} {x b : Nat} {before : Option Pass} (h : s'.BlockTested m x b before)
    (hlist : (s'.lane x).readyList = (s.lane x).readyList) (hrun : (s'.lane x).readRun = (s.lane x).readRun) :
    s.BlockTested m x b before := by
  unfold State.BlockTested at h ⊢
  rw [hlist, hrun] at h
  exact h

theorem State.relocateCheck_reaches {s : State} {x a b : Nat} (h : s.Reaches x a) (hb : b < 1024) :
    s.relocateCheck x a b
      = (failsWith s.wpAsserted .writeProtected).or
          ((failsWith (decide ((s.record x a).state ≠ .failed)) .blockState).or
            ((failsWith (decide ((s.record x b).state ≠ .erased)) .blockState).or
              ((failsWith (s.anyFilling x a || (s.record x b).erasePending) .blockBusy).or
                (failsWith (decide (s.relocateSupply x a < relocateNeeds (s.record x a).density (s.record x a).heldCount))
                  .poolFull)))) := by
  unfold State.relocateCheck
  rw [if_neg (show ¬Config.hostBlocks ≤ b from Nat.not_le.mpr hb), h.addressCheck]
  rfl

/-- The tags of the moved pages, slot by slot. -/
def State.heldTags (s : State) (x a : Nat) : List Nat := (s.heldSlots x a).filterMap (fun i => (s.slot i).tag)

theorem State.mem_heldTags (s : State) (x a t : Nat) : t ∈ s.heldTags x a ↔ ∃ i ∈ s.heldSlots x a, (s.slot i).tag = some t := by
  unfold State.heldTags
  exact List.mem_filterMap

/-- A RELOCATE but for the renamed tags and the test of R28. -/
def State.placed (s : State) (x a b : Nat) : State :=
  ((s.settledIn x a b (s.record x a).density (s.record x a).heldCount).modRecord x a BlockRec.closeAtFinal).modRecord x b
    (fun q => q.openWith (s.record x a).density (s.record x a).heldCount)

/-- A RELOCATE but for the test of R28. -/
def State.moved (s : State) (x a b : Nat) : State :=
  (s.heldTags x a).foldl (fun k t => k.modTag t (TagEntry.relocate b (s.record x a).firstHeld)) (s.placed x a b)

theorem State.relocate_eq (s : State) (x a b : Nat) : s.relocate x a b = (s.moved x a b).testBlock x b := rfl

theorem State.Relocatable.settledIn_frame {s : State} {x a b : Nat} (h : s.Relocatable x a b) (d : Option Density) (n : Nat) :
    (s.settledIn x a b d n).link = s.link ∧ (s.settledIn x a b d n).lanes = s.lanes ∧ s.rqu.sameButTags (s.settledIn x a b d n).rqu
      ∧ (∀ u, (s.settledIn x a b d n).tag u = s.tag u) ∧ (s.settledIn x a b d n).pool.armed = s.pool.armed
      ∧ s.sameInputs (s.settledIn x a b d n) := by
  obtain ⟨vlink, vlanes, vrqu, vtag, varmed, v1, v2, v3⟩ := h.vacated_frame
  obtain ⟨v, hv⟩ : ∃ v, v = s.vacated x a b := ⟨_, rfl⟩
  unfold State.settledIn
  rw [← hv] at vlink vlanes vrqu vtag varmed v1 v2 v3 ⊢
  obtain ⟨elink, erqu, elanes, earmed, e1, e2, e3⟩ := v.modEach_frame ((v.slotsIn .free).zip (relocatePages d n)) Prod.fst
    (fun e => Slot.reserveFor { lane := x, block := b, page := e.2 })
  exact ⟨elink.trans vlink, elanes.trans vlanes, erqu ▸ vrqu, fun u => (State.tag_of_rqu (congrArg Rqu.tags erqu) u).trans (vtag u),
    earmed.trans varmed, e1.trans v1, e2.trans v2, e3.trans v3⟩

theorem State.Relocatable.moved_frame {s : State} {x a b : Nat} (h : s.Relocatable x a b) :
    (s.moved x a b).link = s.link ∧ s.rqu.sameButTags (s.moved x a b).rqu ∧ (s.moved x a b).pool.armed = s.pool.armed
      ∧ s.sameInputs (s.moved x a b)
      ∧ (s.moved x a b).lanes
        = ((s.modRecord x a BlockRec.closeAtFinal).modRecord x b
            (fun q => q.openWith (s.record x a).density (s.record x a).heldCount)).lanes
      ∧ (∀ i, (s.moved x a b).slot i = (s.settledIn x a b (s.record x a).density (s.record x a).heldCount).slot i) := by
  obtain ⟨nlink, nlanes, nrqu, -, narmed, n1, n2, n3⟩ := h.settledIn_frame (s.record x a).density (s.record x a).heldCount
  unfold State.moved State.placed
  obtain ⟨n, hn⟩ : ∃ n, n = s.settledIn x a b (s.record x a).density (s.record x a).heldCount := ⟨_, rfl⟩
  rw [← hn] at nlink nlanes nrqu narmed n1 n2 n3 ⊢
  obtain ⟨flink, hf⟩ := State.foldl_modTag_frame ((n.modRecord x a BlockRec.closeAtFinal).modRecord x b
    (fun q => q.openWith (s.record x a).density (s.record x a).heldCount)) (TagEntry.relocate b (s.record x a).firstHeld) (s.heldTags x a)
  obtain ⟨i1, i2, i3⟩ := hf.inputs
  refine ⟨flink.trans nlink, ?_, (congrArg Pool.armed hf.pool).trans narmed, ⟨i1.trans n1, i2.trans n2, i3.trans n3⟩,
    hf.lanes.trans (State.modRecord_lanes (State.modRecord_lanes nlanes x a _) x b _), hf.slot⟩
  have hrqu : n.rqu.sameButTags _ := hf.rqu
  unfold Rqu.sameButTags at hrqu nrqu ⊢
  rw [hrqu, nrqu]

theorem State.Relocatable.placed_tag {s : State} {x a b : Nat} (h : s.Relocatable x a b) (u : Nat) :
    (s.placed x a b).tag u = s.tag u := by
  obtain ⟨-, -, -, ntag, -⟩ := h.settledIn_frame (s.record x a).density (s.record x a).heldCount
  unfold State.placed
  obtain ⟨n, hn⟩ : ∃ n, n = s.settledIn x a b (s.record x a).density (s.record x a).heldCount := ⟨_, rfl⟩
  rw [← hn] at ntag ⊢
  exact ntag u

theorem State.Relocatable.moved_tag_notMem {s : State} {x a b u : Nat} (h : s.Relocatable x a b) (hu : u ∉ s.heldTags x a) :
    (s.moved x a b).tag u = s.tag u := by
  unfold State.moved
  rw [State.foldl_modTag_notMem _ _ hu, h.placed_tag]

theorem State.Relocatable.moved_tag_once {s : State} {x a b t i : Nat} (h : s.Relocatable x a b) (hi : i ∈ s.heldSlots x a)
    (ht : (s.slot i).tag = some t) (hone : ∀ j, (s.slot j).tag = some t → j = i) :
    (s.moved x a b).tag t = (s.tag t).map (TagEntry.relocate b (s.record x a).firstHeld) := by
  obtain ⟨before, after, hsplit⟩ := List.append_of_mem hi
  have hnodup := s.heldSlots_nodup x a
  rw [hsplit] at hnodup
  obtain ⟨-, hafter, hdisj⟩ := List.nodup_append.mp hnodup
  have hout : ∀ l : List Nat, i ∉ l → t ∉ l.filterMap (fun j => (s.slot j).tag) := fun l hl hmem => by
    obtain ⟨j, hj, hjt⟩ := List.mem_filterMap.mp hmem
    exact hl (hone j hjt ▸ hj)
  have htags : s.heldTags x a
      = before.filterMap (fun j => (s.slot j).tag) ++ t :: after.filterMap (fun j => (s.slot j).tag) := by
    unfold State.heldTags
    rw [hsplit, List.filterMap_append, List.filterMap_cons_some (f := fun j => (s.slot j).tag) ht]
  unfold State.moved
  rw [htags, State.foldl_modTag_once _ _ (hout _ fun hb => hdisj i hb i List.mem_cons_self rfl)
    (hout _ (List.nodup_cons.mp hafter).1), h.placed_tag]

theorem State.freeCount_of_slot {s m : State} (h : ∀ i, m.slot i = s.slot i) : m.freeCount = s.freeCount := by
  unfold State.freeCount State.slotsIn
  exact congrArg List.length (List.filter_congr fun i _ => by rw [h i])

theorem execRelocate_taken {s : State} {f : InFrame} {x a b : Nat} (h : s.Admits f .relocate (.relocate x a b))
    (hcheck : s.relocateCheck x a b = none) :
    exec .relocate s
      = .next (s.conclude [x]
          ((s.unbuffer.relocate x a b).answer f.tag (TagEntry.mk' .relocate .replying (some x) (some a) none) .done
            (.relocated x a b (s.record x a).density (s.record x a).heldCount (s.record x a).firstHeld) none)) := by
  refine (execRelocate.eq_1 s).trans ((takeRequest_admits _ h).trans ?_)
  dsimp only
  have hcheck' : s.unbuffer.relocateCheck x a b = none := hcheck
  rw [hcheck', State.unbuffer_record]
  rfl

/-- Settles O51: the refusals in their order, then the slots, the records, the tags and the test of R28 on the target. -/
theorem relocateMoves : Obligations.RelocateMoves := by
  refine ⟨fun s f x a b hadm hreach hb => ?_, fun s f x a b hadm hreach hb hformed hwp hfailed herased hpend hfill => ?_⟩
  · intro fits busy
    have hrefuse : ∀ st, s.relocateCheck x a b = some st → exec .relocate s = .next (s.conclude [] (s.refusedWith f st .plain)) :=
      fun st hc => exec_requestCheck hadm hc
    refine ⟨fun hwp => hrefuse _ ?_, fun hwp hfits => hrefuse _ ?_, fun hwp hfits hbusy => hrefuse _ ?_⟩ <;>
      rw [State.relocateCheck_reaches hreach hb, hwp]
    · rfl
    · by_cases hsrc : (s.record x a).state = .failed
      · have htgt : (s.record x b).state ≠ .erased := fun h => hfits ⟨hsrc, h⟩
        rw [decide_eq_false (not_not_intro hsrc), decide_eq_true htgt]
        rfl
      · rw [decide_eq_true hsrc]
        rfl
    · have hb : (s.anyFilling x a || (s.record x b).erasePending) = true :=
        Bool.or_eq_true_iff.mpr (hbusy.symm.imp (s.anyFilling_iff x a).mpr id)
      rw [decide_eq_false (not_not_intro hfits.1), decide_eq_false (not_not_intro hfits.2), hb]
      rfl
  intro r first moved needs held free supply
  have hcount : r.heldCount = moved := BlockRec.heldCount_failed hfailed
  have hneeds : relocateNeeds r.density r.heldCount = needs := by rw [hcount]; rfl
  have hcheck : s.relocateCheck x a b = (failsWith (decide (supply < needs)) .poolFull) := by
    rw [State.relocateCheck_reaches hreach hb, hwp, decide_eq_false (not_not_intro hfailed), decide_eq_false (not_not_intro herased),
      State.anyFilling_false hfill, hpend, State.relocateSupply_eq hformed, hneeds]
    rfl
  refine ⟨fun hlt => exec_requestCheck hadm (hcheck.trans (by rw [decide_eq_true hlt]; rfl)), fun hle => ?_⟩
  have hexec := execRelocate_taken hadm (hcheck.trans (by rw [decide_eq_false (Nat.not_lt.mpr hle)]; rfl))
  have hfree : s.unbuffer.PlaceFree f.tag := hadm.placeFree
  obtain ⟨-, -, -, htag, hnone, -⟩ := hadm
  obtain ⟨hx, ha, -⟩ := hreach
  have hdist : a ≠ b := fun h => by
    rw [h] at hfailed
    exact nomatch hfailed.symm.trans herased
  have hrel : s.unbuffer.Relocatable x a b := ⟨hformed, hdist, hfill⟩
  have hroom : relocateNeeds r.density r.heldCount ≤ (s.unbuffer.relocateFree x a).length := by rw [hneeds]; exact hle
  obtain ⟨own, hown⟩ : ∃ q, q = QueueEntry.finalOf f.tag .relocate .done (.relocated x a b r.density r.heldCount first) none := ⟨_, rfl⟩
  obtain ⟨k, hk⟩ : ∃ k, k = s.unbuffer.moved x a b := ⟨_, rfl⟩
  obtain ⟨m, hm⟩ : ∃ m, m = (k.testBlock x b).answer f.tag (TagEntry.mk' .relocate .replying (some x) (some a) none) .done
      (.relocated x a b r.density r.heldCount first) none := ⟨_, rfl⟩
  have hexec' : exec .relocate s = .next (s.conclude [x] m) := by
    rw [hm, hk]
    exact hexec
  obtain ⟨klink, krqu, karmed, ⟨k1, k2, k3⟩, klanes, kslot⟩ := hrel.moved_frame
  obtain ⟨tlink, trqu, tpool, ⟨t1, t2, t3⟩, -⟩ := k.testBlock_frame x b
  rw [← hk] at klink krqu karmed k1 k2 k3 klanes kslot
  obtain ⟨s', hs'⟩ : ∃ s', s' = s.modRecord x a BlockRec.closeAtFinal := ⟨_, rfl⟩
  have hlanes : k.lanes = (s'.modRecord x b (fun q => q.openWith r.density r.heldCount)).lanes := by
    rw [hs']
    exact klanes
  have hset := State.Retested.of_lanes hx hb hlanes
  obtain ⟨n, hn⟩ : ∃ n, n = k.testBlock x b := ⟨_, rfl⟩
  rw [← hn] at hset hm tlink trqu tpool t1 t2 t3
  have hanswer : n.OnlyReplies m := hm ▸ State.answer_frame _ _ _ _ _ _
  have hlane : ∀ y, m.lane y = n.lane y := hanswer.lane
  have hsx : s'.lane x = (s.lane x).modRecord a BlockRec.closeAtFinal := by
    rw [hs']
    exact State.lane_modRecord_same s a _ hx
  have hsb : s'.record x b = s.record x b := by
    rw [State.record, hsx]
    exact Lane.record_modRecord_ne _ _ (Ne.symm hdist)
  have hslot : ∀ i, m.slot i = (s.unbuffer.settledIn x a b r.density r.heldCount).slot i := fun i =>
    (hanswer.slot i).trans ((State.slot_of_slots (congrArg Pool.slots tpool) i).trans (kslot i))
  have hmtag : ∀ u, u ≠ f.tag → m.tag u = (s.unbuffer.moved x a b).tag u := fun u hu => by
    rw [hm, State.answer_tag_ne _ _ _ _ _ hu, ← hk]
    exact State.tag_of_rqu (congrArg Rqu.tags trqu) u
  have hmlink : m.link = s.linkWith own := by
    have hlink : m.link = s.unbuffer.link.placeFinal own := by
      rw [hm, hown, State.answer_link, tlink, klink]
      rfl
    rw [hlink, Link.placeFinal_tail _ _ (by rw [hown]; exact hfree.2)]
    rfl
  have hheld : ∀ i, held i → i ∈ s.unbuffer.heldSlots x a := fun i hi => (State.mem_heldSlots _ x a i).mpr hi
  refine ⟨m, hexec', ?_, ?_, fun i hi => ?_, fun j hj => ?_, fun j i hj hi => ?_, fun i ho hres hp => ?_, fun i ho hst => ?_, ?_,
    fun u hu hno => ?_, fun i t e hi ht he hst hone => ?_, ?_, hown ▸ hmlink, fun c hca hcb => ?_, ?_, ?_, ?_, fun y hy => ?_, ?_, ?_, ?_⟩
  · rw [State.record, hlane, hset.records a hdist, hsx]
    exact Lane.record_modRecord_same _ _ ha
  · have hrec := hset.record
    rw [hsb, hcount] at hrec
    rw [hanswer.record]
    exact hrec
  · exact (hslot i).trans (hrel.settledIn_held hroom (hheld i hi))
  · have hlt : j < free.length := Nat.lt_of_lt_of_le hj hle
    have hget : free[j]? = some free[j] := List.getElem?_eq_getElem hlt
    refine ⟨free[j], hget, ?_⟩
    rw [hslot, hrel.settledIn_taken hroom (by rw [hneeds]; exact hj) hget, hcount]
    rfl
  · exact (hslot i).trans (hrel.settledIn_left hroom (by rw [hneeds]; exact hj) hi)
  · exact (hslot i).trans (hrel.settledIn_pinned hroom ho hres hp)
  · exact (hslot i).trans (hrel.settledIn_elsewhere hroom ho hst)
  · have hcountFree : m.freeCount = (s.unbuffer.settledIn x a b r.density r.heldCount).freeCount := State.freeCount_of_slot hslot
    rw [hcountFree, ← hneeds]
    exact hrel.settledIn_freeCount hroom
  · rw [hmtag u hu, hrel.moved_tag_notMem]
    · rfl
    · intro hmem
      obtain ⟨i, hi, ht⟩ := (State.mem_heldTags _ x a u).mp hmem
      exact hno i ((State.mem_heldSlots _ x a i).mp hi) ht
  · have hne : t ≠ f.tag := fun h => nomatch (h ▸ he).symm.trans hnone
    have hst' : s.unbuffer.tag t = some e := he
    rw [hmtag t hne, hrel.moved_tag_once (hheld i hi) ht hone, hst']
    have hstaged : (if e.state = .heldFailed then TagState.staged else e.state) = .staged := if_pos hst
    show some (TagEntry.relocate b first e) = _
    unfold TagEntry.relocate
    rw [hstaged]
  · rw [hm]
    exact State.answer_tag_same _ _ _ _ _ htag
  · rw [State.record, hlane, hset.records c hcb, hsx]
    exact Lane.record_modRecord_ne _ _ hca
  · have hwork := hset.lane
    rw [hsx] at hwork
    rw [hlane]
    exact hwork
  · have htested := hset.tested
    have hready : (((s'.record x b).openWith r.density r.heldCount)).readyPass = (s.record x b).readyPass := by rw [hsb]; rfl
    rw [hready] at htested
    have htest : s.BlockTested n x b (s.record x b).readyPass :=
      State.BlockTested.of_lists htested (by rw [hsx]; rfl) (by rw [hsx]; rfl)
    rw [hm]
    exact htest
  · rw [hlane, hset.queue, hsx]
    rfl
  · rw [hlane, hset.lanes y hy, hs']
    exact State.lane_modRecord_ne s a _ hy
  · have hrqu : n.rqu.sameButTags m.rqu := hanswer.rqu
    unfold Rqu.sameButTags at hrqu krqu ⊢
    rw [hrqu, trqu, krqu]
    rfl
  · rw [hanswer.pool, tpool, karmed]
    rfl
  · obtain ⟨a1, a2, a3⟩ := hanswer.inputs
    exact ⟨a1.trans (t1.trans k1), a2.trans (t2.trans k2), a3.trans (t3.trans k3)⟩

end Sys2Proof.Machine
end

