-- ==== Sys2Proof/Proofs/Rebuilding.lean ====
section
/-! PROOFS. The record the scan builds for a host block (R185, R186). -/

namespace Sys2Proof.Machine

/-! ### Runs from the start of a list -/

theorem length_takeWhile_eq {α : Type} {p : α → Bool} {l : List α} {n : Nat} (hrun : ∀ i, i < n → ∃ a, l[i]? = some a ∧ p a = true)
    (hend : ∀ a, l[n]? = some a → p a = false) : (l.takeWhile p).length = n := by
  induction l generalizing n with
  | nil =>
    cases n with
    | zero => rfl
    | succ n =>
      obtain ⟨a, ha, -⟩ := hrun 0 n.succ_pos
      exact nomatch ha
  | cons c l ih =>
    cases n with
    | zero => rw [List.takeWhile_cons, hend c rfl]; rfl
    | succ n =>
      obtain ⟨a, ha, hp⟩ := hrun 0 n.succ_pos
      obtain rfl : c = a := Option.some.inj ha
      rw [List.takeWhile_cons, hp, if_pos rfl, List.length_cons,
        ih (fun i hi => hrun (i + 1) (Nat.succ_lt_succ hi)) hend]

theorem finalRun_eq {strips : List StripState} {n : Nat} (hrun : ∀ i, i < n → strips[i]? = some .final)
    (hend : strips[n]? ≠ some .final) : finalRun strips = n := by
  refine length_takeWhile_eq (fun i hi => ⟨.final, hrun i hi, rfl⟩) fun a ha => decide_eq_false ?_
  rintro rfl
  exact hend ha

theorem programmedRun_eq {strips : List StripState} {n : Nat}
    (hrun : ∀ i, i < n → strips[i]? = some .final ∨ strips[i]? = some .roughed)
    (hend : strips[n]? ≠ some .final ∧ strips[n]? ≠ some .roughed) : programmedRun strips = n := by
  refine length_takeWhile_eq (fun i hi => ?_) fun a ha => ?_
  · obtain h | h := hrun i hi
    · exact ⟨.final, h, rfl⟩
    · exact ⟨.roughed, h, rfl⟩
  · rw [Bool.or_eq_false_iff, decide_eq_false_iff_not, decide_eq_false_iff_not]
    constructor <;> rintro rfl
    · exact hend.1 ha
    · exact hend.2 ha

/-! ### The terminator row -/

theorem terminatorRow_eq {f e : Nat} (h1 : 1 ≤ f) (h2 : 4 * (f - 1) < e) (h3 : e ≤ 4 * f) :
    terminatorRow .dense f (some (f, e)) = some e :=
  if_pos ⟨rfl, h1, h2, h3⟩

theorem terminatorRow_none {d : Density} {f : Nat} {mark : Option (Nat × Nat)}
    (h : d = .swift ∨ ∀ e, mark = some (f, e) → f = 0 ∨ e ≤ 4 * (f - 1) ∨ 4 * f < e) : terminatorRow d f mark = none := by
  obtain rfl | h := h
  · rfl
  cases d with
  | swift => rfl
  | dense =>
    cases mark with
    | none => rfl
    | some m =>
      obtain ⟨n, e⟩ := m
      refine if_neg ?_
      rintro ⟨rfl, h1, h2, h3⟩
      obtain h | h | h := h e rfl <;> omega

theorem Density.pages_eq (d : Density) : d.pages = 64 * d.perStrip := by
  cases d <;> rfl

/-! ### The rows of R185 -/

theorem Lane.sharedTarget_iff (l : Lane) (h p : Nat) : l.sharedTarget h p = true ↔ ∃ e ∈ l.substMap, e.1 ≠ h ∧ e.2 = some p := by
  unfold Lane.sharedTarget
  simp only [List.any_eq_true, Bool.and_eq_true, decide_eq_true_iff]

theorem Lane.rebuild_unmapped {l : Lane} {h : Nat} (hm : mapTarget l.substMap h = none) :
    l.rebuild h = BlockRec.ofSurvey h (l.surveyOf h) := by
  unfold Lane.rebuild
  rw [hm]

theorem Lane.rebuild_unserved {l : Lane} {h : Nat} (hm : mapTarget l.substMap h = some none) :
    l.rebuild h = BlockRec.standingRetired h := by
  unfold Lane.rebuild
  rw [hm]

theorem Lane.rebuild_mapped {l : Lane} {h p : Nat} (hm : mapTarget l.substMap h = some (some p)) :
    l.rebuild h
      = if l.surveyOf p = .factoryBad ∨ p ∈ l.retiredReserves then BlockRec.standingRetired p
        else if l.sharedTarget h p then BlockRec.standingRetired h
        else BlockRec.ofSurvey p (l.surveyOf p) := by
  unfold Lane.rebuild
  rw [hm]

/-- Settles O58: R185 by the map's entry for the block, R186 by the survey record and the runs of its strips. -/
theorem rebuiltRecords : Obligations.RebuiltRecords := by
  refine ⟨fun l h => ⟨fun hm => Lane.rebuild_unserved hm, fun p hm => ⟨fun hout => ?_, fun hgood hin => ⟨fun hshared => ?_, fun hsole => ?_⟩⟩,
    fun hm => ⟨fun hbad => ?_, fun _ => Lane.rebuild_unmapped hm⟩⟩, fun p F G d strips mark => ⟨rfl, rfl, ?_⟩⟩
  · rw [Lane.rebuild_mapped hm, if_pos hout]
    rfl
  · rw [Lane.rebuild_mapped hm, if_neg (not_or.mpr ⟨hgood, hin⟩), if_pos ((l.sharedTarget_iff h p).mpr hshared)]
    rfl
  · rw [Lane.rebuild_mapped hm, if_neg (not_or.mpr ⟨hgood, hin⟩), if_neg]
    intro hc
    obtain ⟨e, he, hne, ht⟩ := (l.sharedTarget_iff h p).mp hc
    exact hsole e he hne ht
  · rw [Lane.rebuild_unmapped hm, hbad]
    rfl
  intro _ hF _ _ hfinal hfinalEnd hprog hprogEnd full byScan
  have hf : finalRun strips = F := finalRun_eq hfinal hfinalEnd
  have hg : programmedRun strips = G := programmedRun_eq hprog hprogEnd
  show (F = 64 → BlockRec.ofWritten p d strips mark = full) ∧ _
  refine ⟨fun hall => ?_, fun hlt => ⟨fun e hd hmark h1 h2 h3 => ?_, fun hnone => ?_⟩⟩
  · unfold BlockRec.ofWritten
    dsimp only
    rw [hf, if_pos (show F = Config.strips from hall), Density.pages_eq, hall]
    rfl
  · subst hd hmark
    show BlockRec.ofWritten p _ strips _ = _
    unfold BlockRec.ofWritten
    dsimp only
    rw [hf, if_neg (show ¬F = Config.strips from hlt.ne), terminatorRow_eq h1 h2 h3]
    rfl
  · show BlockRec.ofWritten p d strips mark = byScan
    unfold BlockRec.ofWritten
    dsimp only
    rw [hf, hg, if_neg (show ¬F = Config.strips from hlt.ne), terminatorRow_none hnone]
    rfl

end Sys2Proof.Machine
end

