-- ==== Sys2Proof/Proofs/Scanning.lean ====
section
/-! PROOFS. The start-up scan of a lane, and the end of start-up with the last lane's scan (R182 to R187). -/

namespace Sys2Proof.Machine

/-! ### The test whether every lane has ended its scan -/

theorem State.lanes_getElem? (s : State) {y : Nat} (hy : y < 4) : s.lanes[y]? = some (s.lane y) := by
  unfold State.lane
  rw [Vector.getElem?_eq_getElem hy]
  rfl

theorem State.all_scanEnded (s : State) : s.lanes.toList.all Lane.scanEnded = true ↔ ∀ y, y < 4 → (s.lane y).scanEnded = true := by
  rw [List.all_eq_true]
  constructor
  · intro h y hy
    refine h _ (List.mem_of_getElem? (i := y) ?_)
    rw [Vector.getElem?_toList]
    exact s.lanes_getElem? hy
  · intro h l hl
    obtain ⟨y, hy⟩ := List.mem_iff_getElem?.mp hl
    rw [Vector.getElem?_toList] at hy
    have hlt : y < 4 := (Vector.getElem?_eq_some_iff.mp hy).1
    rw [s.lanes_getElem? hlt] at hy
    exact Option.some.inj hy ▸ h y hlt

theorem State.endScan_waits {s : State} (h : s.rqu.part ≠ .starting ∨ ∃ y, y < 4 ∧ (s.lane y).scanEnded = false) : s.endScan = s := by
  unfold State.endScan
  refine if_neg ?_
  rintro ⟨hpart, hall⟩
  obtain h | ⟨y, hy, hopen⟩ := h
  · exact h hpart
  · exact absurd (hopen.symm.trans ((s.all_scanEnded).mp hall y hy)) (by decide)

theorem State.endScan_ends {s : State} (hpart : s.rqu.part = .starting) (hall : ∀ y, y < 4 → (s.lane y).scanEnded = true) :
    s.endScan = s.startRunning :=
  if_pos ⟨hpart, s.all_scanEnded.mpr hall⟩

theorem Lane.scanEnded_iff (l : Lane) : l.scanEnded = true ↔ l.built = true ∨ l.state = .offline := by
  unfold Lane.scanEnded
  rw [Bool.or_eq_true, decide_eq_true_iff]

theorem Lane.scanEnded_false {l : Lane} (hb : l.built = false) (hs : l.state ≠ .offline) : l.scanEnded = false :=
  Bool.or_eq_false_iff.mpr ⟨hb, decide_eq_false hs⟩

/-! ### The end of start-up -/

theorem State.lane_startRunning (s : State) {y : Nat} (hy : y < 4) : s.startRunning.lane y = (s.lane y).startRunning := by
  have hget : (s.lanes.map Lane.startRunning)[y]? = some ((s.lane y).startRunning) := by
    rw [Vector.getElem?_map, s.lanes_getElem? hy]
    rfl
  exact congrArg (fun o => o.getD (Lane.powerOn FlashArray.delivered none)) hget

theorem State.startRunning_ends (s : State) : s.StartUpEnds s.startRunning := by
  refine ⟨rfl, rfl, rfl, rfl, rfl, ⟨rfl, rfl, rfl⟩, fun y hy => ⟨?_, s.lane_startRunning hy⟩⟩
  show (s.lanes.map fun l => decide (l.state ≠ .offline))[y]? = _
  rw [Vector.getElem?_map, s.lanes_getElem? hy]
  rfl

/-- The scan of lane `x` goes on, or another lane's does. -/
theorem State.endScan_setLane_waits {s : State} {x : Nat} {l : Lane} (hx : x < 4)
    (h : l.scanEnded = false ∨ s.rqu.part ≠ .starting ∨ ∃ y, y < 4 ∧ y ≠ x ∧ (s.lane y).built = false ∧ (s.lane y).state ≠ .offline) :
    (s.setLane x l).endScan = s.setLane x l := by
  refine State.endScan_waits ?_
  obtain h | h | ⟨y, hy, hne, hb, hs⟩ := h
  · exact .inr ⟨x, hx, by rw [State.lane_setLane_same s l hx]; exact h⟩
  · exact .inl h
  · exact .inr ⟨y, hy, by rw [State.lane_setLane_ne s l hne]; exact Lane.scanEnded_false hb hs⟩

/-- The scan of lane `x` is the last to end. -/
theorem State.endScan_setLane_ends {s : State} {x : Nat} {l : Lane} (hx : x < 4) (hl : l.scanEnded = true) (hpart : s.rqu.part = .starting)
    (h : ∀ y, y < 4 → y ≠ x → (s.lane y).built = true ∨ (s.lane y).state = .offline) :
    (s.setLane x l).endScan = (s.setLane x l).startRunning := by
  refine State.endScan_ends hpart fun y hy => ?_
  by_cases hne : y = x
  · rw [hne, State.lane_setLane_same s l hx]
    exact hl
  · rw [State.lane_setLane_ne s l hne]
    exact (Lane.scanEnded_iff _).mpr (h y hy hne)

/-! ### The DIRECTORY read -/

theorem FlashArray.newest_eq {a : FlashArray} {c : DirCopy}
    (h : (a.copyA = some c ∧ a.copyB = none) ∨ (a.copyA = none ∧ a.copyB = some c)
      ∨ (∃ d, d.generation < c.generation ∧ ((a.copyA = some c ∧ a.copyB = some d) ∨ (a.copyA = some d ∧ a.copyB = some c)))) :
    ∃ isA, a.newest = some (isA, c) := by
  unfold FlashArray.newest
  obtain ⟨hA, hB⟩ | ⟨hA, hB⟩ | ⟨d, hlt, ⟨hA, hB⟩ | ⟨hA, hB⟩⟩ := h <;> rw [hA, hB]
  · exact ⟨true, rfl⟩
  · exact ⟨false, rfl⟩
  · exact ⟨true, if_pos hlt⟩
  · exact ⟨false, if_neg (Nat.not_lt.mpr hlt.le)⟩

theorem Lane.directoryRead_loads {l : Lane} {isA : Bool} {c : DirCopy} (h : l.array.newest = some (isA, c)) :
    l.directoryRead .pass
      = { l with engine := some (.survey 0), substMap := c.contents.map, retiredReserves := c.contents.retired } := by
  obtain ⟨a, d, -, hd, hread⟩ | ⟨hno, -⟩ := l.directoryRead_cases .pass
  · rw [h] at hd
    obtain ⟨rfl, rfl⟩ := Prod.mk.inj (Option.some.inj hd)
    exact hread
  · exact hno.elim (fun h' => nomatch h') fun h' => nomatch h.symm.trans h'

theorem Lane.directoryRead_fails {l : Lane} {e : Ending} (h : e = .fail ∨ (l.array.copyA = none ∧ l.array.copyB = none)) :
    l.directoryRead e = { l with engine := none, state := .offline } := by
  obtain ⟨a, d, rfl, hd, -⟩ | ⟨-, hread⟩ := l.directoryRead_cases e
  · obtain h | ⟨hA, hB⟩ := h
    · exact nomatch h
    · unfold FlashArray.newest at hd
      rw [hA, hB] at hd
      exact nomatch hd
  · exact hread

theorem exec_directoryReadEnd {s : State} {x : Nat} (e : Ending) (hr : s.inReset = false)
    (heng : (s.lane x).engine = some .directoryRead) :
    exec (.directoryReadEnd ⟨x, e⟩) s = .next (s.conclude [] (s.setLane x ((s.lane x).directoryRead e)).endScan) := by
  refine (execDirectoryReadEnd.eq_1 ⟨x, e⟩ s).trans ((unlessReset_running _ hr).trans ?_)
  dsimp only
  rw [heng]
  rfl

theorem exec_surveyEnd {s : State} {x p : Nat} (hr : s.inReset = false) (heng : (s.lane x).engine = some (.survey p)) :
    exec (.surveyEnd x) s = .next (s.conclude [] (s.setLane x ((s.lane x).surveyed p)).endScan) := by
  refine (execSurveyEnd.eq_1 x s).trans ((unlessReset_running _ hr).trans ?_)
  rw [heng]
  rfl

/-- Settles O55: the copy a DIRECTORY read loads, its failure, and a SURVEY before the last. -/
theorem scanSteps : Obligations.ScanSteps := by
  refine ⟨fun s x hr heng hscan hbuilt => ⟨fun c hcopies => ?_, fun e hno => ?_⟩, fun s x p hr heng hscan hbuilt hp => ?_⟩ <;>
    have hx := s.lane_lt_of_engine heng
  · obtain ⟨isA, hnewest⟩ := FlashArray.newest_eq hcopies
    rw [exec_directoryReadEnd _ hr heng, Lane.directoryRead_loads hnewest, State.endScan_setLane_waits hx]
    exact .inl (Lane.scanEnded_false hbuilt (by rw [hscan]; decide))
  · intro m
    have hexec := exec_directoryReadEnd e hr heng
    rw [Lane.directoryRead_fails hno] at hexec
    refine ⟨fun hwait => ?_, fun hpart hall => ?_⟩
    · rw [hexec, State.endScan_setLane_waits hx (.inr hwait)]
    · refine ⟨m.startRunning, ?_, m.startRunning_ends⟩
      rw [hexec, State.endScan_setLane_ends hx ((Lane.scanEnded_iff _).mpr (.inr rfl)) hpart hall]
  · have hsurveyed : (s.lane x).surveyed p
        = { s.lane x with
            engine := some (.survey (p + 1))
            surveys := (s.lane x).surveys ++ [((s.lane x).array.block p).survey] } := by
      unfold Lane.surveyed
      dsimp only
      rw [if_pos (show p + 1 < Config.physBlocks from Nat.succ_lt_succ hp)]
      rfl
    rw [exec_surveyEnd hr heng, hsurveyed, State.endScan_setLane_waits hx]
    exact .inl (Lane.scanEnded_false hbuilt (by rw [hscan]; decide))

/-! ### The last SURVEY -/

theorem Lane.surveyed_last (l : Lane) :
    l.surveyed 1055
      = { l with
          engine := none
          records := tabulate 1024 ({ l with surveys := l.surveys ++ [(l.array.block 1055).survey] } : Lane).rebuild
          freeReserves := ({ l with surveys := l.surveys ++ [(l.array.block 1055).survey] } : Lane).surveyedReserves
          built := true
          surveys := [] } := by
  unfold Lane.surveyed
  dsimp only
  rw [if_neg (show ¬1055 + 1 < Config.physBlocks by decide)]
  rfl

theorem Lane.record_tabulate {l : Lane} {f : Nat → BlockRec} (h : l.records = tabulate 1024 f) {b : Nat} (hb : b < 1024) :
    l.record b = f b := by
  unfold Lane.record
  rw [h, tabulate_eq, Vector.getElem?_eq_getElem hb, Vector.getElem_ofFn]
  rfl

/-- What the end of start-up leaves of a lane's records, tables, array and engine. -/
theorem Lane.startRunning_keeps (l : Lane) :
    l.startRunning.built = l.built ∧ l.startRunning.engine = l.engine ∧ l.startRunning.freeReserves = l.freeReserves
      ∧ l.startRunning.records = l.records ∧ l.startRunning.array = l.array := by
  unfold Lane.startRunning
  split <;> exact ⟨rfl, rfl, rfl, rfl, rfl⟩

/-- Settles O56: the lane as the last SURVEY leaves it, then the end of start-up or the wait for another lane's scan. -/
theorem scanEnds : Obligations.ScanEnds := by
  intro s x hr hpart heng hscan l
  have hx := s.lane_lt_of_engine heng
  obtain ⟨l', hl'⟩ : ∃ l', l' = (s.lane x).surveyed 1055 := ⟨_, rfl⟩
  have hlast := (s.lane x).surveyed_last
  rw [← hl'] at hlast
  have hbuilt : l'.built = true := by rw [hlast]
  have hstate : l'.state = .scanning := by rw [hlast]; exact hscan
  have hended : l'.scanEnded = true := (Lane.scanEnded_iff l').mpr (.inl hbuilt)
  obtain ⟨m, hm⟩ : ∃ m, m = (s.setLane x l').endScan := ⟨_, rfl⟩
  have hexec : exec (.surveyEnd x) s = .next (s.conclude [] m) := by
    rw [hm, hl']
    exact exec_surveyEnd hr heng
  have hcases : (m = s.setLane x l' ∧ m.lane x = l') ∨ (m = (s.setLane x l').startRunning ∧ m.lane x = l'.startRunning) := by
    rw [hm]
    unfold State.endScan
    split
    · rw [State.lane_startRunning _ hx, State.lane_setLane_same s l' hx]
      exact .inr ⟨rfl, rfl⟩
    · exact .inl ⟨rfl, State.lane_setLane_same s l' hx⟩
  have hkeeps : (m.lane x).built = l'.built ∧ (m.lane x).engine = l'.engine ∧ (m.lane x).freeReserves = l'.freeReserves
      ∧ (m.lane x).records = l'.records ∧ (m.lane x).array = l'.array := by
    obtain ⟨-, h⟩ | ⟨-, h⟩ := hcases <;> rw [h]
    · exact ⟨rfl, rfl, rfl, rfl, rfl⟩
    · exact l'.startRunning_keeps
  have hin : s.sameInputs m := by
    obtain ⟨h, -⟩ | ⟨h, -⟩ := hcases <;> rw [h] <;> exact ⟨rfl, rfl, rfl⟩
  obtain ⟨kbuilt, keng, kfree, krec, karr⟩ := hkeeps
  refine ⟨m, hexec, kbuilt.trans hbuilt, keng.trans (by rw [hlast]), kfree.trans (by rw [hlast]), fun h hh => ?_,
    karr.trans (by rw [hlast]), hin, fun hwait => ?_, fun hall => ?_⟩
  · exact Lane.record_tabulate (krec.trans (by rw [hlast])) hh
  · have hsame := State.endScan_setLane_waits (l := l') hx (.inr (.inr hwait))
    rw [← hm] at hsame
    rw [hsame]
    refine ⟨?_, rfl, fun y hy => State.lane_setLane_ne s l' hy⟩
    rw [State.lane_setLane_same s l' hx]
    exact hstate
  · have hends := State.endScan_setLane_ends hx hended hpart hall
    rw [← hm] at hends
    obtain ⟨hrun, hdone, -, -, -, -, hlanes⟩ := (s.setLane x l').startRunning_ends
    rw [← hends] at hrun hdone hlanes
    refine ⟨hrun, by rw [hdone], fun y hy => ?_⟩
    obtain ⟨hscanEnd, hlane⟩ := hlanes y hy
    have hkept : ((s.setLane x l').lane y).state = (s.lane y).state := by
      by_cases hne : y = x
      · rw [hne, State.lane_setLane_same s l' hx, hstate, hscan]
      · rw [State.lane_setLane_ne s l' hne]
    rw [hkept] at hscanEnd hlane
    refine ⟨hscanEnd, fun hoff => ?_, fun hon => ?_⟩
    · rw [hlane, if_pos hoff]
      refine State.lane_setLane_ne s l' fun hyx => ?_
      rw [hyx, hscan] at hoff
      exact nomatch hoff
    · rw [hlane, if_neg hon]
      exact ⟨rfl, rfl, rfl, rfl, rfl⟩

end Sys2Proof.Machine
end

