-- ==== Sys2Proof/Proofs/Resetting.lean ====
section
/-! PROOFS. What both resets do at a lane (R42, R62, R98): the block records, the counts, and the slots. -/

namespace Sys2Proof.Machine

/-! ### Block records (R42) -/

theorem BlockRec.live_of_held {r : BlockRec} (h : 0 < r.heldCount) : r.state = .opened ∨ r.state = .closing ∨ r.state = .failed := by
  unfold BlockRec.heldCount at h
  split at h
  · exact .inl ‹_›
  · exact .inr (.inl ‹_›)
  · exact .inr (.inr ‹_›)
  · exact absurd h (lt_irrefl 0)

theorem BlockRec.resetsErased_iff (r : BlockRec) :
    r.resetsErased = true ↔ 0 < r.heldCount ∧ r.roughDone = 0 ∧ r.finalDone = 0 ∧ r.suspect = false := by
  unfold BlockRec.resetsErased
  simp only [Bool.and_eq_true, decide_eq_true_iff, Bool.not_eq_true', and_assoc]

theorem BlockRec.resetsClosed_iff (r : BlockRec) : r.resetsClosed = true ↔ 0 < r.heldCount ∧ r.resetsErased = false := by
  unfold BlockRec.resetsClosed
  simp only [Bool.and_eq_true, decide_eq_true_iff, Bool.not_eq_true']

theorem BlockRec.afterReset_erased {r : BlockRec} (h : r.resetsErased = true) :
    r.afterReset = { r with
      erasePending := false, failNotice := false, readyPass := none, state := .erased, density := none, dataEnd := none, closedBy := none
      intakeNext := 0 } := if_pos h

theorem BlockRec.afterReset_closed {r : BlockRec} (h : r.resetsClosed = true) :
    r.afterReset = { r with
      erasePending := false, failNotice := false, readyPass := none, state := .closed, closedBy := some .reset, dataEnd := some r.firstHeld
      intakeNext := r.firstHeld } := by
  obtain ⟨-, hno⟩ := r.resetsClosed_iff.mp h
  unfold BlockRec.afterReset
  dsimp only
  rw [hno, h]
  rfl

theorem BlockRec.afterReset_kept {r : BlockRec} (h : ¬0 < r.heldCount) :
    r.afterReset = { r with erasePending := false, failNotice := false, readyPass := none } := by
  have he : r.resetsErased = false := Bool.eq_false_iff.mpr fun hc => h (r.resetsErased_iff.mp hc).1
  have hc : r.resetsClosed = false := Bool.eq_false_iff.mpr fun hc => h (r.resetsClosed_iff.mp hc).1
  unfold BlockRec.afterReset
  dsimp only
  rw [he, hc]
  rfl

theorem BlockRec.setByReset_afterReset (r : BlockRec) : BlockRec.SetByReset r r.afterReset := by
  refine ⟨fun hlive hr hf hs => ?_, fun hlive hor => ?_, fun hdead => ?_⟩
  · exact BlockRec.afterReset_erased (r.resetsErased_iff.mpr ⟨hlive.2, hr, hf, hs⟩)
  · refine BlockRec.afterReset_closed (r.resetsClosed_iff.mpr ⟨hlive.2, Bool.eq_false_iff.mpr fun he => ?_⟩)
    obtain ⟨-, hr, hf, hs⟩ := r.resetsErased_iff.mp he
    obtain h | h | h := hor
    · exact h hr
    · exact h hf
    · exact absurd (h.symm.trans hs) (by decide)
  · exact BlockRec.afterReset_kept fun h => hdead ⟨BlockRec.live_of_held h, h⟩

/-- The state after a reset, by what the reset does with the block. -/
theorem BlockRec.afterReset_state (r : BlockRec) :
    (r.resetsErased = true ∧ r.resetsClosed = false ∧ r.afterReset.state = .erased)
      ∨ (r.resetsErased = false ∧ r.resetsClosed = true ∧ r.afterReset.state = .closed)
      ∨ (r.resetsErased = false ∧ r.resetsClosed = false ∧ r.afterReset.state = r.state) := by
  cases he : r.resetsErased with
  | true =>
    refine .inl ⟨rfl, Bool.eq_false_iff.mpr fun hc => ?_, by rw [BlockRec.afterReset_erased he]⟩
    exact absurd (he.symm.trans (r.resetsClosed_iff.mp hc).2) (by decide)
  | false =>
    cases hc : r.resetsClosed with
    | true => exact .inr (.inl ⟨rfl, rfl, by rw [BlockRec.afterReset_closed hc]⟩)
    | false =>
      refine .inr (.inr ⟨rfl, rfl, ?_⟩)
      rw [BlockRec.afterReset_kept fun h => absurd (hc.symm.trans (r.resetsClosed_iff.mpr ⟨h, he⟩)) (by decide)]

theorem BlockRec.resets_live {r : BlockRec} (h : r.resetsErased = true ∨ r.resetsClosed = true) : r.state ≠ .erased ∧ r.state ≠ .closed := by
  have hheld : 0 < r.heldCount := h.elim (fun h => (r.resetsErased_iff.mp h).1) fun h => (r.resetsClosed_iff.mp h).1
  obtain h | h | h := BlockRec.live_of_held hheld <;> rw [h] <;> decide

/-- The reset sets the block ERASED when it stands ERASED after it and did not before. -/
theorem BlockRec.set_erased_iff (r : BlockRec) :
    (decide (r.afterReset.state = .erased) && decide (r.state ≠ .erased)) = r.resetsErased := by
  obtain ⟨he, -, hs⟩ | ⟨he, hc, hs⟩ | ⟨he, -, hs⟩ := r.afterReset_state <;> rw [he, hs]
  · rw [decide_eq_true (BlockRec.resets_live (.inl he)).1]
    rfl
  · rfl
  · by_cases h : r.state = .erased <;> simp [h]

theorem BlockRec.set_closed_iff (r : BlockRec) :
    (decide (r.afterReset.state = .closed) && decide (r.state ≠ .closed)) = r.resetsClosed := by
  obtain ⟨-, hc, hs⟩ | ⟨-, hc, hs⟩ | ⟨-, hc, hs⟩ := r.afterReset_state <;> rw [hc, hs]
  · rfl
  · rw [decide_eq_true (BlockRec.resets_live (.inr hc)).2]
    rfl
  · by_cases h : r.state = .closed <;> simp [h]

/-! ### The lane (R98, steps 1 to 3) -/

theorem Lane.records_toList (l : Lane) : l.records.toList = (List.range 1024).map l.record := by
  refine List.ext_getElem? fun b => ?_
  rw [Vector.getElem?_toList, List.getElem?_map]
  by_cases hb : b < 1024
  · rw [Vector.getElem?_eq_getElem hb, List.getElem?_range hb, Option.map_some]
    unfold Lane.record
    rw [Vector.getElem?_eq_getElem hb]
    rfl
  · rw [Vector.getElem?_eq_none (Nat.not_lt.mp hb), List.getElem?_eq_none (by rw [List.length_range]; exact Nat.not_lt.mp hb)]
    rfl

theorem Lane.record_applyReset (l : Lane) {b : Nat} (hb : b < 1024) : l.applyReset.record b = (l.record b).afterReset := by
  unfold Lane.record Lane.applyReset
  dsimp only
  rw [changeAll_eq, Vector.getElem?_map, Vector.getElem?_eq_getElem hb]
  rfl

theorem countP_records (l : Lane) (p : BlockRec → Bool) : l.records.toList.countP p = (List.range 1024).countP (fun b => p (l.record b)) := by
  rw [Lane.records_toList, List.countP_map]
  rfl

theorem State.blocksSet_erased {s m : State} {x : Nat} (h : ∀ b, b < 1024 → m.record x b = (s.record x b).afterReset) :
    s.blocksSet m x .erased = (s.lane x).countErased := by
  unfold State.blocksSet Lane.countErased
  rw [countP_records]
  refine List.countP_congr fun b hb => ?_
  rw [h b (List.mem_range.mp hb), BlockRec.set_erased_iff]
  rfl

theorem State.blocksSet_closed {s m : State} {x : Nat} (h : ∀ b, b < 1024 → m.record x b = (s.record x b).afterReset) :
    s.blocksSet m x .closed = (s.lane x).countClosed := by
  unfold State.blocksSet Lane.countClosed
  rw [countP_records]
  refine List.countP_congr fun b hb => ?_
  rw [h b (List.mem_range.mp hb), BlockRec.set_closed_iff]
  rfl

/-! ### The lane's slots (R62) -/

theorem State.mem_laneSlots (s : State) (x i : Nat) : i ∈ s.laneSlots x ↔ i < 96 ∧ (s.slot i).ofLane x = true := by
  unfold State.laneSlots
  rw [List.mem_filter, mem_slotNumbers]

theorem State.laneSlots_nodup (s : State) (x : Nat) : (s.laneSlots x).Nodup := slotNumbers_nodup.filter _

theorem State.ofLane_lt {s : State} {x i : Nat} (h : (s.slot i).ofLane x = true) : i < 96 := by
  by_contra hi
  rw [State.slot_out s hi] at h
  exact nomatch h

theorem State.slot_releaseLane (s : State) (x i : Nat) :
    (s.releaseSlots (s.laneSlots x)).slot i = if (s.slot i).ofLane x = true then (s.slot i).release else s.slot i := by
  rw [State.releaseSlots_eq]
  split
  · rename_i h
    exact s.slot_leaveSlots_mem _ (s.laneSlots_nodup x) ((s.mem_laneSlots x i).mpr ⟨State.ofLane_lt h, h⟩) (State.ofLane_lt h)
  · rename_i h
    exact s.slot_leaveSlots_ne _ _ fun hm => h ((s.mem_laneSlots x i).mp hm).2

/-- A tag keeps its entry as the lane's slots are released, or is held by one of them and no longer names a slot. -/
theorem State.tag_releaseLane (s : State) (x u : Nat) :
    (s.releaseSlots (s.laneSlots x)).tag u = s.tag u
      ∨ ((∃ i, (s.slot i).ofLane x = true ∧ (s.slot i).tag = some u)
          ∧ (s.releaseSlots (s.laneSlots x)).tag u = (s.tag u).map TagEntry.dropSlot) := by
  rw [State.releaseSlots_eq, State.tag_leaveSlots s _ (s.laneSlots_nodup x)]
  split
  · rename_i h
    obtain ⟨i, hi, ht⟩ := h
    exact .inr ⟨⟨i, ((s.mem_laneSlots x i).mp hi).2, ht⟩, rfl⟩
  · exact .inl rfl

end Sys2Proof.Machine
end

