-- ==== Sys2Proof/Proofs/LaneResets.lean ====
section
/-! PROOFS. LANE_RESET: its take, and its application with the replies of the tags it ends in their order (R96, R98). -/

namespace Sys2Proof.Machine

/-! ### Ending the tags of a list, one after another -/

/-- Each step ends the tag of its item: the entry becomes what `done` gives, and a live tag without its final reply gets it. -/
structure EndsEach {α : Type} (f : State → α → State) (key : α → Nat) (reply : α → TagEntry → QueueEntry)
    (done : TagEntry → TagEntry) : Prop where
  frame : ∀ (s : State) a, s.OnlyReplies (f s a)
  tag : ∀ (s : State) a u, (f s a).tag u = if u = key a then (s.tag u).map done else s.tag u
  link : ∀ (s : State) a e, s.tag (key a) = some e → e.state ≠ .replying → (f s a).link = s.link.placeFinal (reply a e)
  quiet : ∀ (s : State) a, s.tag (key a) = none → (f s a).link = s.link
  twice : ∀ e, done (done e) = done e

namespace EndsEach

variable {α : Type} {f : State → α → State} {key : α → Nat} {reply : α → TagEntry → QueueEntry} {done : TagEntry → TagEntry}

theorem foldl_tag (h : EndsEach f key reply done) (s : State) (as : List α) (u : Nat) :
    (as.foldl f s).tag u = if u ∈ as.map key then (s.tag u).map done else s.tag u := by
  induction as generalizing s with
  | nil => rfl
  | cons a as ih =>
    rw [List.foldl_cons, ih, h.tag]
    by_cases ha : u = key a
    · rw [if_pos ha, List.map_cons, if_pos (List.mem_cons.mpr (.inl ha))]
      split
      · rw [Option.map_map]
        exact congrArg (fun g => (s.tag u).map g) (funext h.twice)
      · rfl
    · rw [if_neg ha, List.map_cons]
      exact if_congr (by rw [List.mem_cons, or_iff_right ha]) rfl rfl

theorem foldl_tag_mem (h : EndsEach f key reply done) (s : State) {as : List α} {u : Nat} (hu : u ∈ as.map key) :
    (as.foldl f s).tag u = (s.tag u).map done := by rw [h.foldl_tag, if_pos hu]

theorem foldl_tag_notMem (h : EndsEach f key reply done) (s : State) {as : List α} {u : Nat} (hu : u ∉ as.map key) :
    (as.foldl f s).tag u = s.tag u := by rw [h.foldl_tag, if_neg hu]

/-- The replies take their places in the order of the list. -/
theorem foldl_link (h : EndsEach f key reply done) (s : State) {as : List α} (hn : (as.map key).Nodup)
    (ho : ∀ a ∈ as, ∀ e, s.tag (key a) = some e → e.state ≠ .replying) :
    (as.foldl f s).link = (as.filterMap (fun a => (s.tag (key a)).map (reply a))).foldl Link.placeFinal s.link := by
  induction as generalizing s with
  | nil => rfl
  | cons a as ih =>
    obtain ⟨ha, hn⟩ := List.nodup_cons.mp hn
    have htag : ∀ c ∈ as, (f s a).tag (key c) = s.tag (key c) := fun c hc => by
      rw [h.tag, if_neg fun heq : key c = key a => ha (heq ▸ List.mem_map_of_mem hc)]
    rw [List.foldl_cons, ih _ hn fun c hc e he => ho c (List.mem_cons_of_mem a hc) e (by rwa [htag c hc] at he),
      List.filterMap_congr fun c hc => by rw [htag c hc]]
    cases hs : s.tag (key a) with
    | none => rw [h.quiet s a hs, List.filterMap_cons_none (by rw [hs]; rfl)]
    | some e =>
      rw [h.link s a e hs (ho a List.mem_cons_self e hs), List.filterMap_cons_some (b := reply a e) (by rw [hs]; rfl), List.foldl_cons]

end EndsEach

/-! ### The tags a LANE_RESET ends -/

/-- The entry with its state REPLYING. -/
def TagEntry.replied (e : TagEntry) : TagEntry := { e with state := .replying }

/-- The entry of a write that has ended. -/
def TagEntry.written (e : TagEntry) : TagEntry := { e with state := .replying, slot := none }

/-- The fields of the reply of an aborted work queue entry. -/
def WorkItem.abortFields (x : Nat) (w : WorkItem) : ReplyFields :=
  match w.kind with
  | .read p => .page x w.block p
  | .erase => .erase x w.block none

theorem State.abortItem_eq (x : Nat) (s : State) (w : WorkItem) : s.abortItem x w = s.finish w.tag .aborted (w.abortFields x) none := by
  unfold State.abortItem WorkItem.abortFields
  cases w.kind <;> rfl

theorem abortItem_endsEach (x : Nat) :
    EndsEach (State.abortItem x) WorkItem.tag (fun w e => QueueEntry.finalOf w.tag e.kind .aborted (w.abortFields x) none)
      TagEntry.replied where
  frame s w := s.abortItem_frame x w
  tag s w u := by
    rw [State.abortItem_eq]
    exact s.finish_tag _ u _ _ _
  link s w e he hopen := by
    rw [State.abortItem_eq]
    exact s.finish_link _ _ _ he hopen
  quiet s w hnone := by rw [State.abortItem_eq, s.finish_of_none _ _ _ hnone]
  twice _ := rfl

theorem endWrite_endsEach (st : Status) :
    EndsEach (fun (s : State) t => s.endWrite t st) id (fun t e => QueueEntry.writeEnd t e st) TagEntry.written where
  frame s t := s.endWrite_frame t st
  tag s t u := s.endWrite_tag t u st
  link s t e he hopen := by
    have hd : (s.modTag t TagEntry.dropSlot).tag t = some e.dropSlot := by
      rw [State.tag_modTag, if_pos rfl]
      exact congrArg (Option.map TagEntry.dropSlot) he
    rw [s.endWrite_of_some st (show s.tag t = some e from he), State.finish_link _ _ _ _ hd hopen, State.modTag_link]
    rfl
  quiet s t hnone := by
    show (s.endWrite t st).link = s.link
    unfold State.endWrite
    rw [show s.tag t = none from hnone]
  twice _ := rfl

theorem abortClose_endsEach :
    EndsEach State.abortClose id (fun t e => QueueEntry.finalOf t e.kind .aborted (.block (e.lane.getD 0) (e.block.getD 0)) none)
      TagEntry.replied where
  frame s t := s.abortClose_frame t
  tag s t u := by
    cases h : s.tag t with
    | some e =>
      have heq : s.abortClose t = s.finish t .aborted (.block (e.lane.getD 0) (e.block.getD 0)) none := by
        unfold State.abortClose
        rw [h]
      rw [heq]
      exact s.finish_tag _ u _ _ _
    | none =>
      have heq : s.abortClose t = s := by
        unfold State.abortClose
        rw [h]
      rw [heq]
      split
      · rename_i hu
        rw [show u = t from hu, h]
        rfl
      · rfl
  link s t e he hopen := by
    unfold State.abortClose
    rw [show s.tag t = some e from he]
    exact s.finish_link _ _ _ he hopen
  quiet s t hnone := by
    unfold State.abortClose
    rw [show s.tag t = none from hnone]
  twice _ := rfl

/-! ### What the tags are -/

/-- The tag waits for a LANE_RESET of lane `x`. -/
def TagEntry.waitsReset (x : Nat) (e : TagEntry) : Prop := e.kind = .laneReset ∧ e.state = .waiting ∧ e.lane = some x

/-- The tag is an open write of lane `x`. -/
def TagEntry.writesTo (x : Nat) (e : TagEntry) : Prop :=
  e.kind = .write ∧ (e.state = .transfer ∨ e.state = .staged ∨ e.state = .heldFailed) ∧ e.lane = some x

/-- The tag is a waiting CLOSE of lane `x`. -/
def TagEntry.closesAt (x : Nat) (e : TagEntry) : Prop := e.kind = .close ∧ e.state = .waiting ∧ e.lane = some x

theorem State.mem_laneWrites (s : State) (x t : Nat) : t ∈ s.laneWrites x ↔ ∃ e, s.tag t = some e ∧ e.writesTo x := by
  unfold State.laneWrites TagEntry.openWrite TagEntry.writesTo
  rw [mem_sortByKey, State.mem_tagsWhere]
  simp only [Bool.and_eq_true, Bool.or_eq_true, decide_eq_true_iff, and_assoc, or_assoc]

theorem State.mem_laneCloses (s : State) (x t : Nat) : t ∈ s.laneCloses x ↔ ∃ e, s.tag t = some e ∧ e.closesAt x := by
  unfold State.laneCloses TagEntry.closesAt
  rw [mem_sortByKey, State.mem_tagsWhere]
  simp only [Bool.and_eq_true, decide_eq_true_iff, and_assoc]

theorem State.tagsWhere_nodup (s : State) (p : TagEntry → Bool) : (s.tagsWhere p).Nodup := List.nodup_range.filter _

theorem State.laneWrites_nodup (s : State) (x : Nat) : (s.laneWrites x).Nodup := sortByKey_nodup _ (s.tagsWhere_nodup _)

theorem State.laneCloses_nodup (s : State) (x : Nat) : (s.laneCloses x).Nodup := sortByKey_nodup _ (s.tagsWhere_nodup _)

/-- The waiting LANE_RESETs of lane `x`. -/
def State.laneResets (s : State) (x : Nat) : List Nat :=
  s.tagsWhere (fun e => decide (e.kind = .laneReset) && decide (e.state = .waiting) && decide (e.lane = some x))

theorem State.mem_laneResets (s : State) (x t : Nat) : t ∈ s.laneResets x ↔ ∃ e, s.tag t = some e ∧ e.waitsReset x := by
  unfold State.laneResets TagEntry.waitsReset
  rw [State.mem_tagsWhere]
  simp only [Bool.and_eq_true, decide_eq_true_iff, and_assoc]

/-- The waiting LANE_RESET that ends, if there is one. -/
theorem State.endLaneReset_cases (s : State) (x aborted erased closed : Nat) :
    s.endLaneReset x aborted erased closed = s
      ∨ ∃ t e, s.tag t = some e ∧ e.waitsReset x
          ∧ s.endLaneReset x aborted erased closed = s.finish t .done (.laneReset x aborted erased closed) none := by
  unfold State.endLaneReset
  split
  · rename_i t ht
    obtain ⟨e, he, hw⟩ := (s.mem_laneResets x t).mp (List.mem_of_head? ht)
    exact .inr ⟨t, e, he, hw, rfl⟩
  · exact .inl rfl

theorem State.endLaneReset_sole {s : State} {x own : Nat} {e : TagEntry} (he : s.tag own = some e) (hw : e.waitsReset x)
    (hsole : ∀ u g, s.tag u = some g → g.waitsReset x → u = own) (aborted erased closed : Nat) :
    s.endLaneReset x aborted erased closed = s.finish own .done (.laneReset x aborted erased closed) none := by
  have hmem : own ∈ s.laneResets x := (s.mem_laneResets x own).mpr ⟨e, he, hw⟩
  have hhead : (s.laneResets x).head? = some own := by
    cases hl : s.laneResets x with
    | nil => rw [hl] at hmem; exact nomatch hmem
    | cons u us =>
      obtain ⟨g, hg, hgw⟩ := (s.mem_laneResets x u).mp (by rw [hl]; exact List.mem_cons_self)
      rw [hsole u g hg hgw]
      rfl
  unfold State.endLaneReset
  unfold State.laneResets at hhead
  rw [hhead]

/-! ### The stages of the application -/

theorem Rqu.sameButTags.trans {r q p : Rqu} (h : r.sameButTags q) (k : q.sameButTags p) : r.sameButTags p := by
  rw [Rqu.sameButTags, k, h]

/-- The lane's queued work ended, its records set and its slots released (R98, steps 1 to 4). -/
def State.laneLeft (s : State) (x : Nat) : State :=
  let m := ((s.lane x).workQueue.foldl (State.abortItem x) s).modLane x Lane.applyReset
  m.releaseSlots (m.laneSlots x)

/-- The lane's open writes ended as well. -/
def State.laneWritten (s : State) (x : Nat) : State := (s.laneWrites x).foldl (fun s t => s.endWrite t .aborted) (s.laneLeft x)

/-- The lane's CLOSEs ended as well. -/
def State.laneAborted (s : State) (x : Nat) : State := (s.laneCloses x).foldl State.abortClose (s.laneWritten x)

/-- The lane's own LANE_RESET ended as well. -/
def State.laneEnded (s : State) (x : Nat) : State :=
  (s.laneAborted x).endLaneReset x ((s.lane x).workQueue.length + (s.laneWrites x).length + (s.laneCloses x).length)
    (s.lane x).countErased (s.lane x).countClosed

theorem State.applyLaneReset_eq (s : State) (x : Nat) : s.applyLaneReset x = (s.laneEnded x).makeLaneReady x := rfl

theorem State.laneLeft_frame (s : State) (x : Nat) :
    (s.laneLeft x).lanes = (s.modLane x Lane.applyReset).lanes ∧ s.rqu.sameButTags (s.laneLeft x).rqu
      ∧ s.link.sameButReplies (s.laneLeft x).link ∧ (s.laneLeft x).pool.armed = s.pool.armed ∧ s.sameInputs (s.laneLeft x)
      ∧ (s.laneLeft x).link = ((s.lane x).workQueue.foldl (State.abortItem x) s).link := by
  obtain ⟨k, hk⟩ : ∃ k, k = (s.lane x).workQueue.foldl (State.abortItem x) s := ⟨_, rfl⟩
  have hitems : s.OnlyReplies k := hk ▸ .foldl (State.abortItem_frame x) s _
  unfold State.laneLeft
  rw [← hk]
  obtain ⟨llink, llanes, lrqu, larmed, l1, l2, l3⟩ := (k.modLane x Lane.applyReset).leaveSlots_frame
    ((k.modLane x Lane.applyReset).laneSlots x) fun _ => Slot.release
  obtain ⟨i1, i2, i3⟩ := hitems.inputs
  have hlanes : (k.modLane x Lane.applyReset).lanes = (s.modLane x Lane.applyReset).lanes := by
    unfold State.modLane State.setLane State.lane
    rw [hitems.lanes]
  have hlink : ((k.modLane x Lane.applyReset).releaseSlots ((k.modLane x Lane.applyReset).laneSlots x)).link = k.link := llink
  refine ⟨llanes.trans hlanes, ?_, by rw [hlink]; exact hitems.link, larmed.trans (congrArg Pool.armed hitems.pool),
    ⟨l1.trans i1, l2.trans i2, l3.trans i3⟩, hlink⟩
  exact hitems.rqu.trans lrqu

theorem State.laneLeft_slot (s : State) (x i : Nat) :
    (s.laneLeft x).slot i = if (s.slot i).ofLane x = true then (s.slot i).release else s.slot i := by
  obtain ⟨k, hk⟩ : ∃ k, k = (s.lane x).workQueue.foldl (State.abortItem x) s := ⟨_, rfl⟩
  have hslot : ∀ j, (k.modLane x Lane.applyReset).slot j = s.slot j :=
    (hk ▸ State.OnlyReplies.foldl (State.abortItem_frame x) s _ : s.OnlyReplies k).slot
  unfold State.laneLeft
  rw [← hk]
  refine (State.slot_releaseLane _ x i).trans ?_
  rw [hslot]

/-- The tags as the lane's queued work has ended and its slots are released. -/
theorem State.laneLeft_tag (s : State) (x u : Nat) :
    let ended := if u ∈ (s.lane x).workQueue.map WorkItem.tag then (s.tag u).map TagEntry.replied else s.tag u
    (s.laneLeft x).tag u = ended
      ∨ ((∃ i, (s.slot i).ofLane x = true ∧ (s.slot i).tag = some u) ∧ (s.laneLeft x).tag u = ended.map TagEntry.dropSlot) := by
  intro ended
  have htag : ((s.lane x).workQueue.foldl (State.abortItem x) s).tag u = ended := (abortItem_endsEach x).foldl_tag s _ u
  obtain ⟨k, hk⟩ : ∃ k, k = (s.lane x).workQueue.foldl (State.abortItem x) s := ⟨_, rfl⟩
  have hslot : ∀ j, (k.modLane x Lane.applyReset).slot j = s.slot j :=
    (hk ▸ State.OnlyReplies.foldl (State.abortItem_frame x) s _ : s.OnlyReplies k).slot
  have hmod : (k.modLane x Lane.applyReset).tag u = ended := by
    rw [← htag, ← hk]
    rfl
  unfold State.laneLeft
  rw [← hk]
  obtain h | ⟨⟨i, hi, ht⟩, h⟩ := State.tag_releaseLane (k.modLane x Lane.applyReset) x u <;> rw [hmod] at h
  · exact .inl h
  · rw [hslot] at hi ht
    exact .inr ⟨⟨i, hi, ht⟩, h⟩

theorem State.laneEnded_onlyReplies (s : State) (x : Nat) : (s.laneLeft x).OnlyReplies (s.laneEnded x) := by
  have hwrites : (s.laneLeft x).OnlyReplies (s.laneWritten x) := .foldl (fun n t => n.endWrite_frame t .aborted) _ _
  have hcloses : (s.laneWritten x).OnlyReplies (s.laneAborted x) := .foldl State.abortClose_frame _ _
  exact (hwrites.trans hcloses).trans (State.endLaneReset_frame _ _ _ _ _)

/-! ### The tags after the application -/

/-- The tag's entry is the same, but that it may name no slot any more. -/
def State.TagKept (s m : State) (t : Nat) : Prop := m.tag t = s.tag t ∨ m.tag t = (s.tag t).map TagEntry.dropSlot

theorem State.laneLeft_tagKept {s : State} {x t : Nat} (h : t ∉ (s.lane x).workQueue.map WorkItem.tag) : s.TagKept (s.laneLeft x) t := by
  have htag := s.laneLeft_tag x t
  rw [if_neg h] at htag
  exact htag.imp id And.right

theorem State.laneWritten_tag_notMem {s : State} {x t : Nat} (h : t ∉ s.laneWrites x) : (s.laneWritten x).tag t = (s.laneLeft x).tag t :=
  (endWrite_endsEach .aborted).foldl_tag_notMem _ (by rw [List.map_id]; exact h)

theorem State.laneAborted_tag_notMem {s : State} {x t : Nat} (h : t ∉ s.laneCloses x) :
    (s.laneAborted x).tag t = (s.laneWritten x).tag t :=
  abortClose_endsEach.foldl_tag_notMem _ (by rw [List.map_id]; exact h)

/-- A tag that is REPLYING stays as it is while the lane's CLOSEs and its LANE_RESET end. -/
theorem State.laneEnded_tag_replying {s : State} {x t : Nat} {e : TagEntry} (h : (s.laneWritten x).tag t = some e)
    (he : e.state = .replying) : (s.laneEnded x).tag t = some e := by
  have hsame : e.replied = e := by
    unfold TagEntry.replied
    rw [← he]
  have hcloses : (s.laneAborted x).tag t = some e := by
    refine (abortClose_endsEach.foldl_tag _ _ t).trans ?_
    split
    · rw [h]
      exact congrArg some hsame
    · exact h
  unfold State.laneEnded
  obtain hno | ⟨u, g, -, -, hend⟩ := (s.laneAborted x).endLaneReset_cases x
    ((s.lane x).workQueue.length + (s.laneWrites x).length + (s.laneCloses x).length) (s.lane x).countErased (s.lane x).countClosed
  · rw [hno, hcloses]
  · rw [hend, State.finish_tag, hcloses]
    split
    · exact congrArg some hsame
    · rfl

/-- The entry of a live tag when the lane's slots are released: the same but for its state and its slot. -/
theorem State.laneLeft_tag_some {s : State} {x t : Nat} {e : TagEntry} (h : s.tag t = some e) :
    ∃ st sl, (s.laneLeft x).tag t = some { e with state := st, slot := sl } := by
  obtain htag | ⟨-, htag⟩ := s.laneLeft_tag x t <;> rw [htag] <;> split <;> rw [h]
  · exact ⟨.replying, e.slot, rfl⟩
  · exact ⟨e.state, e.slot, rfl⟩
  · exact ⟨.replying, none, rfl⟩
  · exact ⟨e.state, none, rfl⟩

theorem State.laneEnded_tag_write {s : State} {x t : Nat} {e : TagEntry} (h : s.tag t = some e) (hw : e.writesTo x) :
    (s.laneEnded x).tag t = some e.written := by
  obtain ⟨st, sl, hleft⟩ := State.laneLeft_tag_some (x := x) h
  have hmem : t ∈ (s.laneWrites x).map id := by
    rw [List.map_id]
    exact (s.mem_laneWrites x t).mpr ⟨e, h, hw⟩
  refine State.laneEnded_tag_replying (e := e.written) ?_ rfl
  refine ((endWrite_endsEach .aborted).foldl_tag_mem _ hmem).trans ?_
  rw [hleft]
  rfl

/-- A tag of the lane's queued work, and a CLOSE of the lane, is REPLYING. -/
theorem State.laneEnded_tag_state {s : State} {x t : Nat} {e : TagEntry} (h : s.tag t = some e)
    (hend : e.closesAt x ∨ t ∈ (s.lane x).workQueue.map WorkItem.tag) :
    ((s.laneEnded x).tag t).map TagEntry.state = some .replying := by
  obtain ⟨st, sl, hleft⟩ := State.laneLeft_tag_some (x := x) h
  by_cases hw : t ∈ s.laneWrites x
  · obtain ⟨e', he', hw'⟩ := (s.mem_laneWrites x t).mp hw
    rw [State.laneEnded_tag_write he' hw']
    rfl
  have hwritten := State.laneWritten_tag_notMem hw
  by_cases hitem : t ∈ (s.lane x).workQueue.map WorkItem.tag
  · have hreplying : st = .replying := by
      have htag := s.laneLeft_tag x t
      rw [if_pos hitem, h, hleft] at htag
      obtain htag | ⟨-, htag⟩ := htag <;> exact (TagEntry.mk.inj (Option.some.inj htag)).2.1
    rw [State.laneEnded_tag_replying (hwritten.trans hleft) hreplying]
    exact congrArg some hreplying
  · have hclose : t ∈ (s.laneCloses x).map id := by
      rw [List.map_id]
      exact (s.mem_laneCloses x t).mpr ⟨e, h, hend.resolve_right hitem⟩
    have hab : (s.laneAborted x).tag t = some { e with state := .replying, slot := sl } := by
      refine (abortClose_endsEach.foldl_tag_mem _ hclose).trans ?_
      rw [hwritten, hleft]
      rfl
    unfold State.laneEnded
    obtain hno | ⟨u, g, -, -, hreset⟩ := (s.laneAborted x).endLaneReset_cases x
      ((s.lane x).workQueue.length + (s.laneWrites x).length + (s.laneCloses x).length) (s.lane x).countErased (s.lane x).countClosed
    · rw [hno, hab]
      rfl
    · rw [hreset, State.finish_tag, hab]
      split <;> rfl

/-- A tag that the reset does not end, held by no slot of the lane, keeps its entry. -/
theorem State.laneEnded_tag_other {s : State} {x t : Nat} (hitem : t ∉ (s.lane x).workQueue.map WorkItem.tag)
    (hslot : ∀ i, (s.slot i).ofLane x = true → (s.slot i).tag ≠ some t)
    (hopen : ∀ e, s.tag t = some e → ¬e.writesTo x ∧ ¬e.closesAt x ∧ ¬e.waitsReset x) : (s.laneEnded x).tag t = s.tag t := by
  have hwrite : t ∉ s.laneWrites x := fun h => by
    obtain ⟨e, he, hw⟩ := (s.mem_laneWrites x t).mp h
    exact (hopen e he).1 hw
  have hclose : t ∉ s.laneCloses x := fun h => by
    obtain ⟨e, he, hc⟩ := (s.mem_laneCloses x t).mp h
    exact (hopen e he).2.1 hc
  have hleft : (s.laneLeft x).tag t = s.tag t := by
    have htag := s.laneLeft_tag x t
    rw [if_neg hitem] at htag
    obtain htag | ⟨⟨i, hi, ht⟩, -⟩ := htag
    · exact htag
    · exact absurd ht (hslot i hi)
  have hab : (s.laneAborted x).tag t = s.tag t :=
    (State.laneAborted_tag_notMem hclose).trans ((State.laneWritten_tag_notMem hwrite).trans hleft)
  unfold State.laneEnded
  obtain hno | ⟨u, g, hu, hg, hreset⟩ := (s.laneAborted x).endLaneReset_cases x
    ((s.lane x).workQueue.length + (s.laneWrites x).length + (s.laneCloses x).length) (s.lane x).countErased (s.lane x).countClosed
  · rw [hno, hab]
  · rw [hreset, State.finish_tag, if_neg, hab]
    rintro rfl
    exact (hopen g (hab.symm.trans hu)).2.2 hg

/-! ### The replies, in their order -/

theorem State.TagKept.entry {s m : State} {t : Nat} {g : TagEntry} (h : s.TagKept m t) (hg : m.tag t = some g) :
    ∃ e, s.tag t = some e ∧ (g = e ∨ g = e.dropSlot) := by
  obtain h | h := h <;> rw [h] at hg
  · exact ⟨g, hg, .inl rfl⟩
  · obtain ⟨e, he, rfl⟩ := Option.map_eq_some_iff.mp hg
    exact ⟨e, he, .inr rfl⟩

theorem State.TagKept.state {s m : State} {t : Nat} {e g : TagEntry} (h : s.TagKept m t) (he : s.tag t = some e) (hg : m.tag t = some g) :
    g.state = e.state := by
  obtain ⟨e', he', rfl | rfl⟩ := h.entry hg
  · rw [Option.some.inj (he'.symm.trans he)]
  · rw [← Option.some.inj (he'.symm.trans he)]
    rfl

/-- A reply that does not read the slot of its entry is the same. -/
theorem State.TagKept.reply_eq {s m : State} {t : Nat} (h : s.TagKept m t) {reply : TagEntry → QueueEntry}
    (hr : ∀ e, reply e.dropSlot = reply e) : (m.tag t).map reply = (s.tag t).map reply := by
  obtain h | h := h <;> rw [h]
  rw [Option.map_map]
  exact congrArg (fun f => (s.tag t).map f) (funext hr)

/-- What a LANE_RESET by tag `own` rests on for the order of its replies: its queued work names QUEUED tags, each once. -/
structure State.ResetsBy (s : State) (x own : Nat) (e : TagEntry) : Prop where
  live : s.tag own = some e
  waits : e.waitsReset x
  distinct : ((s.lane x).workQueue.map WorkItem.tag).Nodup
  queued : ∀ w ∈ (s.lane x).workQueue, ∀ g, s.tag w.tag = some g → g.state = .queued
  sole : ∀ u g, s.tag u = some g → g.waitsReset x → u = own

namespace State.ResetsBy

variable {s : State} {x own : Nat} {e : TagEntry}

theorem not_item (h : s.ResetsBy x own e) {t : Nat} {g : TagEntry} (hg : s.tag t = some g) (hs : g.state ≠ .queued) :
    t ∉ (s.lane x).workQueue.map WorkItem.tag := fun hm => by
  obtain ⟨w, hw, rfl⟩ := List.mem_map.mp hm
  exact hs (h.queued w hw g hg)

theorem kept (h : s.ResetsBy x own e) {t : Nat} {g : TagEntry} (hg : s.tag t = some g) (hs : g.state ≠ .queued) :
    s.TagKept (s.laneLeft x) t := State.laneLeft_tagKept (h.not_item hg hs)

theorem laneLeft_link (h : s.ResetsBy x own e) :
    (s.laneLeft x).link
      = ((s.lane x).workQueue.filterMap (fun w => (s.tag w.tag).map (fun g =>
          QueueEntry.finalOf w.tag g.kind .aborted (w.abortFields x) none))).foldl Link.placeFinal s.link := by
  obtain ⟨-, -, -, -, -, hlink⟩ := s.laneLeft_frame x
  refine hlink.trans ((abortItem_endsEach x).foldl_link s h.distinct fun w hw g hg => ?_)
  rw [h.queued w hw g hg]
  decide

theorem write_state {g : TagEntry} (hw : g.writesTo x) : g.state ≠ .queued ∧ g.state ≠ .replying := by
  obtain ⟨-, h | h | h, -⟩ := hw <;> rw [h] <;> decide

theorem laneWritten_link (h : s.ResetsBy x own e) :
    (s.laneWritten x).link
      = ((s.laneWrites x).filterMap (fun t => (s.tag t).map (fun g =>
          QueueEntry.finalOf t .write .aborted (.page x (g.block.getD 0) (g.page.getD 0)) none))).foldl Link.placeFinal
          (s.laneLeft x).link := by
  have hkept : ∀ t ∈ s.laneWrites x, ∃ g, s.tag t = some g ∧ g.writesTo x ∧ s.TagKept (s.laneLeft x) t := fun t ht => by
    obtain ⟨g, hg, hw⟩ := (s.mem_laneWrites x t).mp ht
    exact ⟨g, hg, hw, h.kept hg (write_state hw).1⟩
  refine ((endWrite_endsEach .aborted).foldl_link _ (by rw [List.map_id]; exact s.laneWrites_nodup x) fun t ht g hg => ?_).trans ?_
  · obtain ⟨g', hg', hw, hk⟩ := hkept t ht
    rw [hk.state hg' hg]
    exact (write_state hw).2
  · refine congrArg (fun l => List.foldl Link.placeFinal (s.laneLeft x).link l) (List.filterMap_congr fun t ht => ?_)
    obtain ⟨g, hg, ⟨hkind, -, hlane⟩, hk⟩ := hkept t ht
    refine (hk.reply_eq (reply := fun g => QueueEntry.writeEnd t g .aborted) fun _ => rfl).trans ?_
    rw [hg]
    unfold QueueEntry.writeEnd
    rw [Option.map_some, Option.map_some, hkind, hlane]
    rfl

theorem not_write {t : Nat} {g : TagEntry} (hg : s.tag t = some g) (hk : g.kind ≠ .write) : t ∉ s.laneWrites x := fun hm => by
  obtain ⟨g', hg', hw⟩ := (s.mem_laneWrites x t).mp hm
  exact hk (Option.some.inj (hg.symm.trans hg') ▸ hw.1)

theorem laneAborted_link (h : s.ResetsBy x own e) :
    (s.laneAborted x).link
      = ((s.laneCloses x).filterMap (fun t => (s.tag t).map (fun g =>
          QueueEntry.finalOf t .close .aborted (.block x (g.block.getD 0)) none))).foldl Link.placeFinal (s.laneWritten x).link := by
  have hkept : ∀ t ∈ s.laneCloses x, ∃ g, s.tag t = some g ∧ g.closesAt x ∧ s.TagKept (s.laneWritten x) t := fun t ht => by
    obtain ⟨g, hg, hc⟩ := (s.mem_laneCloses x t).mp ht
    have hleft := h.kept hg (by rw [hc.2.1]; decide)
    have hwrite := State.laneWritten_tag_notMem (not_write (x := x) hg (by rw [hc.1]; decide))
    exact ⟨g, hg, hc, by unfold State.TagKept; rw [hwrite]; exact hleft⟩
  refine (abortClose_endsEach.foldl_link _ (by rw [List.map_id]; exact s.laneCloses_nodup x) fun t ht g hg => ?_).trans ?_
  · obtain ⟨g', hg', hc, hk⟩ := hkept t ht
    rw [hk.state hg' hg, hc.2.1]
    decide
  · refine congrArg (fun l => List.foldl Link.placeFinal (s.laneWritten x).link l) (List.filterMap_congr fun t ht => ?_)
    obtain ⟨g, hg, ⟨hkind, -, hlane⟩, hk⟩ := hkept t ht
    refine (hk.reply_eq (reply := fun g => QueueEntry.finalOf t g.kind .aborted (.block (g.lane.getD 0) (g.block.getD 0)) none)
      fun _ => rfl).trans ?_
    rw [hg, Option.map_some, Option.map_some, hkind, hlane]
    rfl

/-- A tag that is not REPLYING once the lane's CLOSEs have ended has only lost its slot. -/
theorem kept_of_open {t : Nat} {g : TagEntry} (hg : (s.laneAborted x).tag t = some g) (hs : g.state ≠ .replying) :
    s.TagKept (s.laneAborted x) t := by
  have hclose : t ∉ s.laneCloses x := fun hm => by
    have htag := abortClose_endsEach.foldl_tag_mem (s.laneWritten x) (as := s.laneCloses x) (u := t) (by rw [List.map_id]; exact hm)
    obtain ⟨e', -, rfl⟩ := Option.map_eq_some_iff.mp (htag.symm.trans hg)
    exact hs rfl
  have haborted := State.laneAborted_tag_notMem hclose
  rw [haborted] at hg
  have hwrite : t ∉ s.laneWrites x := fun hm => by
    have htag := (endWrite_endsEach .aborted).foldl_tag_mem (s.laneLeft x) (as := s.laneWrites x) (u := t) (by rw [List.map_id]; exact hm)
    obtain ⟨e', -, rfl⟩ := Option.map_eq_some_iff.mp (htag.symm.trans hg)
    exact hs rfl
  have hwritten := State.laneWritten_tag_notMem hwrite
  rw [hwritten] at hg
  have hitem : t ∉ (s.lane x).workQueue.map WorkItem.tag := fun hm => by
    have htag := s.laneLeft_tag x t
    rw [if_pos hm, hg] at htag
    obtain htag | ⟨-, htag⟩ := htag
    · obtain ⟨e', -, rfl⟩ := Option.map_eq_some_iff.mp htag.symm
      exact hs rfl
    · obtain ⟨e₁, he₁, rfl⟩ := Option.map_eq_some_iff.mp htag.symm
      obtain ⟨e', -, rfl⟩ := Option.map_eq_some_iff.mp he₁
      exact hs rfl
  unfold State.TagKept
  rw [haborted, hwritten]
  exact State.laneLeft_tagKept hitem

/-- The LANE_RESET that waits when the lane's other tags have ended. -/
theorem own_left (h : s.ResetsBy x own e) : ∃ g, (s.laneAborted x).tag own = some g ∧ g.waitsReset x ∧ g.kind = .laneReset := by
  obtain ⟨hkind, hstate, hlane⟩ := h.waits
  have hleft := h.kept h.live (by rw [hstate]; decide)
  have hwritten := State.laneWritten_tag_notMem (not_write (x := x) h.live (by rw [hkind]; decide))
  have hclose : own ∉ s.laneCloses x := fun hm => by
    obtain ⟨g', hg', hc⟩ := (s.mem_laneCloses x own).mp hm
    rw [Option.some.inj (h.live.symm.trans hg')] at hkind
    exact nomatch hkind.symm.trans hc.1
  rw [State.laneAborted_tag_notMem hclose, hwritten]
  obtain hleft | hleft := hleft <;> rw [hleft, h.live]
  · exact ⟨e, rfl, h.waits, hkind⟩
  · exact ⟨e.dropSlot, rfl, ⟨hkind, hstate, hlane⟩, hkind⟩

theorem laneEnded_eq (h : s.ResetsBy x own e) :
    s.laneEnded x
      = (s.laneAborted x).finish own .done (.laneReset x
          ((s.lane x).workQueue.length + (s.laneWrites x).length + (s.laneCloses x).length) (s.lane x).countErased (s.lane x).countClosed)
          none := by
  obtain ⟨g, hg, hw, -⟩ := h.own_left
  refine State.endLaneReset_sole hg hw (fun u g' hg' hw' => ?_) _ _ _
  have hkept := kept_of_open hg' (by rw [hw'.2.1]; decide)
  obtain ⟨e', he', rfl | rfl⟩ := hkept.entry hg'
  · exact h.sole u _ he' hw'
  · exact h.sole u e' he' hw'

theorem laneEnded_link (h : s.ResetsBy x own e) :
    (s.laneEnded x).link
      = (s.laneAborted x).link.placeFinal (QueueEntry.finalOf own .laneReset .done (.laneReset x
          ((s.lane x).workQueue.length + (s.laneWrites x).length + (s.laneCloses x).length) (s.lane x).countErased (s.lane x).countClosed)
          none) := by
  obtain ⟨g, hg, hw, hk⟩ := h.own_left
  rw [h.laneEnded_eq, State.finish_link _ _ _ _ hg (by rw [hw.2.1]; decide), hk]

theorem laneEnded_own (h : s.ResetsBy x own e) : ((s.laneEnded x).tag own).map TagEntry.state = some .replying := by
  obtain ⟨g, hg, -, -⟩ := h.own_left
  rw [h.laneEnded_eq, State.finish_tag, if_pos rfl, hg]
  rfl

end State.ResetsBy

/-! ### The obligation -/

theorem execLaneReset_taken {s : State} {f : InFrame} {x : Nat} (h : s.Admits f .laneReset (.laneReset x)) (hx : x < 4)
    (hr : (s.lane x).state = .ready) :
    exec .laneReset s
      = .next (s.conclude [x]
          ((s.unbuffer.setTag f.tag (some (TagEntry.mk' .laneReset .waiting (some x) none none))).modLane x
            (fun l => { l with state := .resetting }))) := by
  have hcheck : s.unbuffer.laneResetCheck x = none := by
    show s.laneResetCheck x = none
    unfold State.laneResetCheck laneCheck
    rw [if_neg (show ¬Config.lanes ≤ x from Nat.not_le.mpr hx), hr]
  refine (execLaneReset.eq_1 s).trans ((takeRequest_admits _ h).trans ?_)
  dsimp only
  rw [hcheck]
  rfl

/-- Settles O53: the take, the wait, and the application by the lane, its slots, its tags and the order of the replies. -/
theorem laneResetRuns : Obligations.LaneResetRuns := by
  refine ⟨fun s f x hadm hx hr => execLaneReset_taken hadm hx hr, fun s x hno => ?_, fun s x hx hreset hjob hpart => ?_⟩
  · refine if_neg ?_
    rintro ⟨hstate, hjob⟩
    exact hno.elim (fun h => h hjob) (fun h => h hstate)
  intro m items openWrite openClose itsReset place
  have hm : m = (s.laneEnded x).makeLaneReady x := by
    show s.applyDueReset x = _
    unfold State.applyDueReset
    rw [if_pos ⟨hreset, hjob⟩, if_neg hpart, State.applyLaneReset_eq]
  clear_value m
  obtain ⟨llanes, lrqu, llink, larmed, ⟨l1, l2, l3⟩, -⟩ := s.laneLeft_frame x
  have hends := s.laneEnded_onlyReplies x
  obtain ⟨i1, i2, i3⟩ := hends.inputs
  obtain ⟨k, hk⟩ : ∃ k, k = s.laneEnded x := ⟨_, rfl⟩
  rw [← hk] at hm hends i1 i2 i3
  have hendedLane : k.lane x = (s.lane x).applyReset :=
    (hends.lane x).trans ((State.lane_of_lanes llanes x).trans (State.lane_modLane_same s _ hx))
  have hlane : m.lane x = { (s.lane x).applyReset with state := .ready } := by
    rw [hm]
    refine (State.lane_modLane_same _ _ hx).trans ?_
    rw [hendedLane]
  have hrecord : ∀ b, b < 1024 → m.record x b = (s.record x b).afterReset := fun b hb => by
    rw [State.record, hlane]
    exact Lane.record_applyReset _ hb
  have hslot : ∀ i, m.slot i = if (s.slot i).ofLane x = true then (s.slot i).release else s.slot i := fun i => by
    rw [hm]
    exact (hends.slot i).trans (s.laneLeft_slot x i)
  have htag : ∀ t, m.tag t = (s.laneEnded x).tag t := fun t => by
    rw [hm, ← hk]
    rfl
  have hlink : m.link = k.link := by
    rw [hm]
    rfl
  have hplace : s.addressKey = place := by
    funext t
    unfold State.addressKey
    cases h : s.tag t <;> simp [place, h]
  refine ⟨?_, fun b hb => ?_, fun i hi => (hslot i).trans (if_pos hi), fun i hi => (hslot i).trans (if_neg (by rw [hi]; decide)),
    ⟨s.laneWrites x, s.laneCloses x, s.mem_laneWrites x, s.laneWrites_nodup x, hplace ▸ sortByKey_pairwise _ _, s.mem_laneCloses x,
      s.laneCloses_nodup x, hplace ▸ sortByKey_pairwise _ _, fun own e he hreset hn hq hsole => ?replies⟩,
    fun t e he hw => (htag t).trans (State.laneEnded_tag_write he hw), fun t e he hend => ?_, fun t hitem hslots hopen => ?_,
    fun y hy => ?_, ?_, ?_, ?_, ?_⟩
  · rw [hlane]
    rfl
  · rw [hrecord b hb]
    exact BlockRec.setByReset_afterReset _
  case replies =>
    have hby : s.ResetsBy x own e := ⟨he, hreset, hn, hq, hsole⟩
    refine ⟨by rw [htag]; exact hby.laneEnded_own, ?_⟩
    rw [hlink, hk, hby.laneEnded_link, hby.laneAborted_link, hby.laneWritten_link, hby.laneLeft_link, State.blocksSet_erased hrecord,
      State.blocksSet_closed hrecord, List.foldl_append, List.foldl_append, List.foldl_append]
    rfl
  · rw [htag]
    refine State.laneEnded_tag_state he (hend.imp id ?_)
    rintro ⟨w, hw, rfl⟩
    exact List.mem_map_of_mem hw
  · rw [htag]
    refine State.laneEnded_tag_other (fun hmem => ?_) hslots hopen
    obtain ⟨w, hw, heq⟩ := List.mem_map.mp hmem
    exact hitem w hw heq
  · rw [hm]
    exact (State.lane_modLane_ne _ _ hy).trans ((hends.lane y).trans ((State.lane_of_lanes llanes y).trans (State.lane_modLane_ne s _ hy)))
  · rw [hm]
    exact ⟨i1.trans l1, i2.trans l2, i3.trans l3⟩
  · rw [hm]
    exact lrqu.trans hends.rqu
  · rw [hm]
    exact (congrArg Pool.armed hends.pool).trans larmed
  · have hl := hends.link
    unfold Link.sameButReplies at hl llink ⊢
    rw [hlink, hl, llink]

end Sys2Proof.Machine
end

