-- ==== Sys2Proof/Proofs/PartResets.lean ====
section
/-! PROOFS. PART_RESET: its take, its application to a lane, and its completion (R99, R153, R163, R164). -/

namespace Sys2Proof.Machine

/-! ### Sources released (R153) -/

/-- Of the pool and the lanes only the data sources of the entries `gone` have been released. -/
structure State.Released (s m : State) (gone : List QueueEntry) : Prop where
  slot : ∀ i, m.slot i = Slot.unpin^[sourceCount gone (.slot i)] (s.slot i)
  egress : ∀ y, y < 4 → (m.lane y).egress
    = if 0 < sourceCount gone (.egress y) then { (s.lane y).egress with state := .free } else (s.lane y).egress
  lane : ∀ y, ∃ g, m.lane y = { s.lane y with egress := g }
  armed : m.pool.armed = s.pool.armed
  inputs : s.sameInputs m

theorem sourceCount_append (gone more : List QueueEntry) (src : Source) :
    sourceCount (gone ++ more) src = sourceCount gone src + sourceCount more src := List.countP_append

namespace State.Released

variable {s m n : State} {gone more : List QueueEntry}

theorem refl (s : State) : s.Released s [] :=
  ⟨fun _ => rfl, fun _ _ => rfl, fun y => ⟨(s.lane y).egress, rfl⟩, rfl, ⟨rfl, rfl, rfl⟩⟩

theorem trans (h : s.Released m gone) (k : m.Released n more) : s.Released n (gone ++ more) := by
  obtain ⟨h1, h2, h3⟩ := h.inputs
  obtain ⟨k1, k2, k3⟩ := k.inputs
  refine ⟨fun i => ?_, fun y hy => ?_, fun y => ?_, k.armed.trans h.armed, ⟨k1.trans h1, k2.trans h2, k3.trans h3⟩⟩
  · rw [k.slot, h.slot, sourceCount_append, Nat.add_comm, Function.iterate_add_apply]
  · rw [k.egress y hy, h.egress y hy, sourceCount_append]
    by_cases hg : 0 < sourceCount gone (.egress y)
    · rw [if_pos hg, if_pos (Nat.add_pos_left hg _), ite_self]
    · rw [if_neg hg, Nat.eq_zero_of_not_pos hg, Nat.zero_add]
  · obtain ⟨g, hg⟩ := h.lane y
    obtain ⟨g', hg'⟩ := k.lane y
    exact ⟨g', by rw [hg', hg]⟩

theorem congr (h : s.Released m gone) (hpool : n.pool = m.pool) (hlanes : n.lanes = m.lanes) (hin : m.sameInputs n) :
    s.Released n gone := by
  obtain ⟨h1, h2, h3⟩ := h.inputs
  obtain ⟨k1, k2, k3⟩ := hin
  refine ⟨fun i => ?_, fun y hy => ?_, fun y => ?_, (congrArg Pool.armed hpool).trans h.armed, ⟨k1.trans h1, k2.trans h2, k3.trans h3⟩⟩
  · rw [State.slot_of_slots (congrArg Pool.slots hpool), h.slot]
  · rw [State.lane_of_lanes hlanes, h.egress y hy]
  · rw [State.lane_of_lanes hlanes]
    exact h.lane y

theorem perm (h : s.Released m gone) (hp : gone.Perm more) : s.Released m more := by
  have hcount : ∀ src, sourceCount more src = sourceCount gone src := fun src => (hp.countP_eq _).symm
  exact ⟨fun i => by rw [hcount]; exact h.slot i, fun y hy => by rw [hcount]; exact h.egress y hy, h.lane, h.armed, h.inputs⟩

end State.Released

theorem Slot.unpin_powerOn : Slot.powerOn.unpin = Slot.powerOn := rfl

/-- The source of one entry is released. -/
theorem State.releaseSource_released (s : State) (q : QueueEntry) : s.Released (s.releaseSource q.source) [q] := by
  have hcount : ∀ src, sourceCount [q] src = if q.source = some src then 1 else 0 := fun src => by
    unfold sourceCount
    rw [List.countP_singleton]
    exact if_congr decide_eq_true_iff rfl rfl
  cases hsrc : q.source with
  | none =>
    have hzero : ∀ src, sourceCount [q] src = 0 := fun src => by rw [hcount, hsrc]; rfl
    exact ⟨fun i => by rw [hzero]; rfl, fun y _ => by rw [hzero]; rfl, fun y => ⟨(s.lane y).egress, rfl⟩, rfl, ⟨rfl, rfl, rfl⟩⟩
  | some src =>
    cases src with
    | slot j =>
      refine ⟨fun i => ?_, fun y _ => by rw [hcount, hsrc]; rfl, fun y => ⟨(s.lane y).egress, rfl⟩, rfl, ⟨rfl, rfl, rfl⟩⟩
      show (s.modSlot j Slot.unpin).slot i = _
      rw [hcount, hsrc]
      by_cases hij : i = j
      · rw [hij, if_pos rfl]
        by_cases hj : j < 96
        · exact State.slot_modSlot_same s _ hj
        · rw [State.slot_modSlot_out s _ hj, State.slot_out s hj]
          rfl
      · rw [State.slot_modSlot_ne s _ hij, if_neg fun h => hij (Source.slot.inj (Option.some.inj h)).symm]
        rfl
    | egress z =>
      have hlane : s.releaseSource (some (.egress z))
          = s.modLane z (fun l => { l with egress := { l.egress with state := .free } }) := rfl
      rw [hlane]
      refine ⟨fun i => by rw [hcount, hsrc]; rfl, fun y hy => ?_, fun y => ?_, rfl, ⟨rfl, rfl, rfl⟩⟩
      · rw [hcount, hsrc]
        by_cases hyz : y = z
        · rw [← hyz, if_pos rfl, State.lane_modLane_same s _ hy]
          rfl
        · rw [State.lane_modLane_ne s _ hyz, if_neg fun h => hyz (Source.egress.inj (Option.some.inj h)).symm]
          rfl
      · by_cases hyz : y = z
        · by_cases hz : z < 4
          · rw [hyz, State.lane_modLane_same s _ hz]
            exact ⟨_, rfl⟩
          · rw [State.lane_modLane_out s _ hz]
            exact ⟨(s.lane y).egress, rfl⟩
        · rw [State.lane_modLane_ne s _ hyz]
          exact ⟨(s.lane y).egress, rfl⟩

theorem State.releaseSource_rqu (s : State) (src : Option Source) : (s.releaseSource src).rqu = s.rqu := by
  unfold State.releaseSource
  split <;> rfl

theorem State.releaseSources_released (s : State) (qs : List QueueEntry) :
    s.Released (qs.foldl (fun s q => s.releaseSource q.source) s) qs
      ∧ (qs.foldl (fun s q => s.releaseSource q.source) s).rqu = s.rqu := by
  induction qs generalizing s with
  | nil => exact ⟨.refl s, rfl⟩
  | cons q qs ih =>
    obtain ⟨hrest, hrqu⟩ := ih (s.releaseSource q.source)
    exact ⟨(s.releaseSource_released q).trans hrest, hrqu.trans (s.releaseSource_rqu _)⟩

/-! ### Replies and tags removed -/

theorem State.removeReplies_released (s : State) (p : QueueEntry → Bool) : s.Released (s.removeReplies p) (s.link.queue.filter p) :=
  (s.releaseSources_released (s.link.queue.filter p)).1.congr rfl rfl ⟨rfl, rfl, rfl⟩

theorem State.removeReplies_rqu (s : State) (p : QueueEntry → Bool) : (s.removeReplies p).rqu = s.rqu :=
  (s.releaseSources_released (s.link.queue.filter p)).2

theorem State.removeReplies_link (s : State) (p : QueueEntry → Bool) :
    (s.removeReplies p).link
      = { s.link with
          queue := s.link.queue.filter (fun q => !p q)
          tx := if s.link.queue.head?.any p then s.link.tx.map OutFrame.drop else s.link.tx
          transmission := if s.link.queue.head?.any p then none else s.link.transmission } := by
  unfold State.removeReplies
  dsimp only
  rw [State.releaseSources_link]
  cases s.link.queue <;> rfl

theorem State.unlives_tag (s : State) (gone : List Nat) (u : Nat) :
    (gone.foldl (fun s t => s.setTag t none) s).tag u = if u ∈ gone then none else s.tag u := by
  induction gone generalizing s with
  | nil => rfl
  | cons t gone ih =>
    rw [List.foldl_cons, ih]
    by_cases hu : u = t
    · rw [if_pos (List.mem_cons.mpr (.inl hu)), hu, State.tag_setTag_none, ite_self]
    · rw [State.tag_setTag_ne _ _ hu]
      exact if_congr (by rw [List.mem_cons, or_iff_right hu]) rfl rfl

theorem State.unlives_frame (s : State) (gone : List Nat) : s.OnlyReplies (gone.foldl (fun s t => s.setTag t none) s) :=
  .foldl (f := fun s t => s.setTag t none) (fun _ _ => ⟨rfl, rfl, ⟨rfl, rfl, rfl⟩, rfl, rfl⟩) s gone

/-- The entry is removed with the tags `gone`. -/
def QueueEntry.removedWith (gone : List Nat) (q : QueueEntry) : Bool := !q.isRefusal && gone.contains q.reply.tag

theorem State.removeTags_tag (s : State) (gone : List Nat) (u : Nat) :
    (s.removeTags gone).tag u = if u ∈ gone then none else s.tag u := by
  rw [← s.unlives_tag gone u]
  exact State.tag_of_rqu (congrArg Rqu.tags (State.removeReplies_rqu _ (QueueEntry.removedWith gone))) u

theorem State.removeTags_rqu (s : State) (gone : List Nat) : s.rqu.sameButTags (s.removeTags gone).rqu := by
  have hrqu : (s.removeTags gone).rqu = (gone.foldl (fun s t => s.setTag t none) s).rqu :=
    State.removeReplies_rqu _ (QueueEntry.removedWith gone)
  rw [hrqu]
  exact (s.unlives_frame gone).rqu

theorem State.removeTags_released (s : State) (gone : List Nat) :
    s.Released (s.removeTags gone) (s.link.queue.filter (QueueEntry.removedWith gone)) := by
  have hun := s.unlives_frame gone
  have hreplies := (gone.foldl (fun s t => s.setTag t none) s).removeReplies_released (QueueEntry.removedWith gone)
  rw [State.unlives_link] at hreplies
  have hrest : s.Released ((gone.foldl (fun s t => s.setTag t none) s).removeReplies (QueueEntry.removedWith gone))
      ([] ++ s.link.queue.filter (QueueEntry.removedWith gone)) :=
    ((State.Released.refl s).congr hun.pool hun.lanes hun.inputs).trans hreplies
  exact hrest.congr rfl rfl ⟨rfl, rfl, rfl⟩

theorem State.removeTags_link (s : State) (gone : List Nat) :
    (s.removeTags gone).link
      = { s.link with
          queue := s.link.queue.filter (fun q => !QueueEntry.removedWith gone q)
          deferred := s.link.deferred.filter (fun q => !gone.contains q.reply.tag)
          tx := if s.link.queue.head?.any (QueueEntry.removedWith gone) then s.link.tx.map OutFrame.drop else s.link.tx
          transmission := if s.link.queue.head?.any (QueueEntry.removedWith gone) then none else s.link.transmission } := by
  have hlink := (gone.foldl (fun s t => s.setTag t none) s).removeReplies_link (QueueEntry.removedWith gone)
  rw [State.unlives_link] at hlink
  have hdef : (s.removeTags gone).link
      = { ((gone.foldl (fun s t => s.setTag t none) s).removeReplies (QueueEntry.removedWith gone)).link with
          deferred := ((gone.foldl (fun s t => s.setTag t none) s).removeReplies (QueueEntry.removedWith gone)).link.deferred.filter
            (fun q => !gone.contains q.reply.tag) } := rfl
  rw [hdef, hlink]

/-! ### The take -/

theorem Lane.reached_iff (l : Lane) : l.reached = true ↔ l.state = .ready ∨ l.state = .resetting := by
  unfold Lane.reached
  rw [Bool.or_eq_true, decide_eq_true_iff, decide_eq_true_iff]

theorem State.lane_beginPartReset (s : State) (t : Nat) {x : Nat} (hx : x < 4) :
    (s.beginPartReset t).lane x = if (s.lane x).reached then { s.lane x with state := .resetting } else s.lane x := by
  have hget : (s.lanes.map fun l => if l.reached then { l with state := .resetting } else l)[x]?
      = some (if (s.lane x).reached then { s.lane x with state := .resetting } else s.lane x) := by
    rw [Vector.getElem?_map, s.lanes_getElem? hx]
    rfl
  exact congrArg (fun o => o.getD (Lane.powerOn FlashArray.delivered none)) hget

theorem execPartReset_taken {s : State} {f : InFrame} (h : s.Admits f .partReset .partReset) :
    exec .partReset s = .next (s.conclude [0, 1, 2, 3] (s.unbuffer.beginPartReset f.tag)) :=
  (execPartReset.eq_1 s).trans (takeRequest_admits _ h)

/-! ### The application to a lane -/

/-- A lane whose work queue and ready list are empty, its records set and its slots released, and that is READY (R99). -/
def State.laneEmptied (s : State) (x : Nat) : State :=
  let m := s.modLane x Lane.applyReset
  (m.releaseSlots (m.laneSlots x)).makeLaneReady x

theorem State.laneEmptied_frame (s : State) {x : Nat} (hx : x < 4) :
    (s.laneEmptied x).lane x = { (s.lane x).applyReset with state := .ready }
      ∧ (∀ y, y ≠ x → (s.laneEmptied x).lane y = s.lane y) ∧ s.rqu.sameButTags (s.laneEmptied x).rqu
      ∧ (s.laneEmptied x).link = s.link ∧ (s.laneEmptied x).pool.armed = s.pool.armed ∧ s.sameInputs (s.laneEmptied x) := by
  obtain ⟨k, hk⟩ : ∃ k, k = s.modLane x Lane.applyReset := ⟨_, rfl⟩
  obtain ⟨llink, llanes, lrqu, larmed, l1, l2, l3⟩ := k.leaveSlots_frame (k.laneSlots x) fun _ => Slot.release
  unfold State.laneEmptied
  dsimp only
  rw [← hk, State.releaseSlots_eq]
  refine ⟨?_, fun y hy => ?_, ?_, ?_, ?_, ?_⟩
  · refine (State.lane_modLane_same _ _ hx).trans ?_
    rw [State.lane_of_lanes llanes, hk, State.lane_modLane_same s _ hx]
  · refine (State.lane_modLane_ne _ _ hy).trans ?_
    rw [State.lane_of_lanes llanes, hk, State.lane_modLane_ne s _ hy]
  · rw [hk] at lrqu ⊢
    exact lrqu
  · rw [hk] at llink ⊢
    exact llink
  · rw [hk] at larmed ⊢
    exact larmed
  · rw [hk] at l1 l2 l3 ⊢
    exact ⟨l1, l2, l3⟩

theorem State.laneEmptied_slot (s : State) (x i : Nat) :
    (s.laneEmptied x).slot i = if (s.slot i).ofLane x = true then (s.slot i).release else s.slot i :=
  (s.modLane x Lane.applyReset).slot_releaseLane x i

theorem State.laneEmptied_tag (s : State) (x u : Nat) :
    (s.laneEmptied x).tag u = s.tag u
      ∨ ((∃ i, (s.slot i).ofLane x = true ∧ (s.slot i).tag = some u) ∧ (s.laneEmptied x).tag u = (s.tag u).map TagEntry.dropSlot) :=
  (s.modLane x Lane.applyReset).tag_releaseLane x u

/-- The tag is live on lane `x`. -/
def State.tagOfLane (s : State) (x t : Nat) : Bool := decide ((s.tag t).any (fun e => decide (e.lane = some x)) = true)

/-- The lane's tags, which a PART_RESET takes out of the table. -/
def State.laneTags (s : State) (x : Nat) : List Nat := (s.laneEmptied x).tagsWhere (fun e => decide (e.lane = some x))

theorem State.tagsWhere_eq (s : State) (p : TagEntry → Bool) : s.tagsWhere p = tagNumbers.filter (fun t => (s.tag t).any p) := by
  unfold State.tagsWhere
  refine List.filter_congr fun t _ => ?_
  cases s.tag t <;> rfl

theorem State.laneTags_eq (s : State) (x : Nat) : s.laneTags x = (List.range 64).filter (s.tagOfLane x) := by
  unfold State.laneTags
  rw [State.tagsWhere_eq]
  refine List.filter_congr fun t _ => ?_
  unfold State.tagOfLane
  rw [Bool.decide_eq_true]
  obtain h | ⟨-, h⟩ := s.laneEmptied_tag x t <;> rw [h]
  cases s.tag t <;> rfl

theorem State.mem_laneTags (s : State) (x t : Nat) : t ∈ s.laneTags x ↔ s.tagOfLane x t = true := by
  rw [State.laneTags_eq, List.mem_filter, List.mem_range, and_iff_right_iff_imp]
  intro h
  unfold State.tagOfLane at h
  cases ht : s.tag t with
  | none => rw [ht] at h; exact nomatch h
  | some e => exact s.tag_lt ht

theorem State.laneTags_contains (s : State) (x t : Nat) : (s.laneTags x).contains t = s.tagOfLane x t := by
  rw [Bool.eq_iff_iff, List.contains_iff_mem, State.mem_laneTags]

theorem State.applyPartReset_eq (s : State) (x : Nat) :
    s.applyPartReset x
      = ((s.laneEmptied x).removeTags (s.laneTags x)).noteReset x (s.lane x).countErased (s.lane x).countClosed (s.laneTags x).length :=
  rfl

/-! ### The completion -/

/-- The live tags other than `own`. -/
def State.otherTags (s : State) (own : Nat) : List Nat := (s.tagsWhere (fun _ => true)).filter (fun t => decide (t ≠ own))

theorem State.otherTags_eq (s : State) (own : Nat) :
    s.otherTags own = (List.range 64).filter (fun t => (s.tag t).isSome && decide (t ≠ own)) := by
  unfold State.otherTags
  rw [State.tagsWhere_eq, List.filter_filter]
  refine List.filter_congr fun t _ => ?_
  rw [Bool.and_comm]
  cases s.tag t <;> rfl

theorem State.mem_otherTags (s : State) (own t : Nat) : t ∈ s.otherTags own ↔ (s.tag t).isSome = true ∧ t ≠ own := by
  rw [State.otherTags_eq, List.mem_filter, List.mem_range, Bool.and_eq_true, decide_eq_true_iff, and_iff_right_iff_imp]
  rintro ⟨h, -⟩
  obtain ⟨e, he⟩ := Option.isSome_iff_exists.mp h
  exact s.tag_lt he

/-- Every other tag and every queued reply has gone (R164). -/
def State.stripped (s : State) (own : Nat) : State := (s.removeTags (s.otherTags own)).removeReplies (fun _ => true)

/-- The part runs again. -/
def State.rerun (s : State) : State :=
  { s with
    link := { s.link with deferred := none }
    rqu := { s.rqu with ring := [], part := .running, partReset := none } }

theorem State.rerun_tag (s : State) (u : Nat) : s.rerun.tag u = s.tag u := rfl

theorem State.Released.rerun {s m : State} {gone : List QueueEntry} (h : s.Released m gone) : s.Released m.rerun gone :=
  h.congr rfl rfl ⟨rfl, rfl, rfl⟩

theorem State.Released.onlyReplies {s m n : State} {gone : List QueueEntry} (h : s.Released m gone) (hn : m.OnlyReplies n) :
    s.Released n gone := h.congr hn.pool hn.lanes hn.inputs

theorem State.finishPartReset_eq (s : State) (p : PartReset) :
    s.finishPartReset p
      = (s.stripped p.tag).rerun.finish p.tag .done (.partReset p.lanes.toList (p.removed + (s.otherTags p.tag).length)) none := rfl

theorem OutFrame.drop_drop (f : OutFrame) : f.drop.drop = f.drop := by
  unfold OutFrame.drop
  cases f with
  | mk what seq ack window tag payload => cases what <;> rfl

theorem State.stripped_released (s : State) (own : Nat) : s.Released (s.stripped own) s.link.queue := by
  have htags := s.removeTags_released (s.otherTags own)
  have hreplies := (s.removeTags (s.otherTags own)).removeReplies_released (fun _ => true)
  rw [List.filter_true, State.removeTags_link] at hreplies
  exact (htags.trans hreplies).perm (List.filter_append_perm _ _)

theorem State.stripped_link {s : State} (own : Nat) (h : s.link.queue = [] → s.link.transmission = none) :
    (s.stripped own).link
      = { s.link with
          queue := []
          deferred := s.link.deferred.filter (fun q => !(s.otherTags own).contains q.reply.tag)
          tx := if s.link.queue = [] then s.link.tx else s.link.tx.map OutFrame.drop
          transmission := none } := by
  unfold State.stripped
  rw [State.removeReplies_link, State.removeTags_link]
  cases hq : s.link.queue with
  | nil => simp [h hq]
  | cons q rest =>
    have hdrop : OutFrame.drop ∘ OutFrame.drop = OutFrame.drop := funext OutFrame.drop_drop
    cases hgone : QueueEntry.removedWith (s.otherTags own) q with
    | true => simp [hgone, hdrop]
    | false => simp [hgone]

theorem State.stripped_tag {s : State} {own : Nat} {e : TagEntry} (h : s.tag own = some e) (u : Nat) :
    (s.stripped own).tag u = if u = own then some e else none := by
  have htag : (s.stripped own).tag u = (s.removeTags (s.otherTags own)).tag u :=
    State.tag_of_rqu (congrArg Rqu.tags (State.removeReplies_rqu _ _)) u
  rw [htag, State.removeTags_tag]
  by_cases hu : u = own
  · rw [if_pos hu, if_neg fun hm => ((s.mem_otherTags own u).mp hm).2 hu, hu, h]
  · rw [if_neg hu]
    split
    · rfl
    · rename_i hm
      cases hs : s.tag u with
      | none => rfl
      | some g => exact absurd ((s.mem_otherTags own u).mpr ⟨by rw [hs]; rfl, hu⟩) hm

theorem State.stripped_rqu (s : State) (own : Nat) : s.rqu.sameButTags (s.stripped own).rqu := by
  have hrqu : (s.stripped own).rqu = (s.removeTags (s.otherTags own)).rqu := State.removeReplies_rqu _ _
  rw [hrqu]
  exact s.removeTags_rqu _

/-- What the completion leaves of the link: only the reply of the PART_RESET is queued. -/
theorem State.finishPartReset_link {s : State} {p : PartReset} {e : TagEntry} (htag : s.tag p.tag = some e) (he : e.state ≠ .replying)
    (h : s.link.queue = [] → s.link.transmission = none) :
    (s.finishPartReset p).link
      = { s.link with
          queue := [QueueEntry.finalOf p.tag e.kind .done (.partReset p.lanes.toList (p.removed + (s.otherTags p.tag).length)) none]
          deferred := none
          tx := if s.link.queue = [] then s.link.tx else s.link.tx.map OutFrame.drop
          transmission := none } := by
  have hlive : (s.stripped p.tag).rerun.tag p.tag = some e := by
    rw [State.rerun_tag, State.stripped_tag htag, if_pos rfl]
  have hlink : (s.stripped p.tag).rerun.link = { (s.stripped p.tag).link with deferred := none } := rfl
  rw [State.finishPartReset_eq, State.finish_link _ _ _ _ hlive he, hlink, State.stripped_link p.tag h, Link.placeFinal_tail _ _ rfl]
  rfl

theorem State.finishPartReset_rqu (s : State) (p : PartReset) :
    (s.finishPartReset p).rqu
      = { s.rqu with tags := (s.finishPartReset p).rqu.tags, part := .running, ring := [], partReset := none } := by
  have hfinish := (State.finish_frame (s.stripped p.tag).rerun p.tag .done
    (.partReset p.lanes.toList (p.removed + (s.otherTags p.tag).length)) none).rqu
  have hstripped := s.stripped_rqu p.tag
  have hrerun : (s.stripped p.tag).rerun.rqu = { (s.stripped p.tag).rqu with ring := [], part := .running, partReset := none } := rfl
  rw [← State.finishPartReset_eq] at hfinish
  unfold Rqu.sameButTags at hfinish hstripped
  rw [hfinish, hrerun, hstripped]

theorem State.finishPartReset_released (s : State) (p : PartReset) : s.Released (s.finishPartReset p) s.link.queue := by
  rw [State.finishPartReset_eq]
  exact (s.stripped_released p.tag).rerun.onlyReplies (State.finish_frame _ _ _ _ _)

theorem State.finishPartReset_tag {s : State} {p : PartReset} {e : TagEntry} (h : s.tag p.tag = some e) (u : Nat) :
    (s.finishPartReset p).tag u = if u = p.tag then some e.replied else none := by
  rw [State.finishPartReset_eq, State.finish_tag, State.rerun_tag, State.stripped_tag h]
  split <;> rfl

theorem State.completeReset_waits {s : State}
    (h : s.rqu.partReset = none ∨ ∃ p, s.rqu.partReset = some p ∧ LaneReset.waiting ∈ p.lanes.toList) : s.completeReset = s := by
  unfold State.completeReset
  obtain hnone | ⟨p, hp, hwait⟩ := h
  · rw [hnone]
  · rw [hp]
    refine if_neg fun hc => ?_
    exact absurd rfl (of_decide_eq_true (List.all_eq_true.mp hc _ hwait))

theorem State.completeReset_completes {s : State} {p : PartReset} (hp : s.rqu.partReset = some p)
    (h : ∀ r ∈ p.lanes.toList, r ≠ .waiting) : s.completeReset = s.finishPartReset p := by
  unfold State.completeReset
  rw [hp]
  exact if_pos (List.all_eq_true.mpr fun r hr => decide_eq_true (h r hr))

/-! ### The obligation -/

theorem State.applyDueReset_part {s : State} {x : Nat} (hreset : (s.lane x).state = .resetting) (hjob : (s.lane x).job = none)
    (hpart : s.rqu.part = .resetting) : s.applyDueReset x = s.applyPartReset x := by
  unfold State.applyDueReset
  rw [if_pos ⟨hreset, hjob⟩, if_pos hpart]

/-- Settles O54: the take, the application to a lane, the wait for other lanes, and the completion. -/
theorem partResetRuns : Obligations.PartResetRuns := by
  refine ⟨fun s f hadm => ?take, fun s x p hx hreset hjob hpart hp => ?apply, fun s h => State.completeReset_waits h,
    fun s p e hp hall htag he hidle => ?complete⟩
  case take =>
    have hexec := execPartReset_taken hadm
    obtain ⟨-, -, -, ht, -, -⟩ := hadm
    refine ⟨_, { tag := f.tag, lanes := s.lanes.map (fun l => if l.reached then .waiting else .offline), removed := 0 }, hexec, rfl, rfl, rfl,
      s.unbuffer.tag_setTag_same _ ht, fun u hu => s.unbuffer.tag_setTag_ne _ hu, fun x hx => ?_, rfl, rfl, ⟨rfl, rfl, rfl⟩⟩
    intro reached
    refine ⟨(s.unbuffer.lane_beginPartReset f.tag hx).trans (if_congr (s.lane x).reached_iff rfl rfl), ?_⟩
    rw [Vector.getElem?_map, s.lanes_getElem? hx]
    exact congrArg some (if_congr (s.lane x).reached_iff rfl rfl)
  case apply =>
    intro m ofLane gone headGone
    have hm : m = ((s.laneEmptied x).removeTags (s.laneTags x)).noteReset x (s.lane x).countErased (s.lane x).countClosed
        (s.laneTags x).length := (State.applyDueReset_part hreset hjob hpart).trans (s.applyPartReset_eq x)
    clear_value m
    obtain ⟨elane, eothers, erqu, elink, earmed, e1, e2, e3⟩ := s.laneEmptied_frame hx
    obtain ⟨k, hk⟩ : ∃ k, k = (s.laneEmptied x).removeTags (s.laneTags x) := ⟨_, rfl⟩
    have hrel := (s.laneEmptied x).removeTags_released (s.laneTags x)
    have hklink := (s.laneEmptied x).removeTags_link (s.laneTags x)
    have hkrqu := (s.laneEmptied x).removeTags_rqu (s.laneTags x)
    have hktag := (s.laneEmptied x).removeTags_tag (s.laneTags x)
    rw [← hk] at hm hrel hklink hkrqu hktag
    have hgone : QueueEntry.removedWith (s.laneTags x) = gone := by
      funext q
      unfold QueueEntry.removedWith
      rw [State.laneTags_contains]
      show (!decide (q.reply.cls = .refusal) && _) = (decide (q.reply.cls ≠ .refusal) && _)
      rw [decide_not]
      rfl
    have hdeferred : (fun q : QueueEntry => !(s.laneTags x).contains q.reply.tag) = fun q => !ofLane q.reply.tag := by
      funext q
      rw [State.laneTags_contains]
      rfl
    rw [elink, hgone] at hrel hklink
    rw [hdeferred] at hklink
    have hmlink : m.link = k.link := by
      rw [hm]
      rfl
    have hmtag : ∀ t, m.tag t = if t ∈ s.laneTags x then none else (s.laneEmptied x).tag t := fun t => by
      rw [hm]
      exact hktag t
    have hmlane : ∀ y, m.lane y = k.lane y := fun y => by
      rw [hm]
      rfl
    have hrecord : ∀ b, b < 1024 → m.record x b = (s.record x b).afterReset := fun b hb => by
      obtain ⟨g, hg⟩ := hrel.lane x
      rw [State.record, hmlane, hg, elane]
      exact Lane.record_applyReset _ hb
    have hegress : ∀ y, ((s.laneEmptied x).lane y).egress = (s.lane y).egress := fun y => by
      by_cases hyx : y = x
      · rw [hyx, elane]
        rfl
      · rw [eothers y hyx]
    refine ⟨?_, fun b hb => ?_, fun y hy => ?_, ⟨fun i => ?_, fun y hy => ?_⟩, fun t ht => ?_, fun t ht hslots => ?_, by rw [hmlink, hklink],
      by rw [hmlink, hklink], by rw [hmlink, hklink], by rw [hmlink, hklink], by rw [hmlink, hklink], ?_, ?_, ?_⟩
    · obtain ⟨g, hg⟩ := hrel.lane x
      refine ⟨g, ?_⟩
      rw [hmlane, hg, elane]
      rfl
    · rw [hrecord b hb]
      exact BlockRec.setByReset_afterReset _
    · obtain ⟨g, hg⟩ := hrel.lane y
      refine ⟨g, ?_⟩
      rw [hmlane, hg, eothers y hy]
    · have hslot : m.slot i = k.slot i := by
        rw [hm]
        rfl
      rw [hslot, hrel.slot, State.laneEmptied_slot]
    · rw [hmlane, hrel.egress y hy, hegress]
    · rw [hmtag, if_pos ((s.mem_laneTags x t).mpr ht)]
    · have hnot : t ∉ s.laneTags x := fun hc => absurd (ht.symm.trans ((s.mem_laneTags x t).mp hc)) (by decide)
      rw [hmtag, if_neg hnot]
      obtain h | ⟨⟨i, hi, hit⟩, -⟩ := s.laneEmptied_tag x t
      · exact h
      · exact absurd hit (hslots i hi)
    · have hkr := erqu.trans hkrqu
      have hmr : m.rqu = { k.rqu with partReset := k.rqu.partReset.map (fun q => { q with
          lanes := q.lanes.setIfInBounds x (.applied (s.lane x).countErased (s.lane x).countClosed)
          removed := q.removed + (s.laneTags x).length }) } := by
        rw [hm]
        rfl
      have hlen : (s.laneTags x).length = (List.range 64).countP ofLane := by
        rw [State.laneTags_eq, ← List.countP_eq_length_filter]
        rfl
      unfold Rqu.sameButTags at hkr
      rw [hmr, hkr, hp, hlen, State.blocksSet_erased hrecord, State.blocksSet_closed hrecord]
      rfl
    · rw [hm]
      exact hrel.armed.trans earmed
    · obtain ⟨k1, k2, k3⟩ := hrel.inputs
      rw [hm]
      exact ⟨k1.trans e1, k2.trans e2, k3.trans e3⟩
  case complete =>
    intro m others
    have hm : m = s.finishPartReset p := State.completeReset_completes hp hall
    have hothers : (s.otherTags p.tag).length = others := by
      rw [State.otherTags_eq, ← List.countP_eq_length_filter]
    clear_value m others
    have hlink := State.finishPartReset_link htag he hidle
    have hrqu := s.finishPartReset_rqu p
    have hrel := s.finishPartReset_released p
    have hmtag := State.finishPartReset_tag htag
    rw [hothers] at hlink
    rw [← hm] at hlink hrqu hrel hmtag
    refine ⟨hrqu, (hmtag _).trans (if_pos rfl), fun u hu => (hmtag u).trans (if_neg hu), by rw [hlink], by rw [hlink], by rw [hlink],
      ⟨hrel.slot, hrel.egress⟩, hrel.armed, hrel.inputs, hrel.lane⟩

end Sys2Proof.Machine
end
